-- ==== Sys2Proof/Word.lean ====
section
/-! DEFINITION. The word types of the BJ7-816 and their plainest arithmetic (00_scope R6, R8). -/

namespace Sys2Proof

/-- A scalar register, an address, a doubleword of memory (Table 2-8). -/
abbrev Word := BitVec 64
/-- One byte of memory or of register space. -/
abbrev Byte := BitVec 8

/-- The low `n` bytes of `v`, least significant first (R6: little-endian). -/
def leBytes : Nat → Nat → List Byte
  | 0, _ => []
  | n + 1, v => BitVec.ofNat 8 v :: leBytes n (v / 256)

/-- The number whose little-endian bytes are `bs` (R6). -/
def leNat : List Byte → Nat
  | [] => 0
  | b :: bs => b.toNat + 256 * leNat bs

/-- Bits `lo` to `lo + n - 1` of the number `w` (R6: `x[hi:lo]`). -/
def bits (w lo n : Nat) : Nat := w / 2 ^ lo % 2 ^ n

/-- `sext(x, n)` of an `m`-bit value held in a Nat, as an integer (R8). -/
def sextInt (m x : Nat) : Int := (BitVec.ofNat m x).toInt

end Sys2Proof
end

