-- ==== Sys2Proof/Syntax.lean ====
section
/-! DEFINITION. The instructions and the events of the part: one constructor of `Instr` for each row of the table of
operations and events (opcode_table.json). 238 of them are instructions and carry the fields of their encodings
(02_instruction_words, and each owning chapter); 53 are the steps that the part makes without an instruction
(95_what_each_step_holds) and carry what distinguishes one such step from another. `Instr.isEvent` says which is which.
The order of the constructors means nothing. -/

namespace Sys2Proof

abbrev SReg := BitVec 6
abbrev PReg := BitVec 4
abbrev BReg := BitVec 3
abbrev KReg := BitVec 3
abbrev VReg := BitVec 9
abbrev WReg := BitVec 3
abbrev VbmReg := BitVec 2
abbrev PbReg := BitVec 4

/-- The three companion cores of a core (R4). -/
inductive Role | loader | sequencer | storer
  deriving DecidableEq, Repr

/-- The nine memory-model scopes (R22, Table 20-1). -/
inductive Scope | program | core | cluster | die | package | group | pod | host | system
  deriving DecidableEq, Repr

/-- The element types of Table 2-4. -/
inductive ElemType | i8 | i16 | i32 | ui8 | ui16 | ui32 | f16 | bf16 | f32 | e4m3 | e5m2
  deriving DecidableEq, Repr

/-- The rounding modes of the prefix field (R28, R188). -/
inductive Rnd | rne | rtz | rup | rdn | rna | stoch
  deriving DecidableEq, Repr

/-- A prefix word (Table 2-6). `none` and `false` are the unset fields; a policy is `true` for zero and `false` for
undisturbed. -/
structure Prefix where
  rnd  : Option Rnd
  sat  : Bool
  mask : Option KReg
  tail : Option Bool
  mpol : Option Bool
  deriving DecidableEq, Repr

/-- The width operand of `sext` and `zext` (R53). -/
inductive ExtWidth | w8 | w16 | w32
  deriving DecidableEq, Repr

/-- Element width: e8, e16 or e32 (R156). -/
inductive EWidth | e8 | e16 | e32
  deriving DecidableEq, Repr, Inhabited

/-- The b operand of `cnt.add` and `cnt.wait` (Table 6-5). -/
inductive CntArg | reg (b : SReg) | imm (n : BitVec 6)
  deriving DecidableEq, Repr

/-- The use suffixes of an atomic (Table 20-6). -/
inductive AmoUse | plain | unp | com | nor | qnt | spc
  deriving DecidableEq, Repr

/-- The operations of `ramo` (Table 16-4). -/
inductive RamoOp | add | or | xor | min | max | swap | cas
  deriving DecidableEq, Repr

/-- The conditions of `vcmp` (R221). -/
inductive VCond | eq | ne | lt | le | gt | ge
  deriving DecidableEq, Repr

/-- The running operations of `vscan` (Table 13-1). -/
inductive ScanOp | sum | max | min
  deriving DecidableEq, Repr

/-- The header fields of an engine command: its token actions (R24) and its class (R25). -/
structure EHdr where
  tok : BitVec 4
  cls : BitVec 4
  deriving DecidableEq, Repr

/-- The command queues of a core (Table 3-5) and the follow-on queue. -/
inductive QueueId
  | loaderVec | loaderPort | loaderAtt | seqVec | seqMat | seqAtt | storerVec | storerPort | storerRemote | followOn
  deriving DecidableEq, Repr

/-- What identifies a collective round in a report (R285), with the context that the report belongs to. -/
structure RoundId where
  ctx   : BitVec 16
  group : BitVec 32
  gen   : BitVec 32
  round : BitVec 32
  deriving DecidableEq, Repr

/-- The producer's answer to a pull request (R143). -/
inductive PullAnswer | data (bytes : List Byte) | reclaimed | faulted
  deriving DecidableEq, Repr

/-- What a pull request for a step of a collective names (R283, log entry 44): the round, the rank that reads and its step, and
whether it reads the send buffer. -/
structure StepPull where
  id   : RoundId
  rank : BitVec 16
  step : Nat
  send : Bool
  deriving DecidableEq, Repr

/-- A pull request as it reaches the producer (R146): the retention slot and sequence it names, the piece, and the
consumer's core and take slot. -/
structure PullReq where
  slot     : BitVec 8
  seq      : BitVec 32
  addr     : Word
  len      : Nat
  last     : Bool
  consumer : BitVec 32
  take     : BitVec 6
  /-- a pull for a step of a collective, of `len` bytes at the offset `addr` (R283) -/
  coll     : Option StepPull := none
  /-- the class of its packet (Table 16-1) -/
  cls      : BitVec 4 := 0
  deriving DecidableEq, Repr

/-- A notice as it reaches a port engine: its context, its record and the class of its packet (R125, Table 16-1). -/
structure Delivery where
  ctx  : BitVec 16
  note : BitVec 256
  cls  : BitVec 4 := 0
  deriving DecidableEq, Repr

/-- The sender of a report of a round: its rank and the step at which it stands (R285). -/
structure Sender where
  rank : BitVec 16
  step : BitVec 16
  deriving DecidableEq, Repr

/-- A start report (R291) and an abort report (R300), with their senders. -/
structure StartReport where
  sender : Sender
  ranks  : List Nat
  deriving DecidableEq, Repr

structure AbortReport where
  sender : Sender
  cause  : BitVec 32
  deriving DecidableEq, Repr

/-- A Krytway packet at a crossing: the header fields of Table 16-1 that decide what the crossing does, and the payload. -/
structure Packet where
  kind    : BitVec 8
  source  : BitVec 12
  die     : BitVec 3
  context : BitVec 16
  core    : BitVec 16
  seq     : BitVec 32
  op      : BitVec 8
  size    : BitVec 8
  cls     : BitVec 4
  tag     : BitVec 2
  addr    : Word
  payload : List Byte
  /-- the first packet that its sender's session has numbered since it restarted: its window here is empty (R264, log entry 91) -/
  fresh   : Bool := false
  deriving DecidableEq, Repr

/-- What the on-die estimators give an accounting tick for a context: its energy (Table 19-2, log entry 63). -/
structure Charge where
  ctx : BitVec 16
  nrg : Nat
  deriving DecidableEq, Repr

/-- One constructor for each row of the table of operations and events. -/
inductive Instr
  -- 32-bit majors 0x01 to 0x0D
  | pfx (p : Prefix)
  | add (d a b : SReg) | sub (d a b : SReg) | mul (d a b : SReg) | mulh (d a b : SReg) | mulhs (d a b : SReg)
  | div (d a b : SReg) | divu (d a b : SReg) | rem (d a b : SReg) | remu (d a b : SReg)
  | and (d a b : SReg) | or (d a b : SReg) | xor (d a b : SReg)
  | shl (d a b : SReg) | shr (d a b : SReg) | sra (d a b : SReg)
  | min (d a b : SReg) | max (d a b : SReg) | minu (d a b : SReg) | maxu (d a b : SReg)
  | clz (d a : SReg) | ctz (d a : SReg) | popc (d a : SReg) | mov (d a : SReg)
  | sext (d a : SReg) (w : ExtWidth) | zext (d a : SReg) (w : ExtWidth)
  | addi (d a : SReg) (imm : BitVec 9) | andi (d a : SReg) (imm : BitVec 9)
  | ori (d a : SReg) (imm : BitVec 9) | xori (d a : SReg) (imm : BitVec 9)
  | shli (d a : SReg) (sh : BitVec 6) | shri (d a : SReg) (sh : BitVec 6) | srai (d a : SReg) (sh : BitVec 6)
  | bfx (d a : SReg) (pos widthM1 : BitVec 6) | bfi (d a : SReg) (pos widthM1 : BitVec 6)
  | movi (d : SReg) (imm : BitVec 18) | movh (d : SReg) (imm : BitVec 18)
  | lea (d : SReg) (sel : BitVec 2) (off : BitVec 16)
  | cmpEq (d : PReg) (a b : SReg) | cmpNe (d : PReg) (a b : SReg) | cmpLt (d : PReg) (a b : SReg)
  | cmpLe (d : PReg) (a b : SReg) | cmpLtu (d : PReg) (a b : SReg) | cmpLeu (d : PReg) (a b : SReg)
  | pand (d a b : PReg) | por (d a b : PReg) | pxor (d a b : PReg) | pnot (d a : PReg)
  | sel (d : SReg) (a : PReg) (b : SReg)
  | ptb (d : BReg) (imm : BitVec 18) | ptbr (d : BReg) (a : SReg)
  | br (a : BReg) (p : PReg) | brN (a : BReg) (p : PReg) | brl (a : BReg) (p : PReg) | ret (p : PReg)
  | tok (act : BitVec 4)
  -- 32-bit memory forms and the majors above them
  | ldB (d a : SReg) (imm : BitVec 9) | ldH (d a : SReg) (imm : BitVec 9) | ldW (d a : SReg) (imm : BitVec 9)
  | ldD (d a : SReg) (imm : BitVec 9) | lduB (d a : SReg) (imm : BitVec 9) | lduH (d a : SReg) (imm : BitVec 9)
  | lduW (d a : SReg) (imm : BitVec 9)
  | stB (v a : SReg) (imm : BitVec 9) | stH (v a : SReg) (imm : BitVec 9) | stW (v a : SReg) (imm : BitVec 9)
  | stD (v a : SReg) (imm : BitVec 9)
  | rmap (d a b : SReg) | rinv (d a b : SReg) | rprobe (d a : SReg)
  | kvFind (d a b : SReg) | kvMap (d a : SReg) | kvAlias (d a b : SReg) | kvUnmap (d a b : SReg)
  | kvRef (d a b : SReg) | kvPos (d a : SReg) | kvApp (d : PReg) (a : SReg) | kvCommit (d a b : SReg)
  | kvLen (d a : SReg)
  | cntAdd (a : SReg) (v : CntArg) (sc : Option Scope) | cntWait (a : SReg) (v : CntArg) (sc : Option Scope)
  | cntArm (d a : SReg) | cntRd (d a : SReg) (sc : Option Scope)
  | tagWaitAny (d a : SReg) | tagWaitAll (d a : SReg) | tagFfr (d a : SReg) | tagClr (a : SReg)
  | bar (d a : SReg) | barWait (a : SReg)
  | fence (mask : BitVec 16) (sc : Scope) | fenceX (mask : BitVec 16) (sc : Scope)
  | decl (d a : SReg) | ntake (d a : SReg) | nfree (d a : SReg) | rret (d a b : SReg) | rrel (d a b : SReg)
  | psched (d a : SReg)
  | setvl (d a : SReg) (w : EWidth) (g : BitVec 2) | setvli (d : SReg) (n : BitVec 6) (w : EWidth) (g : BitVec 2)
  | vcfg (d a b : SReg) | wset (w : WReg) (a : SReg) | wget (d : SReg) (w : WReg)
  | vmvSx (v : VReg) (s : SReg) | vmvXs (s : SReg) (v : VReg) | kpop (s : SReg) (k : KReg) | kffs (s : SReg) (k : KReg)
  | vbmClr (n : VbmReg) | vbmRd (s : SReg) (n : VbmReg)
  | job (d a : SReg) | deal (d : SReg) | gbind (d a : SReg) | grebind (d a b : SReg) | fire (d a b : SReg)
  | fireWait (a b : SReg) | gstat (d a b : SReg)
  | fmtPush (a : SReg)
  | coll (d a : SReg) | cwait (d a : SReg) | cstat (d a b : SReg)
  | bcls (d : SReg) | bwait (n : BitVec 2) | bstat (d a b : SReg) | path (d a b : SReg)
  | trap (a : SReg) | sysr (d : SReg) (n : BitVec 6) | sysw (n : BitVec 6) (a : SReg) | replay (d a : SReg)
  | disc (d a b : SReg) | wfi (a : SReg) | brk (n : BitVec 6)
  -- 64-bit majors 0x01 to 0x03
  | ldBS (c : BitVec 4) (d a b : SReg) (imm : BitVec 17) | ldHS (c : BitVec 4) (d a b : SReg) (imm : BitVec 17)
  | ldWS (c : BitVec 4) (d a b : SReg) (imm : BitVec 17) | ldDS (c : BitVec 4) (d a b : SReg) (imm : BitVec 17)
  | lduBS (c : BitVec 4) (d a b : SReg) (imm : BitVec 17) | lduHS (c : BitVec 4) (d a b : SReg) (imm : BitVec 17)
  | lduWS (c : BitVec 4) (d a b : SReg) (imm : BitVec 17)
  | stBS (c : BitVec 4) (v a b : SReg) (imm : BitVec 17) | stHS (c : BitVec 4) (v a b : SReg) (imm : BitVec 17)
  | stWS (c : BitVec 4) (v a b : SReg) (imm : BitVec 17) | stDS (c : BitVec 4) (v a b : SReg) (imm : BitVec 17)
  | ldAcq (sc : Scope) (c : BitVec 4) (d a b : SReg) (imm : BitVec 17)
  | stRel (sc : Scope) (c : BitVec 4) (v a b : SReg) (imm : BitVec 17)
  | amoAdd (u : AmoUse) (sc : Scope) (c : BitVec 4) (d a b : SReg) (imm : BitVec 17)
  | amoOr (u : AmoUse) (sc : Scope) (c : BitVec 4) (d a b : SReg) (imm : BitVec 17)
  | amoXor (u : AmoUse) (sc : Scope) (c : BitVec 4) (d a b : SReg) (imm : BitVec 17)
  | amoMin (u : AmoUse) (sc : Scope) (c : BitVec 4) (d a b : SReg) (imm : BitVec 17)
  | amoMax (u : AmoUse) (sc : Scope) (c : BitVec 4) (d a b : SReg) (imm : BitVec 17)
  | amoSwap (u : AmoUse) (sc : Scope) (c : BitVec 4) (d a b : SReg) (imm : BitVec 17)
  | amoCas (u : AmoUse) (sc : Scope) (c : BitVec 4) (d a b : SReg) (imm : BitVec 17)
  | amoLd (u : AmoUse) (sc : Scope) (c : BitVec 4) (d a : SReg) (imm : BitVec 17)
  -- 64-bit major 0x04, format M64
  | vld (h : EHdr) (t : ElemType) (v : VReg) (sa : SReg) | vlds (h : EHdr) (t : ElemType) (v : VReg) (sa sb : SReg)
  | vldx (h : EHdr) (t : ElemType) (v : VReg) (sa : SReg) (x : VReg) (bm : Option VbmReg)
  | vldff (h : EHdr) (t : ElemType) (v : VReg) (sa : SReg) (n : VbmReg)
  | vst (h : EHdr) (t : ElemType) (v : VReg) (sa : SReg) | vsts (h : EHdr) (t : ElemType) (v : VReg) (sa sb : SReg)
  | vstx (h : EHdr) (t : ElemType) (v : VReg) (sa : SReg) (x : VReg) (bm : Option VbmReg)
  -- 64-bit major 0x05, format V64
  | vadd (h : EHdr) (t : ElemType) (d a b : VReg) | vsub (h : EHdr) (t : ElemType) (d a b : VReg)
  | vmul (h : EHdr) (t : ElemType) (d a b : VReg) | vfma (h : EHdr) (t : ElemType) (d a b : VReg)
  | vfms (h : EHdr) (t : ElemType) (d a b : VReg) | vfnma (h : EHdr) (t : ElemType) (d a b : VReg)
  | vmin (h : EHdr) (t : ElemType) (d a b : VReg) | vmax (h : EHdr) (t : ElemType) (d a b : VReg)
  | vabs (h : EHdr) (t : ElemType) (d a : VReg) | vneg (h : EHdr) (t : ElemType) (d a : VReg)
  | vdiv (h : EHdr) (t : ElemType) (d a b : VReg)
  | vsqrt (h : EHdr) (t : ElemType) (d a : VReg) | vrsqrt (h : EHdr) (t : ElemType) (d a : VReg)
  | vrcp (h : EHdr) (t : ElemType) (d a : VReg) | vexp2 (h : EHdr) (t : ElemType) (d a : VReg)
  | vlog2 (h : EHdr) (t : ElemType) (d a : VReg)
  | vcvt (h : EHdr) (t u : ElemType) (d a : VReg)
  | vand (h : EHdr) (t : ElemType) (d a b : VReg) | vor (h : EHdr) (t : ElemType) (d a b : VReg)
  | vxor (h : EHdr) (t : ElemType) (d a b : VReg) | vnot (h : EHdr) (t : ElemType) (d a : VReg)
  | vshl (h : EHdr) (t : ElemType) (d a b : VReg) | vshr (h : EHdr) (t : ElemType) (d a b : VReg)
  | vsra (h : EHdr) (t : ElemType) (d a b : VReg)
  | vcmp (h : EHdr) (cc : VCond) (t : ElemType) (d : KReg) (a b : VReg)
  | vsel (h : EHdr) (t : ElemType) (d a b : VReg) (k : KReg)
  | vredsum (h : EHdr) (t : ElemType) (d a b : VReg) | vredmax (h : EHdr) (t : ElemType) (d a b : VReg)
  | vredmin (h : EHdr) (t : ElemType) (d a b : VReg)
  | vscan (h : EHdr) (op : ScanOp) (t : ElemType) (d a : VReg)
  | vperm (h : EHdr) (t : ElemType) (d a b : VReg)
  | vslideup (h : EHdr) (t : ElemType) (d a : VReg) (n : BitVec 15)
  | vslidedn (h : EHdr) (t : ElemType) (d a : VReg) (n : BitVec 15)
  | vbcast (h : EHdr) (t : ElemType) (d a : VReg) (j : BitVec 12)
  | vcomp (h : EHdr) (t : ElemType) (d a : VReg) (k : KReg)
  | viota (h : EHdr) (t : ElemType) (d : VReg) (k : KReg)
  | vrot (h : EHdr) (t : ElemType) (d a b : VReg)
  | vdot (h : EHdr) (t u : ElemType) (d a b : VReg)
  | vseed (h : EHdr) (a : VReg)
  -- 64-bit major 0x06
  | vmv (h : EHdr) (t : ElemType) (d a : VReg)
  | kand (h : EHdr) (d a b : KReg) | kor (h : EHdr) (d a b : KReg) | kxor (h : EHdr) (d a b : KReg)
  | knot (h : EHdr) (d a : KReg)
  -- 64-bit majors 0x07 to 0x09
  | tmov (h : EHdr) (a b c : SReg) (tag : BitVec 6) | tmovFp (h : EHdr) (a b c d : SReg) (tag : BitVec 6)
  | tfill (h : EHdr) (a b c : SReg) (tag : BitVec 6) | tcmp (h : EHdr) (a b c d : SReg) (tag : BitVec 6)
  | pull (h : EHdr) (d a : SReg) (tag : BitVec 6) | pullF (h : EHdr) (d a b c : SReg) (tag : BitVec 6)
  | pub (h : EHdr) (a b c : SReg) | pubMc (h : EHdr) (a b c d : SReg)
  -- 64-bit major 0x0A
  | mcode (h : EHdr) (va : WReg) | mload (h : EHdr) (m : BitVec 3) (va : WReg) | mloadVq (h : EHdr) (m : BitVec 3) (va : WReg)
  | mmma (h : EHdr) (cost : BitVec 4) (vd va : WReg) (m : BitVec 3) (cnt : BitVec 2) (lay : Bool)
  | mmmaSp (h : EHdr) (cost : BitVec 4) (vd va : WReg) (m : BitVec 3) (cnt : BitVec 2) (lay : Bool)
  | mcomp (h : EHdr) (vd va : WReg) | outl (h : EHdr) (va : WReg)
  | azero (h : EHdr) (vd : WReg) (e : BitVec 16) | aexp (h : EHdr) (vd : WReg) (s : SReg) | anorm (h : EHdr) (vd : WReg)
  | mout (h : EHdr) (vd va : WReg) (nantrap : Bool) | moutRet (h : EHdr) (vd va : WReg) (nantrap : Bool)
  -- 64-bit majors 0x0B and 0x0C
  | attQ (h : EHdr) (va : WReg) (b c d : SReg) (pb : PbReg) | attQF (h : EHdr) (va : WReg)
  | attKv (h : EHdr) (a b : SReg) (pb : PbReg) (st : Bool) | attRun (h : EHdr) (st : Bool)
  | attOut (h : EHdr) (vd : WReg) | attMerge (h : EHdr) (vd va : WReg) | attPlan (h : EHdr) (a : SReg)
  | rst (h : EHdr) (a b c : SReg) (size : BitVec 3) | rstMc (h : EHdr) (a b c : SReg) (size : BitVec 3)
  | rld (h : EHdr) (d a c : SReg) (size : BitVec 3) | ramo (h : EHdr) (op : RamoOp) (d a b c : SReg) (size : BitVec 3)
  -- the events (95_what_each_step_holds) that the part's own order chooses
  | engineCommandExecute (q : QueueId) | engineCommandRetire (q : QueueId) | trapEntry (r : Role) | timer (r : Role)
  | pullRequestRelease (take : BitVec 6) | retentionExpiry (slot : BitVec 8)
  | taskStart (core : BitVec 10) | graphEntryStart (core : BitVec 10) | taskFinish (core : BitVec 10)
  | jobComplete (ctx : BitVec 16) (slot : BitVec 6) | rebindDrainComplete (slot : BitVec 2)
  -- what has no field
  | nop | halt | nwait | taskEnd | eret
  | noticeRetry | combineEntryTimeout | qntDeferExpiry | sliceBoundary | bucketRefill | powerThrottle | thermalTrip | reset
  | faultClear
  -- the other events
  | noticeDelivery (n : Delivery) | noticeWithdrawal (core node : BitVec 16) (seq : BitVec 32)
  | pullRequestServe (req : PullReq) | pullLanding (take : BitVec 6) (ans : PullAnswer)
  | retentionDecrement (slot : BitVec 8) (seq : BitVec 32)
  | krytwayPacketReceive (p : Packet) | ackTimeout (node : BitVec 12) | nodeDead (node : BitVec 12)
  | summaryRequest (node : BitVec 12) (core : BitVec 10) (tag : BitVec 2)
  | summaryReply (tag : BitVec 2) (node : BitVec 12) (failed : Bool)
  | collReadyReport (id : RoundId) (sender : Sender) | collDeadline (ctx : BitVec 16) (slot : BitVec 3)
  | collStartReport (id : RoundId) (report : StartReport)
  | collStep (ctx : BitVec 16) (slot : BitVec 3) (ans : PullAnswer)
  | collStepReport (id : RoundId) (rank : BitVec 16) (step : Nat) | collRoundComplete (ctx : BitVec 16) (slot : BitVec 3)
  | collAbortReport (id : RoundId) (report : AbortReport) | collWaitTimeout (ctx : BitVec 16) (slot : BitVec 3)
  | coordinatorStartReportExpiry (id : RoundId)
  | accountingTick (meter : List Charge)
  | clusterPreempt (cluster : BitVec 7) | contextSaveComplete (cluster : BitVec 7)
  | contextRestore (die : BitVec 3) (unit : BitVec 4)
  | hbmScrub (unit : Nat) | linkLaneLoss (port : BitVec 5) (down : Bool)
  | ctxcmdCreate (ctx : BitVec 16) | ctxcmdDestroy (ctx : BitVec 16) | ctxcmdInvalidOp (op : BitVec 4)
  | launch (ctx : BitVec 16) | cancel (ctx : BitVec 16) (handle : BitVec 32) | plimitWrite (v : Word)
  | hostRegisterWrite (off : BitVec 22) (v : Word) | eccError (unit : Nat) (fatal : Bool)
  deriving DecidableEq, Repr

end Sys2Proof
end

