-- ==== Sys2Proof/WellFormed.lean ====
section
/-! DEFINITION. Which terms of `Instr` have an encoding: the limits on fields that the encoding rules set and the types
of `Syntax` do not (R24, R40, R201, R268, R346, R349). The operand checks of step 10 of Table 2-7 are no part of it: a
word that fails one decodes, and its meaning raises the trap. -/

namespace Sys2Proof

/-- The steps of the part that are no instruction (95_what_each_step_holds). -/
def Instr.isEvent : Instr → Bool
  | .engineCommandExecute _ | .engineCommandRetire _ | .trapEntry _ | .timer _ | .noticeDelivery _ | .noticeRetry
  | .noticeWithdrawal _ _ _ | .pullRequestRelease _ | .pullRequestServe _ | .pullLanding _ _
  | .retentionDecrement _ _ | .retentionExpiry _ | .combineEntryTimeout | .krytwayPacketReceive _ | .ackTimeout _
  | .nodeDead _ | .summaryRequest _ _ _ | .summaryReply _ _ _ | .qntDeferExpiry | .collReadyReport _ _
  | .collDeadline _ _ | .collStartReport _ _ | .collStep _ _ _ | .collStepReport _ _ _ | .collRoundComplete _ _
  | .collAbortReport _ _ | .collWaitTimeout _ _ | .taskStart _ | .graphEntryStart _ | .taskFinish _ | .jobComplete _ _
  | .rebindDrainComplete _ | .sliceBoundary | .accountingTick _ | .bucketRefill | .clusterPreempt _
  | .contextSaveComplete _ | .contextRestore _ _ | .hbmScrub _ | .powerThrottle | .thermalTrip | .linkLaneLoss _ _
  | .reset | .ctxcmdCreate _ | .ctxcmdDestroy _ | .ctxcmdInvalidOp _ | .launch _ | .cancel _ _ | .faultClear
  | .plimitWrite _ | .hostRegisterWrite _ _ | .eccError _ _ | .coordinatorStartReportExpiry _ => true
  | _ => false

/-- The uses that an atomic other than `ld` may carry, by its dst field (R40, R349). -/
def AmoUse.legal (u : AmoUse) (combines : Bool) (d : SReg) : Bool :=
  match u with
  | .plain | .unp | .nor => true
  | .com | .qnt => combines && d == 0
  | .spc => false

/-- The sizes that `ramo` takes: 4 B and 8 B (Table 16-5). -/
def ramoSize (n : BitVec 3) : Bool := n == 2 || n == 3

/-- `i` has an encoding. -/
def Instr.WellFormed (i : Instr) : Bool :=
  match i with
  | .tok act => act != 0
  | .fence m _ | .fenceX m _ => m != 0
  | .amoAdd u _ _ d _ _ _ | .amoOr u _ _ d _ _ _ | .amoXor u _ _ d _ _ _ | .amoMin u _ _ d _ _ _
  | .amoMax u _ _ d _ _ _ => u.legal true d
  | .amoSwap u _ _ d _ _ _ | .amoCas u _ _ d _ _ _ => u.legal false d
  | .amoLd u _ _ _ _ _ => u != .com && u != .qnt
  | .mmma _ c _ _ _ _ _ | .mmmaSp _ c _ _ _ _ _ => c != 0
  | .rst _ _ _ _ n | .rstMc _ _ _ _ n => n != 7
  | .rld _ _ _ _ n => n.toNat ≤ 3
  | .ramo _ _ _ _ _ _ n => ramoSize n
  | i => !i.isEvent

end Sys2Proof
end

