-- ==== Sys2Proof/Decode.lean ====
section
/-! DEFINITION. The decoder (Tables 2-1 to 2-7, steps 3, 5 and 6) and, after it, the encoder written from the same
tables. Words are natural numbers: bit 0 is the least significant bit of the first word, and the second word of a pair
is bits 63 to 32 (R16, R19). -/

namespace Sys2Proof

/-- Why bytes are no instruction (Table 2-7, steps 3, 5 and 6). -/
inductive DecodeError
  | truncated | reservedLength | fixedBits | reservedMajor | unassignedMinor | reservedField
  deriving DecidableEq, Repr

/-- An instruction as read: its landing mark (R17), the instruction and its bytes. -/
structure Decoded where
  landing : Bool
  instr   : Instr
  size    : Nat
  deriving DecidableEq, Repr

/-- `x` where the field check `c` holds, and a reserved-field refusal elsewhere (R10, R21). -/
def need (c : Bool) (x : Except DecodeError Instr) : Except DecodeError Instr :=
  if c then x else .error .reservedField

/-- Format A32: dst [13:8], a [19:14], b [25:20] (Table 2-2). -/
def fd (w : Nat) : SReg := BitVec.ofNat 6 (w / 2 ^ 8)
@[inherit_doc fd] def fa (w : Nat) : SReg := BitVec.ofNat 6 (w / 2 ^ 14)
@[inherit_doc fd] def fb (w : Nat) : SReg := BitVec.ofNat 6 (w / 2 ^ 20)

/-- Scope codes (R22). -/
def Scope.ofCode (n : Nat) : Option Scope :=
  match n with
  | 1 => some .program | 2 => some .core | 3 => some .cluster | 4 => some .die | 5 => some .package
  | 6 => some .group | 7 => some .pod | 8 => some .host | 9 => some .system | _ => none

/-- Element type codes (Table 2-4). -/
def ElemType.ofCode (n : Nat) : Option ElemType :=
  match n with
  | 0 => some .i8 | 1 => some .i16 | 2 => some .i32 | 3 => some .ui8 | 4 => some .ui16 | 5 => some .ui32
  | 6 => some .f16 | 7 => some .bf16 | 8 => some .f32 | 9 => some .e4m3 | 10 => some .e5m2 | _ => none

/-- Width codes of a configuration code (R156). -/
def EWidth.ofCode (n : Nat) : Option EWidth :=
  match n with
  | 0 => some .e8 | 1 => some .e16 | 2 => some .e32 | _ => none

/-- Width codes of `sext` and `zext` (R53). -/
def ExtWidth.ofCode (n : Nat) : Option ExtWidth :=
  match n with
  | 0 => some .w8 | 1 => some .w16 | 2 => some .w32 | _ => none

/-- Use codes of an atomic (R40). -/
def AmoUse.ofCode (n : Nat) : Option AmoUse :=
  match n with
  | 0 => some .plain | 1 => some .unp | 2 => some .com | 3 => some .nor | 4 => some .qnt | 5 => some .spc | _ => none

/-- Operation codes of `ramo` (Table 16-4). -/
def RamoOp.ofCode (n : Nat) : Option RamoOp :=
  match n with
  | 0 => some .add | 1 => some .or | 2 => some .xor | 3 => some .min | 4 => some .max | 5 => some .swap
  | 6 => some .cas | _ => none

/-- Condition codes of `vcmp` (R221). -/
def VCond.ofCode (n : Nat) : Option VCond :=
  match n with
  | 0 => some .eq | 1 => some .ne | 2 => some .lt | 3 => some .le | 4 => some .gt | 5 => some .ge | _ => none

/-- Operation codes of `vscan` (Table 13-1). -/
def ScanOp.ofCode (n : Nat) : Option ScanOp :=
  match n with
  | 0 => some .sum | 1 => some .max | 2 => some .min | _ => none

/-- A code that names nothing is a nonzero reserved field (R10). -/
def named {α : Type} (o : Option α) (k : α → Except DecodeError Instr) : Except DecodeError Instr :=
  match o with
  | some x => k x
  | none => .error .reservedField

/-- A code field in which 0 means "the default" (Table 6-5). -/
def scopeOr0 (n : Nat) (k : Option Scope → Except DecodeError Instr) : Except DecodeError Instr :=
  if n = 0 then k none else named (Scope.ofCode n) fun s => k (some s)

/-- The prefix word (Table 2-6). -/
def decodePrefix (w : Nat) : Except DecodeError Instr :=
  let rnd : Option (Option Rnd) :=
    match bits w 8 3 with
    | 0 => some none | 1 => some (some .rne) | 2 => some (some .rtz) | 3 => some (some .rup) | 4 => some (some .rdn)
    | 5 => some (some .rna) | 6 => some (some .stoch) | _ => none
  let pol (n : Nat) : Option (Option Bool) :=
    match n with
    | 0 => some none | 1 => some (some false) | 2 => some (some true) | _ => none
  need (bits w 20 12 == 0 && bits w 3 5 == 0) <|
  need (bits w 12 1 == 1 || bits w 13 3 == 0) <|
  named rnd fun r => named (pol (bits w 16 2)) fun t => named (pol (bits w 18 2)) fun m =>
    .ok (.pfx { rnd := r, sat := bits w 11 1 == 1,
                mask := if bits w 12 1 == 1 then some (BitVec.ofNat 3 (w / 2 ^ 13)) else none, tail := t, mpol := m })

/-- The 32-bit instructions (Table 2-10 and each owning chapter). -/
def decode32 (w : Nat) : Except DecodeError Instr :=
  match bits w 3 5 with
  | 1 => match bits w 26 6 with
    | 0 => need (bits w 14 6 == 0 && bits w 20 6 == 0 && bits w 8 6 == 0) <| .ok (.nop)
    | _ => .error .unassignedMinor
  | 2 => match bits w 26 6 with
    | 0 => .ok (.add (fd w) (fa w) (fb w))
    | 1 => .ok (.sub (fd w) (fa w) (fb w))
    | 2 => .ok (.mul (fd w) (fa w) (fb w))
    | 3 => .ok (.mulh (fd w) (fa w) (fb w))
    | 4 => .ok (.mulhs (fd w) (fa w) (fb w))
    | 5 => .ok (.div (fd w) (fa w) (fb w))
    | 6 => .ok (.divu (fd w) (fa w) (fb w))
    | 7 => .ok (.rem (fd w) (fa w) (fb w))
    | 8 => .ok (.remu (fd w) (fa w) (fb w))
    | 9 => .ok (.and (fd w) (fa w) (fb w))
    | 10 => .ok (.or (fd w) (fa w) (fb w))
    | 11 => .ok (.xor (fd w) (fa w) (fb w))
    | 12 => .ok (.shl (fd w) (fa w) (fb w))
    | 13 => .ok (.shr (fd w) (fa w) (fb w))
    | 14 => .ok (.sra (fd w) (fa w) (fb w))
    | 15 => .ok (.min (fd w) (fa w) (fb w))
    | 16 => .ok (.max (fd w) (fa w) (fb w))
    | 17 => .ok (.minu (fd w) (fa w) (fb w))
    | 18 => .ok (.maxu (fd w) (fa w) (fb w))
    | 19 => need (bits w 20 6 == 0) <| .ok (.clz (fd w) (fa w))
    | 20 => need (bits w 20 6 == 0) <| .ok (.ctz (fd w) (fa w))
    | 21 => need (bits w 20 6 == 0) <| .ok (.popc (fd w) (fa w))
    | 22 => need (bits w 20 6 == 0) <| .ok (.mov (fd w) (fa w))
    | 23 => named (ExtWidth.ofCode (bits w 20 6)) fun x => .ok (.sext (fd w) (fa w) x)
    | 24 => named (ExtWidth.ofCode (bits w 20 6)) fun x => .ok (.zext (fd w) (fa w) x)
    | _ => .error .unassignedMinor
  | 3 => match bits w 20 3 with
    | 0 => .ok (.addi (fd w) (fa w) (BitVec.ofNat 9 (w / 2 ^ 23)))
    | 1 => .ok (.andi (fd w) (fa w) (BitVec.ofNat 9 (w / 2 ^ 23)))
    | 2 => .ok (.ori (fd w) (fa w) (BitVec.ofNat 9 (w / 2 ^ 23)))
    | 3 => .ok (.xori (fd w) (fa w) (BitVec.ofNat 9 (w / 2 ^ 23)))
    | 4 => need (bits w 29 3 == 0) <| .ok (.shli (fd w) (fa w) (BitVec.ofNat 6 (w / 2 ^ 23)))
    | 5 => need (bits w 29 3 == 0) <| .ok (.shri (fd w) (fa w) (BitVec.ofNat 6 (w / 2 ^ 23)))
    | 6 => need (bits w 29 3 == 0) <| .ok (.srai (fd w) (fa w) (BitVec.ofNat 6 (w / 2 ^ 23)))
    | _ => .error .unassignedMinor
  | 4 => .ok (.bfx (fd w) (fa w) (fb w) (BitVec.ofNat 6 (w / 2 ^ 26)))
  | 5 => .ok (.bfi (fd w) (fa w) (fb w) (BitVec.ofNat 6 (w / 2 ^ 26)))
  | 6 => .ok (.movi (fd w) (BitVec.ofNat 18 (w / 2 ^ 14)))
  | 7 => .ok (.movh (fd w) (BitVec.ofNat 18 (w / 2 ^ 14)))
  | 8 => .ok (.lea (fd w) (BitVec.ofNat 2 (w / 2 ^ 30)) (BitVec.ofNat 16 (w / 2 ^ 14)))
  | 9 => match bits w 26 6 with
    | 0 => need (bits w 12 2 == 0) <| .ok (.cmpEq (BitVec.ofNat 4 (w / 2 ^ 8)) (fa w) (fb w))
    | 1 => need (bits w 12 2 == 0) <| .ok (.cmpNe (BitVec.ofNat 4 (w / 2 ^ 8)) (fa w) (fb w))
    | 2 => need (bits w 12 2 == 0) <| .ok (.cmpLt (BitVec.ofNat 4 (w / 2 ^ 8)) (fa w) (fb w))
    | 3 => need (bits w 12 2 == 0) <| .ok (.cmpLe (BitVec.ofNat 4 (w / 2 ^ 8)) (fa w) (fb w))
    | 4 => need (bits w 12 2 == 0) <| .ok (.cmpLtu (BitVec.ofNat 4 (w / 2 ^ 8)) (fa w) (fb w))
    | 5 => need (bits w 12 2 == 0) <| .ok (.cmpLeu (BitVec.ofNat 4 (w / 2 ^ 8)) (fa w) (fb w))
    | _ => .error .unassignedMinor
  | 10 => match bits w 26 6 with
    | 0 => need (bits w 12 2 == 0 && bits w 18 2 == 0 && bits w 24 2 == 0) <| .ok (.pand (BitVec.ofNat 4 (w / 2 ^ 8)) (BitVec.ofNat 4 (w / 2 ^ 14)) (BitVec.ofNat 4 (w / 2 ^ 20)))
    | 1 => need (bits w 12 2 == 0 && bits w 18 2 == 0 && bits w 24 2 == 0) <| .ok (.por (BitVec.ofNat 4 (w / 2 ^ 8)) (BitVec.ofNat 4 (w / 2 ^ 14)) (BitVec.ofNat 4 (w / 2 ^ 20)))
    | 2 => need (bits w 12 2 == 0 && bits w 18 2 == 0 && bits w 24 2 == 0) <| .ok (.pxor (BitVec.ofNat 4 (w / 2 ^ 8)) (BitVec.ofNat 4 (w / 2 ^ 14)) (BitVec.ofNat 4 (w / 2 ^ 20)))
    | 3 => need (bits w 12 2 == 0 && bits w 18 2 == 0 && bits w 20 6 == 0) <| .ok (.pnot (BitVec.ofNat 4 (w / 2 ^ 8)) (BitVec.ofNat 4 (w / 2 ^ 14)))
    | 4 => need (bits w 18 2 == 0) <| .ok (.sel (fd w) (BitVec.ofNat 4 (w / 2 ^ 14)) (fb w))
    | _ => .error .unassignedMinor
  | 11 => need (bits w 11 3 == 0) <| .ok (.ptb (BitVec.ofNat 3 (w / 2 ^ 8)) (BitVec.ofNat 18 (w / 2 ^ 14)))
  | 12 => match bits w 26 6 with
    | 0 => need (bits w 11 3 == 0 && bits w 20 6 == 0) <| .ok (.ptbr (BitVec.ofNat 3 (w / 2 ^ 8)) (fa w))
    | 1 => need (bits w 8 6 == 0 && bits w 17 3 == 0 && bits w 24 2 == 0) <| .ok (.br (BitVec.ofNat 3 (w / 2 ^ 14)) (BitVec.ofNat 4 (w / 2 ^ 20)))
    | 2 => need (bits w 8 6 == 0 && bits w 17 3 == 0 && bits w 24 2 == 0) <| .ok (.brN (BitVec.ofNat 3 (w / 2 ^ 14)) (BitVec.ofNat 4 (w / 2 ^ 20)))
    | 3 => need (bits w 8 6 == 0 && bits w 17 3 == 0 && bits w 24 2 == 0) <| .ok (.brl (BitVec.ofNat 3 (w / 2 ^ 14)) (BitVec.ofNat 4 (w / 2 ^ 20)))
    | 4 => need (bits w 8 6 == 0 && bits w 14 6 == 0 && bits w 24 2 == 0) <| .ok (.ret (BitVec.ofNat 4 (w / 2 ^ 20)))
    | 5 => need (bits w 8 6 == 0 && bits w 14 6 == 0 && bits w 20 6 == 0) <| .ok (.halt)
    | _ => .error .unassignedMinor
  | 13 => need (bits w 12 20 == 0 && bits w 8 4 != 0) <| .ok (.tok (BitVec.ofNat 4 (w / 2 ^ 8)))
  | 14 => match bits w 20 3 with
    | 0 => .ok (.ldB (fd w) (fa w) (BitVec.ofNat 9 (w / 2 ^ 23)))
    | 1 => .ok (.ldH (fd w) (fa w) (BitVec.ofNat 9 (w / 2 ^ 23)))
    | 2 => .ok (.ldW (fd w) (fa w) (BitVec.ofNat 9 (w / 2 ^ 23)))
    | 3 => .ok (.ldD (fd w) (fa w) (BitVec.ofNat 9 (w / 2 ^ 23)))
    | 4 => .ok (.lduB (fd w) (fa w) (BitVec.ofNat 9 (w / 2 ^ 23)))
    | 5 => .ok (.lduH (fd w) (fa w) (BitVec.ofNat 9 (w / 2 ^ 23)))
    | 6 => .ok (.lduW (fd w) (fa w) (BitVec.ofNat 9 (w / 2 ^ 23)))
    | _ => .error .unassignedMinor
  | 15 => match bits w 20 3 with
    | 0 => .ok (.stB (fd w) (fa w) (BitVec.ofNat 9 (w / 2 ^ 23)))
    | 1 => .ok (.stH (fd w) (fa w) (BitVec.ofNat 9 (w / 2 ^ 23)))
    | 2 => .ok (.stW (fd w) (fa w) (BitVec.ofNat 9 (w / 2 ^ 23)))
    | 3 => .ok (.stD (fd w) (fa w) (BitVec.ofNat 9 (w / 2 ^ 23)))
    | _ => .error .unassignedMinor
  | 16 => match bits w 26 6 with
    | 0 => .ok (.rmap (fd w) (fa w) (fb w))
    | 1 => .ok (.rinv (fd w) (fa w) (fb w))
    | 2 => need (bits w 20 6 == 0) <| .ok (.rprobe (fd w) (fa w))
    | _ => .error .unassignedMinor
  | 17 => match bits w 26 6 with
    | 0 => .ok (.kvFind (fd w) (fa w) (fb w))
    | 1 => need (bits w 20 6 == 0) <| .ok (.kvMap (fd w) (fa w))
    | 2 => .ok (.kvAlias (fd w) (fa w) (fb w))
    | 3 => .ok (.kvUnmap (fd w) (fa w) (fb w))
    | 4 => .ok (.kvRef (fd w) (fa w) (fb w))
    | 5 => need (bits w 20 6 == 0) <| .ok (.kvPos (fd w) (fa w))
    | 6 => need (bits w 12 2 == 0 && bits w 20 6 == 0) <| .ok (.kvApp (BitVec.ofNat 4 (w / 2 ^ 8)) (fa w))
    | 7 => .ok (.kvCommit (fd w) (fa w) (fb w))
    | 8 => need (bits w 20 6 == 0) <| .ok (.kvLen (fd w) (fa w))
    | _ => .error .unassignedMinor
  | 18 => match bits w 26 6 with
    | 0 => need (bits w 12 1 == 0) <| scopeOr0 (bits w 8 4) fun s => .ok (.cntAdd (fa w) (if bits w 13 1 == 1 then .imm (fb w) else .reg (fb w)) s)
    | 1 => need (bits w 12 1 == 0) <| scopeOr0 (bits w 8 4) fun s => .ok (.cntWait (fa w) (if bits w 13 1 == 1 then .imm (fb w) else .reg (fb w)) s)
    | 2 => need (bits w 20 6 == 0) <| .ok (.cntArm (fd w) (fa w))
    | 3 => need (bits w 24 2 == 0) <| scopeOr0 (bits w 20 4) fun s => .ok (.cntRd (fd w) (fa w) s)
    | _ => .error .unassignedMinor
  | 19 => match bits w 26 6 with
    | 0 => need (bits w 20 6 == 0) <| .ok (.tagWaitAny (fd w) (fa w))
    | 1 => need (bits w 20 6 == 0) <| .ok (.tagWaitAll (fd w) (fa w))
    | 2 => need (bits w 20 6 == 0) <| .ok (.tagFfr (fd w) (fa w))
    | 3 => need (bits w 20 6 == 0 && bits w 8 6 == 0) <| .ok (.tagClr (fa w))
    | 4 => need (bits w 20 6 == 0) <| .ok (.bar (fd w) (fa w))
    | 5 => need (bits w 20 6 == 0 && bits w 8 6 == 0) <| .ok (.barWait (fa w))
    | _ => .error .unassignedMinor
  | 20 => match bits w 12 4 with
    | 0 => need (bits w 16 16 != 0) <| named (Scope.ofCode (bits w 8 4)) fun s => .ok (.fence (BitVec.ofNat 16 (w / 2 ^ 16)) s)
    | 1 => need (bits w 16 16 != 0) <| named (Scope.ofCode (bits w 8 4)) fun s => .ok (.fenceX (BitVec.ofNat 16 (w / 2 ^ 16)) s)
    | _ => .error .unassignedMinor
  | 21 => match bits w 26 6 with
    | 0 => need (bits w 20 6 == 0) <| .ok (.decl (fd w) (fa w))
    | 1 => need (bits w 20 6 == 0) <| .ok (.ntake (fd w) (fa w))
    | 2 => need (bits w 14 6 == 0 && bits w 20 6 == 0 && bits w 8 6 == 0) <| .ok (.nwait)
    | 3 => need (bits w 20 6 == 0) <| .ok (.nfree (fd w) (fa w))
    | 4 => .ok (.rret (fd w) (fa w) (fb w))
    | 5 => .ok (.rrel (fd w) (fa w) (fb w))
    | 6 => need (bits w 20 6 == 0) <| .ok (.psched (fd w) (fa w))
    | _ => .error .unassignedMinor
  | 22 => match bits w 26 6 with
    | 0 => need (bits w 24 2 == 0) <| named (EWidth.ofCode (bits w 20 2)) fun x => .ok (.setvl (fd w) (fa w) x (BitVec.ofNat 2 (w / 2 ^ 22)))
    | 1 => need (bits w 24 2 == 0) <| named (EWidth.ofCode (bits w 20 2)) fun x => .ok (.setvli (fd w) (fa w) x (BitVec.ofNat 2 (w / 2 ^ 22)))
    | 2 => .ok (.vcfg (fd w) (fa w) (fb w))
    | 3 => need (bits w 11 3 == 0 && bits w 20 6 == 0) <| .ok (.wset (BitVec.ofNat 3 (w / 2 ^ 8)) (fa w))
    | 4 => need (bits w 17 3 == 0 && bits w 20 6 == 0) <| .ok (.wget (fd w) (BitVec.ofNat 3 (w / 2 ^ 14)))
    | _ => .error .unassignedMinor
  | 23 => match bits w 26 6 with
    | 0 => need (bits w 23 3 == 0) <| .ok (.vmvSx (BitVec.ofNat 9 (w / 2 ^ 8)) (BitVec.ofNat 6 (w / 2 ^ 17)))
    | 1 => need (bits w 23 3 == 0) <| .ok (.vmvXs (BitVec.ofNat 6 (w / 2 ^ 17)) (BitVec.ofNat 9 (w / 2 ^ 8)))
    | 2 => need (bits w 23 3 == 0 && bits w 11 6 == 0) <| .ok (.kpop (BitVec.ofNat 6 (w / 2 ^ 17)) (BitVec.ofNat 3 (w / 2 ^ 8)))
    | 3 => need (bits w 23 3 == 0 && bits w 11 6 == 0) <| .ok (.kffs (BitVec.ofNat 6 (w / 2 ^ 17)) (BitVec.ofNat 3 (w / 2 ^ 8)))
    | 4 => need (bits w 23 3 == 0 && bits w 10 7 == 0 && bits w 17 6 == 0) <| .ok (.vbmClr (BitVec.ofNat 2 (w / 2 ^ 8)))
    | 5 => need (bits w 23 3 == 0 && bits w 10 7 == 0) <| .ok (.vbmRd (BitVec.ofNat 6 (w / 2 ^ 17)) (BitVec.ofNat 2 (w / 2 ^ 8)))
    | _ => .error .unassignedMinor
  | 24 => match bits w 26 6 with
    | 0 => need (bits w 20 6 == 0) <| .ok (.job (fd w) (fa w))
    | 1 => need (bits w 14 6 == 0 && bits w 20 6 == 0) <| .ok (.deal (fd w))
    | 2 => need (bits w 14 6 == 0 && bits w 20 6 == 0 && bits w 8 6 == 0) <| .ok (.taskEnd)
    | 3 => need (bits w 20 6 == 0) <| .ok (.gbind (fd w) (fa w))
    | 4 => .ok (.grebind (fd w) (fa w) (fb w))
    | 5 => .ok (.fire (fd w) (fa w) (fb w))
    | 6 => need (bits w 8 6 == 0) <| .ok (.fireWait (fa w) (fb w))
    | 7 => .ok (.gstat (fd w) (fa w) (fb w))
    | _ => .error .unassignedMinor
  | 25 => match bits w 26 6 with
    | 0 => need (bits w 20 6 == 0 && bits w 8 6 == 0) <| .ok (.fmtPush (fa w))
    | _ => .error .unassignedMinor
  | 26 => match bits w 26 6 with
    | 0 => need (bits w 20 6 == 0) <| .ok (.coll (fd w) (fa w))
    | 1 => need (bits w 20 6 == 0) <| .ok (.cwait (fd w) (fa w))
    | 2 => .ok (.cstat (fd w) (fa w) (fb w))
    | _ => .error .unassignedMinor
  | 27 => match bits w 26 6 with
    | 0 => need (bits w 14 6 == 0 && bits w 20 6 == 0) <| .ok (.bcls (fd w))
    | 1 => need (bits w 20 6 == 0 && bits w 8 6 == 0 && bits w 16 4 == 0) <| .ok (.bwait (BitVec.ofNat 2 (w / 2 ^ 14)))
    | 2 => .ok (.bstat (fd w) (fa w) (fb w))
    | 3 => .ok (.path (fd w) (fa w) (fb w))
    | _ => .error .unassignedMinor
  | 28 => match bits w 26 6 with
    | 0 => need (bits w 20 6 == 0 && bits w 8 6 == 0) <| .ok (.trap (fa w))
    | 1 => need (bits w 14 6 == 0 && bits w 20 6 == 0 && bits w 8 6 == 0) <| .ok (.eret)
    | 2 => need (bits w 14 6 == 0) <| .ok (.sysr (fd w) (fb w))
    | 3 => need (bits w 8 6 == 0) <| .ok (.sysw (fb w) (fa w))
    | 4 => need (bits w 20 6 == 0) <| .ok (.replay (fd w) (fa w))
    | 5 => .ok (.disc (fd w) (fa w) (fb w))
    | 6 => need (bits w 20 6 == 0 && bits w 8 6 == 0) <| .ok (.wfi (fa w))
    | 7 => need (bits w 14 6 == 0 && bits w 8 6 == 0) <| .ok (.brk (fb w))
    | _ => .error .unassignedMinor
  | _ => .error .reservedMajor

/-- The token action [11:8] and the class [15:12] of an engine command (Table 2-3). -/
def fh (w : Nat) : EHdr := { tok := BitVec.ofNat 4 (w / 2 ^ 8), cls := BitVec.ofNat 4 (w / 2 ^ 12) }
/-- Formats M64 and V64: dst or v [43:35], a or sa, b or sb (Table 2-5). -/
def f64d (w : Nat) : VReg := BitVec.ofNat 9 (w / 2 ^ 35)
@[inherit_doc f64d] def f64a (w : Nat) : VReg := BitVec.ofNat 9 (w / 2 ^ 44)
@[inherit_doc f64d] def f64b (w : Nat) : VReg := BitVec.ofNat 9 (w / 2 ^ 53)
/-- The s register fields of format G64 at [63:58], [57:52], [51:46] and [27:22] (Table 6-2). -/
def ga (w : Nat) : SReg := BitVec.ofNat 6 (w / 2 ^ 58)
@[inherit_doc ga] def gb (w : Nat) : SReg := BitVec.ofNat 6 (w / 2 ^ 52)
@[inherit_doc ga] def gc (w : Nat) : SReg := BitVec.ofNat 6 (w / 2 ^ 46)
@[inherit_doc ga] def gd (w : Nat) : SReg := BitVec.ofNat 6 (w / 2 ^ 22)

/-- Major 0x01, format S64 (R65). -/
def decodeMem (w : Nat) : Except DecodeError Instr :=
  match bits w 16 6 with
  | 0 => need (bits w 8 4 == 0 && bits w 28 4 == 0) <| .ok (.ldBS (BitVec.ofNat 4 (w / 2 ^ 12)) (BitVec.ofNat 6 (w / 2 ^ 22)) (BitVec.ofNat 6 (w / 2 ^ 35)) (BitVec.ofNat 6 (w / 2 ^ 41)) (BitVec.ofNat 17 (w / 2 ^ 47)))
  | 1 => need (bits w 8 4 == 0 && bits w 28 4 == 0) <| .ok (.ldHS (BitVec.ofNat 4 (w / 2 ^ 12)) (BitVec.ofNat 6 (w / 2 ^ 22)) (BitVec.ofNat 6 (w / 2 ^ 35)) (BitVec.ofNat 6 (w / 2 ^ 41)) (BitVec.ofNat 17 (w / 2 ^ 47)))
  | 2 => need (bits w 8 4 == 0 && bits w 28 4 == 0) <| .ok (.ldWS (BitVec.ofNat 4 (w / 2 ^ 12)) (BitVec.ofNat 6 (w / 2 ^ 22)) (BitVec.ofNat 6 (w / 2 ^ 35)) (BitVec.ofNat 6 (w / 2 ^ 41)) (BitVec.ofNat 17 (w / 2 ^ 47)))
  | 3 => need (bits w 8 4 == 0 && bits w 28 4 == 0) <| .ok (.ldDS (BitVec.ofNat 4 (w / 2 ^ 12)) (BitVec.ofNat 6 (w / 2 ^ 22)) (BitVec.ofNat 6 (w / 2 ^ 35)) (BitVec.ofNat 6 (w / 2 ^ 41)) (BitVec.ofNat 17 (w / 2 ^ 47)))
  | 4 => need (bits w 8 4 == 0 && bits w 28 4 == 0) <| .ok (.lduBS (BitVec.ofNat 4 (w / 2 ^ 12)) (BitVec.ofNat 6 (w / 2 ^ 22)) (BitVec.ofNat 6 (w / 2 ^ 35)) (BitVec.ofNat 6 (w / 2 ^ 41)) (BitVec.ofNat 17 (w / 2 ^ 47)))
  | 5 => need (bits w 8 4 == 0 && bits w 28 4 == 0) <| .ok (.lduHS (BitVec.ofNat 4 (w / 2 ^ 12)) (BitVec.ofNat 6 (w / 2 ^ 22)) (BitVec.ofNat 6 (w / 2 ^ 35)) (BitVec.ofNat 6 (w / 2 ^ 41)) (BitVec.ofNat 17 (w / 2 ^ 47)))
  | 6 => need (bits w 8 4 == 0 && bits w 28 4 == 0) <| .ok (.lduWS (BitVec.ofNat 4 (w / 2 ^ 12)) (BitVec.ofNat 6 (w / 2 ^ 22)) (BitVec.ofNat 6 (w / 2 ^ 35)) (BitVec.ofNat 6 (w / 2 ^ 41)) (BitVec.ofNat 17 (w / 2 ^ 47)))
  | 7 => need (bits w 8 4 == 0 && bits w 28 4 == 0) <| .ok (.stBS (BitVec.ofNat 4 (w / 2 ^ 12)) (BitVec.ofNat 6 (w / 2 ^ 22)) (BitVec.ofNat 6 (w / 2 ^ 35)) (BitVec.ofNat 6 (w / 2 ^ 41)) (BitVec.ofNat 17 (w / 2 ^ 47)))
  | 8 => need (bits w 8 4 == 0 && bits w 28 4 == 0) <| .ok (.stHS (BitVec.ofNat 4 (w / 2 ^ 12)) (BitVec.ofNat 6 (w / 2 ^ 22)) (BitVec.ofNat 6 (w / 2 ^ 35)) (BitVec.ofNat 6 (w / 2 ^ 41)) (BitVec.ofNat 17 (w / 2 ^ 47)))
  | 9 => need (bits w 8 4 == 0 && bits w 28 4 == 0) <| .ok (.stWS (BitVec.ofNat 4 (w / 2 ^ 12)) (BitVec.ofNat 6 (w / 2 ^ 22)) (BitVec.ofNat 6 (w / 2 ^ 35)) (BitVec.ofNat 6 (w / 2 ^ 41)) (BitVec.ofNat 17 (w / 2 ^ 47)))
  | 10 => need (bits w 8 4 == 0 && bits w 28 4 == 0) <| .ok (.stDS (BitVec.ofNat 4 (w / 2 ^ 12)) (BitVec.ofNat 6 (w / 2 ^ 22)) (BitVec.ofNat 6 (w / 2 ^ 35)) (BitVec.ofNat 6 (w / 2 ^ 41)) (BitVec.ofNat 17 (w / 2 ^ 47)))
  | _ => .error .unassignedMinor

/-- Major 0x02, format S64 with the scope in [31:28] (R348). -/
def decodeAcqRel (w : Nat) : Except DecodeError Instr :=
  match bits w 16 6 with
  | 0 => need (bits w 8 4 == 0) <| named (Scope.ofCode (bits w 28 4)) fun s => .ok (.ldAcq s (BitVec.ofNat 4 (w / 2 ^ 12)) (BitVec.ofNat 6 (w / 2 ^ 22)) (BitVec.ofNat 6 (w / 2 ^ 35)) (BitVec.ofNat 6 (w / 2 ^ 41)) (BitVec.ofNat 17 (w / 2 ^ 47)))
  | 1 => need (bits w 8 4 == 0) <| named (Scope.ofCode (bits w 28 4)) fun s => .ok (.stRel s (BitVec.ofNat 4 (w / 2 ^ 12)) (BitVec.ofNat 6 (w / 2 ^ 22)) (BitVec.ofNat 6 (w / 2 ^ 35)) (BitVec.ofNat 6 (w / 2 ^ 41)) (BitVec.ofNat 17 (w / 2 ^ 47)))
  | _ => .error .unassignedMinor

/-- Major 0x03, format S64 (R40, R349). -/
def decodeAmo (w : Nat) : Except DecodeError Instr :=
  need (bits w 8 4 == 0) <| named (Scope.ofCode (bits w 28 4)) fun s => named (AmoUse.ofCode (bits w 19 3)) fun u =>
  let d : SReg := BitVec.ofNat 6 (w / 2 ^ 22)
  match bits w 16 3 with
  | 0 => need (u.legal true d) <| .ok (.amoAdd u s (BitVec.ofNat 4 (w / 2 ^ 12)) (BitVec.ofNat 6 (w / 2 ^ 22)) (BitVec.ofNat 6 (w / 2 ^ 35)) (BitVec.ofNat 6 (w / 2 ^ 41)) (BitVec.ofNat 17 (w / 2 ^ 47)))
  | 1 => need (u.legal true d) <| .ok (.amoOr u s (BitVec.ofNat 4 (w / 2 ^ 12)) (BitVec.ofNat 6 (w / 2 ^ 22)) (BitVec.ofNat 6 (w / 2 ^ 35)) (BitVec.ofNat 6 (w / 2 ^ 41)) (BitVec.ofNat 17 (w / 2 ^ 47)))
  | 2 => need (u.legal true d) <| .ok (.amoXor u s (BitVec.ofNat 4 (w / 2 ^ 12)) (BitVec.ofNat 6 (w / 2 ^ 22)) (BitVec.ofNat 6 (w / 2 ^ 35)) (BitVec.ofNat 6 (w / 2 ^ 41)) (BitVec.ofNat 17 (w / 2 ^ 47)))
  | 3 => need (u.legal true d) <| .ok (.amoMin u s (BitVec.ofNat 4 (w / 2 ^ 12)) (BitVec.ofNat 6 (w / 2 ^ 22)) (BitVec.ofNat 6 (w / 2 ^ 35)) (BitVec.ofNat 6 (w / 2 ^ 41)) (BitVec.ofNat 17 (w / 2 ^ 47)))
  | 4 => need (u.legal true d) <| .ok (.amoMax u s (BitVec.ofNat 4 (w / 2 ^ 12)) (BitVec.ofNat 6 (w / 2 ^ 22)) (BitVec.ofNat 6 (w / 2 ^ 35)) (BitVec.ofNat 6 (w / 2 ^ 41)) (BitVec.ofNat 17 (w / 2 ^ 47)))
  | 5 => need (u.legal false d) <| .ok (.amoSwap u s (BitVec.ofNat 4 (w / 2 ^ 12)) (BitVec.ofNat 6 (w / 2 ^ 22)) (BitVec.ofNat 6 (w / 2 ^ 35)) (BitVec.ofNat 6 (w / 2 ^ 41)) (BitVec.ofNat 17 (w / 2 ^ 47)))
  | 6 => need (u.legal false d) <| .ok (.amoCas u s (BitVec.ofNat 4 (w / 2 ^ 12)) (BitVec.ofNat 6 (w / 2 ^ 22)) (BitVec.ofNat 6 (w / 2 ^ 35)) (BitVec.ofNat 6 (w / 2 ^ 41)) (BitVec.ofNat 17 (w / 2 ^ 47)))
  | _ => need (bits w 41 6 == 0 && u != .com && u != .qnt) <| .ok (.amoLd u s (BitVec.ofNat 4 (w / 2 ^ 12)) (BitVec.ofNat 6 (w / 2 ^ 22)) (BitVec.ofNat 6 (w / 2 ^ 35)) (BitVec.ofNat 17 (w / 2 ^ 47)))

/-- Major 0x04, format M64 (Table 9-5). -/
def decodeVMem (w : Nat) : Except DecodeError Instr :=
  match bits w 16 6 with
  | 0 => need (bits w 50 6 == 0 && bits w 56 8 == 0 && bits w 26 6 == 0) <| named (ElemType.ofCode (bits w 22 4)) fun t => .ok (.vld (fh w) t (f64d w) (BitVec.ofNat 6 (w / 2 ^ 44)))
  | 1 => need (bits w 56 8 == 0 && bits w 26 6 == 0) <| named (ElemType.ofCode (bits w 22 4)) fun t => .ok (.vlds (fh w) t (f64d w) (BitVec.ofNat 6 (w / 2 ^ 44)) (BitVec.ofNat 6 (w / 2 ^ 50)))
  | 2 => need (bits w 50 6 == 0 && bits w 30 2 == 0 && (bits w 29 1 == 1 || bits w 27 2 == 0)) <| named (ElemType.ofCode (bits w 22 4)) fun t => .ok (.vldx (fh w) t (f64d w) (BitVec.ofNat 6 (w / 2 ^ 44)) (BitVec.ofNat 9 (bits w 56 8 + 256 * bits w 26 1)) (if bits w 29 1 == 1 then some (BitVec.ofNat 2 (w / 2 ^ 27)) else none))
  | 3 => need (bits w 50 6 == 0 && bits w 56 8 == 0 && bits w 28 4 == 0) <| named (ElemType.ofCode (bits w 22 4)) fun t => .ok (.vldff (fh w) t (f64d w) (BitVec.ofNat 6 (w / 2 ^ 44)) (BitVec.ofNat 2 (w / 2 ^ 26)))
  | 4 => need (bits w 50 6 == 0 && bits w 56 8 == 0 && bits w 26 6 == 0) <| named (ElemType.ofCode (bits w 22 4)) fun t => .ok (.vst (fh w) t (f64d w) (BitVec.ofNat 6 (w / 2 ^ 44)))
  | 5 => need (bits w 56 8 == 0 && bits w 26 6 == 0) <| named (ElemType.ofCode (bits w 22 4)) fun t => .ok (.vsts (fh w) t (f64d w) (BitVec.ofNat 6 (w / 2 ^ 44)) (BitVec.ofNat 6 (w / 2 ^ 50)))
  | 6 => need (bits w 50 6 == 0 && bits w 30 2 == 0 && (bits w 29 1 == 1 || bits w 27 2 == 0)) <| named (ElemType.ofCode (bits w 22 4)) fun t => .ok (.vstx (fh w) t (f64d w) (BitVec.ofNat 6 (w / 2 ^ 44)) (BitVec.ofNat 9 (bits w 56 8 + 256 * bits w 26 1)) (if bits w 29 1 == 1 then some (BitVec.ofNat 2 (w / 2 ^ 27)) else none))
  | _ => .error .unassignedMinor

/-- Major 0x05, format V64 (Table 13-1). -/
def decodeVec (w : Nat) : Except DecodeError Instr :=
  match bits w 16 6 with
  | 0 => need (bits w 62 2 == 0 && bits w 26 6 == 0) <| named (ElemType.ofCode (bits w 22 4)) fun t => .ok (.vadd (fh w) t (f64d w) (f64a w) (f64b w))
  | 1 => need (bits w 62 2 == 0 && bits w 26 6 == 0) <| named (ElemType.ofCode (bits w 22 4)) fun t => .ok (.vsub (fh w) t (f64d w) (f64a w) (f64b w))
  | 2 => need (bits w 62 2 == 0 && bits w 26 6 == 0) <| named (ElemType.ofCode (bits w 22 4)) fun t => .ok (.vmul (fh w) t (f64d w) (f64a w) (f64b w))
  | 3 => need (bits w 62 2 == 0 && bits w 26 6 == 0) <| named (ElemType.ofCode (bits w 22 4)) fun t => .ok (.vfma (fh w) t (f64d w) (f64a w) (f64b w))
  | 4 => need (bits w 62 2 == 0 && bits w 26 6 == 0) <| named (ElemType.ofCode (bits w 22 4)) fun t => .ok (.vfms (fh w) t (f64d w) (f64a w) (f64b w))
  | 5 => need (bits w 62 2 == 0 && bits w 26 6 == 0) <| named (ElemType.ofCode (bits w 22 4)) fun t => .ok (.vfnma (fh w) t (f64d w) (f64a w) (f64b w))
  | 6 => need (bits w 62 2 == 0 && bits w 26 6 == 0) <| named (ElemType.ofCode (bits w 22 4)) fun t => .ok (.vmin (fh w) t (f64d w) (f64a w) (f64b w))
  | 7 => need (bits w 62 2 == 0 && bits w 26 6 == 0) <| named (ElemType.ofCode (bits w 22 4)) fun t => .ok (.vmax (fh w) t (f64d w) (f64a w) (f64b w))
  | 8 => need (bits w 62 2 == 0 && bits w 26 6 == 0 && bits w 53 9 == 0) <| named (ElemType.ofCode (bits w 22 4)) fun t => .ok (.vabs (fh w) t (f64d w) (f64a w))
  | 9 => need (bits w 62 2 == 0 && bits w 26 6 == 0 && bits w 53 9 == 0) <| named (ElemType.ofCode (bits w 22 4)) fun t => .ok (.vneg (fh w) t (f64d w) (f64a w))
  | 10 => need (bits w 62 2 == 0 && bits w 26 6 == 0) <| named (ElemType.ofCode (bits w 22 4)) fun t => .ok (.vdiv (fh w) t (f64d w) (f64a w) (f64b w))
  | 11 => need (bits w 62 2 == 0 && bits w 26 6 == 0 && bits w 53 9 == 0) <| named (ElemType.ofCode (bits w 22 4)) fun t => .ok (.vsqrt (fh w) t (f64d w) (f64a w))
  | 12 => need (bits w 62 2 == 0 && bits w 26 6 == 0 && bits w 53 9 == 0) <| named (ElemType.ofCode (bits w 22 4)) fun t => .ok (.vrsqrt (fh w) t (f64d w) (f64a w))
  | 13 => need (bits w 62 2 == 0 && bits w 26 6 == 0 && bits w 53 9 == 0) <| named (ElemType.ofCode (bits w 22 4)) fun t => .ok (.vrcp (fh w) t (f64d w) (f64a w))
  | 14 => need (bits w 62 2 == 0 && bits w 26 6 == 0 && bits w 53 9 == 0) <| named (ElemType.ofCode (bits w 22 4)) fun t => .ok (.vexp2 (fh w) t (f64d w) (f64a w))
  | 15 => need (bits w 62 2 == 0 && bits w 26 6 == 0 && bits w 53 9 == 0) <| named (ElemType.ofCode (bits w 22 4)) fun t => .ok (.vlog2 (fh w) t (f64d w) (f64a w))
  | 16 => need (bits w 62 2 == 0 && bits w 53 9 == 0 && bits w 30 2 == 0) <| named (ElemType.ofCode (bits w 22 4)) fun t => named (ElemType.ofCode (bits w 26 4)) fun u => .ok (.vcvt (fh w) t u (f64d w) (f64a w))
  | 17 => need (bits w 62 2 == 0 && bits w 26 6 == 0) <| named (ElemType.ofCode (bits w 22 4)) fun t => .ok (.vand (fh w) t (f64d w) (f64a w) (f64b w))
  | 18 => need (bits w 62 2 == 0 && bits w 26 6 == 0) <| named (ElemType.ofCode (bits w 22 4)) fun t => .ok (.vor (fh w) t (f64d w) (f64a w) (f64b w))
  | 19 => need (bits w 62 2 == 0 && bits w 26 6 == 0) <| named (ElemType.ofCode (bits w 22 4)) fun t => .ok (.vxor (fh w) t (f64d w) (f64a w) (f64b w))
  | 20 => need (bits w 62 2 == 0 && bits w 26 6 == 0 && bits w 53 9 == 0) <| named (ElemType.ofCode (bits w 22 4)) fun t => .ok (.vnot (fh w) t (f64d w) (f64a w))
  | 21 => need (bits w 62 2 == 0 && bits w 26 6 == 0) <| named (ElemType.ofCode (bits w 22 4)) fun t => .ok (.vshl (fh w) t (f64d w) (f64a w) (f64b w))
  | 22 => need (bits w 62 2 == 0 && bits w 26 6 == 0) <| named (ElemType.ofCode (bits w 22 4)) fun t => .ok (.vshr (fh w) t (f64d w) (f64a w) (f64b w))
  | 23 => need (bits w 62 2 == 0 && bits w 26 6 == 0) <| named (ElemType.ofCode (bits w 22 4)) fun t => .ok (.vsra (fh w) t (f64d w) (f64a w) (f64b w))
  | 24 => need (bits w 62 2 == 0 && bits w 38 6 == 0) <| named (ElemType.ofCode (bits w 22 4)) fun t => named (VCond.ofCode (bits w 26 6)) fun c => .ok (.vcmp (fh w) c t (BitVec.ofNat 3 (w / 2 ^ 35)) (f64a w) (f64b w))
  | 25 => need (bits w 62 2 == 0 && bits w 29 3 == 0) <| named (ElemType.ofCode (bits w 22 4)) fun t => .ok (.vsel (fh w) t (f64d w) (f64a w) (f64b w) (BitVec.ofNat 3 (w / 2 ^ 26)))
  | 26 => need (bits w 62 2 == 0 && bits w 26 6 == 0) <| named (ElemType.ofCode (bits w 22 4)) fun t => .ok (.vredsum (fh w) t (f64d w) (f64a w) (f64b w))
  | 27 => need (bits w 62 2 == 0 && bits w 26 6 == 0) <| named (ElemType.ofCode (bits w 22 4)) fun t => .ok (.vredmax (fh w) t (f64d w) (f64a w) (f64b w))
  | 28 => need (bits w 62 2 == 0 && bits w 26 6 == 0) <| named (ElemType.ofCode (bits w 22 4)) fun t => .ok (.vredmin (fh w) t (f64d w) (f64a w) (f64b w))
  | 29 => need (bits w 62 2 == 0 && bits w 53 9 == 0) <| named (ElemType.ofCode (bits w 22 4)) fun t => named (ScanOp.ofCode (bits w 26 6)) fun o => .ok (.vscan (fh w) o t (f64d w) (f64a w))
  | 30 => need (bits w 62 2 == 0 && bits w 26 6 == 0) <| named (ElemType.ofCode (bits w 22 4)) fun t => .ok (.vperm (fh w) t (f64d w) (f64a w) (f64b w))
  | 31 => need (bits w 62 2 == 0) <| named (ElemType.ofCode (bits w 22 4)) fun t => .ok (.vslideup (fh w) t (f64d w) (f64a w) (BitVec.ofNat 15 (bits w 53 9 + 512 * bits w 26 6)))
  | 32 => need (bits w 62 2 == 0) <| named (ElemType.ofCode (bits w 22 4)) fun t => .ok (.vslidedn (fh w) t (f64d w) (f64a w) (BitVec.ofNat 15 (bits w 53 9 + 512 * bits w 26 6)))
  | 33 => need (bits w 62 2 == 0 && bits w 29 3 == 0) <| named (ElemType.ofCode (bits w 22 4)) fun t => .ok (.vbcast (fh w) t (f64d w) (f64a w) (BitVec.ofNat 12 (bits w 53 9 + 512 * bits w 26 3)))
  | 34 => need (bits w 62 2 == 0 && bits w 53 9 == 0 && bits w 29 3 == 0) <| named (ElemType.ofCode (bits w 22 4)) fun t => .ok (.vcomp (fh w) t (f64d w) (f64a w) (BitVec.ofNat 3 (w / 2 ^ 26)))
  | 35 => need (bits w 62 2 == 0 && bits w 53 9 == 0 && bits w 26 6 == 0 && bits w 47 6 == 0) <| named (ElemType.ofCode (bits w 22 4)) fun t => .ok (.viota (fh w) t (f64d w) (BitVec.ofNat 3 (w / 2 ^ 44)))
  | 36 => need (bits w 62 2 == 0 && bits w 26 6 == 0) <| named (ElemType.ofCode (bits w 22 4)) fun t => .ok (.vrot (fh w) t (f64d w) (f64a w) (f64b w))
  | 37 => need (bits w 62 2 == 0 && bits w 30 2 == 0) <| named (ElemType.ofCode (bits w 22 4)) fun t => named (ElemType.ofCode (bits w 26 4)) fun u => .ok (.vdot (fh w) t u (f64d w) (f64a w) (f64b w))
  | 38 => need (bits w 62 2 == 0 && bits w 26 6 == 0 && bits w 53 9 == 0 && bits w 35 9 == 0 && bits w 22 4 == 0) <| .ok (.vseed (fh w) (f64a w))
  | _ => .error .unassignedMinor

/-- Major 0x06, format V64 (R170). -/
def decodeMsk (w : Nat) : Except DecodeError Instr :=
  match bits w 16 6 with
  | 0 => need (bits w 62 2 == 0 && bits w 26 6 == 0 && bits w 53 9 == 0) <| named (ElemType.ofCode (bits w 22 4)) fun t => .ok (.vmv (fh w) t (f64d w) (f64a w))
  | 1 => need (bits w 62 2 == 0 && bits w 26 6 == 0 && bits w 22 4 == 0 && bits w 38 6 == 0 && bits w 47 6 == 0 && bits w 56 6 == 0) <| .ok (.kand (fh w) (BitVec.ofNat 3 (w / 2 ^ 35)) (BitVec.ofNat 3 (w / 2 ^ 44)) (BitVec.ofNat 3 (w / 2 ^ 53)))
  | 2 => need (bits w 62 2 == 0 && bits w 26 6 == 0 && bits w 22 4 == 0 && bits w 38 6 == 0 && bits w 47 6 == 0 && bits w 56 6 == 0) <| .ok (.kor (fh w) (BitVec.ofNat 3 (w / 2 ^ 35)) (BitVec.ofNat 3 (w / 2 ^ 44)) (BitVec.ofNat 3 (w / 2 ^ 53)))
  | 3 => need (bits w 62 2 == 0 && bits w 26 6 == 0 && bits w 22 4 == 0 && bits w 38 6 == 0 && bits w 47 6 == 0 && bits w 56 6 == 0) <| .ok (.kxor (fh w) (BitVec.ofNat 3 (w / 2 ^ 35)) (BitVec.ofNat 3 (w / 2 ^ 44)) (BitVec.ofNat 3 (w / 2 ^ 53)))
  | 4 => need (bits w 62 2 == 0 && bits w 26 6 == 0 && bits w 22 4 == 0 && bits w 38 6 == 0 && bits w 47 6 == 0 && bits w 53 9 == 0) <| .ok (.knot (fh w) (BitVec.ofNat 3 (w / 2 ^ 35)) (BitVec.ofNat 3 (w / 2 ^ 44)))
  | _ => .error .unassignedMinor

/-- Major 0x07, format G64 (Table 6-2). -/
def decodeTile (w : Nat) : Except DecodeError Instr :=
  match bits w 16 6 with
  | 0 => need (bits w 35 5 == 0 && bits w 28 4 == 0 && bits w 22 6 == 0) <| .ok (.tmov (fh w) (ga w) (gb w) (gc w) (BitVec.ofNat 6 (w / 2 ^ 40)))
  | 1 => need (bits w 35 5 == 0 && bits w 28 4 == 0) <| .ok (.tmovFp (fh w) (ga w) (gb w) (gc w) (gd w) (BitVec.ofNat 6 (w / 2 ^ 40)))
  | 2 => need (bits w 35 5 == 0 && bits w 28 4 == 0 && bits w 22 6 == 0) <| .ok (.tfill (fh w) (ga w) (gb w) (gc w) (BitVec.ofNat 6 (w / 2 ^ 40)))
  | 3 => need (bits w 35 5 == 0 && bits w 28 4 == 0) <| .ok (.tcmp (fh w) (ga w) (gb w) (gc w) (gd w) (BitVec.ofNat 6 (w / 2 ^ 40)))
  | _ => .error .unassignedMinor

/-- Major 0x08, format G64 (Table 8-7). -/
def decodePull (w : Nat) : Except DecodeError Instr :=
  match bits w 16 6 with
  | 0 => need (bits w 35 5 == 0 && bits w 28 4 == 0 && bits w 46 12 == 0) <| .ok (.pull (fh w) (gd w) (ga w) (BitVec.ofNat 6 (w / 2 ^ 40)))
  | 1 => need (bits w 35 5 == 0 && bits w 28 4 == 0) <| .ok (.pullF (fh w) (gd w) (ga w) (gb w) (gc w) (BitVec.ofNat 6 (w / 2 ^ 40)))
  | _ => .error .unassignedMinor

/-- Major 0x09, format G64 (Table 8-2). -/
def decodePub (w : Nat) : Except DecodeError Instr :=
  match bits w 16 6 with
  | 0 => need (bits w 35 5 == 0 && bits w 28 4 == 0 && bits w 22 6 == 0 && bits w 40 6 == 0) <| .ok (.pub (fh w) (ga w) (gb w) (gc w))
  | 1 => need (bits w 35 5 == 0 && bits w 28 4 == 0 && bits w 22 6 == 0) <| .ok (.pubMc (fh w) (ga w) (gb w) (gc w) (BitVec.ofNat 6 (w / 2 ^ 40)))
  | _ => .error .unassignedMinor

/-- Major 0x0A, format G64 (Tables 11-2 and 11-3). -/
def decodeMat (w : Nat) : Except DecodeError Instr :=
  match bits w 16 6 with
  | 0 => need (bits w 48 16 == 0 && bits w 44 4 == 0 && bits w 41 3 == 0 && bits w 35 3 == 0 && bits w 29 3 == 0 && bits w 28 1 == 0 && bits w 22 6 == 0) <| .ok (.mcode (fh w) (BitVec.ofNat 3 (w / 2 ^ 38)))
  | 1 => need (bits w 48 16 == 0 && bits w 44 4 == 0 && bits w 41 3 == 0 && bits w 29 3 == 0 && bits w 28 1 == 0 && bits w 22 6 == 0) <| .ok (.mload (fh w) (BitVec.ofNat 3 (w / 2 ^ 35)) (BitVec.ofNat 3 (w / 2 ^ 38)))
  | 2 => need (bits w 48 16 == 0 && bits w 44 4 == 0 && bits w 41 3 == 0 && bits w 29 3 == 0 && bits w 28 1 == 0 && bits w 22 6 == 0) <| .ok (.mloadVq (fh w) (BitVec.ofNat 3 (w / 2 ^ 35)) (BitVec.ofNat 3 (w / 2 ^ 38)))
  | 3 => need (bits w 48 16 == 0 && bits w 44 4 != 0 && bits w 28 1 == 0 && bits w 22 6 == 0) <| .ok (.mmma (fh w) (BitVec.ofNat 4 (w / 2 ^ 44)) (BitVec.ofNat 3 (w / 2 ^ 41)) (BitVec.ofNat 3 (w / 2 ^ 38)) (BitVec.ofNat 3 (w / 2 ^ 35)) (BitVec.ofNat 2 (w / 2 ^ 30)) (bits w 29 1 == 1))
  | 4 => need (bits w 48 16 == 0 && bits w 44 4 != 0 && bits w 28 1 == 0 && bits w 22 6 == 0) <| .ok (.mmmaSp (fh w) (BitVec.ofNat 4 (w / 2 ^ 44)) (BitVec.ofNat 3 (w / 2 ^ 41)) (BitVec.ofNat 3 (w / 2 ^ 38)) (BitVec.ofNat 3 (w / 2 ^ 35)) (BitVec.ofNat 2 (w / 2 ^ 30)) (bits w 29 1 == 1))
  | 5 => need (bits w 48 16 == 0 && bits w 44 4 == 0 && bits w 35 3 == 0 && bits w 29 3 == 0 && bits w 28 1 == 0 && bits w 22 6 == 0) <| .ok (.mcomp (fh w) (BitVec.ofNat 3 (w / 2 ^ 41)) (BitVec.ofNat 3 (w / 2 ^ 38)))
  | 6 => need (bits w 48 16 == 0 && bits w 44 4 == 0 && bits w 41 3 == 0 && bits w 35 3 == 0 && bits w 29 3 == 0 && bits w 28 1 == 0 && bits w 22 6 == 0) <| .ok (.outl (fh w) (BitVec.ofNat 3 (w / 2 ^ 38)))
  | 7 => need (bits w 44 4 == 0 && bits w 38 3 == 0 && bits w 35 3 == 0 && bits w 29 3 == 0 && bits w 28 1 == 0 && bits w 22 6 == 0) <| .ok (.azero (fh w) (BitVec.ofNat 3 (w / 2 ^ 41)) (BitVec.ofNat 16 (w / 2 ^ 48)))
  | 8 => need (bits w 48 16 == 0 && bits w 44 4 == 0 && bits w 38 3 == 0 && bits w 35 3 == 0 && bits w 29 3 == 0 && bits w 28 1 == 0) <| .ok (.aexp (fh w) (BitVec.ofNat 3 (w / 2 ^ 41)) (BitVec.ofNat 6 (w / 2 ^ 22)))
  | 9 => need (bits w 48 16 == 0 && bits w 44 4 == 0 && bits w 38 3 == 0 && bits w 35 3 == 0 && bits w 29 3 == 0 && bits w 28 1 == 0 && bits w 22 6 == 0) <| .ok (.anorm (fh w) (BitVec.ofNat 3 (w / 2 ^ 41)))
  | 10 => need (bits w 48 16 == 0 && bits w 44 4 == 0 && bits w 35 3 == 0 && bits w 29 3 == 0 && bits w 22 6 == 0) <| .ok (.mout (fh w) (BitVec.ofNat 3 (w / 2 ^ 41)) (BitVec.ofNat 3 (w / 2 ^ 38)) (bits w 28 1 == 1))
  | 11 => need (bits w 48 16 == 0 && bits w 44 4 == 0 && bits w 35 3 == 0 && bits w 29 3 == 0 && bits w 22 6 == 0) <| .ok (.moutRet (fh w) (BitVec.ofNat 3 (w / 2 ^ 41)) (BitVec.ofNat 3 (w / 2 ^ 38)) (bits w 28 1 == 1))
  | _ => .error .unassignedMinor

/-- Major 0x0B, format G64 (Tables 14-2 and 14-3). -/
def decodeAtt (w : Nat) : Except DecodeError Instr :=
  need (bits w 28 3 == 0) <| match bits w 16 6 with
  | 0 => if bits w 31 1 == 1 then need (bits w 58 6 == 0 && bits w 52 6 == 0 && bits w 46 6 == 0 && bits w 43 3 == 0 && bits w 36 4 == 0 && bits w 35 1 == 0 && bits w 22 6 == 0) <| .ok (.attQF (fh w) (BitVec.ofNat 3 (w / 2 ^ 40)))
         else need (bits w 58 6 == 0 && bits w 43 3 == 0 && bits w 35 1 == 0) <| .ok (.attQ (fh w) (BitVec.ofNat 3 (w / 2 ^ 40)) (gb w) (gc w) (gd w) (BitVec.ofNat 4 (w / 2 ^ 36)))
  | 1 => need (bits w 46 6 == 0 && bits w 43 3 == 0 && bits w 40 3 == 0 && bits w 31 1 == 0 && bits w 22 6 == 0) <| .ok (.attKv (fh w) (ga w) (gb w) (BitVec.ofNat 4 (w / 2 ^ 36)) (bits w 35 1 == 1))
  | 2 => need (bits w 58 6 == 0 && bits w 52 6 == 0 && bits w 46 6 == 0 && bits w 43 3 == 0 && bits w 40 3 == 0 && bits w 36 4 == 0 && bits w 31 1 == 0 && bits w 22 6 == 0) <| .ok (.attRun (fh w) (bits w 35 1 == 1))
  | 3 => need (bits w 58 6 == 0 && bits w 52 6 == 0 && bits w 46 6 == 0 && bits w 40 3 == 0 && bits w 36 4 == 0 && bits w 35 1 == 0 && bits w 31 1 == 0 && bits w 22 6 == 0) <| .ok (.attOut (fh w) (BitVec.ofNat 3 (w / 2 ^ 43)))
  | 4 => need (bits w 58 6 == 0 && bits w 52 6 == 0 && bits w 46 6 == 0 && bits w 36 4 == 0 && bits w 35 1 == 0 && bits w 31 1 == 0 && bits w 22 6 == 0) <| .ok (.attMerge (fh w) (BitVec.ofNat 3 (w / 2 ^ 43)) (BitVec.ofNat 3 (w / 2 ^ 40)))
  | 5 => need (bits w 52 6 == 0 && bits w 46 6 == 0 && bits w 43 3 == 0 && bits w 40 3 == 0 && bits w 36 4 == 0 && bits w 35 1 == 0 && bits w 31 1 == 0 && bits w 22 6 == 0) <| .ok (.attPlan (fh w) (ga w))
  | _ => .error .unassignedMinor

/-- Major 0x0C, format G64 (Tables 16-4 and 16-5). -/
def decodeRem (w : Nat) : Except DecodeError Instr :=
  match bits w 16 6 with
  | 0 => need (bits w 35 5 == 0 && bits w 28 4 == 0 && bits w 40 3 == 0 && bits w 22 6 == 0 && bits w 43 3 != 7) <| .ok (.rst (fh w) (ga w) (gb w) (gc w) (BitVec.ofNat 3 (w / 2 ^ 43)))
  | 1 => need (bits w 35 5 == 0 && bits w 28 4 == 0 && bits w 40 3 == 0 && bits w 22 6 == 0 && bits w 43 3 != 7) <| .ok (.rstMc (fh w) (ga w) (gb w) (gc w) (BitVec.ofNat 3 (w / 2 ^ 43)))
  | 2 => need (bits w 35 5 == 0 && bits w 28 4 == 0 && bits w 40 3 == 0 && bits w 52 6 == 0 && decide (bits w 43 3 ≤ 3)) <| .ok (.rld (fh w) (gd w) (ga w) (gc w) (BitVec.ofNat 3 (w / 2 ^ 43)))
  | 3 => need (bits w 35 5 == 0 && bits w 28 4 == 0 && ramoSize (BitVec.ofNat 3 (w / 2 ^ 43))) <| named (RamoOp.ofCode (bits w 40 3)) fun o => .ok (.ramo (fh w) o (gd w) (ga w) (gb w) (gc w) (BitVec.ofNat 3 (w / 2 ^ 43)))
  | _ => .error .unassignedMinor

/-- The 64-bit instructions by major (Table 2-11). Majors 0x01 to 0x03 are no engine commands. -/
def decode64 (w : Nat) : Except DecodeError Instr :=
  match bits w 3 5 with
  | 1 => decodeMem w
  | 2 => decodeAcqRel w
  | 3 => decodeAmo w
  | 4 => decodeVMem w
  | 5 => decodeVec w
  | 6 => decodeMsk w
  | 7 => decodeTile w
  | 8 => decodePull w
  | 9 => decodePub w
  | 10 => decodeMat w
  | 11 => decodeAtt w
  | 12 => decodeRem w
  | _ => .error .reservedMajor

/-- Reads one instruction or one prefix word at the head of `bs` (Table 2-1). -/
def decode (bs : List Byte) : Except DecodeError Decoded :=
  if bs.length < 4 then .error .truncated else
  let w := leNat (bs.take 4)
  let mark := bits w 2 1 == 1
  match bits w 0 2 with
  | 0 => (decode32 w).map fun i => { landing := mark, instr := i, size := 4 }
  | 1 =>
    if bs.length < 8 then .error .truncated else
    let v := leNat (bs.take 8)
    if bits v 32 3 = 3 then (decode64 v).map fun i => { landing := mark, instr := i, size := 8 } else .error .fixedBits
  | 2 => (decodePrefix w).map fun i => { landing := mark, instr := i, size := 4 }
  | _ => .error .reservedLength

/-- The decoder on a row of the table of operations: `nbits` bits whose value is `w`, and zeros above them. -/
def decodeTableWord (nbits w : Nat) : Option Instr :=
  match decode (leBytes (Nat.max 8 (nbits / 8)) (w % 2 ^ nbits)) with
  | .ok d => some d.instr
  | .error _ => none

/-! ### The encoder -/

@[inherit_doc Scope.ofCode] def Scope.code : Scope → Nat
  | .program => 1 | .core => 2 | .cluster => 3 | .die => 4 | .package => 5 | .group => 6 | .pod => 7 | .host => 8
  | .system => 9
@[inherit_doc ElemType.ofCode] def ElemType.code : ElemType → Nat
  | .i8 => 0 | .i16 => 1 | .i32 => 2 | .ui8 => 3 | .ui16 => 4 | .ui32 => 5 | .f16 => 6 | .bf16 => 7 | .f32 => 8
  | .e4m3 => 9 | .e5m2 => 10
@[inherit_doc EWidth.ofCode] def EWidth.code : EWidth → Nat | .e8 => 0 | .e16 => 1 | .e32 => 2
@[inherit_doc ExtWidth.ofCode] def ExtWidth.code : ExtWidth → Nat | .w8 => 0 | .w16 => 1 | .w32 => 2
@[inherit_doc AmoUse.ofCode] def AmoUse.code : AmoUse → Nat
  | .plain => 0 | .unp => 1 | .com => 2 | .nor => 3 | .qnt => 4 | .spc => 5
@[inherit_doc RamoOp.ofCode] def RamoOp.code : RamoOp → Nat
  | .add => 0 | .or => 1 | .xor => 2 | .min => 3 | .max => 4 | .swap => 5 | .cas => 6
@[inherit_doc VCond.ofCode] def VCond.code : VCond → Nat
  | .eq => 0 | .ne => 1 | .lt => 2 | .le => 3 | .gt => 4 | .ge => 5
@[inherit_doc ScanOp.ofCode] def ScanOp.code : ScanOp → Nat | .sum => 0 | .max => 1 | .min => 2

/-- A 32-bit word of format A32 (Table 2-2). -/
def encA (major minor b a d : Nat) : Nat := major * 2 ^ 3 + d * 2 ^ 8 + a * 2 ^ 14 + b * 2 ^ 20 + minor * 2 ^ 26
/-- A 32-bit word of format B32 (Table 2-2). -/
def encB (major minor imm a d : Nat) : Nat := major * 2 ^ 3 + d * 2 ^ 8 + a * 2 ^ 14 + minor * 2 ^ 20 + imm * 2 ^ 23
/-- A 32-bit word of format C32 (Table 2-2). -/
def encC (major imm d : Nat) : Nat := major * 2 ^ 3 + d * 2 ^ 8 + imm * 2 ^ 14
/-- A 32-bit word of format VS32 (Table 2-2). -/
def encV (minor s v : Nat) : Nat := 0x17 * 2 ^ 3 + v * 2 ^ 8 + s * 2 ^ 17 + minor * 2 ^ 26
/-- The header of a 64-bit instruction (Table 2-3): length 0b01, major, token action, class, minor and the fixed bits. -/
def encH (major minor : Nat) (h : EHdr) : Nat :=
  1 + major * 2 ^ 3 + h.tok.toNat * 2 ^ 8 + h.cls.toNat * 2 ^ 12 + minor * 2 ^ 16 + 3 * 2 ^ 32
/-- A 64-bit instruction of format S64 (Table 2-5); `top` is bits [31:28]. -/
def encS (major minor top : Nat) (c : BitVec 4) (d a b : SReg) (imm : BitVec 17) : Nat :=
  encH major minor { tok := 0, cls := c } + d.toNat * 2 ^ 22 + top * 2 ^ 28 + a.toNat * 2 ^ 35 + b.toNat * 2 ^ 41
    + imm.toNat * 2 ^ 47
/-- A 64-bit instruction of format M64 (Table 2-5). -/
def encM (minor : Nat) (h : EHdr) (t : ElemType) (v : VReg) (sa : SReg) (sb imm8 opt : Nat) : Nat :=
  encH 4 minor h + t.code * 2 ^ 22 + opt * 2 ^ 26 + v.toNat * 2 ^ 35 + sa.toNat * 2 ^ 44 + sb * 2 ^ 50 + imm8 * 2 ^ 56
/-- A 64-bit instruction of format V64 (Table 2-5). -/
def encW (major minor : Nat) (h : EHdr) (t d a b opt : Nat) : Nat :=
  encH major minor h + t * 2 ^ 22 + opt * 2 ^ 26 + d * 2 ^ 35 + a * 2 ^ 44 + b * 2 ^ 53
/-- A 64-bit instruction of format G64 with s registers in a, b, c and d (Tables 6-2, 8-2, 8-7, 16-4). -/
def encG (major minor : Nat) (h : EHdr) (a b c d mid : Nat) : Nat :=
  encH major minor h + d * 2 ^ 22 + mid * 2 ^ 40 + c * 2 ^ 46 + b * 2 ^ 52 + a * 2 ^ 58
/-- A 64-bit instruction of major 0x0A (Table 11-2); `low` is bits [31:22]. -/
def encT (minor : Nat) (h : EHdr) (e cost vd va m low : Nat) : Nat :=
  encH 10 minor h + low * 2 ^ 22 + m * 2 ^ 35 + va * 2 ^ 38 + vd * 2 ^ 41 + cost * 2 ^ 44 + e * 2 ^ 48
/-- A 64-bit instruction of major 0x0B (Table 14-2). -/
def encQ (minor : Nat) (h : EHdr) (a b c d vd va pb : Nat) (st f : Bool) : Nat :=
  encH 11 minor h + d * 2 ^ 22 + f.toNat * 2 ^ 31 + st.toNat * 2 ^ 35 + pb * 2 ^ 36 + va * 2 ^ 40 + vd * 2 ^ 43
    + c * 2 ^ 46 + b * 2 ^ 52 + a * 2 ^ 58

/-- The prefix word (Table 2-6). -/
def Prefix.encode (p : Prefix) : Nat :=
  let pol (o : Option Bool) : Nat := match o with | none => 0 | some false => 1 | some true => 2
  2 + (match p.rnd with
       | none => 0 | some .rne => 1 | some .rtz => 2 | some .rup => 3 | some .rdn => 4 | some .rna => 5
       | some .stoch => 6) * 2 ^ 8
    + p.sat.toNat * 2 ^ 11 + (match p.mask with | none => 0 | some k => 2 ^ 12 + k.toNat * 2 ^ 13)
    + pol p.tail * 2 ^ 16 + pol p.mpol * 2 ^ 18

/-- dst and b fields of `cnt.add` and `cnt.wait` (Table 6-5). -/
def encCnt (minor : Nat) (a : SReg) (v : CntArg) (sc : Option Scope) : Nat :=
  let s := match sc with | none => 0 | some s => s.code
  match v with
  | .reg b => encA 18 minor b.toNat a.toNat s
  | .imm n => encA 18 minor n.toNat a.toNat (32 + s)

/-- The bytes and the value of the word or pair that encodes `i`, with the landing mark clear; `(0, 0)` for an event. -/
def encodeNat (i : Instr) : Nat × Nat :=
  match i with
  | .nop => (4, encA 1 0 0 0 0)
  | .pfx p => (4, p.encode)
  | .add d a b => (4, encA 2 0 b.toNat a.toNat d.toNat)
  | .sub d a b => (4, encA 2 1 b.toNat a.toNat d.toNat)
  | .mul d a b => (4, encA 2 2 b.toNat a.toNat d.toNat)
  | .mulh d a b => (4, encA 2 3 b.toNat a.toNat d.toNat)
  | .mulhs d a b => (4, encA 2 4 b.toNat a.toNat d.toNat)
  | .div d a b => (4, encA 2 5 b.toNat a.toNat d.toNat)
  | .divu d a b => (4, encA 2 6 b.toNat a.toNat d.toNat)
  | .rem d a b => (4, encA 2 7 b.toNat a.toNat d.toNat)
  | .remu d a b => (4, encA 2 8 b.toNat a.toNat d.toNat)
  | .and d a b => (4, encA 2 9 b.toNat a.toNat d.toNat)
  | .or d a b => (4, encA 2 10 b.toNat a.toNat d.toNat)
  | .xor d a b => (4, encA 2 11 b.toNat a.toNat d.toNat)
  | .shl d a b => (4, encA 2 12 b.toNat a.toNat d.toNat)
  | .shr d a b => (4, encA 2 13 b.toNat a.toNat d.toNat)
  | .sra d a b => (4, encA 2 14 b.toNat a.toNat d.toNat)
  | .min d a b => (4, encA 2 15 b.toNat a.toNat d.toNat)
  | .max d a b => (4, encA 2 16 b.toNat a.toNat d.toNat)
  | .minu d a b => (4, encA 2 17 b.toNat a.toNat d.toNat)
  | .maxu d a b => (4, encA 2 18 b.toNat a.toNat d.toNat)
  | .clz d a => (4, encA 2 19 0 a.toNat d.toNat)
  | .ctz d a => (4, encA 2 20 0 a.toNat d.toNat)
  | .popc d a => (4, encA 2 21 0 a.toNat d.toNat)
  | .mov d a => (4, encA 2 22 0 a.toNat d.toNat)
  | .sext d a w => (4, encA 2 23 w.code a.toNat d.toNat)
  | .zext d a w => (4, encA 2 24 w.code a.toNat d.toNat)
  | .addi d a n => (4, encB 3 0 n.toNat a.toNat d.toNat)
  | .andi d a n => (4, encB 3 1 n.toNat a.toNat d.toNat)
  | .ori d a n => (4, encB 3 2 n.toNat a.toNat d.toNat)
  | .xori d a n => (4, encB 3 3 n.toNat a.toNat d.toNat)
  | .shli d a n => (4, encB 3 4 n.toNat a.toNat d.toNat)
  | .shri d a n => (4, encB 3 5 n.toNat a.toNat d.toNat)
  | .srai d a n => (4, encB 3 6 n.toNat a.toNat d.toNat)
  | .bfx d a p w => (4, encA 4 w.toNat p.toNat a.toNat d.toNat)
  | .bfi d a p w => (4, encA 5 w.toNat p.toNat a.toNat d.toNat)
  | .movi d n => (4, encC 6 n.toNat d.toNat)
  | .movh d n => (4, encC 7 n.toNat d.toNat)
  | .lea d s o => (4, encC 8 (o.toNat + s.toNat * 2 ^ 16) d.toNat)
  | .cmpEq d a b => (4, encA 9 0 b.toNat a.toNat d.toNat)
  | .cmpNe d a b => (4, encA 9 1 b.toNat a.toNat d.toNat)
  | .cmpLt d a b => (4, encA 9 2 b.toNat a.toNat d.toNat)
  | .cmpLe d a b => (4, encA 9 3 b.toNat a.toNat d.toNat)
  | .cmpLtu d a b => (4, encA 9 4 b.toNat a.toNat d.toNat)
  | .cmpLeu d a b => (4, encA 9 5 b.toNat a.toNat d.toNat)
  | .pand d a b => (4, encA 10 0 b.toNat a.toNat d.toNat)
  | .por d a b => (4, encA 10 1 b.toNat a.toNat d.toNat)
  | .pxor d a b => (4, encA 10 2 b.toNat a.toNat d.toNat)
  | .pnot d a => (4, encA 10 3 0 a.toNat d.toNat)
  | .sel d a b => (4, encA 10 4 b.toNat a.toNat d.toNat)
  | .ptb d n => (4, encC 11 n.toNat d.toNat)
  | .ptbr d a => (4, encA 12 0 0 a.toNat d.toNat)
  | .br a p => (4, encA 12 1 p.toNat a.toNat 0)
  | .brN a p => (4, encA 12 2 p.toNat a.toNat 0)
  | .brl a p => (4, encA 12 3 p.toNat a.toNat 0)
  | .ret p => (4, encA 12 4 p.toNat 0 0)
  | .halt => (4, encA 12 5 0 0 0)
  | .tok t => (4, encA 13 0 0 0 t.toNat)
  | .ldB d a n => (4, encB 14 0 n.toNat a.toNat d.toNat)
  | .ldH d a n => (4, encB 14 1 n.toNat a.toNat d.toNat)
  | .ldW d a n => (4, encB 14 2 n.toNat a.toNat d.toNat)
  | .ldD d a n => (4, encB 14 3 n.toNat a.toNat d.toNat)
  | .lduB d a n => (4, encB 14 4 n.toNat a.toNat d.toNat)
  | .lduH d a n => (4, encB 14 5 n.toNat a.toNat d.toNat)
  | .lduW d a n => (4, encB 14 6 n.toNat a.toNat d.toNat)
  | .stB d a n => (4, encB 15 0 n.toNat a.toNat d.toNat)
  | .stH d a n => (4, encB 15 1 n.toNat a.toNat d.toNat)
  | .stW d a n => (4, encB 15 2 n.toNat a.toNat d.toNat)
  | .stD d a n => (4, encB 15 3 n.toNat a.toNat d.toNat)
  | .rmap d a b => (4, encA 16 0 b.toNat a.toNat d.toNat)
  | .rinv d a b => (4, encA 16 1 b.toNat a.toNat d.toNat)
  | .rprobe d a => (4, encA 16 2 0 a.toNat d.toNat)
  | .kvFind d a b => (4, encA 17 0 b.toNat a.toNat d.toNat)
  | .kvMap d a => (4, encA 17 1 0 a.toNat d.toNat)
  | .kvAlias d a b => (4, encA 17 2 b.toNat a.toNat d.toNat)
  | .kvUnmap d a b => (4, encA 17 3 b.toNat a.toNat d.toNat)
  | .kvRef d a b => (4, encA 17 4 b.toNat a.toNat d.toNat)
  | .kvPos d a => (4, encA 17 5 0 a.toNat d.toNat)
  | .kvApp d a => (4, encA 17 6 0 a.toNat d.toNat)
  | .kvCommit d a b => (4, encA 17 7 b.toNat a.toNat d.toNat)
  | .kvLen d a => (4, encA 17 8 0 a.toNat d.toNat)
  | .cntAdd a v s => (4, encCnt 0 a v s)
  | .cntWait a v s => (4, encCnt 1 a v s)
  | .cntArm d a => (4, encA 18 2 0 a.toNat d.toNat)
  | .cntRd d a s => (4, encA 18 3 (match s with | none => 0 | some s => s.code) a.toNat d.toNat)
  | .tagWaitAny d a => (4, encA 19 0 0 a.toNat d.toNat)
  | .tagWaitAll d a => (4, encA 19 1 0 a.toNat d.toNat)
  | .tagFfr d a => (4, encA 19 2 0 a.toNat d.toNat)
  | .tagClr a => (4, encA 19 3 0 a.toNat 0)
  | .bar d a => (4, encA 19 4 0 a.toNat d.toNat)
  | .barWait a => (4, encA 19 5 0 a.toNat 0)
  | .fence m s => (4, 20 * 2 ^ 3 + s.code * 2 ^ 8 + m.toNat * 2 ^ 16)
  | .fenceX m s => (4, 20 * 2 ^ 3 + s.code * 2 ^ 8 + 2 ^ 12 + m.toNat * 2 ^ 16)
  | .decl d a => (4, encA 21 0 0 a.toNat d.toNat)
  | .ntake d a => (4, encA 21 1 0 a.toNat d.toNat)
  | .nwait => (4, encA 21 2 0 0 0)
  | .nfree d a => (4, encA 21 3 0 a.toNat d.toNat)
  | .rret d a b => (4, encA 21 4 b.toNat a.toNat d.toNat)
  | .rrel d a b => (4, encA 21 5 b.toNat a.toNat d.toNat)
  | .psched d a => (4, encA 21 6 0 a.toNat d.toNat)
  | .setvl d a w g => (4, encA 22 0 (w.code + g.toNat * 4) a.toNat d.toNat)
  | .setvli d n w g => (4, encA 22 1 (w.code + g.toNat * 4) n.toNat d.toNat)
  | .vcfg d a b => (4, encA 22 2 b.toNat a.toNat d.toNat)
  | .wset w a => (4, encA 22 3 0 a.toNat w.toNat)
  | .wget d w => (4, encA 22 4 0 w.toNat d.toNat)
  | .vmvSx v s => (4, encV 0 s.toNat v.toNat)
  | .vmvXs s v => (4, encV 1 s.toNat v.toNat)
  | .kpop s k => (4, encV 2 s.toNat k.toNat)
  | .kffs s k => (4, encV 3 s.toNat k.toNat)
  | .vbmClr n => (4, encV 4 0 n.toNat)
  | .vbmRd s n => (4, encV 5 s.toNat n.toNat)
  | .job d a => (4, encA 24 0 0 a.toNat d.toNat)
  | .deal d => (4, encA 24 1 0 0 d.toNat)
  | .taskEnd => (4, encA 24 2 0 0 0)
  | .gbind d a => (4, encA 24 3 0 a.toNat d.toNat)
  | .grebind d a b => (4, encA 24 4 b.toNat a.toNat d.toNat)
  | .fire d a b => (4, encA 24 5 b.toNat a.toNat d.toNat)
  | .fireWait a b => (4, encA 24 6 b.toNat a.toNat 0)
  | .gstat d a b => (4, encA 24 7 b.toNat a.toNat d.toNat)
  | .fmtPush a => (4, encA 25 0 0 a.toNat 0)
  | .coll d a => (4, encA 26 0 0 a.toNat d.toNat)
  | .cwait d a => (4, encA 26 1 0 a.toNat d.toNat)
  | .cstat d a b => (4, encA 26 2 b.toNat a.toNat d.toNat)
  | .bcls d => (4, encA 27 0 0 0 d.toNat)
  | .bwait n => (4, encA 27 1 0 n.toNat 0)
  | .bstat d a b => (4, encA 27 2 b.toNat a.toNat d.toNat)
  | .path d a b => (4, encA 27 3 b.toNat a.toNat d.toNat)
  | .trap a => (4, encA 28 0 0 a.toNat 0)
  | .eret => (4, encA 28 1 0 0 0)
  | .sysr d n => (4, encA 28 2 n.toNat 0 d.toNat)
  | .sysw n a => (4, encA 28 3 n.toNat a.toNat 0)
  | .replay d a => (4, encA 28 4 0 a.toNat d.toNat)
  | .disc d a b => (4, encA 28 5 b.toNat a.toNat d.toNat)
  | .wfi a => (4, encA 28 6 0 a.toNat 0)
  | .brk n => (4, encA 28 7 n.toNat 0 0)
  | .ldBS c d a b n => (8, encS 1 0 0 c d a b n)
  | .ldHS c d a b n => (8, encS 1 1 0 c d a b n)
  | .ldWS c d a b n => (8, encS 1 2 0 c d a b n)
  | .ldDS c d a b n => (8, encS 1 3 0 c d a b n)
  | .lduBS c d a b n => (8, encS 1 4 0 c d a b n)
  | .lduHS c d a b n => (8, encS 1 5 0 c d a b n)
  | .lduWS c d a b n => (8, encS 1 6 0 c d a b n)
  | .stBS c d a b n => (8, encS 1 7 0 c d a b n)
  | .stHS c d a b n => (8, encS 1 8 0 c d a b n)
  | .stWS c d a b n => (8, encS 1 9 0 c d a b n)
  | .stDS c d a b n => (8, encS 1 10 0 c d a b n)
  | .ldAcq s c d a b n => (8, encS 2 0 s.code c d a b n)
  | .stRel s c d a b n => (8, encS 2 1 s.code c d a b n)
  | .amoAdd u s c d a b n => (8, encS 3 (0 + 8 * u.code) s.code c d a b n)
  | .amoOr u s c d a b n => (8, encS 3 (1 + 8 * u.code) s.code c d a b n)
  | .amoXor u s c d a b n => (8, encS 3 (2 + 8 * u.code) s.code c d a b n)
  | .amoMin u s c d a b n => (8, encS 3 (3 + 8 * u.code) s.code c d a b n)
  | .amoMax u s c d a b n => (8, encS 3 (4 + 8 * u.code) s.code c d a b n)
  | .amoSwap u s c d a b n => (8, encS 3 (5 + 8 * u.code) s.code c d a b n)
  | .amoCas u s c d a b n => (8, encS 3 (6 + 8 * u.code) s.code c d a b n)
  | .amoLd u s c d a n => (8, encS 3 (7 + 8 * u.code) s.code c d a 0 n)
  | .vld h t v a => (8, encM 0 h t v a 0 0 0)
  | .vlds h t v a b => (8, encM 1 h t v a b.toNat 0 0)
  | .vldx h t v a x m => (8, encM 2 h t v a 0 (x.toNat % 256) (x.toNat / 256 + (match m with | none => 0 | some n => 2 * n.toNat + 8)))
  | .vldff h t v a n => (8, encM 3 h t v a 0 0 n.toNat)
  | .vst h t v a => (8, encM 4 h t v a 0 0 0)
  | .vsts h t v a b => (8, encM 5 h t v a b.toNat 0 0)
  | .vstx h t v a x m => (8, encM 6 h t v a 0 (x.toNat % 256) (x.toNat / 256 + (match m with | none => 0 | some n => 2 * n.toNat + 8)))
  | .vadd h t d a b => (8, encW 5 0 h t.code d.toNat a.toNat b.toNat 0)
  | .vsub h t d a b => (8, encW 5 1 h t.code d.toNat a.toNat b.toNat 0)
  | .vmul h t d a b => (8, encW 5 2 h t.code d.toNat a.toNat b.toNat 0)
  | .vfma h t d a b => (8, encW 5 3 h t.code d.toNat a.toNat b.toNat 0)
  | .vfms h t d a b => (8, encW 5 4 h t.code d.toNat a.toNat b.toNat 0)
  | .vfnma h t d a b => (8, encW 5 5 h t.code d.toNat a.toNat b.toNat 0)
  | .vmin h t d a b => (8, encW 5 6 h t.code d.toNat a.toNat b.toNat 0)
  | .vmax h t d a b => (8, encW 5 7 h t.code d.toNat a.toNat b.toNat 0)
  | .vabs h t d a => (8, encW 5 8 h t.code d.toNat a.toNat 0 0)
  | .vneg h t d a => (8, encW 5 9 h t.code d.toNat a.toNat 0 0)
  | .vdiv h t d a b => (8, encW 5 10 h t.code d.toNat a.toNat b.toNat 0)
  | .vsqrt h t d a => (8, encW 5 11 h t.code d.toNat a.toNat 0 0)
  | .vrsqrt h t d a => (8, encW 5 12 h t.code d.toNat a.toNat 0 0)
  | .vrcp h t d a => (8, encW 5 13 h t.code d.toNat a.toNat 0 0)
  | .vexp2 h t d a => (8, encW 5 14 h t.code d.toNat a.toNat 0 0)
  | .vlog2 h t d a => (8, encW 5 15 h t.code d.toNat a.toNat 0 0)
  | .vcvt h t u d a => (8, encW 5 16 h t.code d.toNat a.toNat 0 u.code)
  | .vand h t d a b => (8, encW 5 17 h t.code d.toNat a.toNat b.toNat 0)
  | .vor h t d a b => (8, encW 5 18 h t.code d.toNat a.toNat b.toNat 0)
  | .vxor h t d a b => (8, encW 5 19 h t.code d.toNat a.toNat b.toNat 0)
  | .vnot h t d a => (8, encW 5 20 h t.code d.toNat a.toNat 0 0)
  | .vshl h t d a b => (8, encW 5 21 h t.code d.toNat a.toNat b.toNat 0)
  | .vshr h t d a b => (8, encW 5 22 h t.code d.toNat a.toNat b.toNat 0)
  | .vsra h t d a b => (8, encW 5 23 h t.code d.toNat a.toNat b.toNat 0)
  | .vcmp h c t d a b => (8, encW 5 24 h t.code d.toNat a.toNat b.toNat c.code)
  | .vsel h t d a b k => (8, encW 5 25 h t.code d.toNat a.toNat b.toNat k.toNat)
  | .vredsum h t d a b => (8, encW 5 26 h t.code d.toNat a.toNat b.toNat 0)
  | .vredmax h t d a b => (8, encW 5 27 h t.code d.toNat a.toNat b.toNat 0)
  | .vredmin h t d a b => (8, encW 5 28 h t.code d.toNat a.toNat b.toNat 0)
  | .vscan h o t d a => (8, encW 5 29 h t.code d.toNat a.toNat 0 o.code)
  | .vperm h t d a b => (8, encW 5 30 h t.code d.toNat a.toNat b.toNat 0)
  | .vslideup h t d a n => (8, encW 5 31 h t.code d.toNat a.toNat (n.toNat % 512) (n.toNat / 512))
  | .vslidedn h t d a n => (8, encW 5 32 h t.code d.toNat a.toNat (n.toNat % 512) (n.toNat / 512))
  | .vbcast h t d a n => (8, encW 5 33 h t.code d.toNat a.toNat (n.toNat % 512) (n.toNat / 512))
  | .vcomp h t d a k => (8, encW 5 34 h t.code d.toNat a.toNat 0 k.toNat)
  | .viota h t d k => (8, encW 5 35 h t.code d.toNat k.toNat 0 0)
  | .vrot h t d a b => (8, encW 5 36 h t.code d.toNat a.toNat b.toNat 0)
  | .vdot h t u d a b => (8, encW 5 37 h t.code d.toNat a.toNat b.toNat u.code)
  | .vseed h a => (8, encW 5 38 h 0 0 a.toNat 0 0)
  | .vmv h t d a => (8, encW 6 0 h t.code d.toNat a.toNat 0 0)
  | .kand h d a b => (8, encW 6 1 h 0 d.toNat a.toNat b.toNat 0)
  | .kor h d a b => (8, encW 6 2 h 0 d.toNat a.toNat b.toNat 0)
  | .kxor h d a b => (8, encW 6 3 h 0 d.toNat a.toNat b.toNat 0)
  | .knot h d a => (8, encW 6 4 h 0 d.toNat a.toNat 0 0)
  | .tmov h a b c g => (8, encG 7 0 h a.toNat b.toNat c.toNat 0 g.toNat)
  | .tmovFp h a b c d g => (8, encG 7 1 h a.toNat b.toNat c.toNat d.toNat g.toNat)
  | .tfill h a b c g => (8, encG 7 2 h a.toNat b.toNat c.toNat 0 g.toNat)
  | .tcmp h a b c d g => (8, encG 7 3 h a.toNat b.toNat c.toNat d.toNat g.toNat)
  | .pull h d a g => (8, encG 8 0 h a.toNat 0 0 d.toNat g.toNat)
  | .pullF h d a b c g => (8, encG 8 1 h a.toNat b.toNat c.toNat d.toNat g.toNat)
  | .pub h a b c => (8, encG 9 0 h a.toNat b.toNat c.toNat 0 0)
  | .pubMc h a b c d => (8, encG 9 1 h a.toNat b.toNat c.toNat 0 d.toNat)
  | .mcode h v => (8, encT 0 h 0 0 0 v.toNat 0 0)
  | .mload h m v => (8, encT 1 h 0 0 0 v.toNat m.toNat 0)
  | .mloadVq h m v => (8, encT 2 h 0 0 0 v.toNat m.toNat 0)
  | .mmma h c d a m n l => (8, encT 3 h 0 c.toNat d.toNat a.toNat m.toNat (l.toNat * 2 ^ 7 + n.toNat * 2 ^ 8))
  | .mmmaSp h c d a m n l => (8, encT 4 h 0 c.toNat d.toNat a.toNat m.toNat (l.toNat * 2 ^ 7 + n.toNat * 2 ^ 8))
  | .mcomp h d a => (8, encT 5 h 0 0 d.toNat a.toNat 0 0)
  | .outl h a => (8, encT 6 h 0 0 0 a.toNat 0 0)
  | .azero h d n => (8, encT 7 h n.toNat 0 d.toNat 0 0 0)
  | .aexp h d s => (8, encT 8 h 0 0 d.toNat 0 0 s.toNat)
  | .anorm h d => (8, encT 9 h 0 0 d.toNat 0 0 0)
  | .mout h d a n => (8, encT 10 h 0 0 d.toNat a.toNat 0 (n.toNat * 2 ^ 6))
  | .moutRet h d a n => (8, encT 11 h 0 0 d.toNat a.toNat 0 (n.toNat * 2 ^ 6))
  | .attQ h v b c d p => (8, encQ 0 h 0 b.toNat c.toNat d.toNat 0 v.toNat p.toNat false false)
  | .attQF h v => (8, encQ 0 h 0 0 0 0 0 v.toNat 0 false true)
  | .attKv h a b p s => (8, encQ 1 h a.toNat b.toNat 0 0 0 0 p.toNat s false)
  | .attRun h s => (8, encQ 2 h 0 0 0 0 0 0 0 s false)
  | .attOut h d => (8, encQ 3 h 0 0 0 0 d.toNat 0 0 false false)
  | .attMerge h d a => (8, encQ 4 h 0 0 0 0 d.toNat a.toNat 0 false false)
  | .attPlan h a => (8, encQ 5 h a.toNat 0 0 0 0 0 0 false false)
  | .rst h a b c n => (8, encG 12 0 h a.toNat b.toNat c.toNat 0 (n.toNat * 8))
  | .rstMc h a b c n => (8, encG 12 1 h a.toNat b.toNat c.toNat 0 (n.toNat * 8))
  | .rld h d a c n => (8, encG 12 2 h a.toNat 0 c.toNat d.toNat (n.toNat * 8))
  | .ramo h o d a b c n => (8, encG 12 3 h a.toNat b.toNat c.toNat d.toNat (o.code + n.toNat * 8))
  | _ => (0, 0)

/-- The bytes of `i` as the instruction store holds them (R6). -/
def encode (i : Instr) : List Byte := leBytes (encodeNat i).1 (encodeNat i).2

end Sys2Proof
end

