-- ==== Sys2Proof/Config.lean ====
section
/-! DEFINITION. What the manual leaves to the implementation: the free values. Each is a constant with no body, so no
proof can see which value it has. -/

namespace Sys2Proof.Config

/-- Cycles that a step of the machine takes beyond the first, by the number of the step. The manual fixes no cycle count
of an instruction (R12): log entry 2. -/
opaque extraCycles : Nat → Nat

/-- PSTAT[63:32], the firmware version (Table 26-1 gives no value): log entry 3. -/
opaque firmwareVersion : BitVec 32

/-- The bytes of a state area of a save, by the number of the area in the order of their writing (R379: their layout is not
architectural): log entry 88. -/
opaque stateByte : Nat → Nat → Byte

/-- The energy that the on-die estimators give a context at an accounting tick, by their numbers (R331): log entry 63. -/
opaque energy : Nat → Nat → Nat

/-- Whether a group record that no `coll` has read names core `n` of a node and a member on node `k`: log entry 36. -/
opaque grouped : Nat → Nat → Nat → Bool

end Sys2Proof.Config
end

