-- ==== Sys2Proof/Machine/State.lean ====
section
/-! DEFINITION. The state of the package as plain data: the core in focus with its companion cores, engines, queues and
units; the other cores' states; memory; and the package units that a core's instructions reach (contexts, jobs, graphs,
grants, the control window, the fabric). A default value beside a field is its value at reset. -/

namespace Sys2Proof.Machine

/-- Why a step stops the machine. -/
inductive Fault
  /-- Raised by `step` alone, after a thermal trip and while no reset is at hand: the part waits for reset (R413), so no
  step of it exists. Safe: nothing can be proved of a run past this point but what follows a reset. -/
  | thermalTrip
  deriving DecidableEq, Repr

/-- Why a step has no meaning. -/
inductive Refusal
  /-- Raised by an arm of `exec` whose instruction has no meaning yet, with its mnemonic. Safe. -/
  | notModelled (mnemonic : String)
  deriving DecidableEq, Repr

/-- Memory and register space: bytes by location, in one canonical form (`Mem.Wf`). -/
abbrev Mem := List Host.Cell

/-- The trap causes of Table 22-4. -/
inductive Cause
  | illegal | orphanPrefix | landing | align | xlate | prot | fmt | fmtUnderflow | headroom | scaleCeiling | nanRow
  | reclaim | tokenOverflow | kvProbe | kvPool | firstFault | collAbort | batchErr | timer | brk | trap | machine
  deriving DecidableEq, Repr

/-- How a cause arrives (R359). -/
inductive Arrival | sync | engine (q : QueueId) | async
  deriving DecidableEq, Repr

/-- A trap posted to a companion core and not yet taken (R359). -/
structure Posted where
  cause : Cause
  eaddr : Word
  how   : Arrival
  deriving DecidableEq, Repr

/-- What a companion core is doing. `ended` is the end by `halt` or `task.end`, `stopped` the stop of a double trap. -/
inductive RunState | idle | running | ended | stopped
  deriving DecidableEq, Repr, Inhabited

/-- The vector configuration of a companion core (R15, Table 9-2). A policy is `true` for zero. -/
structure VCfg where
  vl   : BitVec 12 := 0
  ew   : EWidth := .e8
  grp  : BitVec 2 := 0
  tail : Bool := false
  mask : Bool := false
  deriving DecidableEq, Repr, Inhabited

/-- A prefix word that waits for its instruction (R30), with its address and the word itself. -/
structure PfxLatch where
  pfx  : Prefix
  addr : BitVec 17
  word : BitVec 32
  deriving DecidableEq, Repr

/-- Registers of a companion core: s registers, p registers, and the vector configuration. -/
structure Regs where
  s   : Word := 0
  p   : BitVec 16 := 0
  cfg : Bool := false
  deriving DecidableEq, Repr

/-- A scalar store that has not performed (R67): its class, its address, the location of its first byte and its bytes. -/
structure BufStore where
  cls   : BitVec 4
  va    : Word
  loc   : Nat
  bytes : List Byte
  /-- the classes whose later accesses it is ordered before: its own, and those of the loads that have returned its bytes
  (R340) -/
  names : BitVec 16
  /-- its number among the stores of its companion core -/
  id    : Nat := 0
  /-- the numbers of the earlier stores that it follows: those whose later accesses of its class follow them (R340), and those
  that an operand of it depends on, by the loads that returned their bytes (R344) -/
  after : List Nat := []
  /-- the writes of the store path that it follows, by their numbers (R340) -/
  prior : List Nat := []
  /-- the registers whose values are computed from a load that returned its bytes (R344) -/
  regs  : Regs := {}
  /-- the instruction in progress has loaded bytes of it -/
  lent  : Bool := false
  /-- the scope of the `st.rel` that it is (R348) -/
  rel   : Option Scope := none
  deriving DecidableEq, Repr

/-- An aligned 8 B unit as a companion core has read it ahead of the load that may return it (R340, R350, log entry 70). -/
structure Early where
  loc    : Nat
  val    : List Byte
  /-- the classes that a fence has named since -/
  fenced : BitVec 16 := 0
  /-- the classes of which an access of the companion core lies between, or an acquire or another instruction that a load of
  the class must follow -/
  past   : BitVec 16
  /-- the registers whose values are computed from a load that was made after it (R344) -/
  named  : Regs := {}
  /-- the instruction in progress has made such a load -/
  lent   : Bool := false
  /-- the vector registers that a vector load has filled since (R344) -/
  filled : List Nat := []
  /-- the writes of the store path before it are those of lower numbers -/
  upTo   : Nat := 0
  /-- the issued engine command that may return it, by its queue and number; none: a load of the companion core may -/
  cmd    : Option (QueueId × Nat) := none
  deriving DecidableEq, Repr

/-- The four token queues of a core (R46): loader to sequencer, sequencer to loader, sequencer to storer, storer to
sequencer. -/
inductive TokQ | ls | sl | ss | ts
  deriving DecidableEq, Repr

/-- What a companion core holds of a write (R340, R342, R347). -/
structure Hold where
  core  : Nat
  role  : Role
  /-- the classes of its accesses that made the write, returned it, or are ordered after it -/
  names : BitVec 16 := 0
  /-- the classes whose later accesses are ordered after it, by a fence or an acquire -/
  next  : BitVec 16 := 0
  /-- it has acquired it -/
  acq   : Bool := false
  /-- its releases of any class cover it: a read returned it, or it has been acquired or fenced -/
  cum   : Bool := false
  /-- the registers whose values are computed from a load that returned it or is ordered after it (R344) -/
  regs  : Regs := {}
  /-- the instruction in progress has made such a load -/
  lent  : Bool := false
  deriving DecidableEq, Repr

/-- Where a release of a write waits for the acquire that pairs with it (Table 20-2). -/
inductive Meet
  /-- at a word, released there at a scope by a core; `stays`: through a later plain store to the word (R114) -/
  | word (loc : Nat) (sc : Scope) (core : Nat) (stays : Bool)
  /-- at the word of an `st.rel` that has not performed, by its companion core and its number -/
  | unsent (core : Nat) (role : Role) (id : Nat)
  /-- in a token queue of a core, behind `ahead` tokens; `fence`: the scope of a `fence.x` that its pusher made before it -/
  | token (core : Nat) (q : TokQ) (ahead : Nat) (fence : Option Scope)
  /-- at a tag bit of a core -/
  | tag (core : Nat) (t : BitVec 6)
  /-- with an engine command of a core that has acquired it, by its queue and number: its retirement passes it on (R100) -/
  | cmd (core : Nat) (q : QueueId) (num : Nat)
  /-- at an arm of a core and context whose firing is held (R118) -/
  | arm (core : Nat) (ctx : Option (BitVec 16)) (slot : Nat)
  /-- at a cluster barrier, in a phase, by a core -/
  | bar (cluster phase core : Nat)
  /-- at the start of the tasks of a job, by its number -/
  | launch (job : Nat)
  /-- at the end of a task of a job; for a task of a graph by its graph, the number of its period and its stage -/
  | over (job : Nat) (entry : Option (Nat × Nat × Nat))
  /-- at a batch tag of the storer of a core -/
  | batch (core : Nat) (tag : BitVec 2)
  deriving DecidableEq, Repr

/-- A `fence.x` at a scope orders a write before the port operations of a companion core (R347): its own fence, or that of one
whose later token it has popped. -/
structure Upto where
  core : Nat
  role : Role
  sc   : Scope
  own  : Bool
  deriving DecidableEq, Repr

/-- A port operation of a core that reads blocks or buffers (R345): the pulls of a retention slot, a pull of a take slot, a
round. -/
inductive PortOp | block (slot : Nat) | take (slot : Nat) | round (slot : Nat)
  /-- a `pub` that has no retention slot yet, by its number in its queue -/
  | pub (num : Nat)
  deriving DecidableEq, Repr

/-- A port operation by its core and context. -/
structure PortKey where
  core : Nat
  ctx  : BitVec 16
  op   : PortOp
  deriving DecidableEq, Repr

/-- A write on the store path of a core which port paths need not see yet (R345): where it lies, and the bytes that lay there
before it. -/
structure Lag where
  core  : Nat
  loc   : Nat
  old   : List Byte
  /-- its number among the writes of the store paths -/
  num   : Nat := 0
  /-- the buffered store that it is, by its companion core and its number there -/
  src   : Option (Nat × Role × Nat) := none
  /-- the numbers of the writes that are ordered before it (R340) -/
  after : List Nat := []
  /-- the engine command that made it, by its queue and number -/
  eng   : Option (QueueId × Nat) := none
  holds : List Hold := []
  meets : List Meet := []
  upto  : List Upto := []
  /-- the port operations that a fence has ordered it before, each at its scope -/
  ports : List (PortKey × Scope) := []
  deriving DecidableEq, Repr

/-- A `.qnt` atomic that has not performed (Table 20-6): what `amo` does with it when it performs. -/
structure Deferred where
  cls  : BitVec 4
  op   : BitVec 3
  va   : Word
  loc  : Nat
  b    : Word
  due  : Word
  role : Role
  deriving DecidableEq, Repr

/-- One companion core (R35, R367). -/
structure Companion where
  s        : Vector Word 64 := Vector.replicate 64 0
  p        : BitVec 16 := 0
  b        : Vector Word 8 := Vector.replicate 8 0
  pc       : BitVec 17 := 0
  vcfg     : VCfg := {}
  run      : RunState := .idle
  pfx      : Option PfxLatch := none
  /-- the first fetch of a task checks the entry word's landing mark (R13) -/
  entry    : Bool := false
  /-- the instruction at `pc` has been executed and is waiting (R47, R360) -/
  waiting  : Bool := false
  /-- the deadline of the `wfi` it waits in (R376) -/
  wfi      : Option Word := none
  h        : Bool := false
  dlost    : Bool := false
  posted   : List Posted := []
  cause    : BitVec 8 := 0
  epc      : BitVec 16 := 0
  eaddr    : Word := 0
  /-- the EPC recorded at trap entry, held apart from the frame and from EPC (R372) -/
  entryEpc : BitVec 16 := 0
  /-- the capture area that the frame in force describes (R365) -/
  active   : Option QueueId := none
  /-- how many `deal` this companion core has executed in its task (R315) -/
  deals    : Nat := 0
  sbuf     : List BufStore := []
  /-- stores that it has made (R67) -/
  stores   : Nat := 0
  early    : List Early := []
  istore   : Mem := []
  deriving DecidableEq, Repr, Inhabited

/-- How far an engine command has come. -/
structure Progress where
  /-- completed elements, or 64 B units for tile moves and pulls (Table 22-3) -/
  units : Nat := 0
  /-- what is carried from unit to unit: the partial fingerprint or comparison of a tile move (R105) -/
  carry : List Word := []
  /-- bytes that a tile move has read of the unit whose later access has faulted (R105) -/
  read  : List Word := []
  /-- a tile move's order, from its first unit on: descending, or ascending (R105) -/
  down  : Option Bool := none
  deriving DecidableEq, Repr

/-- An engine command as it stands in a queue: the instruction as issued and what its issue captured. -/
structure Cmd where
  instr  : Instr
  word   : Word := 0
  pfx    : Prefix := ⟨none, false, none, none, none⟩
  pword  : BitVec 32 := 0
  /-- the captured scalar operands, in the order a, b, c, d (for a vector memory command sa, sb) -/
  ops    : List Word := []
  /-- the captured view descriptors (R161), in the order vd, va -/
  views  : List Word := []
  vcfg   : VCfg := {}
  /-- the format word it reserved (R200) -/
  fmt    : Option Word := none
  /-- that word still lies in the format-word queue -/
  held   : Bool := false
  popped : Bool := false
  /-- the outlier list that its capture slot holds (R365) -/
  outl   : Option (List Nat) := none
  prog   : Progress := {}
  /-- its number in its queue (R343) -/
  num    : Nat := 0
  /-- the stores of its companion core that its issue has released, and the writes of the store path that it follows, each by
  their numbers (R25, R340) -/
  stores : List Nat := []
  prior  : List Nat := []
  deriving DecidableEq, Repr

/-- The state of a capture slot (Table 22-3). -/
inductive SlotState | pending | reinjected | discarded
  deriving DecidableEq, Repr

structure Slot where
  cmd     : Cmd
  faulted : Bool
  state   : SlotState := .pending
  deriving DecidableEq, Repr

/-- A command queue (R44) with what has executed and not retired, and its capture area (R365). -/
structure Queue where
  cmds    : List Cmd := []
  done    : List Cmd := []
  slots   : List Slot := []
  /-- captured by a cause that is posted and not taken: the slots of the next frame (R365) -/
  captured : List Slot := []
  /-- an engine fault stopped the queue until its companion core has entered the handler (R359) -/
  stopped : Bool := false
  /-- commands that it has taken -/
  seq     : Nat := 0
  deriving DecidableEq, Repr, Inhabited

/-- The four token counts (R46). -/
structure Tokens where
  ls : Nat := 0
  sl : Nat := 0
  ss : Nat := 0
  ts : Nat := 0
  deriving DecidableEq, Repr, Inhabited

/-- What an arm does when it fires (Table 6-7). -/
structure Arm where
  ctr   : Nat
  /-- virtual address of the counter, of the record and the operand -/
  cva   : Word
  record : Word
  thr   : Word
  kind  : BitVec 8
  tag   : BitVec 6
  opnd  : Word
  /-- its place in the order of arming (R117) -/
  seq   : Nat
  /-- the job whose task armed it, and the role -/
  job   : Option Nat
  role  : Role
  /-- the threshold was passed while the core did not run the context (R118) -/
  held  : Bool := false
  deriving DecidableEq, Repr

/-- A CIM macro (R196). A value is a pair (numerator, exponent of 2), or `none` for a NaN-class element. -/
structure Macro where
  loaded : Bool := false
  fmt    : BitVec 5 := 0
  scale  : BitVec 8 := 0
  sparse : Bool := false
  /-- element (k, n) with its block scale, by k * 128 + n; absent entries are zero -/
  vals   : List (Nat × Option (Int × Int)) := []
  /-- magnitude of the block scale, or for BF16 and FP16 the greatest element power of two (R207), of the elements (k, n) to
  (k + 15, n), by k * 128 + n with k a multiple of 16; absent where nothing was loaded -/
  scales : List (Nat × Option (Int × Int)) := []
  deriving DecidableEq, Repr, Inhabited

/-- A token of a stage (Table 14-1): sequence index, rotated key row and value row as element codes. -/
structure StageTok where
  index : BitVec 32
  key   : List Nat
  value : List Nat
  deriving DecidableEq, Repr

structure Stage where
  fmt  : BitVec 8 := 0
  toks : List StageTok := []
  deriving DecidableEq, Repr, Inhabited

/-- A row of the query buffer with its running state (Table 14-1). -/
structure QRow where
  q     : List Nat
  limit : Word
  m     : BitVec 32
  l     : BitVec 32
  o     : List (BitVec 32)
  nan   : Bool := false
  deriving DecidableEq, Repr

/-- What an `att.kv` has staged and its retirement installs (R245): the stage, and the PB register where a block
contributed. -/
structure Staged where
  st    : Bool
  stage : Stage
  pb    : Option (PbReg × BitVec 32)
  deriving DecidableEq, Repr

/-- The attention pipe (R240). -/
structure Att where
  freq  : Vector Word 64 := Vector.replicate 64 0
  rows  : List QRow := []
  scale : BitVec 32 := 0
  st0   : Stage := {}
  st1   : Stage := {}
  pb    : Vector (BitVec 32) 16 := Vector.replicate 16 0
  /-- of the executed `att.kv` commands that have not retired, oldest first -/
  staged : List Staged := []
  deriving DecidableEq, Repr, Inhabited

/-- The fields of a delivered notice (Table 8-1), with its arrival. -/
structure Notice where
  note    : BitVec 256
  arrival : Word
  /-- its place in the order of arrival -/
  seq     : Nat
  /-- bytes already taken in pieces (R135) -/
  taken   : Nat := 0
  /-- withdrawn by its producer after a piece of it was taken (R150) -/
  withdrawn : Bool := false
  /-- it lies in the spill area, at this address (R132) -/
  spill   : Option Word := none
  deriving DecidableEq, Repr

/-- A place of the receive ring (R134): offset, bytes with the bytes skipped after it, freed. -/
structure Place where
  off   : Nat
  bytes : Nat
  free  : Bool := false
  deriving DecidableEq, Repr

/-- How far the pull of a take has come (R143). -/
inductive PullState
  | none
  | queued
  /-- booked, its request released at this cycle -/
  | booked (release : Word) (sent : Bool)
  | ended (outcome : Nat)
  | retired (outcome : Nat)
  deriving DecidableEq, Repr

/-- Where the follow-on of a `pull.f` is (R144). -/
inductive Follow | none | placed | retired
  deriving DecidableEq, Repr

/-- A take slot in use (R137). -/
structure Take where
  note  : BitVec 256
  /-- the copy of the notice that it is a piece of, by its place in the order of arrival -/
  copy  : Nat
  off   : Nat
  size  : Nat
  place : Nat
  last  : Bool
  withdrawn : Bool := false
  /-- the producer's count has fallen for this copy (R140) -/
  counted : Bool := false
  /-- bytes that have landed, where a response travels as several packets (R259) -/
  got   : Nat := 0
  /-- the request that it shares at its die's bridge (R147) -/
  bridge : Option Nat := none
  /-- the answer, where it has been read and has not landed (R129) -/
  ans   : Option (PullAnswer × Bool) := none
  /-- the class of its pull (R142) -/
  cls   : BitVec 4 := 0
  follow : Follow := .none
  pull  : PullState := .none
  /-- an armed pull: its arm record and tag (R117) -/
  arm   : Option (Word × BitVec 6) := none
  deriving DecidableEq, Repr

/-- A retention slot in use (R128). -/
structure Retain where
  count : BitVec 16
  seq   : BitVec 32
  ctr   : Word
  /-- a list (`pub.mc`): its address and length; else the consumer word -/
  mc    : Option (Word × Nat)
  cons  : BitVec 32
  deadline : Option Word
  expired  : Bool := false
  job   : Option Nat
  deriving DecidableEq, Repr

/-- A `pub` on its way (R127): its record has been read and checked; `slot` is there once it has a retention slot. -/
structure Publishing where
  slot   : Option (BitVec 8)
  note   : BitVec 256
  /-- consumers that have not accepted their copy, in list order, and those of other nodes whose answer is awaited -/
  left   : List (BitVec 32)
  asked  : List (BitVec 32) := []
  /-- where the completed record is written back, by the translation checked when it was read -/
  back   : List (Nat × Nat)
  /-- its class (R126) -/
  cls    : BitVec 4 := 0
  deriving DecidableEq, Repr

/-- The port engine of a core (08_notices_and_pulls). -/
structure Port where
  store   : List Notice := []
  spilled : List Notice := []
  arrivals : Nat := 0
  policy  : BitVec 256 := 0
  ringH   : Nat := 0
  ringT   : Nat := 0
  ringU   : Nat := 0
  places  : List Place := []
  takes   : Vector (Option Take) 64 := Vector.replicate 64 none
  takeGen : Vector (BitVec 16) 64 := Vector.replicate 64 0
  free    : Word := 0
  pubseq  : BitVec 32 := 0
  retain  : Vector (Option Retain) 256 := Vector.replicate 256 none
  publishing : Option Publishing := none
  deriving DecidableEq, Repr, Inhabited

/-- An entry of the combining buffer (R272): a 64 B line of one flow, with the bytes it holds. -/
structure Combine where
  node  : BitVec 12
  cls   : BitVec 4
  tag   : BitVec 2
  line  : Word
  bytes : List (Nat × Byte)
  made  : Word
  /-- the writes of the store path that its stores follow, by their numbers (R340) -/
  after : List Nat := []
  deriving DecidableEq, Repr

/-- The state of a batch tag (R275). -/
inductive BatchState | empty | opened | closed | complete
  deriving DecidableEq, Repr, Inhabited

structure Batch where
  state    : BatchState := .empty
  peers    : List (BitVec 12) := []
  answered : List (BitVec 12) := []
  errors   : Word := 0
  count    : BitVec 32 := 0
  job      : Option Nat := none
  /-- its summary requests have been sent -/
  asked    : Bool := false
  deriving DecidableEq, Repr, Inhabited

/-- A remote load or atomic that waits for its reply (R270): the session and sequence, and the reply (`none` inside:
the operation failed). -/
structure RemoteWait where
  node  : BitVec 12
  die   : BitVec 3
  seq   : BitVec 32
  reply : Option (Option Word) := none
  deriving DecidableEq, Repr

/-- How a round stands (R302). -/
inductive RoundState | running | complete | aborted
  deriving DecidableEq, Repr

/-- A collective round slot in use (R290). -/
structure Round where
  block  : BitVec 1024
  group  : BitVec 512
  /-- the consumer words of the members, in rank order -/
  members : List (BitVec 32)
  /-- the number of the round and the resolved algorithm (1 to 3) -/
  n      : BitVec 32
  algo   : Nat
  job    : Option Nat
  /-- the task that issued it, by its number on the core -/
  task   : Nat
  issued : Word
  /-- since when it waits for the report it now needs (R300) -/
  since  : Word
  state  : RoundState := .running
  status : Nat := 0
  causeRank : BitVec 32 := 0xFFFFFFFF
  /-- at the coordinator: the ranks whose ready reports it holds -/
  ready  : List Nat := []
  /-- the participants of the start report -/
  parts  : Option (List Nat) := none
  /-- steps performed, and step reports sent -/
  step   : Nat := 0
  sent   : Nat := 0
  /-- pulls and other moves of the step in progress that are done; the next one's pulls have been booked; and the bytes of
  members of other nodes that have come for it -/
  piece  : Nat := 0
  asked  : Bool := false
  /-- of those pulls, the ones not released yet: position, which buffer, offset and length, with the cycle of their release (R265,
  R283) -/
  due    : List ((Nat × Bool × Nat × Nat) × Nat) := []
  buf    : List Byte := []
  /-- step reports received: rank and step -/
  got    : List (Nat × Nat) := []
  deriving DecidableEq, Repr

/-- A start report that a coordinator keeps after its round has ended, with the round (R291). -/
structure KeptStart where
  id    : RoundId
  parts : List Nat
  round : Round
  until_ : Word
  deriving DecidableEq, Repr

/-- Members at which a round of a job is not known to have ended (R303, log entry 48). -/
structure Abroad where
  id    : RoundId
  job   : Option Nat
  ranks : List (Nat × BitVec 12)
  deriving DecidableEq, Repr

/-- The round slots of the storer of a core for a context (R290), which its die's crossing runs whether or not the
context runs on the core (R303). -/
structure CollUnit where
  ctx    : BitVec 16
  core   : Nat
  rounds : Vector (Option Round) 8 := Vector.replicate 8 none
  gens   : Vector (BitVec 16) 8 := Vector.replicate 8 0
  kept   : List KeptStart := []
  abroad : List Abroad := []
  /-- members whose report of the end of a round has come before this member has issued it, by their ranks (R303) -/
  ends   : List (RoundId × Nat) := []
  /-- the first cycle not booked of the timetable of its step pulls (R283) -/
  free   : Word := 0
  deriving DecidableEq, Repr

/-- What an engine's write has still to reach, while the command that makes it has not retired (R36): bytes of register space,
and bits of k registers, selected by a mask; the command by its queue and number. -/
structure Torn where
  q  : QueueId
  num : Nat
  rs : List (Nat × Byte)
  k  : List (KReg × BitVec 3072 × BitVec 3072)
  deriving DecidableEq, Repr

/-- One core: its companion cores, queues, registers, engines and units (R4, Tables 2-8 and 22-10). -/
structure Core where
  loader    : Companion := {}
  sequencer : Companion := {}
  storer    : Companion := {}
  queues    : Vector Queue 10 := Vector.replicate 10 {}
  /-- the command whose engine makes the accesses of the step in progress, by its queue and number -/
  exec      : Option (QueueId × Nat) := none
  tokens    : Tokens := {}
  tags      : Word := 0
  arms      : Vector (Option Arm) 16 := Vector.replicate 16 none
  rs        : Mem := []
  torn      : List Torn := []
  k         : Vector (BitVec 3072) 8 := Vector.replicate 8 0
  vbm       : Vector (BitVec 3072) 4 := Vector.replicate 4 0
  views     : Vector Word 8 := Vector.replicate 8 0
  macros    : Vector Macro 8 := Vector.replicate 8 {}
  codebook  : Vector (BitVec 16) 256 := Vector.replicate 256 0
  outliers  : List Nat := []
  fmtq      : List Word := []
  fmtRes    : Nat := 0
  tiles     : Nat := 0
  att       : Att := {}
  seed      : Word := 0
  genVec    : Word := 0x9E3779B97F4A7C15
  genMat    : Word := 0x5555555555555555
  genAtt    : Word := 0xAAAAAAAAAAAAAAAA
  tvec      : Word := 0
  kvtab     : Word := 0
  kvseq     : Word := 0
  quant     : BitVec 32 := 10
  retto     : Word := 0x1000000
  disc      : List (Word × Word) := []
  deferred  : List Deferred := []
  port      : Port := {}
  batches   : Vector Batch 4 := Vector.replicate 4 {}
  openTag   : BitVec 2 := 0
  /-- batches that an ended task left closed and not complete, with their tags (R275) -/
  lateBatches : List (BitVec 2 × Batch) := []
  combine   : List Combine := []
  remote    : Option RemoteWait := none
  /-- the context whose state the core holds, and the job of the last task on it (R310) -/
  ctx       : Option (BitVec 16) := none
  lastJob   : Option Nat := none
  /-- tasks that the core has started for the context -/
  taskNo    : Nat := 0
  deriving DecidableEq, Repr, Inhabited

/-- A range slot (R72): base, limit, offset and rights. -/
structure Range where
  base  : Word
  limit : Word
  offset : Word
  r     : Bool
  w     : Bool
  deriving DecidableEq, Repr

/-- A bucket (R330, R331); `cap = none` is an unlimited one. -/
structure Bucket where
  level  : Int
  refill : Nat
  cap    : Option Nat
  deriving DecidableEq, Repr

/-- A context (R408). -/
structure Ctx where
  id     : BitVec 16
  root   : Word
  save   : Word
  quant  : BitVec 32
  vector : BitVec 6
  retto  : BitVec 40
  kvtab  : Word
  kvseq  : Word
  seed   : Word
  ranges : Vector (Option Range) 64
  time   : Bucket
  bw     : Bucket
  nrg    : Bucket
  eligible : Bool := true
  /-- a CTXCMD of op 2 waits for its jobs to complete (R407) -/
  dying  : Bool := false
  deriving DecidableEq, Repr

/-- A job in a slot of its dealing die (R312, R313). -/
structure Job where
  id    : Nat
  ctx   : BitVec 16
  die   : Nat
  slot  : Nat
  gen   : BitVec 16
  card  : BitVec 1024
  /-- the core set of R308, fixed at launch -/
  cores : List Nat
  left  : Nat
  next  : Nat
  tasks : BitVec 32 := 0
  started : Bool := false
  cancelled : Bool := false
  /-- its own graph waits for the die's balance engine (R320) -/
  unbound : Bool := false
  lateAbort : Bool := false
  lateBatch : Bool := false
  deriving DecidableEq, Repr

/-- One entry of a firing table (Table 18-9). -/
structure Firing where
  stage   : Nat
  core    : Nat
  firings : Nat
  phase   : Nat
  deriving DecidableEq, Repr

/-- A solved graph table (R320): header, stage and channel entries as read, and what the balance engine computes. -/
structure Solved where
  table   : Word
  hdr     : BitVec 256
  stages  : List (BitVec 256)
  chans   : List (BitVec 256)
  /-- repetitions, ring sizes in records, buffer offsets, firing table, bytes used -/
  reps    : List Nat
  rings   : List Nat
  offsets : List Nat
  entries : List Firing
  used    : Nat
  deriving DecidableEq, Repr

/-- A rebind that waits for its drain (R323): the new table, and the companion core and `grebind` that asked for it. -/
structure Rebind where
  plan  : Solved
  core  : Nat
  role  : Role
  pc    : BitVec 17
  deriving DecidableEq, Repr

/-- A rebind that has ended and whose `grebind` has not returned: the fault of its copy, if any. -/
structure Rebound where
  core  : Nat
  role  : Role
  pc    : BitVec 17
  fault : Option (Cause × Word)
  deriving DecidableEq, Repr

/-- A bound graph (R320 to R322). -/
structure Graph where
  ctx    : BitVec 16
  die    : Nat
  slot   : Nat
  gen    : BitVec 16
  job    : Nat
  plan   : Solved
  requested : Nat := 0
  completed : Nat := 0
  /-- periods completed since the table in force was installed -/
  base   : Nat := 0
  /-- entries started and not ended, and entries ended, by their number since the table was installed -/
  running : List Nat := []
  ended  : List Nat := []
  next   : Nat := 0
  rebind : Option Rebind := none
  rebound : List Rebound := []
  deriving DecidableEq, Repr

/-- A task on a core (R314, R322): its job, its chunks in dealing order (first index and count), or its graph entry. -/
structure Task where
  core   : Nat
  ctx    : BitVec 16
  job    : Nat
  chunks : List (Nat × Nat)
  entry  : Option (Nat × Nat) := none
  deriving DecidableEq, Repr

/-- How a cluster stands (R327, R378): held; asked to stop for its next owner; stopped, its old owner being saved; or its
new owner being restored. -/
inductive Phase | held | preempting (next : Option (BitVec 16)) | saving (next : Option (BitVec 16)) | restoring
  deriving DecidableEq, Repr

structure Grant where
  owner : Option (BitVec 16) := none
  phase : Phase := .held
  deriving DecidableEq, Repr

/-- A cluster barrier (R119). -/
structure Bar where
  g       : Word := 0
  mask    : BitVec 8 := 0
  arrived : BitVec 8 := 0
  deriving DecidableEq, Repr, Inhabited

/-- What a save leaves outside the save area's images: the state areas of a cluster (Table 22-9). -/
structure Saved where
  ctx     : BitVec 16
  cluster : Nat
  cores   : List (Nat × Core)
  bar     : Bar
  lost    : List Nat
  /-- uncorrectable units of its stores and of register space (R103) -/
  poison  : List Nat
  /-- the numbers of its state areas' images begin here: its cores' and then its own (log entry 88) -/
  first   : Nat := 0
  deriving DecidableEq, Repr

/-- What a state area holds (R379): the state of a core, or the barrier of a cluster. -/
inductive Area
  | core (c : Core)
  | bar (b : Bar)
  deriving DecidableEq, Repr

/-- A packet sent and not acknowledged (R263). -/
structure Sent where
  pkt : Packet
  die : Nat
  alt : Nat
  atCycle : Word
  first : Word
  core : Nat
  deriving DecidableEq, Repr

/-- A session towards a node from a die's crossing (R263). -/
structure Session where
  die     : Nat
  node    : BitVec 12
  next    : BitVec 32 := 0
  unacked : List Sent := []
  lastAck : Word := 0
  dead    : Bool := false
  deriving DecidableEq, Repr

/-- The receiving side of a session: the next sequence to perform, replies kept, packets waiting for their turn. -/
structure InSession where
  node    : BitVec 12
  die     : BitVec 3
  next    : BitVec 32 := 0
  replies : List (BitVec 32 × Packet) := []
  early   : List Packet := []
  /-- contexts, source cores and batch tags with an operation that failed here since the last summary reply -/
  failed  : List (BitVec 16 × BitVec 16 × BitVec 2) := []
  deriving DecidableEq, Repr

/-- A request that pulls of one die share at its bridge (R147): what they name, when the first came, the answer once it has
been read, and how many have not landed. -/
structure Bridge where
  id    : Nat
  die   : Nat
  core  : Nat
  seq   : BitVec 32
  addr  : Word
  len   : Nat
  first : Word
  cores : List Nat
  ans   : Option (PullAnswer × Bool) := none
  left  : Nat := 1
  deriving DecidableEq, Repr

/-- A decrement or a withdrawal that its sender holds until the context runs on the core again (R378). -/
inductive HeldMsg
  | decrement (slot : Nat) (seq : BitVec 32)
  | withdrawal (core node : Nat) (seq : BitVec 32)
  /-- another node's answer to a copy of a notice: 0 taken, 1 as if declined, 2 refused (log entry 50) -/
  | noticeAnswer (consumer : BitVec 32) (seq : BitVec 32) (code : Nat)
  deriving DecidableEq, Repr

/-- The control window (Table 26-1). -/
structure Window where
  ready   : Bool := false
  tripped : Bool := false
  ctxAddr : Word := 0
  ctxStat : Word := 0
  fault   : Word := 0
  faddr   : Word := 0
  plimit  : BitVec 13 := 4800
  card    : BitVec 1024 := 0
  lstat   : Word := 0
  deriving DecidableEq, Repr

/-- What the part carries (R410 to R412). -/
structure Fuses where
  clusters : List Nat := []
  cores    : List Nat := []
  stackSize : Vector Nat 16 := Vector.replicate 16 0xC00000000
  links    : Word := 0xAAAAAAAAAAAAAAAA
  deriving DecidableEq, Repr

/-- What a message of a round says: the reports of kind 10, and the pulls of a step with their answers (R283, R285). -/
inductive CollBody
  | ready
  | start (parts : List Nat)
  | step
  | abort (cause : BitVec 32)
  | pull (send : Bool) (off len : Nat)
  | data (off : Nat) (a : PullAnswer)
  deriving DecidableEq, Repr

/-- What the part sends to the outside. -/
inductive Msg
  | msix (vector : BitVec 6)
  /-- a packet through a Krytway port: its header (Table 16-1) and its payload -/
  | krytway (port : Nat) (header : BitVec 256) (payload : List Byte)
  /-- the others for another node carry the port they leave by, as `port`, and their header, as `hdr` -/
  | pullRequest (port : Nat) (hdr : BitVec 256) (take : BitVec 6) (rec : BitVec 256) (off size : Nat)
  | pullAnswer (port : Nat) (hdr : BitVec 256) (consumer : BitVec 32) (take : BitVec 6) (off : Nat) (a : PullAnswer)
  | notice (port : Nat) (hdr : BitVec 256) (ctx : BitVec 16) (consumer : BitVec 32) (rec : BitVec 256)
  | withdrawal (port : Nat) (hdr : BitVec 256) (consumer : BitVec 32) (core node : BitVec 16) (seq : BitVec 32)
  | decrement (port : Nat) (hdr : BitVec 256) (node core slot : BitVec 16) (seq : BitVec 32)
  /-- a message of a round to the member of a consumer word, with its sender's rank and step (R285); a port and a header where
  that member is on another node -/
  | coll (port : Option (Nat × BitVec 256)) (dest : BitVec 32) (id : RoundId) (rank step : Nat) (body : CollBody)
  deriving DecidableEq, Repr

/-- Who moves next: a companion core takes its turn, a scalar store of it performs, it reads a unit ahead, a write of the
store path becomes visible to the port path, a command executes with bytes and mask bits that its write reaches later, a
vector memory command takes an element out of order, an event comes about, the focus goes to another core of the package, or
another agent writes memory. -/
inductive Pick
  | comp (r : Role)
  | drain (r : Role) (i : Nat)
  | early (r : Role) (va : Word)
  | settle (i : Nat)
  | tear (q : QueueId) (late : List Nat) (bits : BitVec 3072)
  | element (q : QueueId) (i : Nat)
  | event (i : Instr)
  | focus (core : Nat)
  | outside (loc : Nat) (bytes : List Byte)
  deriving DecidableEq, Repr

/-- The package. -/
structure State where
  cur      : Role := .loader
  coreId   : Nat := 0
  core     : Core := {}
  others   : List (Nat × Core) := []
  mem      : Mem := []
  /-- units whose ECC is uncorrectable, by the location of their first byte (R69, R103) -/
  poison   : List Nat := []
  /-- lost 64 B units of discardable regions, by the location of their first byte (R382) -/
  lost     : List Nat := []
  /-- writes that port paths need not see yet (R345), and the number of the next one -/
  lag      : List Lag := []
  lagSeq   : Nat := 0
  /-- HBM and Krytway bytes of a context since the last accounting tick, by its number (Table 19-2); an entry also says that it
  had traffic or a cluster that it has lost since (R331) -/
  used     : List (Nat × Nat) := []
  ctxs     : List Ctx := []
  jobs     : List Job := []
  jobIds   : Nat := 0
  jobGens  : List (Nat × BitVec 16) := []
  graphs   : List Graph := []
  graphGens : List (Nat × BitVec 16) := []
  /-- binds and rebinds of each graph slot (Table 18-8) -/
  firingGens : List (Nat × BitVec 32) := []
  tasks    : List Task := []
  grants   : Vector Grant 96 := Vector.replicate 96 {}
  pointers : List (Nat × BitVec 16) := []
  bars     : List (Nat × Bar) := []
  saved    : List Saved := []
  /-- the state areas that saves have written, by their number, and how many there are -/
  areas    : List (Nat × Area) := []
  areaSeq  : Nat := 0
  /-- dies whose store a context has saved and not taken back (R378), with its uncorrectable units -/
  savedDies : List (BitVec 16 × Nat × List Nat) := []
  /-- what senders hold for a context and a core -/
  held     : List (BitVec 16 × Nat × HeldMsg) := []
  colls    : List CollUnit := []
  /-- the member lists of the groups that a `coll` has read (R284, Table 20-1) -/
  groups   : List (List (BitVec 32)) := []
  armSeq   : Nat := 0
  paths    : List (Nat × Word) := []
  pathHead : Vector Word 8 := Vector.replicate 8 0x0040000000000000
  sessions : List Session := []
  /-- the first free cycle of the ingress timetable of a Krytway port (R265) -/
  portFree : List (Nat × Word) := []
  /-- pulls coalesced at the bridges (R147), and the number of the next one -/
  bridges  : List Bridge := []
  bridgeSeq : Nat := 0
  inbound  : List InSession := []
  window   : Window := {}
  fuses    : Fuses := {}
  /-- the width of each Krytway port now, as CAP_LINKS numbers it (R266) -/
  links    : Word := 0xAAAAAAAAAAAAAAAA
  cycle    : Word := 0
  ticks    : Nat := 0
  /-- arms whose threshold the step in progress has passed: core, slot, and the context
  whose saved state holds the arm; in firing order (R117, R118) -/
  firing   : List (Nat × Nat × Option (BitVec 16)) := []
  /-- an allocation is due at the next accounting tick (R329) -/
  realloc  : Bool := false
  /-- accounting ticks and slice boundaries that have come about, and a tick whose refill has not (R329, R332) -/
  tickDone : Nat := 0
  sliceDone : Nat := 0
  refillDue : Bool := false
  agenda   : List Pick := [.event .reset]
  /-- where the machine's own order stands: the core that moved last, and at each core the key of the next mover (log entry 8) -/
  turnCore : Nat := 0
  turns    : List (Nat × Nat) := []
  outbox   : List Msg := []
  deriving DecidableEq, Repr

/-- The package right after reset: every field at its value beside it above. -/
def State.reset : State := {}

end Sys2Proof.Machine
end

