-- ==== Sys2Proof/Machine/Ops.lean ====
section
/-! DEFINITION. The named operations over memory and registers: the canonical memory, address resolution (R70 to R74),
scalar accesses with their store buffers (R66, R67), taking a trap (R361 to R364) and returning from one (R372). -/

namespace Sys2Proof

def Role.num : Role → Nat
  | .loader => 0 | .sequencer => 1 | .storer => 2

def QueueId.num : QueueId → Fin 10
  | .loaderVec => 0 | .loaderPort => 1 | .loaderAtt => 2 | .seqVec => 3 | .seqMat => 4 | .seqAtt => 5
  | .storerVec => 6 | .storerPort => 7 | .storerRemote => 8 | .followOn => 9

/-- The companion core that takes the faults of a queue (Table 3-5, R144). -/
def QueueId.owner : QueueId → Role
  | .loaderVec | .loaderPort | .loaderAtt | .followOn => .loader
  | .seqVec | .seqMat | .seqAtt => .sequencer
  | .storerVec | .storerPort | .storerRemote => .storer

/-- The queue code of Table 22-3. -/
def QueueId.code : QueueId → Nat
  | .loaderVec | .seqVec | .storerVec => 0
  | .seqMat => 1 | .followOn => 2 | .loaderAtt | .seqAtt => 3
  | .loaderPort | .storerPort => 4 | .storerRemote => 5

def QueueId.all : List QueueId :=
  [.loaderVec, .loaderPort, .loaderAtt, .seqVec, .seqMat, .seqAtt, .storerVec, .storerPort, .storerRemote, .followOn]

/-- No field of the prefix is set (R28). -/
def Prefix.bare (p : Prefix) : Bool :=
  p.rnd.isNone && !p.sat && p.mask.isNone && p.tail.isNone && p.mpol.isNone

def Prefix.none : Prefix := ⟨Option.none, false, Option.none, Option.none, Option.none⟩

/-- The bits of the s registers that an address is made from; s0 is no value of any load. -/
def regBits (l : List SReg) : Word := (l.foldl (fun m r => m ||| (1#64 <<< r.toNat)) 0) &&& ~~~1#64

end Sys2Proof

namespace Sys2Proof.Machine

/-! ### Memory as data -/

/-- The byte at a location; an unlisted location reads as zero (R414, log entry 5). -/
def Mem.read : Mem → Nat → Byte
  | [], _ => 0
  | (k, v) :: t, a => if k = a then v else Mem.read t a

def Mem.write : Mem → Nat → Byte → Mem
  | [], a, v => if v = 0 then [] else [(a, v)]
  | (k, w) :: t, a, v =>
    if a < k then (if v = 0 then (k, w) :: t else (a, v) :: (k, w) :: t)
    else if a = k then (if v = 0 then t else (a, v) :: t)
    else (k, w) :: Mem.write t a v

/-- The canonical form: addresses strictly rising, no entry equal to what an unlisted address reads as. -/
abbrev Mem.Wf (m : Mem) : Prop := m.Pairwise (fun x y => x.1 < y.1) ∧ ∀ c ∈ m, c.2 ≠ 0

def Mem.readN (m : Mem) : Nat → Nat → List Byte
  | _, 0 => []
  | a, n + 1 => m.read a :: m.readN (a + 1) n

def Mem.writeN : Mem → Nat → List Byte → Mem
  | m, _, [] => m
  | m, a, b :: bs => Mem.writeN (m.write a b) (a + 1) bs

/-- The little-endian number of `n` bytes at `a`. -/
def Mem.num (m : Mem) (a n : Nat) : Nat := leNat (m.readN a n)

/-- The bytes of `src` at `a` to `a + n - 1` put in place of those of `dst` at `b` to `b + n - 1`, but for those of `src`
that `skip` leaves out: there `dst` keeps its own. -/
def Mem.image (dst : Mem) (b : Nat) (src : Mem) (a n : Nat) (skip : Nat → Bool) : Mem :=
  (src.filter (fun c => a ≤ c.1 && c.1 < a + n && !skip c.1)).foldl (fun m c => m.write (c.1 - a + b) c.2)
    (dst.filter (fun c => !(b ≤ c.1 && c.1 < b + n) || skip (c.1 - b + a)))

/-! ### Keyed lists -/

def lookupKey {α : Type} (k : Nat) : List (Nat × α) → Option α
  | [] => none
  | (j, v) :: t => if j = k then some v else lookupKey k t

def setKey {α : Type} (k : Nat) (v : α) : List (Nat × α) → List (Nat × α)
  | [] => [(k, v)]
  | (j, w) :: t => if j = k then (k, v) :: t else (j, w) :: setKey k v t

/-- Stable insertion sort by a key. -/
def insertBy {α : Type} (f : α → Nat) (x : α) : List α → List α
  | [] => [x]
  | y :: t => if f x < f y then x :: y :: t else y :: insertBy f x t

def sortBy {α : Type} (f : α → Nat) (l : List α) : List α := l.foldl (fun acc x => insertBy f x acc) []

/-! ### Roles, queues and the registers of a companion core -/

def Core.comp (c : Core) : Role → Companion
  | .loader => c.loader | .sequencer => c.sequencer | .storer => c.storer

def Core.setComp (c : Core) (r : Role) (x : Companion) : Core :=
  match r with
  | .loader => { c with loader := x } | .sequencer => { c with sequencer := x } | .storer => { c with storer := x }

def Core.queue (c : Core) (q : QueueId) : Queue := c.queues[q.num]

def Core.setQueue (c : Core) (q : QueueId) (x : Queue) : Core := { c with queues := c.queues.set q.num x }

/-- The companion core that executes. -/
def State.me (s : State) : Companion := s.core.comp s.cur

def State.setComp (s : State) (r : Role) (x : Companion) : State := { s with core := s.core.setComp r x }

def State.setMe (s : State) (x : Companion) : State := s.setComp s.cur x

def State.setQueue (s : State) (q : QueueId) (x : Queue) : State := { s with core := s.core.setQueue q x }

/-- An s register; s0 reads as zero (Table 2-8). -/
def Companion.reg (c : Companion) (r : SReg) : Word := if r = 0 then 0 else c.s[r.toNat]

def Companion.setReg (c : Companion) (r : SReg) (v : Word) : Companion :=
  if r = 0 then c else { c with s := c.s.set r.toNat v }

/-- A p register; p0 reads as true (Table 2-8). -/
def Companion.pred (c : Companion) (r : PReg) : Bool := if r = 0 then true else c.p.getLsbD r.toNat

/-- Bit `i` of `x` made `v`. -/
def setBit {n : Nat} (x : BitVec n) (i : Nat) (v : Bool) : BitVec n :=
  if v then x ||| (1#n <<< i) else x &&& ~~~(1#n <<< i)

def Companion.setPred (c : Companion) (r : PReg) (v : Bool) : Companion :=
  if r = 0 then c else { c with p := setBit c.p r.toNat v }

def State.rd (s : State) (r : SReg) : Word := s.me.reg r

def State.wr (s : State) (r : SReg) (v : Word) : State := s.setMe (s.me.setReg r v)

def State.rdP (s : State) (r : PReg) : Bool := s.me.pred r

def State.wrP (s : State) (r : PReg) (v : Bool) : State := s.setMe (s.me.setPred r v)

def State.rdB (s : State) (r : BReg) : Word := s.me.b[r.toNat]

def State.wrB (s : State) (r : BReg) (v : Word) : State := s.setMe { s.me with b := s.me.b.set r.toNat v }

/-- The program counter moves past `n` bytes. -/
def State.advance (s : State) (n : Nat) : State := s.setMe { s.me with pc := s.me.pc + BitVec.ofNat 17 n }

/-! ### Units and locations

A location is a physical address below 2^56, or a byte of a scratchpad: local store `n` at `2^57 + n * 2^21`, cluster store
`c` at `2^58 + c * 2^24`, die store `d` at `2^59 + d * 2^26`. -/

def locLocal (core off : Nat) : Nat := 2 ^ 57 + core * 2 ^ 21 + off
def locCluster (c off : Nat) : Nat := 2 ^ 58 + c * 2 ^ 24 + off
def locDie (d off : Nat) : Nat := 2 ^ 59 + d * 2 ^ 26 + off

/-- The cluster and the die of a core (R5). -/
def clusterOf (core : Nat) : Nat := core / 8
def dieOf (core : Nat) : Nat := core / 96

/-- A core that is not fused off (R412). -/
def Fuses.present (f : Fuses) (core : Nat) : Bool :=
  core < 768 && !f.cores.contains core && !f.clusters.contains (clusterOf core)

def Fuses.clusterPresent (f : Fuses) (c : Nat) : Bool := c < 96 && !f.clusters.contains c

/-- A physical address that names memory (Table 4-1, R68). -/
def Fuses.backed (f : Fuses) (pa : Nat) : Bool :=
  if h : pa / 0xC00000000 < 16 then pa % 0xC00000000 < f.stackSize[pa / 0xC00000000]
  else 0x10000000000 ≤ pa && pa < 0x20000000000

def State.findCtx (s : State) (id : BitVec 16) : Option Ctx := s.ctxs.find? (fun c => c.id = id)

/-- The context that runs on the core in focus. -/
def State.cx (s : State) : Option Ctx := s.core.ctx.bind s.findCtx

/-- The cluster is granted to the context (R327). -/
def State.granted (s : State) (id : BitVec 16) (cluster : Nat) : Bool :=
  match s.grants[cluster]? with
  | some g => g.owner = some id && g.phase ≠ .restoring
  | none => false

/-- Whether the cluster of a core is granted to the context and the core is present. -/
def State.coreGranted (s : State) (id : BitVec 16) (core : Nat) : Bool :=
  s.fuses.present core && s.granted id (clusterOf core)

/-- The core in focus runs its context: its cluster is held, and not asked to stop (R327, R334). -/
def State.live (s : State) : Bool :=
  match s.core.ctx, s.grants[clusterOf s.coreId]? with
  | some id, some g => g.owner = some id && g.phase = .held && s.fuses.present s.coreId
  | _, _ => false

/-- Some cluster of the die is granted to the context (Table 6-1). -/
def State.dieGranted (s : State) (id : BitVec 16) (d : Nat) : Bool :=
  (List.range 12).any (fun i => s.granted id (d * 12 + i))

/-! ### Address resolution (R70) -/

/-- What rule of Table 4-2 resolves an address. -/
inductive Resolved
  | nothing
  /-- a place address that names no window -/
  | noWindow
  /-- a window: the location, the offset in the window, the bytes from there to its end, ownership -/
  | window (loc off left : Nat) (owned : Bool)
  | range (pa : Nat) (r w : Bool)
  | page (pa : Nat) (r w : Bool) (size : Nat)
  /-- a walk met an uncorrectable unit -/
  | broken
  deriving DecidableEq, Repr

/-- A place address, by its low 48 bits (Table 4-3, R102). The own windows are those of the context that runs on the core,
or that owns the unit behind them (Table 6-1). -/
def State.resolvePlace (s : State) (cx : Option (BitVec 16)) (core x : Nat) : Resolved :=
  let own (p : BitVec 16 → Bool) : Bool := match cx with | some id => p id | none => false
  let runs (p : BitVec 16 → Bool) : Bool := match cx with | some id => p id | none => true
  if x < 0x200000 then .window (locLocal core x) x (0x200000 - x) (runs (fun id => s.coreGranted id core))
  else if 0x100000000 ≤ x ∧ x < 0x101000000 then
    .window (locCluster (clusterOf core) (x - 0x100000000)) (x - 0x100000000) (0x101000000 - x)
      (runs (fun id => s.granted id (clusterOf core)))
  else if 0x200000000 ≤ x ∧ x < 0x204000000 then
    .window (locDie (dieOf core) (x - 0x200000000)) (x - 0x200000000) (0x204000000 - x)
      (runs (fun id => s.dieGranted id (dieOf core)))
  else if 0x10000000000 ≤ x ∧ x < 0x10000000000 + 768 * 0x200000 then
    let o := x - 0x10000000000
    .window (2 ^ 57 + o) (o % 0x200000) (0x200000 - o % 0x200000) (own (fun id => s.coreGranted id (o / 0x200000)))
  else if 0x20000000000 ≤ x ∧ x < 0x20000000000 + 96 * 0x1000000 then
    let o := x - 0x20000000000
    .window (2 ^ 58 + o) (o % 0x1000000) (0x1000000 - o % 0x1000000)
      (own (fun id => s.fuses.clusterPresent (o / 0x1000000) && s.granted id (o / 0x1000000)))
  else if 0x30000000000 ≤ x ∧ x < 0x30000000000 + 8 * 0x4000000 then
    let o := x - 0x30000000000
    .window (2 ^ 59 + o) (o % 0x4000000) (0x4000000 - o % 0x4000000) (own (fun id => s.dieGranted id (o / 0x4000000)))
  else .noWindow

/-- The first byte of the ECC unit of a location: 32 B in memory, 8 B in a scratchpad (R69, R103). -/
def eccUnit (loc : Nat) : Nat := if loc < 2 ^ 57 then loc - loc % 32 else loc - loc % 8

/-- A level of the page walk (Table 4-6): the shift and number of its index bits, and the kinds it allows. -/
structure WalkLevel where
  shift : Nat
  bits  : Nat
  kinds : List Nat
  size  : Nat

/-- What one level of a walk gives: an end, or the next table with the rights so far; `wide` is kind 2. -/
inductive WalkStep
  | stop (x : Resolved)
  | next (wide : Bool) (table : Nat) (r w : Bool)

/-- One level of the page walk (R74, Table 4-5). -/
def State.walkStep (s : State) (a table : Nat) (r w : Bool) (l : WalkLevel) : WalkStep :=
  let pa := table + a / 2 ^ l.shift % 2 ^ l.bits * 8
  if table % (2 ^ l.bits * 8) ≠ 0 ∨ !s.fuses.backed pa then .stop .nothing
  else if s.poison.contains (eccUnit pa) then .stop .broken
  else
    let e := s.mem.num pa 8
    let kind := bits e 4 3
    let addr := bits e 12 44 * 2 ^ 12
    let r' := r && e.testBit 0
    let w' := w && e.testBit 1
    if bits e 56 8 ≠ 0 ∨ bits e 7 5 ≠ 0 ∨ bits e 2 2 ≠ 0 ∨ !l.kinds.contains kind then .stop .nothing
    else if kind = 3 then
      .stop (if addr % 2 ^ l.shift ≠ 0 then .nothing else .page (addr + a % 2 ^ l.shift) r' w' l.size)
    else .next (kind = 2) addr r' w'

/-- The page walk from a root (R74, Table 4-6); root 0 means that the context has no pages (Table 26-2). -/
def State.pageWalk (s : State) (root a : Nat) : Resolved :=
  if root = 0 then .nothing else
  match s.walkStep a root true true ⟨34, 14, [1, 3], 5⟩ with
  | .stop x => x
  | .next _ t2 r2 w2 =>
    match s.walkStep a t2 r2 w2 ⟨28, 6, [1, 3], 4⟩ with
    | .stop x => x
    | .next _ t1 r1 w1 =>
      match s.walkStep a t1 r1 w1 ⟨21, 7, [1, 2, 3], 3⟩ with
      | .stop x => x
      | .next wide t0 r0 w0 =>
        match s.walkStep a t0 r0 w0 (if wide then ⟨16, 5, [3], 2⟩ else ⟨12, 9, [3], 1⟩) with
        | .stop x => x
        | .next _ _ _ _ => .nothing

/-- The valid range slot that covers an address. -/
def Ctx.findRange (c : Ctx) (a : Word) : Option Range :=
  c.ranges.toList.findSome? (fun x => match x with
    | some g => if g.base.toNat ≤ a.toNat ∧ a.toNat < g.limit.toNat then some g else none
    | none => none)

/-- Table 4-2: the first rule that resolves an address, for a context and a core. -/
def State.resolve (s : State) (cx : Option Ctx) (core : Nat) (a : Word) : Resolved :=
  if a.toNat / 2 ^ 48 = 0xFF00 then s.resolvePlace (cx.map (·.id)) core (a.toNat % 2 ^ 48)
  else match cx with
    | none => .nothing
    | some c =>
      match c.findRange a with
      | some g => .range ((a + g.offset).toNat) g.r g.w
      | none => if a.toNat / 2 ^ 48 = 0 then s.pageWalk c.root.toNat a.toNat else .nothing

/-! ### Accesses -/

/-- A fault of an access: its cause and EADDR. -/
abbrev Flt := Cause × Word

/-- R73: rights first, then whether the target is backed. -/
def State.grant (s : State) (a : Word) (pa : Nat) (ok : Bool) : Except Flt Nat :=
  if !ok then .error (.prot, a) else if !s.fuses.backed pa then .error (.xlate, a) else .ok pa

/-- The location of an access of `n` bytes at `a` that lies in one 4 KiB block (R70 to R73, R102). Where the walk of its
address meets an uncorrectable unit, MACHINE has the accessed address in EADDR (R69, R74, log entry 75). -/
def State.locateFor (s : State) (cx : Option Ctx) (core : Nat) (a : Word) (n : Nat) (w : Bool) : Except Flt Nat :=
  match s.resolve cx core a with
  | .nothing => .error (.xlate, a)
  | .noWindow => .error (.prot, a)
  | .window loc _ left owned => if owned ∧ n ≤ left then .ok loc else .error (.prot, a)
  | .range pa r w' => s.grant a pa (if w then w' else r)
  | .page pa r w' _ => s.grant a pa (if w then w' else r)
  | .broken => .error (.machine, a)

def State.locate (s : State) (a : Word) (n : Nat) (w : Bool) : Except Flt Nat := s.locateFor s.cx s.coreId a n w

/-- The location of a read-modify-write of `n` bytes: both rights come before the backing of the target (R73). -/
def State.locateRmw (s : State) (cx : Option Ctx) (core : Nat) (a : Word) (n : Nat) : Except Flt Nat :=
  match s.resolve cx core a with
  | .range pa r w | .page pa r w _ => s.grant a pa (r && w)
  | _ => s.locateFor cx core a n true

/-- The parts of an access of `n` bytes at `a`, cut at 4 KiB boundaries: offset and length (at most `fuel` parts). -/
def cuts (a : Nat) : Nat → Nat → Nat → List (Nat × Nat)
  | 0, _, _ => []
  | fuel + 1, o, n =>
    if n = 0 then [] else
    let k := min n (4096 - (a + o) % 4096)
    (o, k) :: cuts a fuel (o + k) (n - k)

/-- The locations of an access of any length: location and length of each part (R73: the first failing part faults). An
access that starts in a window and ends beyond it makes no part of itself (R102). -/
def State.spans (s : State) (cx : Option Ctx) (core : Nat) (a : Word) (n : Nat) (w : Bool) :
    Except Flt (List (Nat × Nat)) :=
  let leaves := match s.resolve cx core a with | .window _ _ left _ => decide (left < n) | _ => false
  if leaves then .error (.prot, a) else
  (cuts a.toNat (n / 4096 + 2) 0 n).mapM (fun c => do
    let loc ← s.locateFor cx core (a + BitVec.ofNat 64 c.1) c.2 w
    pure (loc, c.2))

/-! ### Places, scopes and the order of accesses (R337, R338) -/

/-- A location of host memory (Table 4-1). -/
def isHost (loc : Nat) : Bool := 0x10000000000 ≤ loc && loc < 0x20000000000

/-- A location of an HBM stack. -/
def isHbm (loc : Nat) : Bool := loc < 16 * 0xC00000000

/-- The die that owns a location of the package: a scratchpad's, or that of an HBM stack (R2). -/
def dieOfLoc (loc : Nat) : Nat :=
  if loc < 2 ^ 57 then loc / 0xC00000000 / 2
  else if loc < 2 ^ 58 then dieOf ((loc - 2 ^ 57) / 2 ^ 21)
  else if loc < 2 ^ 59 then (loc - 2 ^ 58) / 2 ^ 24 / 12
  else (loc - 2 ^ 59) / 2 ^ 26

/-- The extent of a scope around core `n` holds a location (Table 20-1). -/
def scopeHolds (sc : Scope) (n loc : Nat) : Bool :=
  let store := 2 ^ 57 ≤ loc && loc < 2 ^ 58
  match sc with
  | .program => false
  | .core => store && (loc - 2 ^ 57) / 2 ^ 21 = n
  | .cluster => (store && clusterOf ((loc - 2 ^ 57) / 2 ^ 21) = clusterOf n)
      || (2 ^ 58 ≤ loc && loc < 2 ^ 59 && (loc - 2 ^ 58) / 2 ^ 24 = clusterOf n)
  | .die => !isHost loc && dieOfLoc loc = dieOf n
  | .package | .group | .pod => !isHost loc
  | .host | .system => true

/-- This node's number, from the path table header of the core's die (R261). -/
def State.node (s : State) : BitVec 12 :=
  match s.pathHead[dieOf s.coreId]? with | some w => BitVec.ofNat 12 w.toNat | none => 0

/-- The node and the core that a consumer word names (R125). -/
def State.wordNode (s : State) (w : BitVec 32) : Nat := if w.getLsbD 31 then bits w.toNat 16 12 else s.node.toNat
def wordCore (w : BitVec 32) : Nat := bits w.toNat 0 10

/-- Core `n` shares a collective group with a member on node `k` (R284): a `coll` has read a member list that says so, or one
that none has read (log entry 36). -/
def State.grouped (s : State) (n k : Nat) : Bool :=
  s.groups.any (fun g => g.any (fun w => s.wordNode w = s.node.toNat && wordCore w = n) && g.any (fun w => s.wordNode w = k))
    || Config.grouped s.node.toNat n k

/-- The extent of a scope around core `n` holds core `m` of node `k` (Table 20-1). -/
def State.reaches (s : State) (sc : Scope) (n k m : Nat) : Bool :=
  let here := k = s.node.toNat
  match sc with
  | .program => false
  | .core => here && m = n
  | .cluster => here && clusterOf m = clusterOf n
  | .die => here && dieOf m = dieOf n
  | .package | .host => here
  | .group => here || s.grouped n k
  | .pod | .system => true

/-! ### Reads and writes of memory -/

/-- The first of `n` bytes from `loc` that lies in an uncorrectable unit. -/
def State.badByte (s : State) (loc n : Nat) : Option Nat :=
  if s.poison.isEmpty then none else (List.range n).find? (fun i => s.poison.contains (eccUnit (loc + i)))

/-- The first byte of a write of `n` bytes at `loc` that lies in an uncorrectable unit which the write covers in part (R69,
R103). -/
def State.badPart (s : State) (loc n : Nat) : Option Nat :=
  if s.poison.isEmpty then none else
  (List.range n).find? (fun i =>
    let u := eccUnit (loc + i)
    let k := if loc < 2 ^ 57 then 32 else 8
    s.poison.contains u && !(loc ≤ u && u + k ≤ loc + n))

/-- A lost unit among `n` bytes from `loc` (R382). -/
def State.lostIn (s : State) (loc n : Nat) : Bool := s.lost.any (fun u => u < loc + n && loc < u + 64)

def State.core? (s : State) (n : Nat) : Option Core := if n = s.coreId then some s.core else lookupKey n s.others

/-- A location still belongs to a context: memory, or a scratchpad that is granted to it (R102, R327). -/
def State.holdsLoc (s : State) (id : BitVec 16) (loc : Nat) : Bool :=
  if loc < 2 ^ 57 then true
  else if loc < 2 ^ 58 then s.granted id (clusterOf ((loc - 2 ^ 57) / 2 ^ 21))
  else if loc < 2 ^ 59 then s.granted id ((loc - 2 ^ 58) / 2 ^ 24)
  else s.dieGranted id ((loc - 2 ^ 59) / 2 ^ 26)

/-- The arms in use at a core whose counters still are their context's, with the core's number and the context whose saved state
holds the arm, if any (R118). -/
def State.armsAt (s : State) (c : Core) (n : Nat) (saved : Option (BitVec 16)) :
    List ((Nat × Nat × Option (BitVec 16)) × Arm) :=
  let own (loc : Nat) : Bool := match (saved <|> c.ctx) with | some id => s.holdsLoc id loc | none => true
  (List.range 16).filterMap (fun i => match c.arms[i]? with
    | some (some a) => if own a.ctr then some ((n, i, saved), a) else none
    | _ => none)

def State.armed (s : State) : List ((Nat × Nat × Option (BitVec 16)) × Arm) :=
  s.armsAt s.core s.coreId none ++ s.others.flatMap (fun x => s.armsAt x.2 x.1 none)
    ++ s.saved.flatMap (fun v => v.cores.flatMap (fun x => s.armsAt x.2 x.1 (some v.ctx)))

/-- The arms that a write takes past their threshold, ascending threshold then arming order (R111, R117). -/
def State.passed (s : State) (m' : Mem) (loc n : Nat) : List (Nat × Nat × Option (BitVec 16)) :=
  let hit := s.armed.filter (fun x => !x.2.held && x.2.ctr < loc + n && loc < x.2.ctr + 8
    && s.mem.num x.2.ctr 8 < x.2.thr.toNat && x.2.thr.toNat ≤ m'.num x.2.ctr 8)
  (sortBy (fun x => x.2.thr.toNat) (sortBy (fun x => x.2.seq) hit)).map (·.1)

/-- A write performs: memory, fresh ECC for units it covers, lost units it touches live again, counters it raises. -/
def State.put (s : State) (loc : Nat) (bs : List Byte) : State :=
  let n := bs.length
  let m' := s.mem.writeN loc bs
  { s with
    mem := m'
    poison := s.poison.filter (fun u => !(loc ≤ u && u + (if u < 2 ^ 57 then 32 else 8) ≤ loc + n))
    lost := s.lost.filter (fun u => !(u < loc + n && loc < u + 64))
    firing := s.firing ++ s.passed m' loc n }

/-- Some of the `n` bytes from `loc` lie in the aligned 8 B unit of a write. -/
def Lag.sharesUnit (l : Lag) (loc n : Nat) : Bool := 0 < n && loc / 8 ≤ l.loc / 8 && l.loc / 8 ≤ (loc + n - 1) / 8

/-- A write that every party sees at once: what the port path did not see of its 8 B units it now sees. -/
def State.poke (s : State) (loc : Nat) (bs : List Byte) : State :=
  ({ s with lag := s.lag.filter (fun l => !l.sharesUnit loc bs.length) }).put loc bs

def State.pokeSpans (s : State) : List (Nat × Nat) → List Byte → State
  | [], _ => s
  | (loc, n) :: t, bs => State.pokeSpans (s.poke loc (bs.take n)) t (bs.drop n)

/-! ### The store path and the port paths (R345, log entry 71) -/

def clsBit (c : BitVec 4) : BitVec 16 := 1#16 <<< c.toNat

/-- The classes that naming class `c` in an acquire or a release takes in (R348). -/
def clsMask (c : BitVec 4) : BitVec 16 := if c = 0 then BitVec.allOnes 16 else clsBit c

/-- `n` bytes from `loc`, cut into the parts of aligned 8 B units; `fuel` parts at most. -/
def parts8 (loc : Nat) : Nat → Nat → List (Nat × Nat)
  | 0, _ => []
  | fuel + 1, n =>
    if n = 0 then [] else
    let k := min n (8 - loc % 8)
    (loc, k) :: parts8 (loc + k) fuel (n - k)

def Lag.covers (l : Lag) (a : Nat) : Bool := l.loc ≤ a && a < l.loc + l.old.length

def State.mapLag (s : State) (f : Lag → Lag) : State := { s with lag := s.lag.map f }

/-- The selected writes and those that are ordered before them, by their numbers (R340). -/
def State.upTo (s : State) (hit : Lag → Bool) : List Nat :=
  s.lag.flatMap (fun l => if hit l then l.num :: l.after else [])

/-- `f` at the selected writes and at those ordered before them. -/
def State.mapOrdered (s : State) (hit : Lag → Bool) (f : Lag → Lag) : State :=
  let ns := s.upTo hit
  s.mapLag (fun l => if ns.contains l.num then f l else l)

def Regs.meets (x y : Regs) : Bool := x.s &&& y.s ≠ 0 || x.p &&& y.p &&& ~~~1#16 ≠ 0 || (x.cfg && y.cfg)

def Regs.also (x y : Regs) : Regs := ⟨x.s ||| y.s, x.p ||| y.p, x.cfg || y.cfg⟩

def Regs.without (x y : Regs) : Regs := ⟨x.s &&& ~~~y.s, x.p &&& ~~~y.p, x.cfg && !y.cfg⟩

def Regs.all : Regs := ⟨BitVec.allOnes 64, BitVec.allOnes 16, true⟩

/-- What a companion core holds of a write. -/
def Lag.hold (l : Lag) (n : Nat) (r : Role) : Hold :=
  (l.holds.find? (fun h => h.core = n && h.role = r)).getD { core := n, role := r }

/-- What a companion core holds of a write is `h`. -/
def Lag.setHold (h : Hold) (l : Lag) : Lag :=
  { l with holds := h :: l.holds.filter (fun x => !(x.core = h.core && x.role = h.role)) }

/-- A companion core holds more of it. -/
def Lag.give (h : Hold) (l : Lag) : Lag :=
  let o := l.hold h.core h.role
  l.setHold { h with
    names := o.names ||| h.names, next := o.next ||| h.next, acq := o.acq || h.acq, cum := o.cum || h.cum
    regs := o.regs.also h.regs, lent := o.lent || h.lent }

/-- It has acquired it, for its later accesses of the classes `m`. -/
def Lag.acquiredBy (n : Nat) (r : Role) (m : BitVec 16) (l : Lag) : Lag :=
  l.give { core := n, role := r, next := m, acq := true, cum := true }

/-- The companion core's accesses of class `c` from now on are ordered after it (R340). -/
def Hold.before (c : BitVec 4) (h : Hold) : Bool := (h.names ||| h.next).getLsbD c.toNat

/-- The writes that are ordered before an access of class `c` that a companion core of the core in focus now makes. -/
def State.orderedBefore (s : State) (r : Role) (c : BitVec 4) : List Nat :=
  s.upTo (fun l => (l.hold s.coreId r).before c)

/-- A companion core of the core in focus makes an access of class `c`, `lent` where it is a load. -/
def State.access (s : State) (r : Role) (c : BitVec 4) (lent : Bool) : State :=
  s.mapLag (fun l => if (l.hold s.coreId r).before c then
    l.give { core := s.coreId, role := r, names := clsBit c, lent := lent } else l)

/-- How a write stands on the store path: the engine command that makes it, what is held of it, where it waits for an acquire,
the buffered store that it is, and the writes that are ordered before it. -/
structure Writer where
  eng   : Option (QueueId × Nat) := none
  holds : List Hold := []
  meets : List Meet := []
  src   : Option (Nat × Role × Nat) := none
  after : List Nat := []

/-- A plain write of `n` bytes at `loc` ends what waits at a word for a read of the value that it replaces. -/
def Meet.endedBy (loc n : Nat) : Meet → Bool
  | .word w _ _ stays => !stays && w < loc + n && loc < w + 8
  | _ => false

/-- A step of a read-modify-write or counter operation on the store path of the core in focus: the parties of the store path see
it, port paths need not. -/
def State.pathStep (s : State) (w : Writer) (loc : Nat) (bs : List Byte) : State :=
  let parts := parts8 loc bs.length bs.length
  let new := parts.zipIdx.map (fun p : (Nat × Nat) × Nat =>
    ({ core := s.coreId, loc := p.1.1, old := s.mem.readN p.1.1 p.1.2, num := s.lagSeq + p.2, src := w.src, after := w.after
       eng := w.eng, holds := w.holds, meets := w.meets } : Lag))
  ({ s with lag := s.lag ++ new, lagSeq := s.lagSeq + parts.length }).put loc bs

/-- A plain write on the store path of the core in focus. -/
def State.pathWrite (s : State) (w : Writer) (loc : Nat) (bs : List Byte) : State :=
  (s.mapLag (fun l => { l with meets := l.meets.filter (fun x => !x.endedBy loc bs.length) })).pathStep w loc bs

def State.pathSpans (s : State) (w : Writer) : List (Nat × Nat) → List Byte → State
  | [], _ => s
  | (loc, n) :: t, bs => State.pathSpans (s.pathWrite w loc (bs.take n)) w t (bs.drop n)

/-- The latest writes to the `n` bytes from `loc`, but for the bytes of `own`, and the writes ordered before them. -/
def lastWrites (own : Nat → Bool) (loc n : Nat) : List Lag → List Nat
  | [] => []
  | l :: t =>
    let last := (List.range n).any (fun i => l.covers (loc + i) && !own (loc + i) && !t.any (fun x => x.covers (loc + i)))
    (if last then l.num :: l.after else []) ++ lastWrites own loc n t

/-- A read of `n` bytes at `loc`, made when the writes numbered below `upTo` had been made, returns for each byte that is none of
`own` the latest of them: `f` at these and at what is ordered before them (R340). -/
def State.markRead (s : State) (f : Lag → Lag) (own : Nat → Bool) (upTo loc n : Nat) : State :=
  let ns := lastWrites own loc n (s.lag.filter (fun l => l.num < upTo))
  s.mapLag (fun l => if ns.contains l.num then f l else l)

/-- A read by a companion core returns writes: what it holds of them grows (R342, R347); `bit`: its class, if it has one. -/
def State.holdRead (s : State) (r : Role) (bit : BitVec 16) (own : Nat → Bool) (upTo loc n : Nat) : State :=
  s.markRead (Lag.give { core := s.coreId, role := r, names := bit, cum := true, lent := true }) own upTo loc n

/-- A release of a companion core of the core in focus covers a write: one that its accesses of the classes `m` made, or any
that it has read, acquired or fenced (R342). -/
def Lag.covered (n : Nat) (r : Role) (m : BitVec 16) (l : Lag) : Bool := (l.hold n r).cum || (l.hold n r).names &&& m ≠ 0

/-- The writes that a release covers wait at its meeting place; `within`: those that its scope reaches (R338). -/
def State.letGo (s : State) (r : Role) (m : BitVec 16) (within : Lag → Bool) (at_ : Meet) : State :=
  s.mapOrdered (fun l => l.covered s.coreId r m && within l) (fun l => if within l then { l with meets := at_ :: l.meets } else l)

/-- A companion core of the core in focus acquires the writes of the releases that `which` selects, for its later accesses of the
classes `m`. -/
def State.takeIn (s : State) (r : Role) (m : BitVec 16) (which : Lag → Meet → Bool) : State :=
  s.mapLag (fun l => if l.meets.any (which l) then l.acquiredBy s.coreId r m else l)

/-- The release that waits at a word and an acquire there by core `n` at a scope pair for a write: the extents of both scopes
hold both cores, the word and the write (R114, R338). -/
def State.pairs (s : State) (sc : Scope) (n loc : Nat) (l : Lag) : Meet → Bool
  | .word w sc' n' _ =>
    let k := s.node.toNat
    w / 8 = loc / 8 && s.reaches sc' n' k n && scopeHolds sc' n' loc && scopeHolds sc' n' l.loc
      && s.reaches sc n k n' && scopeHolds sc n loc && scopeHolds sc n l.loc
  | _ => false

/-- The write is of the set B of a fence of a companion core (R347): an access of the mask's classes has made it, read it or is
ordered after it, or the companion core has acquired it. -/
def Lag.fencedBy (n : Nat) (r : Role) (mask : BitVec 16) (l : Lag) : Bool :=
  (l.hold n r).names &&& mask ≠ 0 || (l.hold n r).acq

/-- A fence at a scope has ordered its set B, and what is ordered before that: its companion core's later accesses of the mask's
classes follow it (R347), and every later release covers it (R342). -/
def State.fenceHolds (s : State) (r : Role) (mask : BitVec 16) (sc : Scope) : State :=
  s.mapOrdered (Lag.fencedBy s.coreId r mask) (fun l => if scopeHolds sc s.coreId l.loc then
    l.give { core := s.coreId, role := r, next := mask, cum := true } else l)

/-- `fence.x`: its set B, and what is ordered before that, is ordered before its companion core's port operations at a scope
(R347). -/
def State.orderPort (s : State) (r : Role) (mask : BitVec 16) (sc : Scope) : State :=
  s.mapOrdered (Lag.fencedBy s.coreId r mask) (fun l => { l with upto := ⟨s.coreId, r, sc, true⟩ :: l.upto })

/-- A companion core of the core in focus issues a port operation: what its fences, or those of the tokens that it has popped,
order before it (R347). -/
def State.notePort (s : State) (r : Role) (key : PortKey) : State :=
  s.mapLag (fun l => { l with ports := l.ports.filter (fun x => x.1 ≠ key)
    ++ (l.upto.filter (fun u => u.core = s.coreId && u.role = r)).map (fun u => (key, u.sc)) })

/-- The write is ordered before a read that one of the port operations makes for core `m` of node `k` (R338). -/
def State.orderedFor (s : State) (keys : List PortKey) (k m : Nat) (l : Lag) : Bool :=
  l.ports.any (fun x => keys.contains x.1 && s.reaches x.2 x.1.core k m && scopeHolds x.2 x.1.core l.loc)

/-- The byte that port operations read for core `m` of node `k`: what lay there after the last write to its aligned 8 B unit that
they must see, so that the bytes of a unit are those of one moment (R146). -/
def State.portByte (s : State) (keys : List PortKey) (k m a : Nat) : Byte :=
  (s.lag.foldl (fun (acc : Option Byte) l =>
    if l.sharesUnit a 1 && s.orderedFor keys k m l then none
    else if l.covers a then (match acc with | some v => some v | none => l.old[a - l.loc]?)
    else acc) none).getD (s.mem.read a)

def State.portBytes (s : State) (keys : List PortKey) (k m : Nat) : Nat → Nat → List Byte
  | _, 0 => []
  | a, n + 1 => s.portByte keys k m a :: s.portBytes keys k m (a + 1) n

/-- A write of the store path becomes visible to the port paths, with the earlier ones to its aligned 8 B unit. -/
def State.settleLag (s : State) (i : Nat) : State :=
  match s.lag[i]? with
  | none => s
  | some x => { s with lag := ((s.lag.take i).filter (fun l => !l.sharesUnit x.loc x.old.length)) ++ s.lag.drop (i + 1) }

/-! ### What traffic costs (Table 19-2, log entry 72) -/

/-- Bytes of HBM or Krytway traffic for a context. -/
def State.spend (s : State) (cx : Option Ctx) (n : Nat) : State :=
  match cx with
  | none => s
  | some c => if n = 0 then s else
    { s with used := setKey c.id.toNat ((lookupKey c.id.toNat s.used).getD 0 + n) s.used }

/-- The bytes of the entries that a walk reads from a table on, by the levels still to come; the last level has tables of two
widths. -/
def State.walkReads (s : State) (a : Nat) : List WalkLevel → Bool → Nat → Nat
  | [], wide, table => if table % (if wide then 256 else 4096) = 0 ∧ s.fuses.backed table then 8 else 0
  | l :: rest, _, table =>
    if table % (2 ^ l.bits * 8) ≠ 0 ∨ !s.fuses.backed table then 0
    else 8 + (match s.walkStep a table true true l with | .next wide t _ _ => s.walkReads a rest wide t | .stop _ => 0)

/-- The bytes of the table entries that the walk of an address reads, whatever it ends in. -/
def State.walkBytes (s : State) (cx : Option Ctx) (core : Nat) (a : Word) : Nat :=
  match cx, s.resolve cx core a with
  | some c, .page .. | some c, .nothing | some c, .broken =>
    if c.root = 0 ∨ a.toNat / 2 ^ 48 ≠ 0 then 0
    else s.walkReads a.toNat [⟨34, 14, [1, 3], 5⟩, ⟨28, 6, [1, 3], 4⟩, ⟨21, 7, [1, 2, 3], 3⟩] false c.root.toNat
  | _, _ => 0

/-- HBM bytes of an access at `a` to the parts `sp`, its walks among them. -/
def State.accessBytes (s : State) (cx : Option Ctx) (core : Nat) : Word → List (Nat × Nat) → Nat
  | _, [] => 0
  | a, (loc, n) :: t =>
    (if isHbm loc then n else 0) + s.walkBytes cx core a + s.accessBytes cx core (a + BitVec.ofNat 64 n) t

def State.traffic (s : State) (cx : Option Ctx) (core : Nat) (a : Word) (sp : List (Nat × Nat)) : State :=
  s.spend cx (s.accessBytes cx core a sp)

/-- The traffic of an access that faults: the walk of the address at which it does. -/
def State.faultTraffic (s : State) (cx : Option Ctx) (core : Nat) (c : Cause) (a : Word) : State :=
  let walked : Bool := match s.resolve cx core a with
    | .nothing => c = .xlate
    | .broken => c = .machine
    | .page pa r w _ => (c = .prot && !(r && w)) || (c = .xlate && !s.fuses.backed pa)
        || (c = .machine && s.poison.contains (eccUnit pa))
    | _ => false
  if walked then s.spend cx (s.walkBytes cx core a) else s

/-! ### Scalar accesses and their store buffer (R66, R67, R341) -/

/-- A trap is posted to a companion core of the core in focus that still runs (R359, R375). -/
def State.post (s : State) (r : Role) (p : Posted) : State :=
  let c := s.core.comp r
  if c.run = .running then s.setComp r { c with posted := c.posted ++ [p] } else s

/-- The byte that a companion core reads: its latest store that has not performed, else memory (R67). -/
def overlay : List BufStore → Nat → Byte → Byte
  | [], _, v => v
  | b :: t, a, v =>
    overlay t a (if b.loc ≤ a ∧ a < b.loc + b.bytes.length then (b.bytes[a - b.loc]?).getD v else v)

def State.peek (s : State) (r : Role) (a : Nat) : Byte := overlay (s.core.comp r).sbuf a (s.mem.read a)

def State.peekN (s : State) (r : Role) : Nat → Nat → List Byte
  | _, 0 => []
  | a, n + 1 => s.peek r a :: s.peekN r (a + 1) n

def BufStore.meets (b : BufStore) (loc n : Nat) : Bool := b.loc < loc + n && loc < b.loc + b.bytes.length

/-- `b` performs before the later store `y`: they overlap, or `y` follows `b` (R340, R341, R344). -/
def BufStore.before (b y : BufStore) : Bool := b.meets y.loc y.bytes.length || y.after.contains b.id

/-- A load of another class has returned its bytes. -/
def BufStore.passedOn (b : BufStore) : Bool := b.names ≠ clsBit b.cls

/-- The stores that perform when the selected ones do, and the ones that stay: an earlier store that must precede one that
performs goes with it. -/
def pickDrain (sel : BufStore → Bool) : List BufStore → List BufStore × List BufStore
  | [] => ([], [])
  | b :: t =>
    let (go, stay) := pickDrain sel t
    if sel b || go.any b.before then (b :: go, stay) else (go, b :: stay)

/-- Where a store that performs is an `st.rel`, what its release covers waits at its word (R348). -/
def State.sendRel (s : State) (r : Role) (b : BufStore) : State :=
  match b.rel with
  | none => s
  | some sc => s.mapLag (fun l => { l with meets := l.meets.map (fun x =>
      if x = .unsent s.coreId r b.id then .word b.loc sc s.coreId false else x) })

/-- A buffered store as a write on the store path: it follows the writes that it followed as it was made, and those of its
companion core's earlier stores that it follows. -/
def State.writer (s : State) (r : Role) (b : BufStore) : Writer :=
  { holds := [{ core := s.coreId, role := r, names := b.names, cum := b.passedOn, regs := b.regs }], src := some (s.coreId, r, b.id)
    after := b.prior ++ s.upTo (fun l => match l.src with
      | some (n, q, id) => n = s.coreId && q = r && b.after.contains id
      | none => false) }

/-- A buffered store of a companion core performs. Where its unit has become uncorrectable since it issued and it covers the
unit in part, it writes nothing and MACHINE is posted (R69, R103, log entry 73). -/
def State.perform (s : State) (r : Role) (b : BufStore) : State :=
  match s.badPart b.loc b.bytes.length with
  | some i => s.post r ⟨.machine, b.va + BitVec.ofNat 64 i, .async⟩
  | none => ((s.pathWrite (s.writer r b) b.loc b.bytes).sendRel r b).traffic s.cx s.coreId b.va [(b.loc, b.bytes.length)]

/-- The selected buffered stores of a companion core perform, in program order. -/
def State.drain (s : State) (r : Role) (sel : BufStore → Bool) : State :=
  let c := s.core.comp r
  let (go, stay) := pickDrain sel c.sbuf
  go.foldl (fun s b => s.perform r b) (s.setComp r { c with sbuf := stay })

def State.drainAll (s : State) (r : Role) : State := s.drain r (fun _ => true)

/-- The stores that naming class `c` takes in: those that class `c` follows, or all when `c` is 0 (R25, R348). -/
def BufStore.named (c : BitVec 4) (b : BufStore) : Bool := c = 0 || b.names.getLsbD c.toNat

/-- The stores that a release of class `c` takes in: those that the class follows, and those of which an earlier load has
returned bytes (R342). -/
def BufStore.released (c : BitVec 4) (b : BufStore) : Bool := b.named c || b.passedOn

/-- The stores of `which` to locations within a scope's extent perform, as a release at the scope makes them (R338, R342). -/
def State.release (s : State) (r : Role) (sc : Scope) (which : BufStore → Bool) : State :=
  s.drain r (fun b => which b && scopeHolds sc s.coreId b.loc)

/-- A release of class `c` at a scope, met at `at_`: its stores perform, and the writes that it covers wait there (R342). -/
def State.releaseAt (s : State) (r : Role) (sc : Scope) (c : BitVec 4) (at_ : Meet) : State :=
  (s.release r sc (BufStore.released c)).letGo r (clsMask c) (fun l => scopeHolds sc s.coreId l.loc) at_

/-- STATUS.DLOST of a companion core after a read of `n` bytes at `loc` (R382). -/
def State.noteLost (s : State) (r : Role) (loc n : Nat) : State :=
  if s.lostIn loc n then s.setComp r { s.core.comp r with dlost := true } else s

/-- Where a unit of an access is uncorrectable or lost, the executing companion core's own earlier stores to the units of
the access perform first: they may give the unit fresh ECC, or make it live again. -/
def State.ahead (s : State) (loc n : Nat) : State :=
  if (s.badByte loc n).isSome || s.lostIn loc n then
    s.drain s.cur (fun b => b.loc / 64 * 64 < loc + n && loc / 64 * 64 < b.loc + b.bytes.length)
  else s

/-- What performs before a read of `n` bytes at `loc`: the stores that its class follows (R341), or, for a read of no class,
the stores to its bytes. -/
def State.beforeRead (s : State) (cls : Option (BitVec 4)) (loc n : Nat) : State :=
  (s.drain s.cur (fun b => match cls with
    | some c => b.names.getLsbD c.toNat
    | none => b.meets loc n)).ahead loc n

def Early.meets (e : Early) (loc n : Nat) : Bool := e.loc < loc + n && loc < e.loc + 8

/-- A load of the classes `m` has been made after a unit was read ahead: later loads of these classes follow it (R341), and what is
computed from its value depends on it (R344). -/
def Early.passed (m : BitVec 16) (e : Early) : Early := { e with past := e.past ||| m, lent := true }

/-- A load of class `cls`, or of no class, is an access of its class: what is ordered before it (R340). -/
def State.loads (s : State) (cls : Option (BitVec 4)) : State :=
  match cls with | some k => s.access s.cur k true | none => s

/-- What a read of `n` bytes at `loc` leaves: later accesses of its class follow the stores that it took bytes from (R340), and
its companion core holds the writes that it returned (R342); no unit of it read ahead is returned any more, and the others come
before it; DLOST. -/
def State.afterRead (s : State) (cls : Option (BitVec 4)) (loc n : Nat) : State :=
  let c := s.me
  let bit := match cls with | some k => clsBit k | none => 0
  let s := s.setMe { c with
    sbuf := c.sbuf.map (fun b => if b.meets loc n then { b with names := b.names ||| bit, lent := true } else b)
    early := (c.early.filter (fun e => e.cmd.isSome || !e.meets loc n)).map (Early.passed bit) }
  let own (a : Nat) : Bool := c.sbuf.any (fun b => b.meets a 1)
  ((s.loads cls).holdRead s.cur bit own s.lagSeq loc n).noteLost s.cur loc n

/-- A scalar read of `n` bytes at `a` by the executing companion core, in class `cls` or in none. -/
def State.load (s : State) (cls : Option (BitVec 4)) (a : Word) (n : Nat) : Except Flt (State × List Byte) := do
  let loc ← s.locate a n false
  let s := s.beforeRead cls loc n
  match s.badByte loc n with
  | some i => .error (.machine, a + BitVec.ofNat 64 i)
  | none => .ok ((s.afterRead cls loc n).traffic s.cx s.coreId a [(loc, n)], s.peekN s.cur loc n)

/-- A store of a companion core enters its buffer, after the writes `prior`: it follows the earlier stores whose later accesses of
its class do, and those that the registers `on` are computed from (R340, R344); what has been read ahead of its bytes is not
returned to a later load. -/
def Companion.push (c : Companion) (cls : BitVec 4) (a : Word) (loc : Nat) (bs : List Byte) (rel : Option Scope)
    (prior : List Nat) (on : Regs) : Companion :=
  { c with
    sbuf := c.sbuf ++ [{
      cls := cls, va := a, loc := loc, bytes := bs, names := clsBit cls, id := c.stores, rel := rel, prior := prior
      after := (c.sbuf.filter (fun b => b.names.getLsbD cls.toNat || b.regs.meets on)).map (·.id) }]
    stores := c.stores + 1
    early := c.early.filter (fun e => e.cmd.isSome || !e.meets loc bs.length) }

/-- The same for a companion core of the core in focus; the store is an access of its class. -/
def State.push (s : State) (r : Role) (cls : BitVec 4) (a : Word) (loc : Nat) (bs : List Byte) (rel : Option Scope)
    (on : Regs := {}) : State :=
  let prior := s.upTo (fun l => (l.hold s.coreId r).before cls || (l.hold s.coreId r).regs.meets on)
  (s.setComp r ((s.core.comp r).push cls a loc bs rel prior on)).access r cls false

/-- A scalar store of class `cls` at `a` by the executing companion core; `rel`: the scope of an `st.rel`. -/
def State.store (s : State) (cls : BitVec 4) (a : Word) (bs : List Byte) (rel : Option Scope := none) : Except Flt State := do
  let loc ← s.locate a bs.length true
  let s := s.ahead loc bs.length
  match s.badPart loc bs.length with
  | some i => .error (.machine, a + BitVec.ofNat 64 i)
  | none => .ok (s.push s.cur cls a loc bs rel)

/-! ### Units read ahead (R340, R344, R350, log entry 70) -/

/-- A companion core reads the 8 B unit of `va` ahead, where it may read it, unless the unit is uncorrectable or a store of
its own to it has not performed. -/
def State.readEarly (s : State) (r : Role) (va : Word) : State :=
  let c := s.core.comp r
  match s.locate va 1 false with
  | .error _ => s
  | .ok loc =>
    let u := loc - loc % 8
    if (s.badByte u 8).isSome || c.sbuf.any (fun b => b.meets u 8) then s else
    s.setComp r { c with early := c.early.filter (fun e => e.cmd.isSome || e.loc ≠ u)
      ++ [{ loc := u, val := s.mem.readN u 8, past := c.sbuf.foldl (fun m b => m ||| b.names) 0, upTo := s.lagSeq }] }

/-- The unit read ahead that a load of class `c` may return: no access that the load must follow lies between, and its address,
made from the s registers `addr`, depends on no later load. -/
def Early.loadable (c : BitVec 4) (addr : Word) (loc n : Nat) (e : Early) : Bool :=
  e.cmd.isNone && e.loc ≤ loc && loc + n ≤ e.loc + 8 && !e.past.getLsbD c.toNat && !e.named.meets { s := addr }

/-- The unit that an `amo.ld.spc` of class `c` may return (Table 20-6). -/
def Early.spc (c : BitVec 4) (loc : Nat) (e : Early) : Bool := e.cmd.isNone && e.loc = loc && !e.fenced.getLsbD c.toNat

def Early.bytes (e : Early) (loc n : Nat) : List Byte := (e.val.drop (loc - e.loc)).take n

/-- A load of class `cls`, or of none, returns the bytes at `loc` of the unit `e` read ahead: the units read before that one come
before it, and its companion core holds the writes that it returned. -/
def State.loadEarly (s : State) (cls : Option (BitVec 4)) (e : Early) (loc n : Nat) : State :=
  let c := s.me
  let bit := match cls with | some k => clsBit k | none => 0
  let k := c.early.findIdx (· = e)
  let s := s.setMe { c with early := (c.early.take k).map (Early.passed bit) ++ c.early.drop k }
  ((s.loads cls).holdRead s.cur bit (fun _ => false) e.upTo loc n).noteLost s.cur loc n

/-- `State.load` of a class, or a unit read ahead in its place that `ok` allows. -/
def State.loadOr (s : State) (ok : Nat → Early → Bool) (cls : BitVec 4) (a : Word) (n : Nat) :
    Except Flt (State × List Byte) := do
  let loc ← s.locate a n false
  match s.me.early.find? (ok loc) with
  | none => s.load (some cls) a n
  | some e =>
    match s.badByte loc n with
    | some i => .error (.machine, a + BitVec.ofNat 64 i)
    | none => .ok ((s.loadEarly (some cls) e loc n).traffic s.cx s.coreId a [(loc, n)], e.bytes loc n)

/-- Later loads of the classes `m` follow an acquire: what `where_` selects of the units read ahead is not returned to them. -/
def Companion.follow (c : Companion) (m : BitVec 16) (where_ : Nat → Bool) : Companion :=
  { c with early := c.early.map (fun e => if where_ e.loc then { e with past := e.past ||| m } else e) }

/-- An acquire at a scope through location `loc`, for later accesses of the classes `m` (R338, R342): a unit read ahead within
the extent is not returned any more, and the companion core acquires what the releases that pair with it cover. -/
def State.acquireAt (s : State) (sc : Scope) (m : BitVec 16) (loc : Nat) : State :=
  (s.setMe (s.me.follow m (scopeHolds sc s.coreId))).takeIn s.cur m (s.pairs sc s.coreId loc)

/-- An acquire of what waits at a meeting place, for later accesses of every class. -/
def State.acquireMet (s : State) (which : Meet → Bool) : State :=
  (s.setMe (s.me.follow (BitVec.allOnes 16) (fun _ => true))).takeIn s.cur (BitVec.allOnes 16) (fun _ => which)

/-! ### Accesses of engines and hardware -/

/-- The bytes of the parts of an access as `rd` gives them, or the first uncorrectable unit: `k` is the offset of the part. -/
def State.readSpans (s : State) (rd : Nat → Nat → List Byte) (a : Word) : Nat → List (Nat × Nat) → Except Flt (List Byte)
  | _, [] => .ok []
  | k, (loc, n) :: t =>
    match s.badByte loc n with
    | some i => .error (.machine, a + BitVec.ofNat 64 (k + i))
    | none => do
      let rest ← s.readSpans rd a (k + n) t
      .ok (rd loc n ++ rest)

/-- A read of `n` bytes at `a` for a context on a core. -/
def State.fetchFor (s : State) (cx : Option Ctx) (core : Nat) (a : Word) (n : Nat) : Except Flt (List Byte) := do
  let sp ← s.spans cx core a n false
  s.readSpans s.mem.readN a 0 sp

/-- The same by port operations for core `m` of node `k`. -/
def State.portFetch (s : State) (cx : Option Ctx) (core : Nat) (keys : List PortKey) (k m : Nat) (a : Word) (n : Nat) :
    Except Flt (List Byte) := do
  let sp ← s.spans cx core a n false
  s.readSpans (s.portBytes keys k m) a 0 sp

/-- The parts of an access before the first that faults. -/
def State.reach (s : State) (cx : Option Ctx) (core : Nat) (a : Word) (w : Bool) : List (Nat × Nat) → List (Nat × Nat)
  | [] => []
  | c :: t => match s.locateFor cx core (a + BitVec.ofNat 64 c.1) c.2 w with
    | .ok loc => (loc, c.2) :: s.reach cx core a w t
    | .error _ => []

/-- The traffic of an access, for its context, as far as it does not fault. -/
def State.costs (s : State) (cx : Option Ctx) (core : Nat) (a : Word) (n : Nat) (w : Bool) : State :=
  s.traffic cx core a (s.reach cx core a w (cuts a.toNat (n / 4096 + 2) 0 n))

/-- The traffic of an access by hardware, with the walk at which it faults. -/
def State.costsWhole (s : State) (cx : Option Ctx) (core : Nat) (a : Word) (n : Nat) (w : Bool) : State :=
  match s.spans cx core a n w with
  | .ok sp => s.traffic cx core a sp
  | .error (c, ea) => (s.costs cx core a n w).faultTraffic cx core c ea

/-- The first byte of a write that lies in an uncorrectable unit which the write covers in part; `k` is its offset. -/
def State.badSpan (s : State) : Nat → List (Nat × Nat) → Option Nat
  | _, [] => none
  | k, (loc, n) :: t => match s.badPart loc n with | some i => some (k + i) | none => s.badSpan (k + n) t

/-- A write of `bs` at `a` for a context on a core. -/
def State.putFor (s : State) (cx : Option Ctx) (core : Nat) (a : Word) (bs : List Byte) : Except Flt State := do
  let sp ← s.spans cx core a bs.length true
  match s.badSpan 0 sp with
  | some i => .error (.machine, a + BitVec.ofNat 64 i)
  | none => .ok ((s.pokeSpans sp bs).traffic cx core a sp)

/-- The byte that an engine reads for a companion core: one that the command in execution has read ahead (R344, log entry 70),
else memory's. -/
def State.engByte (s : State) (r : Role) (a : Nat) : Byte :=
  match (s.core.comp r).early.find? (fun e => e.cmd.isSome && e.cmd = s.core.exec && e.meets a 1) with
  | some e => (e.val[a - e.loc]?).getD 0
  | none => s.mem.read a

def State.engBytes (s : State) (r : Role) : Nat → Nat → List Byte
  | _, 0 => []
  | a, n + 1 => s.engByte r a :: s.engBytes r (a + 1) n

/-- An access of an engine for a companion core: what that companion core and its other commands have read ahead of its bytes is
not returned any more (R339). -/
def State.dropEarly (s : State) (r : Role) (sp : List (Nat × Nat)) : State :=
  let c := s.core.comp r
  s.setComp r { c with early := c.early.filter (fun e =>
    (e.cmd.isSome && e.cmd = s.core.exec) || !sp.any (fun p => e.meets p.1 p.2)) }

/-- The command in execution has read: the writes that it has returned, and what is ordered before them, are passed on by its
retirement (R14, R343). -/
def State.cmdRead (s : State) (r : Role) (sp : List (Nat × Nat)) : State :=
  match s.core.exec with
  | none => s
  | some (q, k) =>
    let own := (s.core.comp r).early.filter (fun e => e.cmd = some (q, k))
    let at_ : Meet := .cmd s.coreId q k
    let note (s : State) (upTo a : Nat) : State :=
      s.markRead (fun l => if l.meets.contains at_ then l else { l with meets := at_ :: l.meets }) (fun _ => false) upTo a 1
    sp.foldl (fun s p => (List.range p.2).foldl (fun s i =>
      note s (((own.find? (fun e => e.meets (p.1 + i) 1)).map (·.upTo)).getD s.lagSeq) (p.1 + i)) s) s

/-- An engine's read for a companion core of the core in focus: DLOST goes to that companion core (R382). -/
def State.engRead (s : State) (r : Role) (a : Word) (n : Nat) : Except Flt (State × List Byte) := do
  let sp ← s.spans s.cx s.coreId a n false
  let bs ← s.readSpans (s.engBytes r) a 0 sp
  let s := if s.lag.isEmpty then s else s.cmdRead r sp
  .ok (((sp.foldl (fun s p => s.noteLost r p.1 p.2) s).dropEarly r sp).traffic s.cx s.coreId a sp, bs)

/-- A write at `a` on the store path of the core in focus: by an engine or by a companion core, with what is held of it. -/
def State.writeFor (s : State) (r : Role) (w : Writer) (a : Word) (bs : List Byte) : Except Flt State := do
  let sp ← s.spans s.cx s.coreId a bs.length true
  match s.badSpan 0 sp with
  | some i => .error (.machine, a + BitVec.ofNat 64 i)
  | none => .ok (((s.dropEarly r sp).pathSpans w sp bs).traffic s.cx s.coreId a sp)

/-- A write of a command of a queue for a companion core: it follows what the command's issue has released (R25, R340). -/
def State.cmdWriter (s : State) (r : Role) (q : QueueId) (c : Cmd) : Writer :=
  { eng := some (q, c.num)
    after := c.prior ++ s.upTo (fun l => match l.src with
      | some (n, p, id) => n = s.coreId && p = r && c.stores.contains id
      | none => false) }

/-- A write of the command in execution. -/
def State.engWriter (s : State) (r : Role) : Writer :=
  match s.core.exec with
  | some (q, k) => match (s.core.queue q).cmds.find? (fun c => c.num = k) with
    | some c => s.cmdWriter r q c
    | none => { eng := some (q, k) }
  | none => {}

/-- An engine's write for a companion core of the core in focus, by the command in execution. -/
def State.engWrite (s : State) (r : Role) (a : Word) (bs : List Byte) : Except Flt State :=
  s.writeFor r (s.engWriter r) a bs

/-- A companion core's own read of any length, in no class, and its own write. -/
def State.ownRead (s : State) (a : Word) (n : Nat) : Except Flt (State × List Byte) := do
  let sp ← s.spans s.cx s.coreId a n false
  let (t, bs) ← s.engRead s.cur a n
  .ok (sp.foldl (fun t p => t.holdRead s.cur 0 (fun _ => false) t.lagSeq p.1 p.2) t, bs)

/-- A write that a companion core makes itself, as one of class 0 (log entry 71). -/
def State.ownWriter (s : State) : Writer :=
  { holds := [{ core := s.coreId, role := s.cur, names := 1, cum := true }], after := s.orderedBefore s.cur 0 }

def State.ownWrite (s : State) (a : Word) (bs : List Byte) : Except Flt State :=
  s.writeFor s.cur s.ownWriter a bs

/-- The focus goes to core `n` of the package. -/
def State.focus (s : State) (n : Nat) : State :=
  if n = s.coreId ∨ 768 ≤ n then s else
  { s with
    coreId := n, core := (lookupKey n s.others).getD {}
    others := setKey s.coreId s.core (s.others.filter (fun x => x.1 ≠ n)) }

/-- `f` at core `n`, and the focus back. -/
def State.onCore (s : State) (n : Nat) (f : State → State) : State := (f (s.focus n)).focus s.coreId

/-- The number by which the writes of the store path know core `n` as a context has it saved. -/
def savedCore (ctx : BitVec 16) (n : Nat) : Nat := 1024 * (ctx.toNat + 1) + n

/-- What a write says of the cores `n` and `m` it says of the other. -/
def Lag.swapCore (n m : Nat) (l : Lag) : Lag :=
  let f (k : Nat) : Nat := if k = n then m else if k = m then n else k
  { l with
    core := f l.core
    src := l.src.map (fun x => (f x.1, x.2))
    holds := l.holds.map (fun h => { h with core := f h.core })
    upto := l.upto.map (fun u => { u with core := f u.core })
    meets := l.meets.map (fun x => match x with
      | .unsent c r id => .unsent (f c) r id
      | .token c q k x => .token (f c) q k x
      | .tag c t => .tag (f c) t
      | .cmd c q k => .cmd (f c) q k
      | .batch c t => .batch (f c) t
      | x => x) }

/-- Core `n` changes places with what a context has saved of it, on the store path. -/
def State.swapSaved (s : State) (ctx : BitVec 16) (n : Nat) : State := s.mapLag (Lag.swapCore n (savedCore ctx n))

/-- `f` at core `n` as a context has it saved. -/
def State.onSaved (s : State) (ctx : BitVec 16) (n : Nat) (f : State → State) : State :=
  let isIt (v : Saved) : Bool := v.ctx = ctx && v.cluster = clusterOf n
  match (s.saved.find? isIt).bind (fun v => lookupKey n v.cores) with
  | none => s
  | some c => s.onCore n (fun t =>
      let u := (f ({ t with core := c }.swapSaved ctx n)).swapSaved ctx n
      { u with
        core := t.core
        saved := u.saved.map (fun v => if isIt v then { v with cores := setKey n u.core v.cores } else v) })

/-- `f` at core `n` as a context has it: there, or saved. -/
def State.onContext (s : State) (ctx : BitVec 16) (n : Nat) (f : State → State) : State :=
  if (s.core? n).bind (·.ctx) = some ctx then s.onCore n f else s.onSaved ctx n f

/-! ### Traps -/

/-- The codes of Table 22-4. -/
def Cause.code : Cause → BitVec 8
  | .illegal => 0x01 | .orphanPrefix => 0x02 | .landing => 0x03 | .align => 0x04 | .xlate => 0x05 | .prot => 0x06
  | .fmt => 0x07 | .fmtUnderflow => 0x08 | .headroom => 0x09 | .scaleCeiling => 0x0A | .nanRow => 0x0B
  | .reclaim => 0x10 | .tokenOverflow => 0x11 | .kvProbe => 0x12 | .kvPool => 0x13 | .firstFault => 0x14
  | .collAbort => 0x15 | .batchErr => 0x16 | .timer => 0x18 | .brk => 0x19 | .trap => 0x1A | .machine => 0x1B

def boolNat (b : Bool) : Nat := if b then 1 else 0

/-- STATUS of a companion core (Table 22-6); PEND reads 1 while a posted trap is held. -/
def Companion.status (c : Companion) (r : Role) : Word :=
  BitVec.ofNat 64 (r.num * 64 + boolNat (c.h && !c.posted.isEmpty) * 4 + boolNat c.dlost * 2 + boolNat c.h)

/-- The six configuration bits of Table 9-2. -/
def VCfg.word (v : VCfg) : Nat := boolNat v.mask * 32 + boolNat v.tail * 16 + v.grp.toNat * 4 + v.ew.code

/-- VLMAX (R154). -/
def vlmax (ew : EWidth) (grp : BitVec 2) : Nat := min 3072 (2 ^ grp.toNat * 1536 / 2 ^ ew.code)

/-- The instruction words at an address of an instruction store: its number, its bytes. -/
def Companion.word (c : Companion) (a : Nat) : Nat := c.istore.num a 4

/-- The bytes that the instruction at `a` takes by its length selector (R16). -/
def Companion.instrLen (c : Companion) (a : Nat) : Nat := if c.word a % 4 = 1 then 8 else 4

/-- The bytes of the unit at `a`: an instruction, or a prefix with its instruction (R30). -/
def Companion.unitLen (c : Companion) (a : Nat) : Nat :=
  if c.word a % 4 = 2 then 4 + c.instrLen (a + 4) else c.instrLen a

/-- The instruction at `a`, zero-extended, as far as the store holds it. -/
def Companion.instrAt (c : Companion) (a : Nat) : Nat :=
  if a ≥ 0x10000 then 0 else c.istore.num a (if a + c.instrLen a ≤ 0x10000 then c.instrLen a else 4)

/-- The frame's offset in the local store (R361). -/
def frameOff (r : Role) : Nat := 0x1FE800 + 0x800 * r.num

/-- The address of a byte of the core's own local store (Table 4-3). -/
def ownLocal (off : Nat) : Word := 0xFF00000000000000 + BitVec.ofNat 64 off

def zeros (n : Nat) : List Byte := List.replicate n 0

/-- The captured value of the a operand, 0 for a command that has none (Table 22-3). -/
def Cmd.opA (c : Cmd) : Word :=
  match c.instr with
  | .attQ .. | .attQF .. | .aexp .. => 0
  | _ => c.ops.headD 0

/-- A replay entry (Table 22-3). -/
def Slot.bytes (q : QueueId) (x : Slot) : List Byte :=
  let c := x.cmd
  let st := match x.state with | .pending => 0 | .reinjected => 1 | .discarded => 2
  leBytes 8 c.word.toNat ++ leBytes 4 c.pword.toNat
    ++ leBytes 4 (q.code * 2 ^ 12 + boolNat x.faulted * 16 + boolNat c.fmt.isSome * 8 + boolNat c.popped * 4 + st)
    ++ leBytes 8 c.prog.units ++ leBytes 8 c.opA.toNat

/-- The frame of Tables 22-1 to 22-3. `fetched` says that the instruction after a prefix had been fetched and does not
orphan it (R364). -/
def frameBytes (c : Companion) (r : Role) (p : Posted) (epc : Nat) (fetched : Bool) (q : Option QueueId)
    (slots : List Slot) (cycle : Word) : List Byte :=
  let prefixed := epc < 0x10000 && c.word epc % 4 = 2
  let instr := match p.how with
    | .sync => if prefixed && fetched then c.instrAt (epc + 4) else c.instrAt epc
    | _ => 0
  let flags := match p.how with | .sync => 0 | .async => 2 | .engine _ => 4
  [p.cause.code, BitVec.ofNat 8 r.num, BitVec.ofNat 8 slots.length, BitVec.ofNat 8 (flags + boolNat prefixed)]
    ++ zeros 4 ++ leBytes 8 (epc % 65536) ++ leBytes 8 p.eaddr.toNat ++ leBytes 8 (c.status r).toNat
    ++ leBytes 8 cycle.toNat ++ leBytes 8 instr ++ zeros 16
    ++ (List.range 64).flatMap (fun i => leBytes 8 (c.reg (BitVec.ofNat 6 i)).toNat)
    ++ c.b.toList.flatMap (fun w => leBytes 8 w.toNat)
    ++ leBytes 8 (c.p ||| 1).toNat ++ leBytes 8 (c.vcfg.vl.toNat * 2 ^ 32 + c.vcfg.word) ++ zeros 880
    ++ slots.flatMap (Slot.bytes (q.getD .loaderVec)) ++ zeros (512 - 32 * slots.length)

/-- The job whose task the core in focus runs. -/
def State.taskOf (s : State) (core : Nat) : Option Task :=
  s.tasks.find? (fun t => t.core = core && (s.core? core).bind (·.ctx) = some t.ctx)

def State.jobHere (s : State) : Option Nat := (s.taskOf s.coreId).map (·.job)

def State.mapJob (s : State) (id : Nat) (f : Job → Job) : State :=
  { s with jobs := s.jobs.map (fun j => if j.id = id then f j else j) }

/-- A fault reported to the host: FAULT and FADDR unless FAULT is valid, and vector 0 (R409, R416). -/
def State.report (s : State) (ctx : BitVec 16) (core role : Nat) (cause : BitVec 8) (addr : Word) : State :=
  let w := if s.window.fault.getLsbD 63 then s.window else
    { s.window with
      fault := BitVec.ofNat 64 (2 ^ 63 + ctx.toNat * 2 ^ 32 + core * 2 ^ 16 + role * 2 ^ 8 + cause.toNat), faddr := addr }
  { s with window := w, outbox := s.outbox ++ [.msix 0] }

/-- The cancellation of a job begins (R317): its tasks stop at their next boundary. -/
def State.cancelJob (s : State) (id : Nat) : State := s.mapJob id (fun j => { j with cancelled := true })

/-- A double trap (R362): no frame; the companion core stops, its job is cancelled and the host is told. -/
def State.doubleTrap (s : State) (r : Role) (p : Posted) : State :=
  let s := s.setComp r { s.core.comp r with run := .stopped, pfx := none, waiting := false }
  let s := match s.jobHere with | some id => s.cancelJob id | none => s
  s.report (s.core.ctx.getD 0) s.coreId r.num p.cause.code p.eaddr

/-- The TVEC field of a role (Table 22-7). -/
def tvecField (tvec : Word) (r : Role) : Nat := bits tvec.toNat (16 * r.num) 16

/-- The landing mark of the word at an address (R17). -/
def Companion.landing (c : Companion) (a : Nat) : Bool := (c.word a).testBit 2

/-- A companion core takes a cause at an instruction boundary (R361). One that is posted before its first fetch is taken there,
and the check of the entry word's landing mark is not made after it (R13, log entry 98). -/
def State.takeTrap (s : State) (r : Role) (p : Posted) (epc : Nat) (fetched : Bool) : State :=
  let c := s.core.comp r
  let f := tvecField s.core.tvec r
  let h := f / 4 * 4
  if c.h || f % 2 = 0 || !c.landing h then s.doubleTrap r p
  else
    let q := match p.how with | .engine q => some q | _ => none
    let slots := match q with | some q => (s.core.queue q).captured | none => []
    let bytes := frameBytes c r p epc fetched q slots s.cycle
    let s := (s.setComp r { c with early := [] }).push r 0 (ownLocal (frameOff r)) (locLocal s.coreId (frameOff r)) bytes none Regs.all
    let s := s.drain r (fun b => b.names.getLsbD 0)
    let s := match q with
      | some q => s.setQueue q { s.core.queue q with slots := slots, captured := [], stopped := false }
      | none => s
    let c := s.core.comp r
    s.setComp r { c with
      cause := p.cause.code, epc := BitVec.ofNat 16 epc, eaddr := p.eaddr, h := true, pc := BitVec.ofNat 17 h
      pfx := none, waiting := false, wfi := none, entry := false, entryEpc := BitVec.ofNat 16 epc, active := q }

/-- The address of the unit that a companion core is at: the prefix's when one waits for its instruction (R30). -/
def Companion.unitPc (c : Companion) : Nat := match c.pfx with | some l => l.addr.toNat | none => c.pc.toNat

/-- How the body of an instruction ends other than in its own effect. -/
inductive Stop
  /-- a synchronous trap, EPC at the instruction (R30) -/
  | trap (c : Cause) (ea : Word)
  /-- a synchronous trap, EPC at the next instruction, `len` bytes on (R370) -/
  | trapNext (c : Cause) (ea : Word) (len : Nat)
  /-- the same, before the instruction after a prefix was known to suit it (R364) -/
  | trapPfx (c : Cause) (ea : Word)
  /-- a synchronous trap of an instruction that has made accesses: `used` counts their traffic (Table 19-2) -/
  | trapAfter (used : List (Nat × Nat)) (c : Cause) (ea : Word)
  /-- the instruction waits and is executed again (R47, R360) -/
  | wait
  deriving DecidableEq, Repr

def liftFlt {α : Type} : Except Flt α → Except Stop α
  | .ok a => .ok a
  | .error (c, ea) => .error (.trap c ea)

/-- A synchronous trap of an instruction in progress, whose accesses so far are in the state. -/
def State.fail {α : Type} (s : State) (c : Cause) (ea : Word) : Except Stop α := .error (.trapAfter s.used c ea)

/-- An access of an instruction in progress. -/
def State.lift {α : Type} (s : State) : Except Flt α → Except Stop α
  | .ok a => .ok a
  | .error (c, ea) => s.fail c ea

/-- The executing companion core raises a synchronous trap. -/
def State.raise (s : State) (c : Cause) (ea : Word) (epc : Nat) (fetched : Bool) : State :=
  (s.faultTraffic s.cx s.coreId c ea).takeTrap s.cur ⟨c, ea, .sync⟩ epc fetched

/-- What an instruction's body gives, from the state before it: the next state, the trap taken, or the wait. -/
def settle (s : State) (r : Except Stop State) : Host.Outcome State Fault Refusal :=
  match r with
  | .ok t => .next (t.setMe { t.me with pfx := none, waiting := false, wfi := none })
  | .error .wait => .next (s.setMe { s.me with waiting := true })
  | .error (.trap c ea) => .next (s.raise c ea s.me.unitPc true)
  | .error (.trapPfx c ea) => .next (s.raise c ea s.me.unitPc false)
  | .error (.trapAfter used c ea) => .next ({ s with used := used }.raise c ea s.me.unitPc true)
  | .error (.trapNext c ea len) => .next (s.raise c ea (s.me.pc.toNat + len) false)

/-- The prefix that applies to the instruction being executed. -/
def State.prefixNow (s : State) : Prefix := match s.me.pfx with | some l => l.pfx | none => Prefix.none

/-- Steps 7 and 9 of Table 2-7 for a companion-executed instruction of a role profile. -/
def State.admits (s : State) (profile : List Role) : Bool := profile.contains s.cur && s.prefixNow.bare

/-- A companion-executed instruction of a role profile: step 7 and step 9 of Table 2-7, then its body. -/
def companionOp (s : State) (profile : List Role) (body : Except Stop State) : Host.Outcome State Fault Refusal :=
  settle s (if s.admits profile then body else .error (.trap .illegal 0))

/-- The same for an instruction that waits until every earlier store of its companion core has performed at CORE scope,
before it does anything else: they have performed even where it traps or waits. -/
def drainedOp (s : State) (profile : List Role) (body : State → Except Stop State) : Host.Outcome State Fault Refusal :=
  if s.admits profile then settle (s.drainAll s.cur) (body (s.drainAll s.cur)) else settle s (.error (.trap .illegal 0))

def everyRole : List Role := [.loader, .sequencer, .storer]

/-! ### The return from a handler (R372) -/

/-- A transfer of control to `t` (R17, R20, R62): its cause, or none; ALIGN before PROT where both apply (log entry 76). -/
def Companion.transferFault (c : Companion) (t : Word) : Option Cause :=
  if t.toNat % 4 ≠ 0 then some .align
  else if t.toNat ≥ 0x10000 then some .prot
  else if !c.landing t.toNat then some .landing else none

/-- Re-injection of a captured command at the tail of its queue (R373). -/
def Queue.inject (q : Queue) (i : Nat) : Queue :=
  match q.slots[i]? with
  | some x => { q with cmds := q.cmds ++ [x.cmd], slots := q.slots.set i { x with state := .reinjected } }
  | none => q

/-- The commands that `eret` re-injects: those of the pending slots of the frame's capture area. -/
def Queue.pending (q : Queue) : List Cmd := (q.slots.filter (fun x => x.state = .pending)).map (·.cmd)

/-- Every pending slot of the frame's list goes back to its queue, in slot order (R372). -/
def Queue.injectAll (q : Queue) : Queue :=
  { q with cmds := q.cmds ++ q.pending, slots := [] }

/-- The registers that a frame's bytes give (R363, R372). -/
def Companion.fromFrame (c : Companion) (f : List Byte) : Companion :=
  let num (o n : Nat) := leNat ((f.drop o).take n)
  let cfg := num 648 8
  let ew : EWidth := match cfg % 4 with | 0 => .e8 | 1 => .e16 | _ => .e32
  let grp := BitVec.ofNat 2 (bits cfg 2 2)
  { c with
    s := Vector.ofFn (fun i => BitVec.ofNat 64 (num (64 + 8 * i.val) 8))
    b := Vector.ofFn (fun i => BitVec.ofNat 64 (num (576 + 8 * i.val) 8))
    p := BitVec.ofNat 16 (num 640 2)
    vcfg := { vl := BitVec.ofNat 12 (min (bits cfg 32 12) (vlmax ew grp)), ew := ew, grp := grp,
              tail := cfg.testBit 4, mask := cfg.testBit 5 } }

/-- The queue of the frame in force has room for every command that `eret` re-injects (R372, R373). -/
def State.eretRoom (s : State) : Bool :=
  match s.me.active with
  | some q =>
    let x := s.core.queue q
    x.pending.isEmpty || x.cmds.length + x.done.length + x.pending.length ≤ 16
  | none => true

/-- `eret` (R372): the frame's registers, the pending captured commands, and the transfer to EPC. It waits for room in the
queue before it does any of it (log entry 74). -/
def State.eret (s : State) : Except Stop State :=
  if !s.me.h then .error (.trap .prot 0) else
  let loc := locLocal s.coreId (frameOff s.cur) + 64
  let s := s.beforeRead none loc 592
  let c := s.me
  match s.badByte loc 592 with
  | some i => .error (.trap .machine (ownLocal (frameOff s.cur + 64 + i)))
  | none =>
    let s := s.noteLost s.cur loc 592
    let f := s.peekN s.cur (locLocal s.coreId (frameOff s.cur)) 656
    if ((f[648]?).getD 0).toNat % 4 = 3 then .error (.trap .illegal 0)
    else if !s.eretRoom then .error .wait else
    let t := c.epc.toNat
    let at_ := c.entryEpc.toNat
    let far := t ≠ at_ ∧ t ≠ at_ + c.unitLen at_
    let s := match c.active with
      | some q => s.setQueue q (s.core.queue q).injectAll
      | none => s
    let s := s.setMe { s.me.fromFrame f with h := false, active := none }
    match (if far then c.transferFault (BitVec.ofNat 64 t) else none) with
    | some cause => .ok (s.raise cause (BitVec.ofNat 64 t) c.unitPc true)
    | none => .ok (s.setMe { s.me with pc := BitVec.ofNat 17 t })

end Sys2Proof.Machine
end

