-- ==== Sys2Proof/Machine/Engine.lean ====
section
/-! DEFINITION. Engine commands: their headers, the stages of their issue (R47), their end in a queue, and what their
retirement or discarding makes (R14, R373). -/

namespace Sys2Proof

/-- The s registers that an instruction reads or writes. -/
def Instr.sregs : Instr → List SReg
  | .movi a _ | .movh a _ | .lea a .. | .ptbr _ a | .kvApp _ a | .tagClr a | .barWait a | .setvli a .. | .wset _ a
    | .wget a _ | .vmvSx _ a | .vmvXs a _ | .kpop a _ | .kffs a _ | .vbmRd a _ | .deal a | .fmtPush a | .bcls a
    | .trap a | .sysr a _ | .sysw _ a | .wfi a | .vld _ _ _ a | .vldx _ _ _ a .. | .vldff _ _ _ a _ | .vst _ _ _ a
    | .vstx _ _ _ a .. | .aexp _ _ a | .attPlan _ a => [a]
  | .clz a b | .ctz a b | .popc a b | .mov a b | .sext a b _ | .zext a b _ | .addi a b _ | .andi a b _ | .ori a b _
    | .xori a b _ | .shli a b _ | .shri a b _ | .srai a b _ | .bfx a b .. | .bfi a b .. | .cmpEq _ a b
    | .cmpNe _ a b | .cmpLt _ a b | .cmpLe _ a b | .cmpLtu _ a b | .cmpLeu _ a b | .sel a _ b | .ldB a b _
    | .ldH a b _ | .ldW a b _ | .ldD a b _ | .lduB a b _ | .lduH a b _ | .lduW a b _ | .stB a b _ | .stH a b _
    | .stW a b _ | .stD a b _ | .rprobe a b | .kvMap a b | .kvPos a b | .kvLen a b | .cntArm a b | .cntRd a b _
    | .tagWaitAny a b | .tagWaitAll a b | .tagFfr a b | .bar a b | .decl a b | .ntake a b | .nfree a b | .psched a b
    | .setvl a b .. | .job a b | .gbind a b | .fireWait a b | .coll a b | .cwait a b | .replay a b
    | .amoLd _ _ _ a b _ | .vlds _ _ _ a b | .vsts _ _ _ a b | .pull _ a b _ | .attKv _ a b .. => [a, b]
  | .add a b c | .sub a b c | .mul a b c | .mulh a b c | .mulhs a b c | .div a b c | .divu a b c | .rem a b c
    | .remu a b c | .and a b c | .or a b c | .xor a b c | .shl a b c | .shr a b c | .sra a b c | .min a b c
    | .max a b c | .minu a b c | .maxu a b c | .rmap a b c | .rinv a b c | .kvFind a b c | .kvAlias a b c
    | .kvUnmap a b c | .kvRef a b c | .kvCommit a b c | .rret a b c | .rrel a b c | .vcfg a b c | .grebind a b c
    | .fire a b c | .gstat a b c | .cstat a b c | .bstat a b c | .path a b c | .disc a b c | .ldBS _ a b c _
    | .ldHS _ a b c _ | .ldWS _ a b c _ | .ldDS _ a b c _ | .lduBS _ a b c _ | .lduHS _ a b c _ | .lduWS _ a b c _
    | .stBS _ a b c _ | .stHS _ a b c _ | .stWS _ a b c _ | .stDS _ a b c _ | .ldAcq _ _ a b c _
    | .stRel _ _ a b c _ | .amoAdd _ _ _ a b c _ | .amoOr _ _ _ a b c _ | .amoXor _ _ _ a b c _
    | .amoMin _ _ _ a b c _ | .amoMax _ _ _ a b c _ | .amoSwap _ _ _ a b c _ | .amoCas _ _ _ a b c _
    | .tmov _ a b c _ | .tfill _ a b c _ | .pub _ a b c | .attQ _ _ a b c _ | .rst _ a b c _ | .rstMc _ a b c _
    | .rld _ a b c _ => [a, b, c]
  | .tmovFp _ a b c d _ | .tcmp _ a b c d _ | .pullF _ a b c d _ | .pubMc _ a b c d | .ramo _ _ a b c d _ => [a, b, c, d]
  | .cntAdd a (.reg b) _ | .cntWait a (.reg b) _ => [a, b]
  | .cntAdd a (.imm _) _ | .cntWait a (.imm _) _ => [a]
  | _ => []

/-- The s register that an instruction writes. -/
def Instr.written : Instr → List SReg
  | .cmpEq .. | .cmpNe .. | .cmpLt .. | .cmpLe .. | .cmpLtu .. | .cmpLeu .. | .ptbr .. | .stB .. | .stH .. | .stW ..
  | .stD .. | .stBS .. | .stHS .. | .stWS .. | .stDS .. | .stRel .. | .kvApp .. | .tagClr .. | .barWait .. | .wset ..
  | .vmvSx .. | .fmtPush .. | .trap .. | .sysw .. | .wfi .. | .vld .. | .vlds .. | .vldx .. | .vldff .. | .vst .. | .vsts ..
  | .vstx .. | .aexp .. | .attPlan .. | .tmov .. | .tmovFp .. | .tfill .. | .tcmp .. | .pub .. | .pubMc .. | .attQ .. | .attKv ..
  | .rst .. | .rstMc .. | .cntAdd .. | .cntWait .. | .fireWait .. => []
  | i => i.sregs.take 1

/-- The s registers that an instruction reads. -/
def Instr.reads : Instr → List SReg
  | .bfi d a .. => [d, a]
  | .movh d _ => [d]
  | .sel d _ b => [d, b]
  | .amoCas _ _ _ d a b _ => [d, a, b]
  | .ramo _ _ d a b c _ => [d, a, b, c]
  | i => i.sregs.drop i.written.length

/-- The header of an engine command: token action and class. -/
def Instr.hdr : Instr → Option EHdr
  | .vld h .. | .vlds h .. | .vldx h .. | .vldff h .. | .vst h .. | .vsts h .. | .vstx h ..
  | .vadd h .. | .vsub h .. | .vmul h .. | .vfma h .. | .vfms h .. | .vfnma h .. | .vmin h .. | .vmax h ..
  | .vabs h .. | .vneg h .. | .vdiv h .. | .vsqrt h .. | .vrsqrt h .. | .vrcp h .. | .vexp2 h .. | .vlog2 h ..
  | .vcvt h .. | .vand h .. | .vor h .. | .vxor h .. | .vnot h .. | .vshl h .. | .vshr h .. | .vsra h ..
  | .vcmp h .. | .vsel h .. | .vredsum h .. | .vredmax h .. | .vredmin h .. | .vscan h .. | .vperm h ..
  | .vslideup h .. | .vslidedn h .. | .vbcast h .. | .vcomp h .. | .viota h .. | .vrot h .. | .vdot h .. | .vseed h ..
  | .vmv h .. | .kand h .. | .kor h .. | .kxor h .. | .knot h ..
  | .tmov h .. | .tmovFp h .. | .tfill h .. | .tcmp h .. | .pull h .. | .pullF h .. | .pub h .. | .pubMc h ..
  | .mcode h .. | .mload h .. | .mloadVq h .. | .mmma h .. | .mmmaSp h .. | .mcomp h .. | .outl h .. | .azero h ..
  | .aexp h .. | .anorm h .. | .mout h .. | .moutRet h ..
  | .attQ h .. | .attQF h .. | .attKv h .. | .attRun h .. | .attOut h .. | .attMerge h .. | .attPlan h ..
  | .rst h .. | .rstMc h .. | .rld h .. | .ramo h .. => some h
  | _ => none

/-- The registers that the result, an address or an operand of an instruction is computed from (R344); a branch computes nothing. -/
def Instr.sources (i : Instr) : Machine.Regs :=
  { s := regBits i.reads
    p := match i with
      | .pand _ a b | .por _ a b | .pxor _ a b => (1#16 <<< a.toNat) ||| (1#16 <<< b.toNat)
      | .pnot _ a | .sel _ a _ => 1#16 <<< a.toNat
      | _ => 0
    cfg := i.hdr.isSome }

/-- The registers that an instruction writes; a return from a handler writes them all. -/
def Instr.targets (i : Instr) : Machine.Regs :=
  if i = .eret then ⟨BitVec.allOnes 64, BitVec.allOnes 16, true⟩ else
  { s := regBits i.written
    p := match i with
      | .cmpEq d .. | .cmpNe d .. | .cmpLt d .. | .cmpLe d .. | .cmpLtu d .. | .cmpLeu d .. | .pand d .. | .por d .. | .pxor d ..
      | .pnot d .. | .kvApp d .. => 1#16 <<< d.toNat
      | _ => 0
    cfg := match i with | .setvl .. | .setvli .. | .vcfg .. => true | _ => false }

/-- An instruction makes no access of its own but those of a plain store. -/
def Instr.quietAccess : Instr → Bool
  | .pfx .. | .add .. | .sub .. | .mul .. | .mulh .. | .mulhs .. | .div .. | .divu .. | .rem .. | .remu .. | .and .. | .or ..
  | .xor .. | .shl .. | .shr .. | .sra .. | .min .. | .max .. | .minu .. | .maxu .. | .clz .. | .ctz .. | .popc .. | .mov ..
  | .sext .. | .zext .. | .addi .. | .andi .. | .ori .. | .xori .. | .shli .. | .shri .. | .srai .. | .bfx .. | .bfi ..
  | .movi .. | .movh .. | .lea .. | .cmpEq .. | .cmpNe .. | .cmpLt .. | .cmpLe .. | .cmpLtu .. | .cmpLeu .. | .pand ..
  | .por .. | .pxor .. | .pnot .. | .sel .. | .ptb .. | .ptbr .. | .br .. | .brN .. | .brl .. | .ret .. | .nop
  | .setvl .. | .setvli .. | .vcfg .. | .wget .. | .stB .. | .stH .. | .stW .. | .stD .. | .stBS .. | .stHS .. | .stWS ..
  | .stDS .. => true
  | _ => false

/-- An engine command that accesses memory (R25). -/
def Instr.memCmd : Instr → Bool
  | .vld .. | .vlds .. | .vldx .. | .vldff .. | .vst .. | .vsts .. | .vstx .. | .tmov .. | .tmovFp .. | .tfill .. | .tcmp ..
  | .pull .. | .pullF .. | .pub .. | .pubMc .. | .attKv .. | .attPlan .. | .rst .. | .rstMc .. | .rld .. | .ramo .. => true
  | _ => false

/-- The classes of the scalar accesses that an instruction makes: its own, or class 0 where it loads a record. -/
def Instr.classOf : Instr → BitVec 16
  | .stB .. | .stH .. | .stW .. | .stD .. | .ldB .. | .ldH .. | .ldW .. | .ldD .. | .lduB .. | .lduH .. | .lduW ..
  | .psched .. | .cntArm .. | .job .. | .ntake .. => 1
  | .stBS c .. | .stHS c .. | .stWS c .. | .stDS c .. | .ldBS c .. | .ldHS c .. | .ldWS c .. | .ldDS c .. | .lduBS c ..
  | .lduHS c .. | .lduWS c .. | .ldAcq _ c .. | .stRel _ c .. => 1#16 <<< c.toNat
  | .amoAdd u _ c .. | .amoOr u _ c .. | .amoXor u _ c .. | .amoMin u _ c .. | .amoMax u _ c .. | .amoSwap u _ c ..
  | .amoCas u _ c .. | .amoLd u _ c .. => if u = .plain ∨ u = .unp then 1#16 <<< c.toNat else 0
  | _ => 0

/-- The instruction makes a scalar load that says itself which units read ahead come before it. -/
def Instr.isLoad : Instr → Bool
  | .ldB .. | .ldH .. | .ldW .. | .ldD .. | .lduB .. | .lduH .. | .lduW .. | .ldBS .. | .ldHS .. | .ldWS .. | .ldDS ..
  | .lduBS .. | .lduHS .. | .lduWS .. => true
  | _ => false

/-- The classes whose later loads must follow the instruction (R340, R341): that of its scalar access and that of an engine
command which accesses memory (R25); none for an instruction that makes no access of a class, for an operation of a
queue (R345), or for one that says it itself where it loads, acquires or fences; every class for any other (log entry 70). -/
def Instr.follows (i : Instr) : BitVec 16 :=
  match i.hdr with
  | some h => if i.memCmd then 1#16 <<< h.cls.toNat else 0
  | none =>
    match i with
    | .amoAdd .. | .amoOr .. | .amoXor .. | .amoMin .. | .amoMax .. | .amoSwap .. | .amoCas .. | .amoLd .. => i.classOf
    | .ntake .. | .fence .. | .fenceX .. | .tok .. | .tagWaitAny .. | .tagWaitAll .. | .tagFfr .. | .tagClr .. | .cntAdd ..
    | .cntWait .. | .cntRd .. | .bar .. | .barWait .. | .nwait | .nfree .. | .decl .. | .rret .. | .rrel .. | .bcls ..
    | .bstat .. | .path .. | .deal .. | .sysr .. | .wset .. | .fmtPush .. | .vmvSx .. | .vbmClr .. | .fire .. | .gstat ..
    | .cstat .. => 0
    | i => if i.isLoad then 0 else if i.classOf ≠ 0 then i.classOf else if i.quietAccess then 0 else BitVec.allOnes 16

/-- The copy tag of a tile move or pull. -/
def Instr.tag : Instr → Option (BitVec 6)
  | .tmov _ _ _ _ t | .tmovFp _ _ _ _ _ t | .tfill _ _ _ _ t | .tcmp _ _ _ _ _ t | .pull _ _ _ t
  | .pullF _ _ _ _ _ t => some t
  | _ => none

/-- The loader has no left neighbour, the storer no right one (R24). -/
def tokLegal (r : Role) (t : BitVec 4) : Bool :=
  match r with
  | .loader => !t.getLsbD 0 && !t.getLsbD 1
  | .sequencer => true
  | .storer => !t.getLsbD 2 && !t.getLsbD 3

end Sys2Proof

namespace Sys2Proof.Machine

/-- The companion core that pushes into a token queue. -/
def TokQ.pusher : TokQ → Role
  | .ls => .loader | .sl | .ss => .sequencer | .ts => .storer

def TokQ.all : List TokQ := [.ls, .sl, .ss, .ts]

/-- The queues that a token action pops (R24): bit 1 pops left, bit 3 pops right. -/
def tokPops (r : Role) (t : BitVec 4) : List TokQ :=
  (if t.getLsbD 1 then (match r with | .sequencer => [TokQ.ls] | .storer => [.ss] | .loader => []) else [])
    ++ (if t.getLsbD 3 then (match r with | .loader => [TokQ.sl] | .sequencer => [.ts] | .storer => []) else [])

/-- The queues that a token action pushes (R24): bit 0 pushes left, bit 2 pushes right. -/
def tokPushes (r : Role) (t : BitVec 4) : List TokQ :=
  (if t.getLsbD 0 then (match r with | .sequencer => [TokQ.sl] | .storer => [.ts] | .loader => []) else [])
    ++ (if t.getLsbD 2 then (match r with | .loader => [TokQ.ls] | .sequencer => [.ss] | .storer => []) else [])

def Tokens.get (t : Tokens) : TokQ → Nat
  | .ls => t.ls | .sl => t.sl | .ss => t.ss | .ts => t.ts

def Tokens.put (t : Tokens) (q : TokQ) (n : Nat) : Tokens :=
  match q with
  | .ls => { t with ls := n } | .sl => { t with sl := n } | .ss => { t with ss := n } | .ts => { t with ts := n }

def Tokens.pop (t : Tokens) (qs : List TokQ) : Tokens := qs.foldl (fun t q => t.put q (t.get q - 1)) t

def Tokens.push (t : Tokens) (qs : List TokQ) : Tokens := qs.foldl (fun t q => t.put q (t.get q + 1)) t

/-- The pushes that a command of a queue makes when it retires. -/
def Cmd.pushes (q : QueueId) (c : Cmd) : List TokQ :=
  match c.instr.hdr with | some h => tokPushes q.owner h.tok | none => []

/-- The commands of a queue that have issued and not retired, captured ones included. -/
def Queue.live (q : Queue) : List Cmd :=
  q.cmds ++ q.done ++ (q.slots.filter (fun x => x.state = .pending)).map (·.cmd) ++ q.captured.map (·.cmd)

/-- The pushes into a token queue reserved by issued, unretired commands (R47). -/
def Core.reserved (c : Core) (t : TokQ) : Nat :=
  (QueueId.all.map (fun q => ((c.queue q).live.map (fun x => (x.pushes q).count t)).sum)).sum

/-- The oldest token of a queue of the core in focus is popped: the companion core acquires what it carries, and a fence that its
pusher made before it orders the popper's port operations too (R14, R343, R347); the others move up. -/
def State.popToken (s : State) (r : Role) (q : TokQ) : State :=
  let n := s.coreId
  s.mapLag (fun l =>
    let first (f : Option Scope → Bool) : Meet → Bool | .token m p 0 x => m = n && p = q && f x | _ => false
    let fences := l.meets.filterMap (fun x => match x with
      | .token m p 0 (some sc) => if m = n ∧ p = q then some (Upto.mk n r sc false) else none
      | _ => none)
    let moved : Meet → Option Meet
      | .token m p k x => if m = n ∧ p = q then (if k = 0 then none else some (.token m p (k - 1) x)) else some (.token m p k x)
      | x => some x
    let u := { l with meets := l.meets.filterMap moved, upto := fences ++ l.upto }
    if l.meets.any (first (·.isNone)) then u.acquiredBy n r (BitVec.allOnes 16) else u)

/-- Tokens are popped: later accesses of every class follow what they carry. -/
def State.acquireTokens (s : State) (pops : List TokQ) : State :=
  if pops.isEmpty then s else
  pops.foldl (fun s q => s.popToken s.cur q) (s.setMe (s.me.follow (BitVec.allOnes 16) (fun _ => true)))

/-- A token that is pushed into a queue of the core in focus carries the writes that `which` selects, and what is ordered before
them (R14, R340, R343). -/
def State.carry (s : State) (q : TokQ) (which : Lag → Bool) : State :=
  let at_ : Meet := .token s.coreId q (s.core.tokens.get q) none
  s.mapOrdered which (fun l => { l with meets := at_ :: l.meets })

/-- A token that a `tok` pushes carries what a release of every class covers, and its companion core's own fences (R50, R347). -/
def State.carryOwn (s : State) (q : TokQ) : State :=
  let k := s.core.tokens.get q
  let n := s.coreId
  (s.carry q (Lag.covered n s.cur (BitVec.allOnes 16))).mapLag (fun l =>
    let fences := l.upto.filter (fun u => u.core = n && u.role = s.cur && u.own)
    { l with meets := fences.map (fun u => Meet.token n q k (some u.sc)) ++ l.meets })

/-- Stage 2 of R47: every queue popped holds a token. -/
def Core.tokensReady (c : Core) (pops : List TokQ) : Bool := pops.all (fun q => 0 < c.tokens.get q)

/-- Stage 4 of R47: no queue pushed would pass 63. -/
def Core.pushesFit (c : Core) (pushes : List TokQ) : Bool :=
  pushes.all (fun q => c.tokens.get q + c.reserved q + 1 ≤ 63)

/-- Room in a command queue (R44): an entry frees when its command retires. -/
def Queue.room (q : Queue) : Bool := q.cmds.length + q.done.length < 16

/-- Which prefix fields an instruction takes: rounding, saturation, mask, tail (R32, R41). -/
structure Takes where
  rnd  : Bool := false
  sat  : Bool := false
  mask : Bool := false
  tail : Bool := false

def prefixWithin (p : Prefix) (k : Takes) : Bool :=
  (k.rnd || p.rnd.isNone) && (k.sat || !p.sat) && (k.mask || p.mask.isNone && p.mpol.isNone) && (k.tail || p.tail.isNone)

/-- What the operand checks of step 10 give a command: its captured operands and views, and its issue-time effect besides
those of R47. -/
structure Captured where
  ops   : List Word := []
  views : List Word := []
  carry : List Word := []
  also  : State → State := id

/-- Stage 5 of R47: the oldest unreserved format word, where the command pops one (R200). -/
def State.formatWord (s : State) (pops : Bool) : Except Stop (Option Word) :=
  if !pops then .ok none else
  match s.core.fmtq[s.core.fmtRes]? with
  | some w => .ok (some w)
  | none => .error (.trap .fmtUnderflow 0)

/-- The command that enters the queue (R161, R165): what its issue captured. -/
def State.command (s : State) (i : Instr) (h : EHdr) (k : Captured) (w : Option Word) : Cmd :=
  { instr := i
    word := BitVec.ofNat 64 ((encodeNat i).2 + (if s.me.landing s.me.pc.toNat then 4 else 0))
    pfx := s.prefixNow
    pword := match s.me.pfx with | some l => l.word | none => 0
    ops := k.ops, views := k.views, vcfg := s.me.vcfg, fmt := w, held := w.isSome
    popped := !(tokPops s.cur h.tok).isEmpty
    prog := { carry := k.carry }
    stores := (s.me.sbuf.filter (BufStore.released h.cls)).map (·.id)
    prior := s.upTo (fun l => l.covered s.coreId s.cur (clsMask h.cls) || (l.hold s.coreId s.cur).regs.meets i.sources) }

/-- The command stands at the tail of its queue, and has the queue's next number. -/
def State.enqueue (s : State) (q : QueueId) (c : Cmd) : State :=
  let x := s.core.queue q
  s.setQueue q { x with cmds := x.cmds ++ [{ c with num := x.seq }], seq := x.seq + 1 }

/-- Registers that the index group spans. -/
def VCfg.indexRegs (v : VCfg) : Nat := (4 * vlmax v.ew v.grp + 1535) / 1536

/-- The vector registers that a vector memory command's indices lie in, under a configuration. -/
def indexGroup (v : VCfg) : Instr → List Nat
  | .vldx _ _ _ _ x _ | .vstx _ _ _ _ x _ => (List.range v.indexRegs).map (x.toNat + ·)
  | _ => []

/-- Units that the executing companion core has read ahead, which the engine may return to a command as it issues: no access of
the command's class that it follows lies between, and no operand of it, an index among them, depends on a load made since (R340,
R344). -/
def Companion.lend (c : Companion) (q : QueueId) (num : Nat) (cls : BitVec 4) (i : Instr) : Companion :=
  let mine := c.early.filter (fun e => e.cmd.isNone && !e.past.getLsbD cls.toNat && !e.named.meets i.sources
    && !(indexGroup c.vcfg i).any e.filled.contains)
  { c with early := c.early ++ mine.map (fun e => { e with cmd := some (q, num) }) }

/-- The issue of an engine command: Table 2-7 steps 7 to 10, then stages 2 to 6 of R47. -/
def issue (s : State) (i : Instr) (h : EHdr) (profile : Role) (q : QueueId) (k : Takes) (fmtWord : Bool)
    (check : Except Stop Captured) : Host.Outcome State Fault Refusal :=
  settle s (do
    if s.cur ≠ profile ∨ !tokLegal s.cur h.tok ∨ !prefixWithin s.prefixNow k then .error (.trap .illegal 0) else
    let cap ← check
    if !s.core.tokensReady (tokPops s.cur h.tok) then .error .wait else
    if !(s.core.queue q).room then .error .wait else
    if !s.core.pushesFit (tokPushes s.cur h.tok) then .error (.trap .tokenOverflow 0) else
    let w ← s.formatWord fmtWord
    let c := s.command i h cap w
    let s := (s.release s.cur .core (BufStore.released h.cls)).acquireTokens (tokPops s.cur h.tok)
    let s := { s with core := { s.core with
      tokens := s.core.tokens.pop (tokPops s.cur h.tok), fmtRes := s.core.fmtRes + boolNat w.isSome } }
    let s := s.setMe (s.me.lend q (s.core.queue q).seq h.cls i)
    .ok ((cap.also (s.enqueue q c)).advance 8))

/-- Every command that a companion core has issued has retired (R98, R171); a captured one has not. -/
def Core.quiet (c : Core) (r : Role) : Bool :=
  QueueId.all.all (fun q => q = .followOn || q.owner ≠ r || (c.queue q).live.isEmpty)

/-- The stores of its companion core that the issue of a command has released perform before its accesses (R25, R340). -/
def State.beforeCommand (s : State) (r : Role) (c : Cmd) : State :=
  if c.instr.memCmd then s.drain r (fun b => c.stores.contains b.id) else s

/-- The engine's accesses are those of the head of a queue. -/
def State.executes (s : State) (q : QueueId) (c : Cmd) : State := { s with core := { s.core with exec := some (q, c.num) } }

/-- How the execution of a command ends. -/
inductive EngEnd
  | done (s : State)
  /-- an engine-posted cause, with the progress made (R76, R365) -/
  | fault (s : State) (c : Cause) (ea : Word) (p : Progress)
  /-- it cannot go on yet; the state holds what it has done so far -/
  | wait (s : State)

/-- The bytes that a command reads, in their order: those that it read before a fault ended its execution, and those that it has
taken or read since (R76). -/
structure ReadLog where
  past : List Word := []
  next : List Word := []

/-- A fault of a command with what it has read. -/
structure Broken where
  s    : State
  flt  : Flt
  read : List Word

def Broken.fault (x : Broken) (units : Nat) : EngEnd := .fault x.s x.flt.1 x.flt.2 { units := units, carry := x.read }

/-- A fault that is not of a read of the log. -/
def ReadLog.lift {α : Type} (g : ReadLog) (s : State) (x : Except Flt α) : Except Broken α :=
  match x with | .ok a => .ok a | .error e => .error ⟨s, e, g.past⟩

/-- A read of an engine command through its log: the bytes that it read before are not read again, so that the first address
which it issues after a replay is the one that faulted (R76). -/
def State.logRead (s : State) (r : Role) (a : Word) (n : Nat) (g : ReadLog) : Except Broken (State × List Byte × ReadLog) :=
  let old := g.next.take n
  let k := old.length
  let bytes (l : List Word) : List Byte := l.map (fun w => w.setWidth 8)
  let words (l : List Byte) : List Word := l.map (fun b => b.setWidth 64)
  if k = n then .ok (s, bytes old, ⟨g.past ++ old, g.next.drop n⟩) else
  match s.engRead r (a + BitVec.ofNat 64 k) (n - k) with
  | .ok (t, bs) => .ok (t, bytes old ++ bs, ⟨g.past ++ old ++ words bs, []⟩)
  | .error (c, ea) =>
    match s.engRead r (a + BitVec.ofNat 64 k) (min (n - k) (ea - (a + BitVec.ofNat 64 k)).toNat) with
    | .ok (t, bs) => .error ⟨t, (c, ea), g.past ++ old ++ words bs⟩
    | .error _ => .error ⟨s, (c, ea), g.past ++ old⟩

def engOf (p : Progress) (s : State) (r : Except Flt State) : EngEnd :=
  match r with
  | .ok t => .done t
  | .error (c, ea) => .fault s c ea p

/-- The outlier list that each slot holds (R365): the one in force, up to the first captured `outl`, whose own list the
later commands find installed when they execute again. -/
def holdOutliers (l : List Nat) : List Slot → List Slot
  | [] => []
  | x :: t =>
    { x with cmd := { x.cmd with outl := some (x.cmd.outl.getD l) } } ::
      (match x.cmd.instr with | .outl .. => t | _ => holdOutliers l t)

/-- A fault: the command and every later one of its queue go to the capture area with their format words, the queue
stops, and the trap is posted to the issuer (R76, R200, R359, R365). A follow-on keeps its take slot. -/
def State.capture (s : State) (q : QueueId) (c : Cause) (ea : Word) (p : Progress) : State :=
  let x := s.core.queue q
  let slots := match x.cmds with
    | [] => []
    | a :: t => ⟨{ a with prog := if q = .followOn then a.prog else p, held := false }, true, .pending⟩
        :: t.map (fun b => ⟨{ b with held := false }, false, .pending⟩)
  let slots := if q = .seqMat ∨ q = .followOn then holdOutliers s.core.outliers slots else slots
  let s := if q = .seqMat then
      { s with core := { s.core with fmtq := s.core.fmtq.drop s.core.fmtRes, fmtRes := 0 } }
    else s
  let s := s.setQueue q { s.core.queue q with cmds := [], captured := x.captured ++ slots, stopped := true }
  (s.faultTraffic s.cx s.coreId c ea).post q.owner ⟨c, ea, .engine q⟩

/-- How far the head of a queue has come is recorded. -/
def State.setHeadProg (s : State) (q : QueueId) (p : Progress) : State :=
  let x := s.core.queue q
  match x.cmds with
  | [] => s
  | a :: t => s.setQueue q { x with cmds := { a with prog := p } :: t }

/-- The head of a queue has executed and waits for its retirement. -/
def State.finishHead (s : State) (q : QueueId) : State :=
  let x := s.core.queue q
  match x.cmds with
  | [] => s
  | a :: t => s.setQueue q { x with cmds := t, done := x.done ++ [a] }

/-- The take that a handle names (R137): its slot, where the handle is current. -/
def Port.current (p : Port) (h : Word) : Option (Nat × Take) :=
  let i := h.toNat % 64
  match (p.takes[i]?).join with
  | some t => if h = BitVec.ofNat 64 (((p.takeGen[i]?).getD 0).toNat * 2 ^ 16 + i) then some (i, t) else none
  | none => none

def Port.setTake (p : Port) (i : Nat) (t : Option Take) : Port :=
  { p with takes := p.takes.setIfInBounds i t }

def State.setPort (s : State) (p : Port) : State := { s with core := { s.core with port := p } }

/-- The take of a pull that ends its command keeps the pull's outcome (R140, R143). -/
def Port.endPull (p : Port) (h : Word) (discarded : Bool) : Port :=
  match p.current h with
  | some (i, t) =>
    let o := match t.pull with | .ended o | .retired o => o | _ => 3
    p.setTake i (some { t with pull := .retired (if discarded then 3 else o) })
  | none => p

/-- The follow-on of the pull of slot `i` has retired (R144). -/
def Port.endFollow (p : Port) (i : Nat) : Port :=
  match (p.takes[i]?).join with
  | some t => p.setTake i (some { t with follow := .retired })
  | none => p

/-- The oldest staging that no `att.kv` has installed takes its place (R245, R252). -/
def Att.install (x : Att) : Att :=
  match x.staged with
  | [] => x
  | g :: t =>
    let x := { x with staged := t }
    let x := if g.st then { x with st1 := g.stage } else { x with st0 := g.stage }
    match g.pb with | some (n, v) => { x with pb := x.pb.set n.toNat v } | none => x

/-- What a command's retirement pushes and sets carries its writes, and what it acquired: a token those of every earlier command
of its queue too, the tag bit its own (R45, R100, R110, R343). -/
def State.retireTokens (s : State) (q : QueueId) (c : Cmd) : State :=
  let n := s.coreId
  let is (own : Bool) (p : QueueId) (k : Nat) : Bool := p = q && (if own then k = c.num else decide (k ≤ c.num))
  let made (own : Bool) (l : Lag) : Bool :=
    (l.core = n && (match l.eng with | some (p, k) => is own p k | none => false))
      || l.meets.any (fun x => match x with | .cmd m p k => m = n && is own p k | _ => false)
  let s := match c.instr.tag with
    | some t => s.mapOrdered (made true) (fun l => { l with meets := .tag n t :: l.meets })
    | none => s
  (c.pushes q).foldl (fun s p =>
    let s := s.carry p (made false)
    { s with core := { s.core with tokens := s.core.tokens.push [p] } }) s

/-- Tag bits are cleared: what their earlier setting told is told no more. -/
def State.clearTags (s : State) (m : Word) : State :=
  let n := s.coreId
  let gone : Meet → Bool | .tag c t => c = n && m.getLsbD t.toNat | _ => false
  ({ s with core := { s.core with tags := s.core.tags &&& ~~~m } }).mapLag (fun l =>
    { l with meets := l.meets.filter (fun x => !gone x) })

def State.setTag (s : State) (t : BitVec 6) : State :=
  { s with core := { s.core with tags := setBit s.core.tags t.toNat true } }

/-- What a retirement makes: the tag bit set, the reserved pushes, the pull's take ended, and the count of tile commands
restarted by `mout.ret`, the bitmap of a `vldff`, the stage of an `att.kv` (R14, R105, R108, R143, R168, R213, R245). Discarding a command makes the same (R373). -/
def State.retireEffects (s : State) (q : QueueId) (c : Cmd) (discarded : Bool) : State :=
  let tags := match c.instr.tag with | some t => setBit s.core.tags t.toNat true | none => s.core.tags
  let tiles := match c.instr with | .moutRet .. => if discarded then s.core.tiles else 0 | _ => s.core.tiles
  let port := match c.instr with
    | .pull .. | .pullF .. => s.core.port.endPull (c.ops.headD 0) discarded
    | _ => if q = .followOn then s.core.port.endFollow (c.prog.carry.headD 0).toNat else s.core.port
  let vbm := match c.instr with
    | .vldff _ _ _ _ n => if discarded then s.core.vbm else s.core.vbm.set n.toNat (BitVec.ofNat 3072 (2 ^ c.prog.units - 1))
    | _ => s.core.vbm
  let att := match c.instr with | .attKv .. => if discarded then s.core.att else s.core.att.install | _ => s.core.att
  let s := { s with core := { s.core with tags := tags, tiles := tiles, port := port, vbm := vbm, att := att } }
  s.retireTokens q c

end Sys2Proof.Machine
end

