-- ==== Sys2Proof/Machine/Work.lean ====
section
/-! DEFINITION. Job cards, submission, graph binding and job completion (R307 to R322), as the job front ends and balance
engines carry them out. -/

namespace Sys2Proof.Machine

/-- Bits `lo` to `lo + n - 1` of a record. -/
def fld {m : Nat} (c : BitVec m) (lo n : Nat) : Nat := bits c.toNat lo n

def recordOf (m : Nat) (bs : List Byte) : BitVec m := BitVec.ofNat m (leNat bs)

/-- A field of a 64-bit address. -/
def fldW {m : Nat} (c : BitVec m) (lo : Nat) : Word := BitVec.ofNat 64 (fld c lo 64)

/-- The length in words and the entry of a role's image (Table 18-1). -/
def cardLen (c : BitVec 1024) (r : Role) : Nat := fld c (192 + 16 * r.num) 16
def cardEntry (c : BitVec 1024) (r : Role) : Nat := fld c (256 + 16 * r.num) 16
def cardImage (c : BitVec 1024) (r : Role) : Word := fldW c (64 * r.num)
def cardGraph (c : BitVec 1024) : Bool := fld c 240 1 = 1
def cardPriority (c : BitVec 1024) : Nat := fld c 304 8
def cardDepth (c : BitVec 1024) : Nat := fld c 480 32

/-- An entry of a program (Table 18-1): a multiple of 4 below the image's length. -/
def entryOk (c : BitVec 1024) (r : Role) (e : Nat) : Bool := e % 4 = 0 && e < 4 * cardLen c r

/-- Table 18-1: every reserved field zero, every field within its limits, every field of the other kind zero. -/
def cardOk (c : BitVec 1024) : Bool :=
  fld c 928 96 = 0 && fld c 552 24 = 0 && fld c 540 4 = 0 && fld c 520 8 = 0 && fld c 241 15 = 0
  && everyRole.all (fun r => 1 ≤ cardLen c r && cardLen c r ≤ 16384 && (cardImage c r).toNat % 64 = 0
      && entryOk c r (cardEntry c r))
  && cardPriority c ≤ 15 && fld c 768 64 % 32 = 0 && fld c 576 64 % 8 = 0
  && 1 ≤ cardDepth c && cardDepth c ≤ 65535
  && (if cardGraph c then
        1 ≤ fld c 896 32 && fld c 704 64 % 64 = 0 && fld c 448 32 = 0 && fld c 416 32 = 0 && fld c 384 32 = 0
        && fld c 320 64 = 0 && fld c 312 8 = 0
      else
        fld c 896 32 = 0 && fld c 704 64 = 0 && 1 ≤ fld c 448 32 && 1 ≤ fld c 416 32
        && fld c 384 32 % 8 = 0 && 8 ≤ fld c 384 32 && fld c 384 32 ≤ 4096 && fld c 320 64 % 8 = 0 && 1 ≤ fld c 312 8)

/-- The core set of a card (R308), ascending. -/
def State.coreSet (s : State) (c : BitVec 1024) : List Nat :=
  (List.range 8).flatMap (fun d => if fld c (512 + d) 1 = 0 then [] else
    (List.range 12).flatMap (fun k => if fld c (528 + k) 1 = 0 then [] else
      (List.range 8).filterMap (fun i =>
        let n := d * 96 + k * 8 + i
        if fld c (544 + i) 1 = 1 ∧ s.fuses.present n then some n else none)))

def State.findJob (s : State) (id : Nat) : Option Job := s.jobs.find? (fun j => j.id = id)

/-- The key of a slot of a context at a die. -/
def slotKey (ctx : BitVec 16) (die per slot : Nat) : Nat := (ctx.toNat * 8 + die) * per + slot

/-- A job handle (R312). -/
def jobHandle (slot : Nat) (gen : BitVec 16) : Word := BitVec.ofNat 64 (gen.toNat * 2 ^ 16 + slot)

def refusalWord (code : Nat) : Word := BitVec.ofNat 64 (0xFFFFFFFFFFFFFF00 + code)

/-- A status word (R95): the value in [63:32], the code in [7:0]. -/
def statusWord (code value : Nat) : Word := BitVec.ofNat 64 (value * 2 ^ 32 + code)

/-- The core for which the front end of a die makes its own accesses (log entry 7). -/
def frontCore (die : Nat) : Nat := die * 96

/-- The counter at `va` raised by `inc`, as `cnt.add` raises it (R114), for a context at a core. -/
def State.bumpFor (s : State) (cx : Option Ctx) (core : Nat) (va : Word) (inc : Nat) : Except Flt State := do
  if va.toNat % 8 ≠ 0 then .error (.align, va) else
  let loc ← s.locateRmw cx core va 8
  let bs ← s.fetchFor cx core va 8
  .ok (((s.costs cx core va 8 false).pathStep {} loc (leBytes 8 (min (leNat bs + inc) (2 ^ 64 - 1)))).traffic cx core va
    [(loc, 8)])

/-! ### Graph tables (R318, R320, R321) -/

def chanSrc (c : BitVec 256) : Nat := fld c 0 16
def chanDst (c : BitVec 256) : Nat := fld c 16 16
def chanP (c : BitVec 256) : Nat := fld c 32 16
def chanC (c : BitVec 256) : Nat := fld c 48 16
def chanSize (c : BitVec 256) : Nat := fld c 64 32
def chanInit (c : BitVec 256) : Nat := fld c 96 32
def chanDiscard (c : BitVec 256) : Bool := fld c 192 1 = 1
def stageEntry (c : BitVec 256) (r : Role) : Nat := fld c (16 * r.num) 16
def stageFirst (c : BitVec 256) : Nat := fld c 64 16
def stageCount (c : BitVec 256) : Nat := fld c 80 16

/-- The limits, alignments and reserved fields of R318, for a job's card and E. -/
def tableOk (card : BitVec 1024) (e : Nat) (hdr : BitVec 256) (stages chans : List (BitVec 256)) : Bool :=
  let n := stages.length
  fld hdr 224 32 = 0 && fld hdr 128 64 % 64 = 0 && fld hdr 64 64 % 32 = 0
  && 1 ≤ fld hdr 32 32 && fld hdr 32 32 ≤ 4096
  && stages.all (fun c => fld c 192 64 = 0 && fld c 48 16 = 0 && 1 ≤ stageCount c && stageFirst c + stageCount c ≤ e
      && everyRole.all (fun r => entryOk card r (stageEntry c r)))
  && chans.all (fun c => fld c 193 63 = 0 && chanSize c % 64 = 0 && 64 ≤ chanSize c && chanSize c ≤ 2 ^ 20
      && 1 ≤ chanP c && chanP c ≤ 4096 && 1 ≤ chanC c && chanC c ≤ 4096 && chanInit c ≤ 2 ^ 20
      && chanSrc c < n && chanDst c < n)

/-- One pass of rates along the channels: numerator, denominator and component of each stage known so far. -/
def ratePass (q : List (Option (Nat × Nat × Nat))) (chans : List (BitVec 256)) : List (Option (Nat × Nat × Nat)) :=
  chans.foldl (fun q c =>
    match (q[chanSrc c]?).join, (q[chanDst c]?).join with
    | some (n, d, k), none => q.set (chanDst c) (some (n * chanP c / Nat.gcd (n * chanP c) (d * chanC c),
        d * chanC c / Nat.gcd (n * chanP c) (d * chanC c), k))
    | none, some (n, d, k) => q.set (chanSrc c) (some (n * chanC c / Nat.gcd (n * chanC c) (d * chanP c),
        d * chanP c / Nat.gcd (n * chanC c) (d * chanP c), k))
    | _, _ => q) q

/-- The least positive repetitions (R320), each connected set with greatest common divisor 1; `none` if there are none. -/
def repetitions (n : Nat) (chans : List (BitVec 256)) : Option (List Nat) :=
  let q := (List.range n).foldl (fun q s =>
    match (q[s]?).join with
    | some _ => q
    | none => (List.range n).foldl (fun q _ => ratePass q chans) (q.set s (some (1, 1, s))))
    (List.replicate n none)
  let rate (s : Nat) : Nat × Nat × Nat := ((q[s]?).join).getD (1, 1, s)
  let members (k : Nat) := ((List.range n).map rate).filter (fun x => x.2.2 = k)
  let reps := (List.range n).map (fun s =>
    let x := rate s
    let l := (members x.2.2).foldl (fun a y => Nat.lcm a y.2.1) 1
    let g := (members x.2.2).foldl (fun a y => Nat.gcd a (y.1 * (l / y.2.1))) 0
    x.1 * (l / x.2.1) / g)
  if chans.all (fun c => (reps[chanSrc c]?).getD 0 * chanP c = (reps[chanDst c]?).getD 0 * chanC c) then some reps else none

/-- The passes of R320: channel occupancy, peaks, firings left, and the schedule so far in reverse. -/
structure Passes where
  occ   : List Nat
  peak  : List Nat
  left  : List Nat
  sched : List Nat

/-- One stage's chance in a pass. -/
def passStage (chans : List (BitVec 256)) (x : Passes) (s : Nat) : Passes :=
  let idx := List.range chans.length
  let chan (j : Nat) : BitVec 256 := (chans[j]?).getD 0
  let at_ (l : List Nat) (j : Nat) : Nat := (l[j]?).getD 0
  if 0 < at_ x.left s ∧ idx.all (fun j => chanDst (chan j) ≠ s || chanC (chan j) ≤ at_ x.occ j) then
    let occ := idx.map (fun j =>
      at_ x.occ j - (if chanDst (chan j) = s then chanC (chan j) else 0) + (if chanSrc (chan j) = s then chanP (chan j) else 0))
    { occ := occ
      peak := idx.map (fun j => if chanSrc (chan j) = s then max (at_ x.peak j) (at_ occ j) else at_ x.peak j)
      left := x.left.set s (at_ x.left s - 1), sched := s :: x.sched }
  else x

/-- Passes until nothing is left or nothing fires; each pass fires at least once, so the fuel is the firings left. -/
def runPasses (chans : List (BitVec 256)) (n : Nat) : Nat → Passes → Passes
  | 0, x => x
  | fuel + 1, x =>
    let y := (List.range n).foldl (passStage chans) x
    if y.sched.length = x.sched.length ∨ y.left.all (· = 0) then y else runPasses chans n fuel y

/-- The firing table of a schedule (R321): `j` counts each stage's firings so far, `pos` the position. -/
def firingTable (stages : List (BitVec 256)) (cores : List Nat) :
    List Nat → List Nat → Nat → List Firing → List Firing
  | [], _, _, acc => acc.reverse
  | s :: t, j, pos, acc =>
    let c := (stages[s]?).getD 0
    let k := (j[s]?).getD 0
    let core := (cores[stageFirst c + k % max 1 (stageCount c)]?).getD 0
    let acc := match acc with
      | f :: r => if f.stage = s ∧ f.core = core ∧ f.firings < 65535 then { f with firings := f.firings + 1 } :: r
          else ⟨s, core, 1, pos⟩ :: f :: r
      | [] => [⟨s, core, 1, pos⟩]
    firingTable stages cores t (j.set s (k + 1)) (pos + 1) acc

/-- R320 from the check of the table to its status: the solved table, or the status code. -/
def solve (card : BitVec 1024) (cores : List Nat) (table : Word) (hdr : BitVec 256)
    (stages chans : List (BitVec 256)) (slotFree : Bool) : Except Nat Solved :=
  if !tableOk card cores.length hdr stages chans then .error 5
  else if !slotFree then .error 6
  else match repetitions stages.length chans with
  | none => .error 1
  | some reps =>
    if reps.sum > 4096 * 65535 then .error 3 else
    let init := chans.map chanInit
    let x := runPasses chans stages.length (reps.sum + 1) ⟨init, init.map (fun _ => 0), reps, []⟩
    if !x.left.all (· = 0) then .error 2 else
    let rings := List.zipWith max init x.peak
    let sizes := List.zipWith (fun b c => (b * chanSize c + 63) / 64 * 64) rings chans
    let offsets := (List.range chans.length).map (fun j => (sizes.take j).sum)
    if sizes.sum > fld hdr 192 32 then .error 4 else
    let entries := firingTable stages cores x.sched.reverse (stages.map (fun _ => 0)) 0 []
    if entries.length > min (fld hdr 32 32) 4096 then .error 3 else
    .ok ⟨table, hdr, stages, chans, reps, rings, offsets, entries, sizes.sum⟩

/-- The 8 B of a firing table entry (Table 18-9). -/
def Firing.word (f : Firing) (first last : Bool) : Nat :=
  boolNat last * 2 ^ 57 + boolNat first * 2 ^ 56 + f.phase % 65536 * 2 ^ 40 + f.firings * 2 ^ 24 + f.core * 2 ^ 8 + f.stage

/-- The firing table as bytes (Tables 18-8 and 18-9). -/
def Solved.bytes (p : Solved) (gen : BitVec 32) : List Byte :=
  let n := p.entries.length
  leBytes 4 n ++ leBytes 4 p.reps.sum ++ leBytes 4 p.used ++ leBytes 2 p.stages.length ++ leBytes 2 p.chans.length
    ++ leBytes 4 gen.toNat ++ zeros 12
    ++ ((p.entries.zip (List.range n)).flatMap (fun x => leBytes 8 (x.1.word (x.2 = 0) (x.2 + 1 = n))))

/-- What a bind writes into the table and the firing table area: address and bytes. -/
def Solved.writes (p : Solved) (gen : BitVec 32) : List (Word × List Byte) :=
  let at_ (k : Nat) : Word := p.table + BitVec.ofNat 64 k
  (p.reps.zip (List.range p.reps.length)).map (fun x => (at_ (32 + 32 * x.2 + 12), leBytes 4 x.1))
    ++ (p.rings.zip (p.offsets.zip (List.range p.rings.length))).map (fun x =>
        (at_ (32 + 32 * p.stages.length + 32 * x.2.2 + 16), leBytes 4 x.2.1 ++ leBytes 4 x.1))
    ++ [(fldW p.hdr 64, p.bytes gen)]

/-- Writes in order, none made unless each of them can be. -/
def State.putAll (s : State) (cx : Option Ctx) (core : Nat) (ws : List (Word × List Byte)) : Except Flt State :=
  ws.foldlM (fun s w => s.putFor cx core w.1 w.2) s

/-- A write on the store path for a context of this node at a core: by a remote operation, met at `meets`. -/
def State.pathPut (s : State) (cx : Option Ctx) (core : Nat) (w : Writer) (a : Word) (bs : List Byte) : Except Flt State := do
  let sp ← s.spans cx core a bs.length true
  match s.badSpan 0 sp with
  | some i => .error (.machine, a + BitVec.ofNat 64 i)
  | none => .ok ((s.pathSpans w sp bs).traffic cx core a sp)

/-- A graph table as it is read: header, stages, channels; `none` when the counts are out of their limits. -/
def readTable (rd : Word → Nat → Except Flt (List Byte)) (a : Word) :
    Except Flt (Option (BitVec 256 × List (BitVec 256) × List (BitVec 256))) := do
  let h := recordOf 256 (← rd a 32)
  let n := fld h 0 16
  let c := fld h 16 16
  if n < 1 ∨ 64 < n ∨ 256 < c then pure none else
  let rec32 (k : Nat) : Except Flt (BitVec 256) := do pure (recordOf 256 (← rd (a + BitVec.ofNat 64 (32 + 32 * k)) 32))
  let stages ← (List.range n).mapM rec32
  let chans ← (List.range c).mapM (fun j => rec32 (n + j))
  pure (some (h, stages, chans))

/-- A free graph slot of a context at a die (R320). -/
def State.freeGraphSlot (s : State) (ctx : BitVec 16) (die : Nat) : Option Nat :=
  (List.range 4).find? (fun i => !s.graphs.any (fun g => g.ctx = ctx && g.die = die && g.slot = i))

/-- A graph handle (R320). -/
def graphHandle (slot : Nat) (gen : BitVec 16) : Word := BitVec.ofNat 64 (gen.toNat * 2 ^ 16 + slot)

/-- R320 whole: the status and value, with the state in which a successful bind is installed. -/
def State.bind (s : State) (cx : Option Ctx) (core die : Nat) (job : Job) (a : Word)
    (rd : Word → Nat → Except Flt (List Byte)) : Except Flt (State × Nat × Nat) := do
  if a.toNat % 64 ≠ 0 then pure (s, 5, 0) else
  match ← readTable rd a with
  | none => pure (s, 5, 0)
  | some (h, stages, chans) =>
    let slot := s.freeGraphSlot job.ctx die
    match solve job.card job.cores a h stages chans slot.isSome with
    | .error code => pure (s, code, 0)
    | .ok plan =>
      let slot := slot.getD 0
      let key := slotKey job.ctx die 4 slot
      let gen := (lookupKey key s.graphGens).getD 0 + 1
      let fgen := (lookupKey key s.firingGens).getD 0 + 1
      let t ← s.putAll cx core (plan.writes fgen)
      pure ({ t with
        graphs := t.graphs ++ [{ ctx := job.ctx, die := die, slot := slot, gen := gen, job := job.id, plan := plan }]
        graphGens := setKey key gen t.graphGens, firingGens := setKey key fgen t.firingGens },
        0, (graphHandle slot gen).toNat)

/-! ### Completion and submission (R312, R317) -/

/-- Every arm of a job dropped (R116). -/
def Core.dropArms (c : Core) (job : Nat) : Core :=
  { c with arms := c.arms.map (fun x => match x with | some a => if a.job = some job then none else some a | none => none) }

/-- The completion record's bytes (Table 18-2). -/
def completionBytes (j : Job) (periods status code : Nat) (cycle : Word) : List Byte :=
  leBytes 8 (fld j.card 832 64) ++ leBytes 2 status ++ leBytes 2 code ++ leBytes 4 j.tasks.toNat ++ leBytes 4 periods
    ++ [BitVec.ofNat 8 (boolNat j.lateBatch + 2 * boolNat j.lateAbort)] ++ zeros 3 ++ leBytes 8 cycle.toNat

/-- An access that hardware makes for a context: made, or reported (R416). -/
def State.orReport (s : State) (ctx : BitVec 16) (core role : Nat) (r : Except Flt State) : State :=
  match r with
  | .ok t => t
  | .error (c, ea) => (s.faultTraffic (s.findCtx ctx) core c ea).report ctx core role c.code ea

/-! ### Levels and rotation pointers (R328, R329) -/

/-- The jobs of a context with work on a die. -/
def State.workOn (s : State) (ctx : BitVec 16) (die : Nat) : List Job :=
  s.jobs.filter (fun j => j.ctx = ctx && j.cores.any (fun c => dieOf c = die))

def State.level (s : State) (ctx : BitVec 16) (die : Nat) : Option Nat :=
  ((s.workOn ctx die).map (fun j => cardPriority j.card)).max?

/-- The contexts of a level with work on a die, in ascending CTXID. -/
def State.ranked (s : State) (die level : Nat) : List (BitVec 16) :=
  sortBy (fun x : BitVec 16 => x.toNat) ((s.ctxs.filter (fun c => s.level c.id die = some level)).map (·.id))

def pointerKey (die level : Nat) : Nat := die * 16 + level

/-- A pointer becomes unset when no context of its level has work on its die. -/
def State.dropPointers (s : State) : State :=
  { s with pointers := s.pointers.filter (fun x => !(s.ranked (x.1 / 16) (x.1 % 16)).isEmpty) }

/-- A grant that no longer names a context: free where the context owned it, else passed to none. -/
def Grant.without (id : BitVec 16) (g : Grant) : Grant :=
  if g.owner = some id then {} else
  match g.phase with
  | .preempting n => if n = some id then { g with phase := .preempting none } else g
  | .saving n => if n = some id then { g with phase := .saving none } else g
  | _ => g

/-- The context is gone once its last job has completed, when a CTXCMD destroys it (R407). -/
def State.finishDestroy (s : State) (id : BitVec 16) : State :=
  match s.findCtx id with
  | some c =>
    if c.dying ∧ !s.jobs.any (fun j => j.ctx = id) then
      { s with
        ctxs := s.ctxs.filter (fun c => c.id ≠ id)
        grants := s.grants.map (Grant.without id)
        saved := s.saved.filter (fun v => v.ctx ≠ id)
        savedDies := s.savedDies.filter (fun v => v.1 ≠ id)
        held := s.held.filter (fun v => v.1 ≠ id)
        colls := s.colls.filter (fun v => v.ctx ≠ id)
        core := if s.core.ctx = some id then {} else s.core
        others := s.others.map (fun x : Nat × Core => if x.2.ctx = some id then (x.1, {}) else x)
        realloc := true
        window := { s.window with ctxStat := 0 } }
    else s
  | none => s

/-- A release that waits at the end of a task of a job, where `which` selects its entry. -/
def Meet.endOf (id : Nat) (which : Option (Nat × Nat × Nat) → Bool) : Meet → Bool
  | .over j e => j = id && which e
  | _ => false

/-- Table 6-4: the scope of a counter operation without a suffix, by where the counter lies. -/
def counterScope (core loc : Nat) : Scope :=
  if scopeHolds .core core loc then .core
  else if scopeHolds .cluster core loc then .cluster
  else if isHost loc then .host
  else if scopeHolds .die core loc && !isHbm loc then .die
  else .package

/-- The completion counter rises, at the default scope for a core of the dealing die (R112): what the ends of the job's tasks
released waits there for an acquire (R317). -/
def State.bumpEnd (s : State) (cx : Option Ctx) (core : Nat) (ctr : Word) (inc id : Nat) : Except Flt State := do
  let t ← s.bumpFor cx core ctr inc
  let loc ← s.locateFor cx core ctr 8 true
  .ok (t.mapLag (fun l => if l.meets.any (Meet.endOf id (fun _ => true))
    then { l with meets := .word loc (counterScope core loc) core true :: l.meets } else l))

/-- A job completes (R317): record, counter, MSI-X; its slot, its graphs and its arms are freed. An arm of the job on the counter
that its completion raises is dropped before it would fire (log entry 112). -/
def State.complete (s : State) (j : Job) (status code : Nat) : State :=
  let cx := s.findCtx j.ctx
  let core := frontCore j.die
  let periods := match s.graphs.find? (fun g => g.job = j.id) with
    | some g => if cardGraph j.card then g.completed else 0
    | none => 0
  let recordAt := fldW j.card 768
  let s := if recordAt = 0 then s else
    s.orReport j.ctx 0x3FF 0xFF (s.putFor cx core recordAt (completionBytes j periods status code s.cycle))
  let ctr := fldW j.card 576
  let s := if ctr = 0 then s else s.orReport j.ctx 0x3FF 0xFF (s.bumpEnd cx core ctr (fld j.card 640 64) j.id)
  let vector := (cx.map (·.vector)).getD 0
  let s := { s with
    jobs := s.jobs.filter (fun x => x.id ≠ j.id)
    graphs := s.graphs.filter (fun g => g.job ≠ j.id)
    core := s.core.dropArms j.id
    others := s.others.map (fun x : Nat × Core => (x.1, x.2.dropArms j.id))
    saved := s.saved.map (fun v : Saved => { v with cores := v.cores.map (fun x : Nat × Core => (x.1, x.2.dropArms j.id)) })
    realloc := true
    outbox := if vector = 0 then s.outbox else s.outbox ++ [Msg.msix vector] }
  s.dropPointers.finishDestroy j.ctx

/-- The bytes of the graph table at `a`, as far as its header says. -/
def tableBytes (rd : Word → Nat → Except Flt (List Byte)) (a : Word) : Nat :=
  match rd a 32 with
  | .ok bs =>
    let h := recordOf 256 bs
    let n := fld h 0 16
    let c := fld h 16 16
    if n < 1 ∨ 64 < n ∨ 256 < c then 32 else 32 + 32 * (n + c)
  | .error _ => 32

/-- The balance engine of a die serves a rebind (R320, log entry 77). -/
def State.rebinding (s : State) (die : Nat) : Bool := s.graphs.any (fun g => g.die = die && g.rebind.isSome)

/-- A job's graph is bound at its launch, and the card's periods are fired (R322). A fault of the table's write completes the job
as one of its read does: status 2, code 9 (log entry 118). -/
def State.launchGraph (s : State) (j : Job) : State :=
  let cx := s.findCtx j.ctx
  let core := frontCore j.die
  let rd := s.fetchFor cx core
  let a := fldW j.card 704
  let s := s.costs cx core a (if a.toNat % 64 = 0 then tableBytes rd a else 0) false
  match s.bind cx core j.die j a rd with
  | .error (c, ea) => ((s.faultTraffic cx core c ea).report j.ctx 0x3FF 0xFF c.code ea).complete j 2 9
  | .ok (t, 0, _) =>
    { t with graphs := t.graphs.map (fun g => if g.job = j.id then { g with requested := fld j.card 896 32 } else g) }
  | .ok (t, code, _) => t.complete j 2 code

/-- The graph of a new job is bound, or waits while the balance engine serves a rebind (R320). -/
def State.launchOrWait (s : State) (j : Job) : State :=
  if s.rebinding j.die then s.mapJob j.id (fun j => { j with unbound := true }) else s.launchGraph j

/-- The balance engine of a die is free again: the graphs that wait for it are bound in the order of their launch. -/
def State.launchWaiting (s : State) (die : Nat) : State :=
  if s.rebinding die then s else
  (s.jobs.filter (fun j => j.die = die && j.unbound && !j.cancelled)).foldl (fun s j =>
    let j := { j with unbound := false }
    (s.mapJob j.id (fun _ => j)).launchGraph j) s

/-- A free job slot of a context at a die (R312). -/
def State.freeJobSlot (s : State) (ctx : BitVec 16) (die : Nat) : Option Nat :=
  (List.range 64).find? (fun i => !s.jobs.any (fun j => j.ctx = ctx && j.die = die && j.slot = i))

/-- The submission of a card in a context (R312): the state, and the handle or the refusal's code. -/
def State.submit (s : State) (ctx : BitVec 16) (card : BitVec 1024) : State × Except Nat Word :=
  let cores := s.coreSet card
  if !cardOk card then (s, .error 1)
  else match cores.head? with
  | none => (s, .error 2)
  | some c0 =>
    let die := dieOf c0
    match s.freeJobSlot ctx die with
    | none => (s, .error 3)
    | some slot =>
      let key := slotKey ctx die 64 slot
      let gen := (lookupKey key s.jobGens).getD 0 + 1
      let j : Job := { id := s.jobIds, ctx := ctx, die := die, slot := slot, gen := gen, card := card, cores := cores
                       left := fld card 416 32, next := 0 }
      let s := { s with jobs := s.jobs ++ [j], jobIds := s.jobIds + 1, jobGens := setKey key gen s.jobGens, realloc := true }
      let s := s.dropPointers
      (if cardGraph card then s.launchOrWait j else s, .ok (jobHandle slot gen))

/-- The word that `job` and LSTAT give for a submission. -/
def submitWord (r : Except Nat Word) : Word := match r with | .ok h => h | .error code => refusalWord code

end Sys2Proof.Machine
end

