-- ==== Sys2Proof/Machine/Path.lean ====
section
/-! DEFINITION. The crossings' paths (R261, R262), the header of a packet between packages (R259), and the ingress timetable
of a Krytway port (R265, R266). -/

namespace Sys2Proof.Machine

/-! ### Paths (R261, R262) -/

def pathKey (die node alt : Nat) : Nat := (die * 4096 + node) * 4 + alt

def State.pathEntry (s : State) (die node alt : Nat) : Word := (lookupKey (pathKey die node alt) s.paths).getD 0

/-- The Krytway port of a die that an entry leaves by: the first byte of its route, numbered in the die or in the package. -/
def portOf (die : Nat) (e : Word) : Nat := die * 4 + e.toNat % 256 % 4

/-- The width of a port now (Table 26-3): 0 absent or down, 1 half, 2 full. -/
def State.width (s : State) (port : Nat) : Nat := bits s.links.toNat (2 * port) 2

/-- An alternative of a die is usable (R261); no path uses a port that is absent or down (R412). -/
def State.pathUsable (s : State) (die : Nat) (e : Word) : Bool :=
  e.getLsbD 51 && 1 ≤ fld e 48 3 && fld e 48 3 ≤ 6 && s.width (portOf die e) ≠ 0

def State.usable (s : State) (die node : Nat) : List Nat :=
  (List.range 4).filter (fun k => s.pathUsable die (s.pathEntry die node k))

/-- No usable alternative to a node remains in the whole package (R264). -/
def State.unreachable (s : State) (node : Nat) : Bool := (List.range 8).all (fun d => (s.usable d node).isEmpty)

/-- The crossing and alternative that R262 chooses for a core and a node. -/
def State.choosePath (s : State) (core node : Nat) : Option (Nat × Nat) :=
  let h := (core * 40503 + node) % 65536
  match (dieOf core :: List.range 8).find? (fun d => !(s.usable d node).isEmpty) with
  | some d => (s.usable d node)[h % (s.usable d node).length]?.map (fun a => (d, a))
  | none => none

/-- The liveness timeout of a die's crossing. -/
def State.liveness (s : State) (die : Nat) : Nat := match s.pathHead[die]? with | some w => fld w 32 32 | none => 0

/-! ### Packets between packages (R259) -/

/-- The header of Table 16-1 as a packet leaves its source, by the route of a path table entry. -/
def packetHeader (p : Packet) (route : Word) (target : BitVec 12) : BitVec 256 :=
  BitVec.ofNat 256 (bits route.toNat 0 48 + p.kind.toNat * 2 ^ 56 + p.source.toNat * 2 ^ 64 + target.toNat * 2 ^ 80
    + p.core.toNat * 2 ^ 96 + p.context.toNat * 2 ^ 112 + p.seq.toNat * 2 ^ 128 + p.size.toNat * 2 ^ 160
    + p.op.toNat * 2 ^ 168 + p.tag.toNat * 2 ^ 176 + p.cls.toNat * 2 ^ 178 + p.addr.toNat * 2 ^ 192)

/-- The bytes that a packet with a payload of `n` bytes takes on a port: its header and whole flits. -/
def packetBytes (n : Nat) : Nat := 32 + (n + 63) / 64 * 64

/-- A packet leaves through a crossing and an alternative for a node; its bytes are charged to its context (Table 19-2). -/
def State.emit (s : State) (d alt : Nat) (node : BitVec 12) (p : Packet) : State :=
  let e := s.pathEntry d node.toNat alt
  let s := s.spend (s.findCtx p.context) (packetBytes p.payload.length)
  { s with outbox := s.outbox ++ [.krytway (portOf d e) (packetHeader p e node) p.payload] }

/-- What the header of another message of the core in focus says, for a context: the class of its operation, its kind, its size
code and its address; what else it says is in its payload (log entry 50). -/
def State.control (s : State) (ctx : BitVec 16) (cls : BitVec 4) (kind size : BitVec 8) (addr : Word) : Packet :=
  { kind := kind, source := s.node, die := BitVec.ofNat 3 (dieOf s.coreId), context := ctx, core := BitVec.ofNat 16 s.coreId
    seq := 0, op := 0, size := size, cls := cls, tag := 0, addr := addr, payload := [] }

/-- Another message of the core in focus leaves for a node, if a path to it is usable (R262): its port and its header go into
it, and its bytes are charged to a context. -/
def State.emitFor (s : State) (cx : Option Ctx) (node bytes : Nat) (p : Packet) (m : Nat → BitVec 256 → Msg) : Option State :=
  match s.choosePath s.coreId node with
  | some (d, alt) =>
    let e := s.pathEntry d node alt
    some { s.spend cx (packetBytes bytes) with outbox := s.outbox ++ [m (portOf d e) (packetHeader p e (BitVec.ofNat 12 node))] }
  | none => none

/-- The same for the context of the core in focus, by the class, the kind, the size code and the address of its header. -/
def State.emitBy (s : State) (node bytes : Nat) (cls : BitVec 4) (kind size : BitVec 8) (addr : Word)
    (m : Nat → BitVec 256 → Msg) : Option State :=
  s.emitFor s.cx node bytes (s.control (s.core.ctx.getD 0) cls kind size addr) m

/-! ### The ingress timetables (R145, R265, R266) -/

/-- A booking of `size` bytes at a rate and a window: the release point, and the first cycle not booked after it. -/
def bookAt (free : Word) (now size rate window : Nat) : Nat × Word :=
  let t0 := max free.toNat now
  (max now (t0 - window), BitVec.ofNat 64 (t0 + (size + rate - 1) / rate))

/-- The rate of a port: 105 B per cycle, or 52 at half width. -/
def State.portRate (s : State) (port : Nat) : Nat := if s.width port = 1 then 52 else 105

/-- A pull from another node books the ingress timetable of the port that its path uses: its release point there. -/
def State.bookPort (s : State) (node size : Nat) : State × Nat :=
  match s.choosePath s.coreId node with
  | none => (s, s.cycle.toNat)
  | some (d, alt) =>
    let port := portOf d (s.pathEntry d node alt)
    let (c, f) := bookAt ((lookupKey port s.portFree).getD 0) s.cycle.toNat size (s.portRate port) 2048
    ({ s with portFree := setKey port f s.portFree }, c)

end Sys2Proof.Machine
end

