-- ==== Sys2Proof/Machine/Port.lean ====
section
/-! DEFINITION. Notices, the receive ring, takes, pulls and retention (08_notices_and_pulls). -/

namespace Sys2Proof.Machine

/-! ### The receive policy (Table 8-3) and the notice record (Table 8-1) -/

def polSize (p : BitVec 256) : Nat := fld p 32 32
def polBase (p : BitVec 256) : Nat := fld p 0 32
def polPiece (p : BitVec 256) : Nat := if fld p 80 8 = 0 then 21 else fld p 80 8
def polRate (p : BitVec 256) : Nat := if fld p 96 4 = 0 then 256 else 16 * fld p 96 4
def polWindow (p : BitVec 256) : Nat := if fld p 112 16 = 0 then 2048 else fld p 112 16
def polAge (p : BitVec 256) : Nat := if fld p 128 32 = 0 then 4096 else fld p 128 32
def polSpills (p : BitVec 256) : Nat := fld p 160 32

/-- The three criteria; all zero means priority, then age. -/
def polKey (p : BitVec 256) : List Nat :=
  if fld p 64 9 = 0 then [1, 2, 0] else [fld p 64 3, fld p 67 3, fld p 70 3]

/-- The piece limit P of R135. -/
def polLimit (p : BitVec 256) : Nat := min (2 ^ polPiece p) (polSize p)

/-- PSPOL and PPACE (R133). -/
def pspolWord (p : BitVec 256) : Word :=
  BitVec.ofNat 64 (polAge p * 2 ^ 32 + polPiece p * 2 ^ 16 + (if fld p 64 9 = 0 then 1 + 2 * 8 else fld p 64 9))
def ppaceWord (p : BitVec 256) : Word := BitVec.ofNat 64 (polWindow p * 2 ^ 16 + fld p 96 4)

def noteAddr (n : BitVec 256) : Word := fldW n 0
def noteSize (n : BitVec 256) : Nat := fld n 64 32
def noteSeq (n : BitVec 256) : BitVec 32 := BitVec.ofNat 32 (fld n 96 32)
def notePrio (n : BitVec 256) : Nat := fld n 144 4
def noteCore (n : BitVec 256) : Nat := fld n 160 16
def noteNode (n : BitVec 256) : Nat := fld n 176 16
def noteSlot (n : BitVec 256) : Nat := fld n 192 16
def noteCount (n : BitVec 256) : Nat := fld n 208 16

/-- `n` with the `k` bits from `lo` made `v`. -/
def setFld {m : Nat} (n : BitVec m) (lo k v : Nat) : BitVec m :=
  BitVec.ofNat m (n.toNat - bits n.toNat lo k * 2 ^ lo + v % 2 ^ k * 2 ^ lo)

/-! ### The ring (R134) -/

def Port.largestFit (p : Port) : Nat :=
  let z := polSize p.policy
  if p.ringU = 0 then z
  else if p.ringH > p.ringT then max (z - p.ringH) p.ringT
  else if p.ringH < p.ringT then p.ringT - p.ringH
  else 0

/-- `place(S)`: the place, and the ring after it. -/
def Port.allot (p : Port) (size : Nat) : Nat × Port :=
  let z := polSize p.policy
  let p := if p.ringU = 0 then { p with ringH := 0, ringT := 0 } else p
  let p := if p.ringH ≥ p.ringT ∧ size > z - p.ringH then
      let skip := z - p.ringH
      { p with ringU := p.ringU + skip, ringH := 0
               places := match p.places.reverse with
                 | [] => []
                 | l :: r => r.reverse ++ [{ l with bytes := l.bytes + skip }] }
    else p
  let h := p.ringH + size
  (p.ringH, { p with ringH := if h = z then 0 else h, ringU := p.ringU + size, places := p.places ++ [⟨p.ringH, size, false⟩] })

/-- The oldest places, while they are free, leave the ring. -/
def Port.trim (p : Port) : List Place → Port
  | [] => { p with places := [] }
  | x :: t =>
    if x.free then
      Port.trim { p with ringT := (x.off + x.bytes) % max 1 (polSize p.policy), ringU := p.ringU - x.bytes } t
    else { p with places := x :: t }

/-- `free(p)`. -/
def Port.release (p : Port) (place : Nat) : Port :=
  let p := p.trim (p.places.map (fun x => if x.off = place ∧ !x.free then { x with free := true } else x))
  if p.ringU = 0 then { p with ringH := 0, ringT := 0 } else p

/-! ### Ranking (R135, R136) -/

/-- The length of a notice's next piece (R135). -/
def Port.nextPiece (p : Port) (n : Notice) : Nat := min (polLimit p.policy) (noteSize n.note - n.taken)

/-- The free take slot that a take gets (R137, R139): the lowest (log entry 110). -/
def Port.freeTake (p : Port) : Option Nat := (List.range 64).find? (fun i => (p.takes[i]?).join.isNone)

def starved (p : Port) (now : Word) (n : Notice) : Bool := polAge p.policy < (now - n.arrival).toNat

/-- Table 8-4, criterion 4: how far the producer is. -/
def State.distance (s : State) (n : BitVec 256) : Nat :=
  if noteNode n ≠ s.node.toNat then 3
  else if clusterOf (noteCore n) = clusterOf s.coreId then 0
  else if dieOf (noteCore n) = dieOf s.coreId then 1 else 2

/-- The rank of a notice, lower first: a criterion after a "none" is ignored. -/
def State.rankKey (s : State) (n : Notice) : List Nat :=
  let p := s.core.port
  if starved p s.cycle n then [0, n.arrival.toNat, n.seq] else
  1 :: ((polKey p.policy).takeWhile (· ≠ 0)).map (fun c =>
    if c = 1 then 15 - notePrio n.note else if c = 2 then n.arrival.toNat
    else if c = 3 then p.nextPiece n else s.distance n.note) ++ [n.seq]

def lexLt : List Nat → List Nat → Bool
  | [], [] => false
  | [], _ => true
  | _, [] => false
  | a :: t, b :: u => if a < b then true else if b < a then false else lexLt t u

/-- The first of a list in the order of `lt`. -/
def bestBy {α : Type} (lt : α → α → Bool) : List α → Option α
  | [] => none
  | x :: t => match bestBy lt t with | none => some x | some y => if lt y x then some y else some x

/-- A hold (R136): the oldest starved notice does not fit, and nothing else keeps it. -/
def State.holding (s : State) : Bool :=
  let p := s.core.port
  match bestBy (fun a b => lexLt [a.arrival.toNat, a.seq] [b.arrival.toNat, b.seq]) (p.store.filter (starved p s.cycle)) with
  | some n => p.freeTake.isSome && decide (p.nextPiece n > p.largestFit)
  | none => false

/-- The top-ranked eligible notice (R135, R136); none while the region size is 0 (R133). -/
def State.topNotice (s : State) : Option Notice :=
  let p := s.core.port
  if polSize p.policy = 0 ∨ p.freeTake.isNone ∨ s.holding then none else
  bestBy (fun a b => lexLt (s.rankKey a) (s.rankKey b)) (p.store.filter (fun n => p.nextPiece n ≤ p.largestFit))

/-! ### The notice store and its spill area (R132) -/

/-- Spilled notices move into the store in arrival order, as entries free: `fuel` entries at most. Where its entry of the
spill area cannot be read, a notice is what it was when it was spilled (log entry 78). -/
def State.refill (s : State) : Nat → State
  | 0 => s
  | fuel + 1 =>
    let p := s.core.port
    if 256 ≤ p.store.length then s else
    match p.spilled with
    | [] => s
    | n :: t =>
      let (s, note) := match n.spill with
        | some va => (match s.fetchFor s.cx s.coreId va 32 with
          | .ok bs => (s.costs s.cx s.coreId va 32 false, recordOf 256 bs)
          | .error (c, ea) => (s.faultTraffic s.cx s.coreId c ea, n.note))
        | none => (s, n.note)
      State.refill (s.setPort { p with store := p.store ++ [{ n with note := note, spill := none }], spilled := t }) fuel

/-- The lowest free entry of the spill area, by its address. -/
def Port.freeSpill (p : Port) : Option Word :=
  let used := p.spilled.filterMap (·.spill)
  let entry (i : Nat) : Word := fldW p.policy 192 + BitVec.ofNat 64 (32 * i)
  if p.spilled.length < polSpills p.policy then
    ((List.range (used.length + 1)).map entry).find? (fun va => !used.contains va)
  else none

/-- A notice reaches the port engine of the core in focus for a context: it is held, or refused (`false`). A spill area that
cannot be written refuses it (log entry 78). -/
def State.deliver (s : State) (ctx : BitVec 16) (note : BitVec 256) : State × Bool :=
  let p := s.core.port
  let n : Notice := { note := note, arrival := s.cycle, seq := p.arrivals }
  let p := { p with arrivals := p.arrivals + 1 }
  if s.core.ctx ≠ some ctx ∨ !s.live then (s, false)
  else if p.store.length < 256 ∧ p.spilled.isEmpty then (s.setPort { p with store := p.store ++ [n] }, true)
  else match p.freeSpill with
  | none => (s, false)
  | some va =>
    match s.putFor s.cx s.coreId va (leBytes 32 note.toNat) with
    | .ok t => (t.setPort { p with spilled := p.spilled ++ [{ n with spill := some va }] }, true)
    | .error (c, ea) => (s.faultTraffic s.cx s.coreId c ea, false)

/-- A withdrawal removes the untaken notice, stored or spilled, and marks a take whose pull has not issued (R150). A notice
of which a piece has been taken keeps its other pieces, marked, and so are the takes of them (log entry 79). -/
def Port.withdraw (p : Port) (core node : Nat) (seq : BitVec 32) : Port :=
  let is (n : BitVec 256) : Bool := noteCore n = core && noteNode n = node && noteSeq n = seq
  { p with
    store := (p.store.filter (fun n => !is n.note || 0 < n.taken)).map (fun n =>
      if is n.note then { n with withdrawn := true } else n)
    spilled := p.spilled.filter (fun n => !is n.note)
    takes := p.takes.map (fun x => match x with
      | some t => if is t.note ∧ t.pull = .none then some { t with withdrawn := true } else some t
      | none => none) }

/-! ### Retention (R128, R129, R148 to R150) -/

def Port.slot (p : Port) (i : Nat) : Option Retain := (p.retain[i]?).join

def State.setSlot (s : State) (i : Nat) (r : Option Retain) : State :=
  s.setPort { s.core.port with retain := s.core.port.retain.setIfInBounds i r }

/-- The key of a port operation of the core in focus. -/
def State.portKey (s : State) (op : PortOp) : PortKey := ⟨s.coreId, s.core.ctx.getD 0, op⟩

/-- The context of the core in focus is there: its cluster is granted, until it has been saved (R327). What a pull reads it
reads there, so that a response once requested lands before a save (R148, R378, log entry 89). -/
def State.resident (s : State) : Bool :=
  match s.core.ctx with | some id => s.coreGranted id s.coreId | none => false

/-- The producer's answer for a block of this core's retention table to core `m` of node `k`, and whether it read a lost
unit (R146, R150, R382); `keys`: what else than the block's `pub` may order writes before the pull. -/
def State.answer (s : State) (keys : List PortKey) (slot : Nat) (seq : BitVec 32) (addr : Word) (len k m : Nat) :
    PullAnswer × Bool :=
  match s.core.port.slot slot with
  | some r =>
    if r.seq ≠ seq then (.reclaimed, false) else
    (match s.portFetch s.cx s.coreId (s.portKey (.block slot) :: keys) k m addr len with
      | .ok bs => (.data bs, match s.spans s.cx s.coreId addr len false with
        | .ok sp => sp.any (fun p => s.lostIn p.1 p.2)
        | .error _ => false)
      | .error _ => (.faulted, false))
  | none => (.reclaimed, false)

/-- The answer of the core in focus to the pull of take slot `i` of core `n` of this node, with the traffic of its read. -/
def State.answerTake (s : State) (n i : Nat) (t : Take) : State × PullAnswer × Bool :=
  let addr := noteAddr t.note + BitVec.ofNat 64 t.off
  let a := s.answer [⟨n, s.core.ctx.getD 0, .take i⟩] (noteSlot t.note) (noteSeq t.note) addr t.size s.node.toNat n
  (if a.1 = .reclaimed then s else s.costsWhole s.cx s.coreId addr t.size false, a)

/-- The answer that a requested pull has been given and has not taken: its own, or the one that it shares at its bridge. -/
def State.known (s : State) (t : Take) : Option (PullAnswer × Bool) :=
  (t.bridge.bind (fun id => s.bridges.find? (fun b => b.id = id))).bind (·.ans) <|> t.ans

/-- A requested pull of take slot `i` of core `n` is given an answer. -/
def State.giveAnswer (s : State) (n i : Nat) (t : Take) (a : PullAnswer × Bool) : State :=
  match t.bridge with
  | some id => { s with bridges := s.bridges.map (fun b => if b.id = id then { b with ans := some a } else b) }
  | none => s.onCore n (fun u => { u with core := { u.core with
      port := { u.core.port with takes := u.core.port.takes.setIfInBounds i (some { t with ans := some a }) } } })

/-- What the requested pulls of this node read of a block of the core in focus they have read before the block is released
(R129). -/
def State.readOut (s : State) (slot : Nat) (seq : BitVec 32) : State :=
  let mine (t : Take) : Bool := noteCore t.note = s.coreId && noteNode t.note = s.node.toNat && noteSlot t.note = slot
    && noteSeq t.note = seq && (match t.pull with | .booked _ true => true | _ => false)
  ((s.coreId, s.core) :: s.others).foldl (fun s x => if x.2.ctx ≠ s.core.ctx then s else
    (List.range 64).foldl (fun s i => match (x.2.port.takes[i]?).join with
      | some t => if !mine t ∨ (s.known t).isSome then s else
          let (u, a) := s.answerTake x.1 i t
          u.giveAnswer x.1 i t a
      | none => s) s) s

/-- A RECLAIM that the storer has not taken is cancelled (R148). -/
def State.unpost (s : State) (i : Nat) : State :=
  let c := s.core.storer
  s.setComp .storer { c with posted := c.posted.filter (fun p => !(p.cause = .reclaim && p.eaddr = BitVec.ofNat 64 i)) }

/-- The release of a block (R129): the slot is free, its counter rises by one. -/
def State.releaseSlot (s : State) (i : Nat) (r : Retain) : State :=
  let s := (s.setSlot i none).unpost i
  if r.ctr = 0 then s else s.orReport (s.core.ctx.getD 0) s.coreId 2 (s.bumpFor s.cx s.coreId r.ctr 1)

/-- One consumer copy less at slot `i` of the core in focus (R128). The last one releases the block, once every pull of it that has
been requested has read it (R129). -/
def State.decrement (s : State) (i : Nat) (seq : BitVec 32) : State :=
  match s.core.port.slot i with
  | some r =>
    if r.seq ≠ seq ∨ r.count = 0 then s
    else if r.count = 1 then (s.readOut i seq).releaseSlot i r
    else s.setSlot i (some { r with count := r.count - 1 })
  | none => s

/-- Another node's answer to a copy of the notice that the core in focus publishes (R125, R132, log entry 50). -/
def State.noticeAnswer (s : State) (w : BitVec 32) (seq : BitVec 32) (code : Nat) : State :=
  match s.core.port.publishing with
  | none => s
  | some p =>
    if noteSeq p.note ≠ seq ∨ !p.asked.contains w then s else
    let asked := p.asked.erase w
    let left := if code = 2 then p.left ++ [w] else p.left
    let s := s.setPort { s.core.port with publishing := some { p with asked := asked, left := left } }
    if code = 1 then s.decrement (noteSlot p.note) seq else s

/-- A message of a context for one of its cores: taken there when the context runs on the core, else held (R378). -/
def HeldMsg.take (m : HeldMsg) (s : State) : State :=
  match m with
  | .decrement slot seq => s.decrement slot seq
  | .withdrawal core node seq => (s.setPort (s.core.port.withdraw core node seq)).refill 256
  | .noticeAnswer w seq code => s.noticeAnswer w seq code

def State.toCoreFor (s : State) (ctx : Option (BitVec 16)) (core : Nat) (m : HeldMsg) : State :=
  s.onCore core (fun t =>
    if t.live ∧ t.core.ctx = ctx then m.take t else { t with held := t.held ++ [(ctx.getD 0, core, m)] })

def State.toCore (s : State) (core : Nat) (m : HeldMsg) : State := s.toCoreFor s.core.ctx core m

/-- The decrement that a consumer sends to the producer of a notice (R128), in the class of the pull that makes it: on this node
it reaches the producer's core. With no path to another node it is not made (R262, log entry 80). -/
def State.sendDecrement (s : State) (cls : BitVec 4) (n : BitVec 256) : State :=
  if noteNode n = s.node.toNat then s.toCore (noteCore n) (.decrement (noteSlot n) (noteSeq n))
  else (s.emitBy (noteNode n) 0 cls 9 0 0 (fun port hdr => .decrement port hdr (BitVec.ofNat 16 (noteNode n))
    (BitVec.ofNat 16 (noteCore n)) (BitVec.ofNat 16 (noteSlot n)) (noteSeq n))).getD s

/-- The consumers of a slot, the list read as it stands (R150); none, where it cannot be read (log entry 81). -/
def State.consumers (s : State) (r : Retain) : State × List (BitVec 32) :=
  match r.mc with
  | none => (s, [r.cons])
  | some (a, n) => match s.engRead .storer a (4 * n) with
    | .ok (t, bs) => (t, (List.range n).map (fun k => BitVec.ofNat 32 (leNat ((bs.drop (4 * k)).take 4))))
    | .error (c, ea) => ((s.costs s.cx s.coreId a (4 * n) false).faultTraffic s.cx s.coreId c ea, [])

/-- A withdrawal goes to one consumer. -/
def State.withdrawAt (s : State) (seq : BitVec 32) (w : BitVec 32) : State :=
  if s.wordNode w = s.node.toNat then s.toCore (wordCore w) (.withdrawal s.coreId s.node.toNat seq)
  else (s.emitBy (s.wordNode w) 0 0 0 0 0 (fun port hdr =>
    .withdrawal port hdr w (BitVec.ofNat 16 s.coreId) (s.node.setWidth 16) seq)).getD s

/-- Copies of a notice that their consumers have not accepted are not delivered any more. -/
def Port.undeliver (p : Port) (seq : BitVec 32) : Port :=
  { p with publishing := p.publishing.map (fun x =>
      if x.slot.isSome ∧ noteSeq x.note = seq then { x with left := [], asked := [] } else x) }

/-- `rrel` of a slot in use (R150). -/
def State.reclaim (s : State) (i : Nat) (r : Retain) (withdraw : Bool) : State :=
  if withdraw then
    let (s, cons) := s.consumers r
    let s := s.releaseSlot i r
    cons.foldl (fun s w => s.withdrawAt r.seq w) (s.setPort (s.core.port.undeliver r.seq))
  else s.releaseSlot i r

/-- A cause for a companion core that has ended (R375). -/
def State.lateCause (s : State) (p : Posted) : State :=
  match p.cause with
  | .reclaim => match s.core.port.slot p.eaddr.toNat with
    | some r => s.reclaim p.eaddr.toNat r true
    | none => s
  | .batchErr => match s.core.lastJob with | some j => s.mapJob j (fun j => { j with lateBatch := true }) | none => s
  | .collAbort => match s.core.lastJob with | some j => s.mapJob j (fun j => { j with lateAbort := true }) | none => s
  | _ => s

/-- An asynchronous cause for the storer: posted while it runs, else dealt with by its kind (R359, R375). -/
def State.postStorer (s : State) (p : Posted) : State :=
  if s.core.storer.run = .running then s.post .storer p else s.lateCause p

/-! ### Companion instructions (R138 to R141, R149, R150) -/

/-- The stores that come before it perform, then an instruction of major 0x15 acts as one step (R138). -/
def portOp (s : State) (r : Role) (f : State → Except Stop State) : Host.Outcome State Fault Refusal :=
  drainedOp s [r] (fun s => do
    let t ← f s
    .ok (t.advance 4))

/-- The takes of a copy of a notice are marked: its producer's count has fallen for it. -/
def Port.countCopy (p : Port) (copy : Nat) : Port :=
  { p with takes := p.takes.map (fun x => match x with
      | some u => if u.copy = copy then some { u with counted := true } else some u
      | none => none) }

/-- `decl` of a take (R140): its place is freed, the notice's remaining pieces are dropped, the count falls once. -/
def State.decline (s : State) (i : Nat) (t : Take) : State :=
  let p := (s.core.port.release t.place).setTake i none
  let p := { p with store := p.store.filter (fun n => n.seq ≠ t.copy) }
  let s := (s.setPort (p.countCopy t.copy)).refill 256
  if t.counted then s else s.sendDecrement t.cls t.note

def execDecl (d a : SReg) (s : State) : Host.Outcome State Fault Refusal :=
  portOp s .loader (fun t =>
    match t.core.port.current (t.rd a) with
    | none => .ok (t.wr d (statusWord 4 0))
    | some (i, k) =>
      if k.pull ≠ .none then .ok (t.wr d (statusWord 5 0)) else .ok ((t.decline i k).wr d (statusWord 1 0)))

/-- R139: a copy written at `a` describes the piece. -/
def execNtake (d a : SReg) (s : State) : Host.Outcome State Fault Refusal :=
  portOp s .loader (fun t =>
    let va := t.rd a
    if va.toNat % 32 ≠ 0 then .error (.trap .align va) else
    match t.topNotice with
    | none => .ok (t.wr d (BitVec.allOnes 64))
    | some n =>
      let size := t.core.port.nextPiece n
      let piece := setFld (setFld n.note 0 64 ((noteAddr n.note).toNat + n.taken)) 64 32 size
      let piece := setFld piece 154 1 (boolNat n.withdrawn)
      match (if va = 0 then .ok t else liftFlt (t.store 0 va (leBytes 32 piece.toNat))) with
      | .error e => .error e
      | .ok t =>
        let i := t.core.port.freeTake.getD 0
        let (place, p) := t.core.port.allot size
        let last := n.taken + size = noteSize n.note
        let gen := (p.takeGen[i]?).getD 0 + 1
        let store := if last then p.store.filter (fun x : Notice => x.seq ≠ n.seq)
          else p.store.map (fun x : Notice => if x.seq = n.seq then { x with taken := x.taken + size } else x)
        let p := { p with takeGen := p.takeGen.setIfInBounds i gen, store := store }
        let p := p.setTake i (some { note := n.note, copy := n.seq, off := n.taken, size := size, place := place, last := last
                                     withdrawn := n.withdrawn })
        .ok (((t.setPort p).refill 256).wr d (BitVec.ofNat 64 (gen.toNat * 2 ^ 16 + i))))

def execNwait (s : State) : Host.Outcome State Fault Refusal :=
  portOp s .loader (fun t => if t.topNotice.isSome then .ok t else .error .wait)

/-- R140. -/
def execNfree (d a : SReg) (s : State) : Host.Outcome State Fault Refusal :=
  portOp s .loader (fun t =>
    match t.core.port.current (t.rd a) with
    | none => .ok (t.wr d (statusWord 4 0))
    | some (i, k) =>
      match k.pull with
      | .none => .ok ((t.decline i k).wr d (statusWord 1 0))
      | .retired o =>
        .ok (((t.setPort ((t.core.port.release k.place).setTake i none)).refill 256).wr d (statusWord o 0))
      | _ => .error .wait)

/-- The slot word of `rret` (R149). -/
def slotWord (now : Word) (r : Option Retain) : Word :=
  match r with
  | none => 0
  | some r =>
    let left := if r.expired then 0 else match r.deadline with | none => 2 ^ 40 - 1 | some d => d.toNat - now.toNat
    BitVec.ofNat 64 (r.count.toNat * 2 ^ 48 + (if r.expired then 2 else 1) * 2 ^ 46 + left % 2 ^ 40)

/-- `rret` with added cycles `b` on a slot in use (R149). -/
def Retain.extend (r : Retain) (now b : Word) : Retain :=
  let k := BitVec.ofNat 64 (min b.toNat (2 ^ 40 - 1))
  if b = 0 then r
  else if r.expired then { r with deadline := some (now + k), expired := false }
  else match r.deadline with
    | none => { r with deadline := some (now + k) }
    | some d => { r with deadline := some ((if d.toNat < now.toNat then now else d) + k) }

def execRret (d a b : SReg) (s : State) : Host.Outcome State Fault Refusal :=
  portOp s .storer (fun t =>
    let i := (t.rd a).toNat
    if 255 < i then .ok (t.wr d (BitVec.allOnes 64)) else
    let r := (t.core.port.slot i).map (fun r => r.extend t.cycle (t.rd b))
    .ok (((t.setSlot i r)).wr d (slotWord t.cycle r)))

def execRrel (d a b : SReg) (s : State) : Host.Outcome State Fault Refusal :=
  portOp s .storer (fun t =>
    let i := (t.rd a).toNat
    if 255 < i ∨ 1 < (t.rd b).toNat then .ok (t.wr d (statusWord 5 0)) else
    match t.core.port.slot i with
    | none => .ok (t.wr d (statusWord 2 0))
    | some r => .ok ((t.reclaim i r (t.rd b = 1)).wr d (statusWord 0 0)))

/-- The limits of Table 8-3. -/
def policyOk (r : BitVec 256) : Bool :=
  let between (x lo hi : Nat) : Bool := x = 0 || lo ≤ x && x ≤ hi
  fld r 100 12 = 0 && fld r 88 8 = 0 && fld r 73 7 = 0
  && between (fld r 128 32) 256 (2 ^ 24) && between (fld r 112 16) 64 32768 && between (fld r 80 8) 12 21
  && fld r 64 3 ≤ 4 && fld r 67 3 ≤ 4 && fld r 70 3 ≤ 4
  && polSize r % 4096 = 0 && polSize r ≤ 0x200000 && polBase r % 4096 = 0 && polBase r + polSize r ≤ 0x200000
  && fld r 192 64 % 4096 = 0

def execPsched (d a : SReg) (s : State) : Host.Outcome State Fault Refusal :=
  portOp s .loader (fun t => do
    let va := t.rd a
    if va.toNat % 32 ≠ 0 then .error (.trap .align va) else
    let (t, bs) ← liftFlt (t.load (some 0) va 32)
    let r := recordOf 256 bs
    let p := t.core.port
    let q := p.policy
    if !policyOk r then .ok (t.wr d (statusWord 2 0))
    else if (polBase r ≠ polBase q ∨ polSize r ≠ polSize q ∨ fld r 80 8 ≠ fld q 80 8)
        ∧ (0 < p.ringU ∨ p.takes.toList.any (·.isSome)) then .ok (t.wr d (statusWord 1 0))
    else if fld r 160 96 ≠ fld q 160 96 ∧ !p.spilled.isEmpty then .ok (t.wr d (statusWord 1 0))
    else .ok (((t.setPort { p with policy := r }).refill 256).wr d (statusWord 0 0)))

/-! ### Publishing (R126, R127) -/

/-- The operand checks of `pub` and `pub.mc` at issue. -/
def pubCheck (s : State) (a b c : SReg) (d : Option SReg) : Except Stop Captured :=
  let va := s.rd a
  let n := match d with | some d => (s.rd d).toNat | none => 1
  if va.toNat % 32 ≠ 0 then .error (.trap .align va)
  else if (s.rd c).toNat % 8 ≠ 0 then .error (.trap .align (s.rd c))
  else if d.isSome ∧ ((s.rd b).toNat % 4 ≠ 0 ∨ n = 0 ∨ 64 < n) then .error (.trap .prot (s.rd b))
  else .ok { ops := [va, s.rd b, s.rd c, match d with | some d => s.rd d | none => 0] }

/-- What the storer's fences order before a `pub` that has entered its queue (R347). -/
def pubNote (s : State) : State := s.notePort .storer (s.portKey (.pub ((s.core.queue .storerPort).seq - 1)))

def execPub (h : EHdr) (a b c : SReg) (s : State) : Host.Outcome State Fault Refusal :=
  issue s (.pub h a b c) h .storer .storerPort {} false (do
    let k ← pubCheck s a b c none
    .ok { k with also := pubNote })

def execPubMc (h : EHdr) (a b c d : SReg) (s : State) : Host.Outcome State Fault Refusal :=
  issue s (.pubMc h a b c d) h .storer .storerPort {} false (do
    let k ← pubCheck s a b c (some d)
    .ok { k with also := pubNote })

/-- A valid consumer word for a context (R125). -/
def State.consumerOk (s : State) (ctx : BitVec 16) (w : BitVec 32) : Bool :=
  let core := wordCore w
  bits w.toNat 28 3 = 0 && bits w.toNat 10 6 = 0 && core ≤ 767
  && (w.getLsbD 31 || (bits w.toNat 16 12 = 0 && s.fuses.present core
        && s.jobs.any (fun j => j.ctx = ctx && j.cores.contains core)))

/-- A place address in an own window becomes the same byte's global address (R124). -/
def globalAddr (core : Nat) (a : Word) : Word :=
  let x := a.toNat
  if x / 2 ^ 48 ≠ 0xFF00 then a else
  let o := x % 2 ^ 48
  let at_ (base : Nat) : Word := BitVec.ofNat 64 (0xFF00 * 2 ^ 48 + base)
  if o < 0x200000 then at_ (0x10000000000 + core * 0x200000 + o)
  else if 0x100000000 ≤ o ∧ o < 0x101000000 then at_ (0x20000000000 + clusterOf core * 0x1000000 + (o - 0x100000000))
  else if 0x200000000 ≤ o ∧ o < 0x204000000 then at_ (0x30000000000 + dieOf core * 0x4000000 + (o - 0x200000000))
  else a

/-- The first copy not yet accepted is delivered, or refused (R127, R132): the copies left, and those whose answer is now
awaited. A copy for another node goes out when a path to it is usable. -/
def State.deliverNext (s : State) (ctx : BitVec 16) (cls : BitVec 4) (note : BitVec 256) :
    List (BitVec 32) → State × List (BitVec 32) × List (BitVec 32)
  | [] => (s, [], [])
  | w :: t =>
    if s.wordNode w ≠ s.node.toNat then
      match s.emitBy (s.wordNode w) 32 cls 0 5 0 (fun port hdr => .notice port hdr ctx w note) with
      | some u => (u, t, [w])
      | none => (s, w :: t, [])
    else
      match (s.focus (wordCore w)).deliver ctx note with
      | (u, true) => (u.focus s.coreId, t, [])
      | (u, false) => ({ s with used := u.used }, w :: t, [])

/-- One copy of those that are left is delivered, if it is accepted. -/
def State.deliverLeft (s : State) (p : Publishing) : State × Publishing :=
  let (t, left, asked) := s.deliverNext (s.core.ctx.getD 0) p.cls p.note p.left
  let p := { p with left := left, asked := p.asked ++ asked }
  (t.setPort { t.core.port with publishing := some p }, p)

/-- What is left of a `pub` goes on: `true` when every copy is accepted and the record written back. -/
def State.publishOn (s : State) (p : Publishing) : State × Bool :=
  let (s, p) := s.deliverLeft p
  if p.left.isEmpty ∧ p.asked.isEmpty then
    (((s.setPort { s.core.port with publishing := none }).pathSpans (s.engWriter .storer) p.back (leBytes 32 p.note.toNat)).spend s.cx
      ((p.back.filter (fun x => isHbm x.1)).map (·.2)).sum, true)
  else (s, false)

/-- The record of a `pub` and its consumers, read and checked (R127). -/
def State.readPub (s : State) (c : Cmd) (mc : Bool) : Except Broken (State × Publishing) := do
  let a := c.ops.getD 0 0
  let b := c.ops.getD 1 0
  let n := (c.ops.getD 3 0).toNat
  let g : ReadLog := { next := c.prog.carry }
  let (s, bs, g) ← s.logRead .storer a 32 g
  let back ← ({} : ReadLog).lift s (s.spans s.cx s.coreId a 32 true)
  let (s, list) ← if mc then (do
      let (s, ls, _) ← s.logRead .storer b (4 * n) g
      pure (s, (List.range n).map (fun k => BitVec.ofNat 32 (leNat ((ls.drop (4 * k)).take 4)))))
    else pure (s, [b.setWidth 32])
  let note := recordOf 256 bs
  let size := noteSize note
  if size % 64 ≠ 0 ∨ size = 0 ∨ 2 ^ 24 < size ∨ (noteAddr note).toNat % 64 ≠ 0 ∨ fld note 148 4 ≠ 0
      ∨ fld note 153 7 ≠ 0 ∨ noteCount note ≠ list.length
      ∨ !list.all (s.consumerOk (s.core.ctx.getD 0)) then .error ⟨s, (.prot, a), []⟩
  else pure (s, { slot := none, note := note, left := list, back := back, cls := (c.instr.hdr.map (·.cls)).getD 0 })

/-- What was ordered before a port operation by one key is so by another. -/
def State.renamePort (s : State) (old new : PortKey) : State :=
  s.mapLag (fun l => { l with ports := (l.ports.filter (fun x => x.1 ≠ new)).map (fun x => if x.1 = old then (new, x.2) else x) })

/-- A `pub` takes the lowest free retention slot and completes its record; with none free it keeps what it has read. -/
def State.takeRetention (s : State) (c : Cmd) (mc : Bool) (x : Publishing) : State × Publishing :=
  match (List.range 256).find? (fun i => (s.core.port.slot i).isNone) with
  | none => (s.setPort { s.core.port with publishing := some x }, x)
  | some i =>
    let b := c.ops.getD 1 0
    let p := s.core.port
    let note := setFld (setFld (setFld x.note 192 16 i) 160 16 s.coreId) 176 16 s.node.toNat
    let note := setFld (setFld (setFld note 96 32 p.pubseq.toNat) 153 1 (boolNat mc)) 0 64
      (globalAddr s.coreId (noteAddr note)).toNat
    let r : Retain := {
      count := BitVec.ofNat 16 (noteCount note), seq := p.pubseq, ctr := c.ops.getD 2 0
      mc := if mc then some (b, (c.ops.getD 3 0).toNat) else none, cons := b.setWidth 32
      deadline := if s.core.retto = 0 then none else some (s.cycle + s.core.retto), job := s.jobHere }
    (((s.setPort { p with pubseq := p.pubseq + 1 }).setSlot i (some r)).renamePort (s.portKey (.pub c.num)) (s.portKey (.block i)),
      { x with slot := some (BitVec.ofNat 8 i), note := note })

/-- `pub` and `pub.mc` in the engine (R127). -/
def runPub (c : Cmd) (mc : Bool) (s : State) : EngEnd :=
  let start : Except Broken (State × Publishing) := match s.core.port.publishing with
    | some p => .ok (s, p)
    | none => s.readPub c mc
  match start with
  | .error x => x.fault 0
  | .ok (s, p) =>
    let (s, p) := if p.slot.isSome then (s, p) else s.takeRetention c mc p
    if p.slot.isNone then .wait s else
    let (t, ok) := s.publishOn p
    if ok then .done t else .wait t

/-! ### Pulls (R142 to R145) -/

/-- A follow-on command (R144): the matrix command that a word holds. -/
def followOn (w : Word) : Option Instr :=
  if bits w.toNat 0 3 ≠ 1 ∨ bits w.toNat 8 8 ≠ 0 then none else
  match decode (leBytes 8 w.toNat) with
  | .ok d => match d.instr with
    | .mload .. | .mloadVq .. | .mmma .. | .mmmaSp .. => some d.instr
    | _ => none
  | .error _ => none

/-- The issue-time effects of a pull (R143): the take has its pull, the tag bit is cleared, dst is the landing address. -/
def pullEffect (d : SReg) (cls : BitVec 4) (tag : BitVec 6) (i : Nat) (t : Take) (s : State) : State :=
  let s := ((s.clearTags (1#64 <<< tag.toNat)).setPort (s.core.port.setTake i (some { t with pull := .queued, cls := cls }))).notePort .loader
    (s.portKey (.take i))
  s.wr d (0xFF00000000000000 + BitVec.ofNat 64 (polBase s.core.port.policy + t.place))

/-- The checks of a pull at issue (R143). -/
def pullCheck (s : State) (d a : SReg) (more : List Word) (cls : BitVec 4) (tag : BitVec 6) : Except Stop Captured :=
  match s.core.port.current (s.rd a) with
  | none => .error (.trap .prot (s.rd a))
  | some (i, t) =>
    if t.pull ≠ .none then .error (.trap .prot (s.rd a))
    else if (match more with | b :: _ => (followOn b).isNone | [] => false) then .error (.trap .illegal 0)
    else .ok { ops := s.rd a :: more, also := pullEffect d cls tag i t }

def execPull (h : EHdr) (d a : SReg) (tag : BitVec 6) (s : State) : Host.Outcome State Fault Refusal :=
  issue s (.pull h d a tag) h .loader .loaderPort {} false (pullCheck s d a [] h.cls tag)

def execPullF (h : EHdr) (d a b c : SReg) (tag : BitVec 6) (s : State) : Host.Outcome State Fault Refusal :=
  issue s (.pullF h d a b c tag) h .loader .loaderPort {} false (pullCheck s d a [s.rd b, s.rd c] h.cls tag)

/-- What a write of an armed pull follows, and where it waits: what its firing has acquired, and its tag (R117). -/
def State.armWriter (s : State) (tag : BitVec 6) : Writer :=
  let at_ : Meet := .tag s.coreId tag
  { meets := [at_], after := s.upTo (fun l => l.meets.contains at_) }

/-- An armed pull has landed or could not: the landing field of its record, then its tag (Table 6-7, R117). -/
def State.armLanded (s : State) (record : Word) (tag : BitVec 6) (landing : Nat) : State :=
  let s := match s.writeFor .loader (s.armWriter tag) (record + 28) (leBytes 4 landing) with
    | .ok t => t
    | .error (c, ea) => s.faultTraffic s.cx s.coreId c ea
  s.setTag tag

/-- The take of slot `i` ends with an outcome: an armed pull retires at once. -/
def State.endTake (s : State) (i : Nat) (t : Take) (o : Nat) : State :=
  match t.arm with
  | none => s.setPort (s.core.port.setTake i (some { t with pull := .ended o }))
  | some (record, tag) =>
    let s := s.setPort (s.core.port.setTake i (some { t with pull := .retired o }))
    s.armLanded record tag (if o = 0 then polBase s.core.port.policy + t.place else 0xFFFFFFFF)

/-- The booking of a pull on the ingress timetable (R145), and for a producer on another node on that of the port it comes
by: it is released at the later point (R265). A withdrawn take's pull ends at once (R150). -/
def State.book (s : State) (i : Nat) (t : Take) : State :=
  if t.withdrawn then s.endTake i t 2 else
  let (s, there) := if noteNode t.note = s.node.toNat then (s, 0) else s.bookPort (noteNode t.note) t.size
  let p := s.core.port
  let (here, free) := bookAt p.free s.cycle.toNat t.size (polRate p.policy) (polWindow p.policy)
  s.setPort ({ p with free := free }.setTake i (some { t with pull := .booked (BitVec.ofNat 64 (max here there)) false }))

/-- A pull in its queue: it is booked, and later commands of the queue go on (R143). -/
def runPull (c : Cmd) (s : State) : EngEnd :=
  match s.core.port.current (c.ops.headD 0) with
  | some (i, t) => if t.pull = .queued then .done (s.book i t) else .done s
  | none => .done s

/-- The pull that an armed operation makes (R117): booked at once; `none` when the handle names no take to pull. -/
def State.armPull (s : State) (h record : Word) (tag : BitVec 6) : Option State :=
  match s.core.port.current h with
  | some (i, t) => if t.pull = .none then some (s.book i { t with arm := some (record, tag) }) else none
  | none => none

/-- The bridge request that the pull of a take shares (R147): same producer core, sequence, address and length, from another
core of its die, within 64 cycles of the first. -/
def State.sharedBridge (s : State) (t : Take) : Option Bridge :=
  s.bridges.find? (fun b => b.die = dieOf s.coreId && b.core = noteCore t.note && b.seq = noteSeq t.note
    && b.addr = noteAddr t.note + BitVec.ofNat 64 t.off && b.len = t.size && !b.cores.contains s.coreId
    && s.cycle.toNat ≤ b.first.toNat + 64)

/-- The released request of a pull reaches its die's bridge (R147). A pull reaches a bridge where the producer lies on another
die of this node: between cores of one die it crosses none, and reads anew, though a row of R151 has such pulls coalesced (log
entry 99). A request that every pull has taken its answer from goes when no later one can share it. -/
def State.toBridge (s : State) (t : Take) : State × Take :=
  if dieOf (noteCore t.note) = dieOf s.coreId ∨ fld t.note 152 1 = 1 then (s, t) else
  match s.sharedBridge t with
  | some b =>
    ({ s with bridges := s.bridges.map (fun x =>
        if x.id = b.id then { x with cores := x.cores ++ [s.coreId], left := x.left + 1 } else x) },
      { t with bridge := some b.id })
  | none =>
    let b : Bridge := { id := s.bridgeSeq, die := dieOf s.coreId, core := noteCore t.note, seq := noteSeq t.note
                        addr := noteAddr t.note + BitVec.ofNat 64 t.off, len := t.size, first := s.cycle
                        cores := [s.coreId] }
    let kept := s.bridges.filter (fun x => 0 < x.left || s.cycle.toNat ≤ x.first.toNat + 64)
    ({ s with bridges := kept ++ [b], bridgeSeq := s.bridgeSeq + 1 }, { t with bridge := some b.id })

/-- The request of a booked pull is released when its cycle has come (R145). With no path to another node the pull fails: no
byte of it is written (R262, log entry 80). -/
def execPullRequestRelease (take : BitVec 6) (s : State) : Host.Outcome State Fault Refusal :=
  match (s.core.port.takes[take.toNat]?).join with
  | some t =>
    match t.pull with
    | .booked c false =>
      if s.cycle.toNat < c.toNat ∨ !s.live then .next s
      else if noteNode t.note = s.node.toNat then
        let (s, t) := s.toBridge t
        .next (s.setPort (s.core.port.setTake take.toNat (some { t with pull := .booked c true })))
      else
        match s.emitBy (noteNode t.note) 0 t.cls 7 0xFF (noteAddr t.note + BitVec.ofNat 64 t.off)
            (fun port hdr => .pullRequest port hdr take t.note t.off t.size) with
        | some s => .next (s.setPort (s.core.port.setTake take.toNat (some { t with pull := .booked c true })))
        | none => .next (s.endTake take.toNat t 3)
    | _ => .next s
  | none => .next s

/-- The packets of a pull response: at most 4,096 B each, in ascending offset order (R259). -/
def answerParts (a : PullAnswer) : List (Nat × PullAnswer) :=
  match a with
  | .data bs => (List.range (max 1 ((bs.length + 4095) / 4096))).map (fun i =>
      (4096 * i, .data ((bs.drop (4096 * i)).take 4096)))
  | a => [(0, a)]

/-- A pull request reaches this core as the producer (R146). It waits there while the context does not run (R148). -/
def State.servePull (s : State) (req : PullReq) : State :=
  if !s.resident then s else
  let node := s.wordNode req.consumer
  let (a, _) := s.answer [] req.slot.toNat req.seq req.addr req.len node (wordCore req.consumer)
  let s := if a = .reclaimed then s else s.costsWhole s.cx s.coreId req.addr req.len false
  (answerParts a).foldl (fun s x =>
    let n := match x.2 with | .data bs => bs.length | _ => 0
    (s.emitBy node n req.cls 8 0xFF req.addr (fun port hdr => .pullAnswer port hdr req.consumer req.take x.1 x.2)).getD s) s

/-- A follow-on enters the matrix engine's follow-on queue (R144), as far as that queue has room. It takes its views there
(R161); its `carry` names the take slot. -/
def State.placeFollow (s : State) (i : Nat) (t : Take) (b c : Word) : State :=
  let q := s.core.queue .followOn
  match followOn b with
  | some ins =>
    if !q.room then s else
    let view (w : WReg) : Word := s.core.views[w.toNat]
    let views := match ins with
      | .mload _ _ va | .mloadVq _ _ va => [view va]
      | .mmma _ _ vd va .. | .mmmaSp _ _ vd va .. => [view vd, view va]
      | _ => []
    let s := s.enqueue .followOn { instr := ins, word := b, views := views, fmt := some c, prog := { carry := [BitVec.ofNat 64 i] } }
    s.setPort (s.core.port.setTake i (some { t with follow := .placed }))
  | none => s

/-- Every `pull.f` that has landed and whose follow-on has not found room yet. -/
def State.placeFollows (s : State) : State :=
  (s.core.queue .loaderPort).done.foldl (fun s c =>
    match c.instr, s.core.port.current (c.ops.headD 0) with
    | .pullF .., some (i, t) =>
      if t.pull = .ended 0 ∧ t.follow = .none then s.placeFollow i t (c.ops.getD 1 0) (c.ops.getD 2 0) else s
    | _, _ => s) s

/-- A pull whose take has ended can retire; a `pull.f` whose piece has landed retires with its follow-on (R143, R144). -/
def Port.pullRetires (p : Port) (c : Cmd) : Bool :=
  match p.current (c.ops.headD 0) with
  | some (_, t) =>
    (match t.pull with
      | .ended o => o ≠ 0 || t.follow = .retired || (match c.instr with | .pullF .. => false | _ => true)
      | .retired _ => true
      | _ => false)
  | none => true

/-- The answer to a requested pull of the core in focus whose producer is on this node: shared at the bridge, or the one that
the producer's core gives now; the loader's DLOST follows from it (R382). `none` while the producer's context does not run
there (R148). -/
def State.localAnswer (s : State) (i : Nat) (t : Take) : Option (State × PullAnswer) :=
  let take (s : State) (a : PullAnswer × Bool) : State × PullAnswer :=
    let s := { s with bridges := s.bridges.map (fun b =>
      if t.bridge = some b.id then { b with ans := some a, left := b.left - 1 } else b) }
    (if a.2 then s.setComp .loader { s.core.loader with dlost := true } else s, a.1)
  match s.known t with
  | some a => some (take s a)
  | none =>
    let producer := s.focus (noteCore t.note)
    if !(producer.resident && producer.core.ctx = s.core.ctx) then none else
    let (u, a) := producer.answerTake s.coreId i t
    some (take { s with used := u.used } a)

/-- A write of the pull of a take: of its command, or of the arm that made it. -/
def State.pullWriter (s : State) (i : Nat) (t : Take) : Writer :=
  match t.arm with
  | some (_, tag) => s.armWriter tag
  | none =>
    match (s.core.queue .loaderPort).done.find? (fun c => (s.core.port.current (c.ops.headD 0)).map (·.1) = some i) with
    | some c => s.cmdWriter .loader .loaderPort c
    | none => {}

/-- Bytes of a pull land at its place (R143): the take ends with the last of them, and the count falls for the notice's last
piece. The bytes are a write of the pull's command, or of the arm that made the pull. -/
def State.land (s : State) (i : Nat) (t : Take) (bs : List Byte) : State :=
  let s := s.pathWrite (s.pullWriter i t) (locLocal s.coreId (polBase s.core.port.policy + t.place + t.got)) bs
  let t := { t with got := t.got + bs.length }
  if t.got < t.size then s.setPort (s.core.port.setTake i (some t)) else
  let counts := t.last && !t.counted
  let s := (s.endTake i { t with counted := t.counted || t.last } 0).placeFollows
  if counts then (s.setPort (s.core.port.countCopy t.copy)).sendDecrement t.cls t.note else s

/-- A response to a pull arrives (R143). A producer that answers reclaimed or faulted still counts the consumer: no decrement
goes to it (log entry 100). For a producer of this node the answer is the one that its core gives (R146); from
another node it is the packet that arrives, of at most 4,096 B (R259). -/
def execPullLanding (take : BitVec 6) (ans : PullAnswer) (s : State) : Host.Outcome State Fault Refusal :=
  match (s.core.port.takes[take.toNat]?).join with
  | some t =>
    match t.pull with
    | .booked _ true =>
      let here := noteNode t.note = s.node.toNat
      (match (if here then s.localAnswer take.toNat t else some (s, ans)) with
        | none => .next s
        | some (s, .reclaimed) => .next (s.endTake take.toNat t 2)
        | some (s, .faulted) => .next (s.endTake take.toNat t 3)
        | some (s, .data bs) =>
          if bs.length ≠ (if here then t.size else min 4096 (t.size - t.got)) then .next s
          else .next (s.land take.toNat t bs))
    | _ => .next s
  | none => .next s

/-! ### Deliveries and retention events -/

/-- The packet that answers a notice of another node, of the notice's class and address, with the consumer word in its payload: 0
taken, 1 as a node that does not hold the context answers, 2 refused (R125, R132, R259, R260, log entry 50). -/
def noticePacket (n : Delivery) (here : BitVec 12) (core code : Nat) : Packet :=
  { kind := 4, source := here, die := 0, context := n.ctx, core := BitVec.ofNat 16 (noteCore n.note), seq := noteSeq n.note
    op := 0, size := 5, cls := n.cls, tag := 0, addr := 0
    payload := leBytes 4 code ++ leBytes 28 (2 ^ 31 + here.toNat * 2 ^ 16 + core) }

def State.answerNotice (s : State) (n : Delivery) (code : Nat) : State :=
  let node := noteNode n.note
  if node = s.node.toNat then s else
  match s.choosePath s.coreId node with
  | some (d, alt) => s.emit d alt (BitVec.ofNat 12 node) (noticePacket n s.node s.coreId code)
  | none => s

/-- A notice from another node reaches this core, for a context (R132): it is held, or refused and its sender keeps it; a
node that does not run the context answers as if it had been declined (R125). -/
def execNoticeDelivery (n : Delivery) (s : State) : Host.Outcome State Fault Refusal :=
  .next (
    if (s.findCtx n.ctx).isNone then s.answerNotice n 1 else
    match s.deliver n.ctx n.note with
    | (t, true) => t.answerNotice n 0
    | (t, false) => t.answerNotice n 2)

/-- A refused delivery of this core's `pub` is tried again after its back-off (R132), while the core is not stopped (R334). -/
def execNoticeRetry (s : State) : Host.Outcome State Fault Refusal :=
  match s.core.port.publishing with
  | some p => if s.live ∧ p.slot.isSome then .next (s.deliverLeft p).1 else .next s
  | none => .next s

/-- A withdrawal from another node reaches this core; while the context does not run there its sender keeps it (R378). -/
def execNoticeWithdrawal (core node : BitVec 16) (seq : BitVec 32) (s : State) : Host.Outcome State Fault Refusal :=
  .next (if s.live then (s.setPort (s.core.port.withdraw core.toNat node.toNat seq)).refill 256 else s)

def execRetentionDecrement (slot : BitVec 8) (seq : BitVec 32) (s : State) : Host.Outcome State Fault Refusal :=
  .next (if s.live then s.decrement slot.toNat seq else s)

/-- A slot's deadline comes while its context runs (R148). -/
def execRetentionExpiry (slot : BitVec 8) (s : State) : Host.Outcome State Fault Refusal :=
  match s.core.port.slot slot.toNat with
  | some r =>
    match r.deadline with
    | some d =>
      if !r.expired ∧ d.toNat ≤ s.cycle.toNat ∧ s.live then
        .next ((s.setSlot slot.toNat (some { r with expired := true })).postStorer ⟨.reclaim, slot.setWidth 64, .async⟩)
      else .next s
    | none => .next s
  | none => .next s

end Sys2Proof.Machine
end

