-- ==== Sys2Proof/Machine/Scalar.lean ====
section
/-! DEFINITION. Scalar instructions: integer arithmetic, immediates, compares, predicates, control flow, `tok`, and scalar
loads and stores (03_companion_cores). -/

namespace Sys2Proof.Machine

/-- R33. -/
def execNop (s : State) : Host.Outcome State Fault Refusal := companionOp s everyRole (.ok (s.advance 4))

/-- A result goes to an s register (R43). -/
def setOp (s : State) (d : SReg) (v : Word) : Host.Outcome State Fault Refusal :=
  companionOp s everyRole (.ok ((s.wr d v).advance 4))

/-! ### Register forms (R51 to R53) -/

/-- R52. -/
def divSigned (a b : Word) : Word := if b = 0 then BitVec.allOnes 64 else BitVec.ofInt 64 (a.toInt.tdiv b.toInt)
def divUnsigned (a b : Word) : Word := if b = 0 then BitVec.allOnes 64 else BitVec.ofNat 64 (a.toNat / b.toNat)
def remSigned (a b : Word) : Word := if b = 0 then a else BitVec.ofInt 64 (a.toInt.tmod b.toInt)
def remUnsigned (a b : Word) : Word := if b = 0 then a else BitVec.ofNat 64 (a.toNat % b.toNat)

def leadingZeros (a : Word) : Nat := ((List.range 64).find? (fun i => a.getLsbD (63 - i))).getD 64
def trailingZeros (a : Word) : Nat := ((List.range 64).find? (fun i => a.getLsbD i)).getD 64
def onesIn (a : Word) : Nat := (List.range 64).countP (fun i => a.getLsbD i)

/-- The low `w` bits of `a` by the operand of `sext` and `zext` (R53). -/
def ExtWidth.bits : ExtWidth → Nat
  | .w8 => 8 | .w16 => 16 | .w32 => 32

def signExt (n : Nat) (a : Word) : Word := (a.setWidth n).signExtend 64
def zeroExt (n : Nat) (a : Word) : Word := (a.setWidth n).setWidth 64

def aluAdd (a b : Word) : Word := a + b
def aluSub (a b : Word) : Word := a - b
def aluMul (a b : Word) : Word := a * b
def aluMulh (a b : Word) : Word := BitVec.ofNat 64 (a.toNat * b.toNat / 2 ^ 64)
def aluMulhs (a b : Word) : Word := BitVec.ofInt 64 (a.toInt * b.toInt / 2 ^ 64)
def aluDiv (a b : Word) : Word := divSigned a b
def aluDivu (a b : Word) : Word := divUnsigned a b
def aluRem (a b : Word) : Word := remSigned a b
def aluRemu (a b : Word) : Word := remUnsigned a b
def aluAnd (a b : Word) : Word := a &&& b
def aluOr (a b : Word) : Word := a ||| b
def aluXor (a b : Word) : Word := a ^^^ b
def aluShl (a b : Word) : Word := a <<< (b.toNat % 64)
def aluShr (a b : Word) : Word := a >>> (b.toNat % 64)
def aluSra (a b : Word) : Word := a.sshiftRight (b.toNat % 64)
def aluMin (a b : Word) : Word := if a.toInt ≤ b.toInt then a else b
def aluMax (a b : Word) : Word := if a.toInt ≤ b.toInt then b else a
def aluMinu (a b : Word) : Word := if a.toNat ≤ b.toNat then a else b
def aluMaxu (a b : Word) : Word := if a.toNat ≤ b.toNat then b else a

def execAdd (d a b : SReg) (s : State) : Host.Outcome State Fault Refusal :=
  setOp s d (aluAdd (s.rd a) (s.rd b))
def execSub (d a b : SReg) (s : State) : Host.Outcome State Fault Refusal :=
  setOp s d (aluSub (s.rd a) (s.rd b))
def execMul (d a b : SReg) (s : State) : Host.Outcome State Fault Refusal :=
  setOp s d (aluMul (s.rd a) (s.rd b))
def execMulh (d a b : SReg) (s : State) : Host.Outcome State Fault Refusal :=
  setOp s d (aluMulh (s.rd a) (s.rd b))
def execMulhs (d a b : SReg) (s : State) : Host.Outcome State Fault Refusal :=
  setOp s d (aluMulhs (s.rd a) (s.rd b))
def execDiv (d a b : SReg) (s : State) : Host.Outcome State Fault Refusal :=
  setOp s d (aluDiv (s.rd a) (s.rd b))
def execDivu (d a b : SReg) (s : State) : Host.Outcome State Fault Refusal :=
  setOp s d (aluDivu (s.rd a) (s.rd b))
def execRem (d a b : SReg) (s : State) : Host.Outcome State Fault Refusal :=
  setOp s d (aluRem (s.rd a) (s.rd b))
def execRemu (d a b : SReg) (s : State) : Host.Outcome State Fault Refusal :=
  setOp s d (aluRemu (s.rd a) (s.rd b))
def execAnd (d a b : SReg) (s : State) : Host.Outcome State Fault Refusal :=
  setOp s d (aluAnd (s.rd a) (s.rd b))
def execOr (d a b : SReg) (s : State) : Host.Outcome State Fault Refusal :=
  setOp s d (aluOr (s.rd a) (s.rd b))
def execXor (d a b : SReg) (s : State) : Host.Outcome State Fault Refusal :=
  setOp s d (aluXor (s.rd a) (s.rd b))
def execShl (d a b : SReg) (s : State) : Host.Outcome State Fault Refusal :=
  setOp s d (aluShl (s.rd a) (s.rd b))
def execShr (d a b : SReg) (s : State) : Host.Outcome State Fault Refusal :=
  setOp s d (aluShr (s.rd a) (s.rd b))
def execSra (d a b : SReg) (s : State) : Host.Outcome State Fault Refusal :=
  setOp s d (aluSra (s.rd a) (s.rd b))
def execMin (d a b : SReg) (s : State) : Host.Outcome State Fault Refusal :=
  setOp s d (aluMin (s.rd a) (s.rd b))
def execMax (d a b : SReg) (s : State) : Host.Outcome State Fault Refusal :=
  setOp s d (aluMax (s.rd a) (s.rd b))
def execMinu (d a b : SReg) (s : State) : Host.Outcome State Fault Refusal :=
  setOp s d (aluMinu (s.rd a) (s.rd b))
def execMaxu (d a b : SReg) (s : State) : Host.Outcome State Fault Refusal :=
  setOp s d (aluMaxu (s.rd a) (s.rd b))

def execClz (d a : SReg) (s : State) : Host.Outcome State Fault Refusal :=
  setOp s d (BitVec.ofNat 64 (leadingZeros (s.rd a)))
def execCtz (d a : SReg) (s : State) : Host.Outcome State Fault Refusal :=
  setOp s d (BitVec.ofNat 64 (trailingZeros (s.rd a)))
def execPopc (d a : SReg) (s : State) : Host.Outcome State Fault Refusal :=
  setOp s d (BitVec.ofNat 64 (onesIn (s.rd a)))
def execMov (d a : SReg) (s : State) : Host.Outcome State Fault Refusal := setOp s d (s.rd a)
def execSext (d a : SReg) (w : ExtWidth) (s : State) : Host.Outcome State Fault Refusal :=
  setOp s d (signExt (ExtWidth.bits w) (s.rd a))
def execZext (d a : SReg) (w : ExtWidth) (s : State) : Host.Outcome State Fault Refusal :=
  setOp s d (zeroExt (ExtWidth.bits w) (s.rd a))

/-! ### Immediate forms (R54 to R57) -/

def execAddi (d a : SReg) (imm : BitVec 9) (s : State) : Host.Outcome State Fault Refusal :=
  setOp s d (s.rd a + imm.signExtend 64)
def execAndi (d a : SReg) (imm : BitVec 9) (s : State) : Host.Outcome State Fault Refusal :=
  setOp s d (s.rd a &&& imm.signExtend 64)
def execOri (d a : SReg) (imm : BitVec 9) (s : State) : Host.Outcome State Fault Refusal :=
  setOp s d (s.rd a ||| imm.signExtend 64)
def execXori (d a : SReg) (imm : BitVec 9) (s : State) : Host.Outcome State Fault Refusal :=
  setOp s d (s.rd a ^^^ imm.signExtend 64)
def execShli (d a : SReg) (sh : BitVec 6) (s : State) : Host.Outcome State Fault Refusal :=
  setOp s d (s.rd a <<< sh.toNat)
def execShri (d a : SReg) (sh : BitVec 6) (s : State) : Host.Outcome State Fault Refusal :=
  setOp s d (s.rd a >>> sh.toNat)
def execSrai (d a : SReg) (sh : BitVec 6) (s : State) : Host.Outcome State Fault Refusal :=
  setOp s d ((s.rd a).sshiftRight sh.toNat)

/-- R55: a field that runs past bit 63 raises ILLEGAL. -/
def execBfx (d a : SReg) (pos widthM1 : BitVec 6) (s : State) : Host.Outcome State Fault Refusal :=
  let width := widthM1.toNat + 1
  companionOp s everyRole
    (if pos.toNat + width > 64 then .error (.trap .illegal 0)
     else .ok ((s.wr d (BitVec.ofNat 64 (bits (s.rd a).toNat pos.toNat width))).advance 4))

/-- `dst` with its bits `pos` to `pos + width - 1` replaced by the low bits of `a`. -/
def insertField (dst a : Word) (pos width : Nat) : Word :=
  let m : Word := BitVec.ofNat 64 ((2 ^ width - 1) * 2 ^ pos)
  (dst &&& ~~~m) ||| ((a <<< pos) &&& m)

def execBfi (d a : SReg) (pos widthM1 : BitVec 6) (s : State) : Host.Outcome State Fault Refusal :=
  let width := widthM1.toNat + 1
  companionOp s everyRole
    (if pos.toNat + width > 64 then .error (.trap .illegal 0)
     else .ok ((s.wr d (insertField (s.rd d) (s.rd a) pos.toNat width)).advance 4))

def execMovi (d : SReg) (imm : BitVec 18) (s : State) : Host.Outcome State Fault Refusal :=
  setOp s d (imm.signExtend 64)

/-- R56: `cat(dst[45:0], imm18)`. -/
def execMovh (d : SReg) (imm : BitVec 18) (s : State) : Host.Outcome State Fault Refusal :=
  setOp s d ((s.rd d <<< 18) ||| imm.setWidth 64)

/-- The bases of the three own-windows (Table 4-3, R57). -/
def windowBase (sel : BitVec 2) : Option Word :=
  if sel = 0 then some 0xFF00000000000000 else if sel = 1 then some 0xFF00000100000000
  else if sel = 2 then some 0xFF00000200000000 else none

def execLea (d : SReg) (sel : BitVec 2) (off : BitVec 16) (s : State) : Host.Outcome State Fault Refusal :=
  companionOp s everyRole (match windowBase sel with
    | some base => .ok ((s.wr d (base + BitVec.ofNat 64 (off.toNat * 8))).advance 4)
    | none => .error (.trap .illegal 0))

/-! ### Compares and predicates (R58, R59) -/

/-- A result goes to a p register. -/
def setPredOp (s : State) (d : PReg) (v : Bool) : Host.Outcome State Fault Refusal :=
  companionOp s everyRole (.ok ((s.wrP d v).advance 4))

def execCmpEq (d : PReg) (a b : SReg) (s : State) : Host.Outcome State Fault Refusal :=
  setPredOp s d (s.rd a == s.rd b)
def execCmpNe (d : PReg) (a b : SReg) (s : State) : Host.Outcome State Fault Refusal :=
  setPredOp s d (s.rd a != s.rd b)
def execCmpLt (d : PReg) (a b : SReg) (s : State) : Host.Outcome State Fault Refusal :=
  setPredOp s d (decide ((s.rd a).toInt < (s.rd b).toInt))
def execCmpLe (d : PReg) (a b : SReg) (s : State) : Host.Outcome State Fault Refusal :=
  setPredOp s d (decide ((s.rd a).toInt ≤ (s.rd b).toInt))
def execCmpLtu (d : PReg) (a b : SReg) (s : State) : Host.Outcome State Fault Refusal :=
  setPredOp s d (decide ((s.rd a).toNat < (s.rd b).toNat))
def execCmpLeu (d : PReg) (a b : SReg) (s : State) : Host.Outcome State Fault Refusal :=
  setPredOp s d (decide ((s.rd a).toNat ≤ (s.rd b).toNat))
def execPand (d a b : PReg) (s : State) : Host.Outcome State Fault Refusal := setPredOp s d (s.rdP a && s.rdP b)
def execPor (d a b : PReg) (s : State) : Host.Outcome State Fault Refusal := setPredOp s d (s.rdP a || s.rdP b)
def execPxor (d a b : PReg) (s : State) : Host.Outcome State Fault Refusal := setPredOp s d (s.rdP a != s.rdP b)
def execPnot (d a : PReg) (s : State) : Host.Outcome State Fault Refusal := setPredOp s d (!s.rdP a)
def execSel (d : SReg) (a : PReg) (b : SReg) (s : State) : Host.Outcome State Fault Refusal :=
  companionOp s everyRole (.ok ((if s.rdP a then s.wr d (s.rd b) else s).advance 4))

/-! ### Control flow (R60 to R63) -/

def execPtb (d : BReg) (imm : BitVec 18) (s : State) : Host.Outcome State Fault Refusal :=
  companionOp s everyRole
    (.ok ((s.wrB d (((s.me.pc.setWidth 16) + (imm.setWidth 16) * 4).setWidth 64)).advance 4))

def execPtbr (d : BReg) (a : SReg) (s : State) : Host.Outcome State Fault Refusal :=
  companionOp s everyRole (.ok ((s.wrB d (s.rd a)).advance 4))

/-- A transfer of control to `t` (R62): its checks, or the new program counter. -/
def State.jump (s : State) (t : Word) : Except Stop State :=
  match s.me.transferFault t with
  | some c => .error (.trap c t)
  | none => .ok (s.setMe { s.me with pc := t.setWidth 17 })

/-- A branch that is taken when `taken`. -/
def branchOp (s : State) (taken : Bool) (t : Word) : Host.Outcome State Fault Refusal :=
  companionOp s everyRole (if taken then s.jump t else .ok (s.advance 4))

def execBr (a : BReg) (p : PReg) (s : State) : Host.Outcome State Fault Refusal := branchOp s (s.rdP p) (s.rdB a)
def execBrN (a : BReg) (p : PReg) (s : State) : Host.Outcome State Fault Refusal := branchOp s (!s.rdP p) (s.rdB a)
def execRet (p : PReg) (s : State) : Host.Outcome State Fault Refusal := branchOp s (s.rdP p) (s.rdB 7)

/-- R62: the target is read before b7 is written. -/
def execBrl (a : BReg) (p : PReg) (s : State) : Host.Outcome State Fault Refusal :=
  companionOp s everyRole
    (if s.rdP p then
       match s.jump (s.rdB a) with
       | .ok t => .ok (t.wrB 7 ((s.me.pc + 4).setWidth 64))
       | .error e => .error e
     else .ok (s.advance 4))

/-- R63. -/
def execHalt (s : State) : Host.Outcome State Fault Refusal :=
  companionOp s everyRole (.ok ((s.setMe { s.me with run := .ended }).advance 4))

/-- A `tok` pushes its tokens in turn. -/
def State.pushOwn (s : State) (pushes : List TokQ) : State :=
  pushes.foldl (fun s q =>
    let s := s.carryOwn q
    { s with core := { s.core with tokens := s.core.tokens.push [q] } }) s

/-- R50, through the stages of R47 that apply to it: its pops, then the wait for every earlier store, then its pushes. -/
def execTok (act : BitVec 4) (s : State) : Host.Outcome State Fault Refusal :=
  companionOp s everyRole (
    if act = 0 ∨ !tokLegal s.cur act then .error (.trap .illegal 0)
    else if !s.core.tokensReady (tokPops s.cur act) then .error .wait
    else if !s.core.pushesFit (tokPushes s.cur act) then .error (.trap .tokenOverflow 0)
    else
      let pops := tokPops s.cur act
      let pushes := tokPushes s.cur act
      let t := (s.acquireTokens pops).drainAll s.cur
      .ok ((State.pushOwn { t with core := { t.core with tokens := t.core.tokens.pop pops } } pushes).advance 4))

/-! ### Scalar loads and stores (R64 to R66) -/

/-- A load of class `c` of `n` bytes at `ea`, made from the registers `rs`, into `d`, widened by `f`; the instruction is
`len` bytes. -/
def loadOp (s : State) (c : BitVec 4) (d : SReg) (rs : List SReg) (ea : Word) (n len : Nat) (f : Word → Word) :
    Host.Outcome State Fault Refusal :=
  companionOp s everyRole (
    if ea.toNat % n ≠ 0 then .error (.trap .align ea) else do
    let (t, bs) ← liftFlt (s.loadOr (fun loc => Early.loadable c (regBits rs) loc n) c ea n)
    .ok ((t.wr d (f (BitVec.ofNat 64 (leNat bs)))).advance len))

/-- A store of the low `n` bytes of `v` at `ea` in class `c`. -/
def storeOp (s : State) (v : SReg) (ea : Word) (c : BitVec 4) (n len : Nat) : Host.Outcome State Fault Refusal :=
  companionOp s everyRole (
    if ea.toNat % n ≠ 0 then .error (.trap .align ea) else do
    let t ← liftFlt (s.store c ea (leBytes n (s.rd v).toNat))
    .ok (t.advance len))

def execLdB (d a : SReg) (imm : BitVec 9) (s : State) : Host.Outcome State Fault Refusal :=
  loadOp s 0 d [a] (s.rd a + imm.signExtend 64) 1 4 (signExt 8)
def execLdH (d a : SReg) (imm : BitVec 9) (s : State) : Host.Outcome State Fault Refusal :=
  loadOp s 0 d [a] (s.rd a + imm.signExtend 64) 2 4 (signExt 16)
def execLdW (d a : SReg) (imm : BitVec 9) (s : State) : Host.Outcome State Fault Refusal :=
  loadOp s 0 d [a] (s.rd a + imm.signExtend 64) 4 4 (signExt 32)
def execLdD (d a : SReg) (imm : BitVec 9) (s : State) : Host.Outcome State Fault Refusal :=
  loadOp s 0 d [a] (s.rd a + imm.signExtend 64) 8 4 (id)
def execLduB (d a : SReg) (imm : BitVec 9) (s : State) : Host.Outcome State Fault Refusal :=
  loadOp s 0 d [a] (s.rd a + imm.signExtend 64) 1 4 id
def execLduH (d a : SReg) (imm : BitVec 9) (s : State) : Host.Outcome State Fault Refusal :=
  loadOp s 0 d [a] (s.rd a + imm.signExtend 64) 2 4 id
def execLduW (d a : SReg) (imm : BitVec 9) (s : State) : Host.Outcome State Fault Refusal :=
  loadOp s 0 d [a] (s.rd a + imm.signExtend 64) 4 4 id
def execStB (v a : SReg) (imm : BitVec 9) (s : State) : Host.Outcome State Fault Refusal :=
  storeOp s v (s.rd a + imm.signExtend 64) 0 1 4
def execStH (v a : SReg) (imm : BitVec 9) (s : State) : Host.Outcome State Fault Refusal :=
  storeOp s v (s.rd a + imm.signExtend 64) 0 2 4
def execStW (v a : SReg) (imm : BitVec 9) (s : State) : Host.Outcome State Fault Refusal :=
  storeOp s v (s.rd a + imm.signExtend 64) 0 4 4
def execStD (v a : SReg) (imm : BitVec 9) (s : State) : Host.Outcome State Fault Refusal :=
  storeOp s v (s.rd a + imm.signExtend 64) 0 8 4

/-- The address of format S64 (R65). -/
def State.ea64 (s : State) (a b : SReg) (imm : BitVec 17) : Word := s.rd a + s.rd b + imm.signExtend 64

def execLdBS (c : BitVec 4) (d a b : SReg) (imm : BitVec 17) (s : State) : Host.Outcome State Fault Refusal :=
  loadOp s c d [a, b] (s.ea64 a b imm) 1 8 (signExt 8)
def execLdHS (c : BitVec 4) (d a b : SReg) (imm : BitVec 17) (s : State) : Host.Outcome State Fault Refusal :=
  loadOp s c d [a, b] (s.ea64 a b imm) 2 8 (signExt 16)
def execLdWS (c : BitVec 4) (d a b : SReg) (imm : BitVec 17) (s : State) : Host.Outcome State Fault Refusal :=
  loadOp s c d [a, b] (s.ea64 a b imm) 4 8 (signExt 32)
def execLdDS (c : BitVec 4) (d a b : SReg) (imm : BitVec 17) (s : State) : Host.Outcome State Fault Refusal :=
  loadOp s c d [a, b] (s.ea64 a b imm) 8 8 (id)
def execLduBS (c : BitVec 4) (d a b : SReg) (imm : BitVec 17) (s : State) : Host.Outcome State Fault Refusal :=
  loadOp s c d [a, b] (s.ea64 a b imm) 1 8 id
def execLduHS (c : BitVec 4) (d a b : SReg) (imm : BitVec 17) (s : State) : Host.Outcome State Fault Refusal :=
  loadOp s c d [a, b] (s.ea64 a b imm) 2 8 id
def execLduWS (c : BitVec 4) (d a b : SReg) (imm : BitVec 17) (s : State) : Host.Outcome State Fault Refusal :=
  loadOp s c d [a, b] (s.ea64 a b imm) 4 8 id
def execStBS (c : BitVec 4) (v a b : SReg) (imm : BitVec 17) (s : State) : Host.Outcome State Fault Refusal :=
  storeOp s v (s.ea64 a b imm) c 1 8
def execStHS (c : BitVec 4) (v a b : SReg) (imm : BitVec 17) (s : State) : Host.Outcome State Fault Refusal :=
  storeOp s v (s.ea64 a b imm) c 2 8
def execStWS (c : BitVec 4) (v a b : SReg) (imm : BitVec 17) (s : State) : Host.Outcome State Fault Refusal :=
  storeOp s v (s.ea64 a b imm) c 4 8
def execStDS (c : BitVec 4) (v a b : SReg) (imm : BitVec 17) (s : State) : Host.Outcome State Fault Refusal :=
  storeOp s v (s.ea64 a b imm) c 8 8

end Sys2Proof.Machine
end

