-- ==== Sys2Proof/Machine/Sync.lean ====
section
/-! DEFINITION. Copy tags, counters, armed operations and the cluster barrier (06_scratchpads). -/

namespace Sys2Proof.Machine

/-! ### Armed operations (R115 to R118) -/

/-- A submission that an arm makes at this core (R117, R312): a fault is reported, a refusal written to the card's record. -/
def State.armSubmit (s : State) (a : Arm) : State :=
  let ctx := s.core.ctx.getD 0
  let role := a.role.num
  if a.opnd.toNat % 128 ≠ 0 then s.report ctx s.coreId role Cause.align.code a.opnd else
  match s.fetchFor s.cx s.coreId a.opnd 128 with
  | .error (c, ea) => (s.faultTraffic s.cx s.coreId c ea).report ctx s.coreId role c.code ea
  | .ok bs =>
    let s := s.costs s.cx s.coreId a.opnd 128 false
    let card := recordOf 1024 bs
    match s.submit ctx card with
    | (t, .ok _) => t
    | (t, .error code) =>
      let at_ := fldW card 768
      if at_ = 0 then t else
      let j : Job := { id := 0, ctx := ctx, die := 0, slot := 0, gen := 0, card := card, cores := [], left := 0, next := 0 }
      t.orReport ctx s.coreId role (t.putFor t.cx t.coreId at_ (completionBytes j 0 3 code t.cycle))

/-- What an arm's firing acquires: the releases at its counter, at the counter's default scope (R112, R117); those up to the
passing one, where the firing was held (R118). -/
def State.armPairs (s : State) (a : Arm) (slot : Nat) (l : Lag) (x : Meet) : Bool :=
  if a.held then x = .arm s.coreId s.core.ctx slot else s.pairs (counterScope s.coreId a.ctr) s.coreId a.ctr l x

/-- What an arm's firing acquired waits at its tag (R110), at its slot while the firing is held, or at the tasks of the job that
it submits. -/
def State.armCarry (s : State) (a : Arm) (slot : Nat) (at_ : Meet) : State :=
  s.mapLag (fun l => if l.meets.any (s.armPairs a slot l) then { l with meets := at_ :: l.meets } else l)

/-- What an arm does at its core when it fires (R117). -/
def State.fireArm (s : State) (a : Arm) (slot : Nat) : State :=
  let t := if a.kind = 3 then
      let t := s.armSubmit a
      if t.jobIds = s.jobIds then t else t.armCarry a slot (.launch s.jobIds)
    else
      let s := s.armCarry a slot (.tag s.coreId a.tag)
      if a.kind = 1 then
        match s.armPull a.opnd a.record a.tag with
        | some t => t
        | none => s.armLanded a.record a.tag 0xFFFFFFFF
      else s.setTag a.tag
  t.mapLag (fun l => { l with meets := l.meets.filter (· ≠ .arm s.coreId s.core.ctx slot) })

/-- The arm in a slot of a core, and the core with that slot changed. -/
def Core.arm (c : Core) (i : Nat) : Option Arm := (c.arms[i]?).join

def Core.setArm (c : Core) (i : Nat) (a : Option Arm) : Core := { c with arms := c.arms.setIfInBounds i a }

/-- An arm fires at its core: a job is submitted at once; another kind is held where the core does not run its context
(R118). -/
def State.fireSlot (s : State) (slot : Nat) (runs : Bool) : State :=
  match s.core.arm slot with
  | some a =>
    if runs ∨ a.kind = 3 then ({ s with core := s.core.setArm slot none }).fireArm a slot
    else
      let s := s.armCarry a slot (.arm s.coreId s.core.ctx slot)
      { s with core := s.core.setArm slot (some { a with held := true }) }
  | none => s

/-- One arm fires, at a core or at one that a context has saved. -/
def State.fireOne (s : State) (x : Nat × Nat × Option (BitVec 16)) : State :=
  match x with
  | (core, slot, some ctx) => s.onSaved ctx core (fun t => t.fireSlot slot false)
  | (core, slot, none) => s.onCore core (fun t => t.fireSlot slot t.live)

/-- The arms that the step has passed fire in order; an armed submission may pass others (R117). -/
def State.fireRounds (s : State) : Nat → State
  | 0 => s
  | fuel + 1 =>
    match s.firing with
    | [] => s
    | l => State.fireRounds (l.foldl State.fireOne { s with firing := [] }) fuel

def State.fireAll (s : State) : State := s.fireRounds 64

/-- An outcome with the arms fired that its step has passed. -/
def fired (o : Host.Outcome State Fault Refusal) : Host.Outcome State Fault Refusal :=
  match o with
  | .next t => .next t.fireAll
  | o => o

/-! ### Copy tags (R108 to R110) -/

/-- A companion core observes set tag bits: it acquires the effects of the commands whose retirements set them, and what an
armed tag set acquired (R110); no bit, nothing. -/
def State.acquireTags (s : State) (m : Word) : State :=
  let n := s.coreId
  if m = 0 then s else s.acquireMet (fun x => match x with | .tag c t => c = n && m.getLsbD t.toNat | _ => false)

/-- `tag.wait.any` and `tag.wait.all`: on their bits, once `ready`. -/
def tagWait (s : State) (d : SReg) (got : Word) (ready : Bool) : Host.Outcome State Fault Refusal :=
  companionOp s everyRole (if ready then .ok (((s.acquireTags got).wr d got).advance 4) else .error .wait)

def execTagWaitAny (d a : SReg) (s : State) : Host.Outcome State Fault Refusal :=
  tagWait s d (s.core.tags &&& s.rd a) (s.rd a = 0 || s.core.tags &&& s.rd a ≠ 0)

def execTagWaitAll (d a : SReg) (s : State) : Host.Outcome State Fault Refusal :=
  tagWait s d (s.core.tags &&& s.rd a) (s.core.tags &&& s.rd a = s.rd a)

def execTagFfr (d a : SReg) (s : State) : Host.Outcome State Fault Refusal :=
  companionOp s everyRole (
    let i := trailingZeros (s.core.tags &&& s.rd a)
    let bit : Word := if i < 64 then 1#64 <<< i else 0
    .ok ((((s.acquireTags bit).clearTags bit).wr d (BitVec.ofNat 64 i)).advance 4))

def execTagClr (a : SReg) (s : State) : Host.Outcome State Fault Refusal :=
  companionOp s everyRole (.ok ((s.clearTags (s.rd a)).advance 4))

/-! ### Counters (R111 to R114) -/

def State.cntArg (s : State) : CntArg → Word
  | .reg b => s.rd b
  | .imm n => n.setWidth 64

/-- The release of everything that the executing companion core performed or acquired earlier, at a scope, met at the counter
at `loc` (R112, R342). -/
def State.releaseCounter (s : State) (sc : Scope) (loc : Nat) : State := s.releaseAt s.cur sc 0 (.word loc sc s.coreId true)

/-- `cnt.add` on the counter at `va` (R114): the release at its scope, then one step in the counter's order, saturating. -/
def State.counterAdd (s : State) (va : Word) (v : Word) (sc : Option Scope) : Except Flt State := do
  if va.toNat % 8 ≠ 0 then .error (.align, va) else
  let loc ← s.locateRmw s.cx s.coreId va 8
  let s := s.ahead loc 8
  match s.badByte loc 8 with
  | some i => .error (.machine, va + BitVec.ofNat 64 i)
  | none =>
    let s := (s.drain s.cur (fun b => b.meets loc 8)).releaseCounter (sc.getD (counterScope s.coreId loc)) loc
    let s := ((s.dropEarly s.cur [(loc, 8)]).noteLost s.cur loc 8).pathStep s.ownWriter loc
      (leBytes 8 (min (s.mem.num loc 8 + v.toNat) (2 ^ 64 - 1)))
    .ok (s.traffic s.cx s.coreId va [(loc, 16)])

def execCntAdd (a : SReg) (v : CntArg) (sc : Option Scope) (s : State) : Host.Outcome State Fault Refusal :=
  fired (companionOp s everyRole (do
    let t ← liftFlt (s.counterAdd (s.rd a) (s.cntArg v) sc)
    .ok (t.advance 4)))

/-- The value of the counter at `va` as the executing companion core reads it, and the acquire at its scope (R114). -/
def State.counterRead (s : State) (va : Word) (sc : Option Scope) : Except Flt (State × Nat) := do
  if va.toNat % 8 ≠ 0 then .error (.align, va) else
  let loc ← s.locate va 8 false
  let (t, bs) ← s.load none va 8
  .ok (t.acquireAt (sc.getD (counterScope s.coreId loc)) (BitVec.allOnes 16) loc, leNat bs)

def execCntWait (a : SReg) (v : CntArg) (sc : Option Scope) (s : State) : Host.Outcome State Fault Refusal :=
  companionOp s everyRole (do
    let (t, n) ← liftFlt (s.counterRead (s.rd a) sc)
    if (s.cntArg v).toNat ≤ n then .ok (t.advance 4) else .error .wait)

def execCntRd (d a : SReg) (sc : Option Scope) (s : State) : Host.Outcome State Fault Refusal :=
  companionOp s everyRole (do
    let (t, n) ← liftFlt (s.counterRead (s.rd a) sc)
    .ok ((t.wr d (BitVec.ofNat 64 n)).advance 4))

/-- R116; of several free slots it takes the lowest (log entry 97). -/
def State.armCounter (s : State) (d : SReg) (va : Word) : Except Stop State := do
  if va.toNat % 32 ≠ 0 then .error (.trap .align va) else
  let (s, bs) ← s.lift (s.load (some 0) va 32)
  let r := recordOf 256 bs
  let ctr := fldW r 0
  let kind := fld r 192 8
  let opnd := fldW r 128
  if !(kind = 1 || kind = 2 || kind = 3) || 63 < fld r 200 8 || fld r 208 16 ≠ 0 || ctr.toNat % 8 ≠ 0
      || (kind = 2 && opnd ≠ 0) then .ok (s.wr d (statusWord 3 0)) else
  let loc ← s.lift (s.locate ctr 8 false)
  let (t, now) ← s.lift (s.load none ctr 8)
  match (List.range 16).find? (fun i => (s.core.arm i).isNone) with
  | none => .ok (s.wr d (statusWord 2 0))
  | some i =>
    let a : Arm := { ctr := loc, cva := ctr, record := va, thr := fldW r 64, kind := BitVec.ofNat 8 kind
                     tag := BitVec.ofNat 6 (fld r 200 8), opnd := opnd, seq := t.armSeq, job := t.jobHere, role := t.cur }
    if a.thr.toNat ≤ leNat now then .ok ((t.fireArm a i).wr d (statusWord 1 0))
    else .ok ({ t with core := t.core.setArm i (some a), armSeq := t.armSeq + 1 }.wr d (statusWord 0 i))

def execCntArm (d a : SReg) (s : State) : Host.Outcome State Fault Refusal :=
  fired (companionOp s everyRole (do
    let t ← s.armCounter d (s.rd a)
    .ok (t.advance 4)))

/-! ### The cluster barrier (R119, R120) -/

def State.barHere (s : State) : Bar := (lookupKey (clusterOf s.coreId) s.bars).getD {}

def State.setBar (s : State) (b : Bar) : State := { s with bars := setKey (clusterOf s.coreId) b s.bars }

/-- The masks that `bar` takes for this core in the open phase. -/
def State.barMaskOk (s : State) (a : Word) : Bool :=
  let b := s.barHere
  let i := s.coreId % 8
  let ctx := s.core.ctx.getD 0
  a.toNat < 256 && a ≠ 0
  && (List.range 8).all (fun k => !a.getLsbD k || s.coreGranted ctx (clusterOf s.coreId * 8 + k))
  && a.getLsbD i && !b.arrived.getLsbD i && (b.arrived = 0 || b.mask = a.setWidth 8)

/-- An arrival in the open phase: the last one closes it. -/
def Bar.arrive (b : Bar) (i : Nat) (m : BitVec 8) : Bar :=
  let mask := if b.arrived = 0 then m else b.mask
  let arrived := setBit b.arrived i true
  if arrived = mask then { g := b.g + 1, mask := mask, arrived := 0 } else { g := b.g, mask := mask, arrived := arrived }

def execBar (d a : SReg) (s : State) : Host.Outcome State Fault Refusal :=
  companionOp s everyRole (
    let m := s.rd a
    if !s.barMaskOk m then .ok ((s.wr d (BitVec.allOnes 64)).advance 4)
    else
      let g := s.barHere.g
      let t := s.releaseAt s.cur .cluster 0 (.bar (clusterOf s.coreId) g.toNat s.coreId)
      .ok (((t.setBar (t.barHere.arrive (t.coreId % 8) (m.setWidth 8))).wr d g).advance 4))

/-- `bar.wait` acquires the releases of every arrival in the phases up to its operand's (R120). -/
def State.acquireBar (s : State) (g : Nat) : State :=
  let c := clusterOf s.coreId
  (s.setMe (s.me.follow (BitVec.allOnes 16) (scopeHolds .cluster s.coreId))).takeIn s.cur (BitVec.allOnes 16) (fun l x => match x with
    | .bar k p _ => k = c && p ≤ g && scopeHolds .cluster s.coreId l.loc
    | _ => false)

def execBarWait (a : SReg) (s : State) : Host.Outcome State Fault Refusal :=
  companionOp s everyRole (if (s.rd a).toNat < s.barHere.g.toNat
    then .ok ((s.acquireBar (s.rd a).toNat).advance 4)
    else .error .wait)

end Sys2Proof.Machine
end

