-- ==== Sys2Proof/Machine/Atomic.lean ====
section
/-! DEFINITION. Fences, acquire loads, release stores and atomics (20_ordering). -/

namespace Sys2Proof.Machine

/-- Every combining-buffer entry of a selected class is sent (R272); its sending is `State.sendCombined`'s. -/
def maskNames (mask : BitVec 16) (c : BitVec 4) : Bool := mask.getLsbD c.toNat

/-- What an atomic's operation makes of the old value (R350); `d` is the value of dst before it. -/
def amoNew (op : BitVec 3) (old b d : Word) : Word :=
  match op.toNat with
  | 0 => old + b
  | 1 => old ||| b
  | 2 => old ^^^ b
  | 3 => if old.toInt ≤ b.toInt then old else b
  | 4 => if old.toInt ≤ b.toInt then b else old
  | 5 => b
  | 6 => if old = d then b else old
  | _ => old

/-- A deferred `.qnt` atomic performs (Table 20-6). Where its unit has become uncorrectable since it issued, it writes nothing and
MACHINE is posted (R69, log entry 73). -/
def State.performDeferred (s : State) (x : Deferred) : State :=
  match s.badByte x.loc 8 with
  | some i => s.post x.role ⟨.machine, x.va + BitVec.ofNat 64 i, .async⟩
  | none =>
    (((s.dropEarly x.role [(x.loc, 8)]).noteLost x.role x.loc 8).pathStep { holds := [{ core := s.coreId, role := x.role, names := clsBit x.cls }] } x.loc
      (leBytes 8 (amoNew x.op (BitVec.ofNat 64 (s.mem.num x.loc 8)) x.b 0).toNat)).spend s.cx (if isHbm x.loc then 16 else 0)

/-- The selected deferred atomics perform in order. -/
def State.performDeferreds (s : State) (sel : Deferred → Bool) : State :=
  let go := s.core.deferred.filter sel
  go.foldl State.performDeferred { s with core := { s.core with deferred := s.core.deferred.filter (fun x => !sel x) } }

/-- The operations that PCIe AtomicOps do not carry (R404). -/
def hostForbids (op : BitVec 3) : Bool := op = 1 || op = 2 || op = 3 || op = 4

/-- The state in which an atomic performs: the stores of its companion core that come before it have performed. With no use
suffix it releases at its scope, and with it or `.unp` the stores that its class follows go first (Table 20-6). -/
def State.beforeAtomic (s : State) (u : AmoUse) (op : BitVec 3) (sc : Scope) (c : BitVec 4) (loc : Nat) : State :=
  let s := if u ≠ .plain then s
    else if op = 7 then s.release s.cur sc (BufStore.released c)
    else s.releaseAt s.cur sc c (.word loc sc s.coreId false)
  let s := if u = .plain ∨ u = .unp then s.drain s.cur (fun b => b.names.getLsbD c.toNat) else s
  s.drain s.cur (fun b => b.meets loc 8)

/-- The write of an atomic: in its class's order with no use suffix or `.unp`, else after what a fence or an acquire has put before
its class alone (Table 20-6). -/
def State.amoWriter (s : State) (u : AmoUse) (c : BitVec 4) : Writer :=
  { holds := [{ core := s.coreId, role := s.cur, names := clsBit c }]
    after := if u = .plain ∨ u = .unp then s.orderedBefore s.cur c
      else s.upTo (fun l => (l.hold s.coreId s.cur).next.getLsbD c.toNat) }

/-- The step of an atomic at its location, which holds `old`: what its companion core has read ahead of it is returned no more
(R339), and the core holds the write that a returned value is of (R342). -/
def State.atomicStep (s : State) (u : AmoUse) (op : BitVec 3) (c : BitVec 4) (loc : Nat) (new : Word) : State :=
  let s := if u = .com ∨ u = .qnt then (s.dropEarly s.cur [(loc, 8)]).noteLost s.cur loc 8
    else s.afterRead (if u = .plain ∨ u = .unp then some c else none) loc 8
  if op = 7 then s else s.pathStep (s.amoWriter u c) loc (leBytes 8 new.toNat)

/-- R350: one step at the location's home. `op` is the code of minor[2:0]. -/
def State.atomic (s : State) (u : AmoUse) (op : BitVec 3) (sc : Scope) (c : BitVec 4) (d : SReg) (ea b : Word) :
    Except Flt State := do
  if ea.toNat % 8 ≠ 0 then .error (.align, ea) else
  let loc ← if op = 7 then s.locate ea 8 false else s.locateRmw s.cx s.coreId ea 8
  if isHost loc ∧ hostForbids op then .error (.prot, ea) else
  let s := s.ahead loc 8
  match s.badByte loc 8 with
  | some i => .error (.machine, ea + BitVec.ofNat 64 i)
  | none =>
    let s := s.beforeAtomic u op sc c loc
    let cost := [(loc, if op = 7 then 8 else 16)]
    if u = .qnt ∧ s.core.quant ≠ 0 then
      let due := s.cycle + BitVec.ofNat 64 (s.core.quant.toNat * 1000)
      .ok { s with core := { s.core with deferred := s.core.deferred ++ [⟨c, op, ea, loc, b, due, s.cur⟩] } }
    else
      match (if u = .spc then s.me.early.find? (Early.spc c loc) else none) with
      | some e => .ok (((s.loadEarly none e loc 8).traffic s.cx s.coreId ea cost).wr d (BitVec.ofNat 64 (leNat e.val)))
      | none =>
        let old := BitVec.ofNat 64 (s.mem.num loc 8)
        let t := s.atomicStep u op c loc (amoNew op old b (s.rd d))
        let t := (if u = .plain then t.acquireAt sc (clsMask c) loc else t).traffic s.cx s.coreId ea cost
        .ok (if u = .com ∨ u = .qnt then t else t.wr d old)

/-- The checks that R349 adds for a use and an operation. -/
def amoLegal (u : AmoUse) (op : BitVec 3) (d : SReg) : Bool :=
  (u ≠ .spc || op = 7) && (!(u = .com || u = .qnt) || (op.toNat < 5 && d = 0))

def amoOp (s : State) (u : AmoUse) (op : BitVec 3) (sc : Scope) (c : BitVec 4) (d a : SReg) (b : Word) (imm : BitVec 17) :
    Host.Outcome State Fault Refusal :=
  fired (companionOp s everyRole (
    if !amoLegal u op d then .error (.trap .illegal 0) else
    match s.atomic u op sc c d (s.rd a + imm.signExtend 64) b with
    | .ok t => .ok (t.advance 8)
    | .error (cause, ea) =>
      if u = .spc ∧ (cause = .xlate ∨ cause = .prot) then .ok ((s.wr d (BitVec.allOnes 64)).advance 8)
      else .error (.trap cause ea)))

def execAmoAdd (u : AmoUse) (sc : Scope) (c : BitVec 4) (d a b : SReg) (imm : BitVec 17) (s : State) :
    Host.Outcome State Fault Refusal := amoOp s u 0 sc c d a (s.rd b) imm
def execAmoOr (u : AmoUse) (sc : Scope) (c : BitVec 4) (d a b : SReg) (imm : BitVec 17) (s : State) :
    Host.Outcome State Fault Refusal := amoOp s u 1 sc c d a (s.rd b) imm
def execAmoXor (u : AmoUse) (sc : Scope) (c : BitVec 4) (d a b : SReg) (imm : BitVec 17) (s : State) :
    Host.Outcome State Fault Refusal := amoOp s u 2 sc c d a (s.rd b) imm
def execAmoMin (u : AmoUse) (sc : Scope) (c : BitVec 4) (d a b : SReg) (imm : BitVec 17) (s : State) :
    Host.Outcome State Fault Refusal := amoOp s u 3 sc c d a (s.rd b) imm
def execAmoMax (u : AmoUse) (sc : Scope) (c : BitVec 4) (d a b : SReg) (imm : BitVec 17) (s : State) :
    Host.Outcome State Fault Refusal := amoOp s u 4 sc c d a (s.rd b) imm
def execAmoSwap (u : AmoUse) (sc : Scope) (c : BitVec 4) (d a b : SReg) (imm : BitVec 17) (s : State) :
    Host.Outcome State Fault Refusal := amoOp s u 5 sc c d a (s.rd b) imm
def execAmoCas (u : AmoUse) (sc : Scope) (c : BitVec 4) (d a b : SReg) (imm : BitVec 17) (s : State) :
    Host.Outcome State Fault Refusal := amoOp s u 6 sc c d a (s.rd b) imm
def execAmoLd (u : AmoUse) (sc : Scope) (c : BitVec 4) (d a : SReg) (imm : BitVec 17) (s : State) :
    Host.Outcome State Fault Refusal := amoOp s u 7 sc c d a 0 imm

/-- R348: the load in its class's order, then the acquire. -/
def execLdAcq (sc : Scope) (c : BitVec 4) (d a b : SReg) (imm : BitVec 17) (s : State) : Host.Outcome State Fault Refusal :=
  fired (companionOp s everyRole (
    let ea := s.ea64 a b imm
    if ea.toNat % 8 ≠ 0 then .error (.trap .align ea) else do
    let loc ← liftFlt (s.locate ea 8 false)
    let (t, bs) ← liftFlt (s.load (some c) ea 8)
    .ok (((t.acquireAt sc (clsMask c) loc).wr d (BitVec.ofNat 64 (leNat bs))).advance 8)))

/-- What the release of an `st.rel` covers waits until its store performs: its number among the stores of its companion core. -/
def State.relMeet (s : State) (sc : Scope) (c : BitVec 4) (id : Nat) : State :=
  s.letGo s.cur (clsMask c) (fun l => scopeHolds sc s.coreId l.loc) (.unsent s.coreId s.cur id)

/-- R348: the release at its scope, of the stores that class `c` follows, then the store in its class's order. -/
def execStRel (sc : Scope) (c : BitVec 4) (v a b : SReg) (imm : BitVec 17) (s : State) : Host.Outcome State Fault Refusal :=
  fired (companionOp s everyRole (
    let ea := s.ea64 a b imm
    if ea.toNat % 8 ≠ 0 then .error (.trap .align ea) else do
    let u := s.release s.cur sc (BufStore.released c)
    let t ← liftFlt (u.store c ea (leBytes 8 (s.rd v).toNat) (some sc))
    .ok ((t.relMeet sc c u.me.stores).advance 8)))

/-- A deferred atomic's time comes (R350). -/
def execQntDeferExpiry (s : State) : Host.Outcome State Fault Refusal :=
  fired (.next (s.performDeferreds (fun x => x.due.toNat ≤ s.cycle.toNat)))

end Sys2Proof.Machine
end

