-- ==== Sys2Proof/Machine/Arith.lean ====
section
/-! DEFINITION. Number formats and exact arithmetic: element encodings (R175, R176), rounding, overflow, saturation and
canonical NaNs (R188 to R191), the stochastic draw (R192, R193), and the functions that R225, R226 and R243 round. -/

namespace Sys2Proof.Machine

/-! ### Exact values -/

/-- The exact value of a floating code, or of an exact operation on such values: a magnitude `n * 2^e` with a sign. -/
inductive Num
  | nan
  | inf (neg : Bool)
  | fin (neg : Bool) (n : Nat) (e : Int)
  deriving DecidableEq, Repr

/-- A real dyadic value: `m * 2^e`. -/
abbrev Dy := Int × Int

/-- The numerator of `x` at an exponent not above its own. -/
def Dy.at (x : Dy) (e : Int) : Int := x.1 * 2 ^ (x.2 - e).toNat

def Dy.add (x y : Dy) : Dy := let e := min x.2 y.2; (Dy.at x e + Dy.at y e, e)
def Dy.mul (x y : Dy) : Dy := (x.1 * y.1, x.2 + y.2)
def Dy.neg (x : Dy) : Dy := (-x.1, x.2)
def Dy.lt (x y : Dy) : Bool := let e := min x.2 y.2; decide (Dy.at x e < Dy.at y e)

/-- A value with the sign of a zero forgotten; `none` for a NaN or an infinity. -/
def Num.dy : Num → Option Dy
  | .fin neg n e => some (if neg then -(n : Int) else n, e)
  | _ => none

/-- A real value; an exact zero is +0 (log entry 40). -/
def Num.ofDy (x : Dy) : Num := .fin (decide (x.1 < 0)) x.1.natAbs x.2

def Num.isNan : Num → Bool | .nan => true | _ => false

def Num.neg : Num → Num
  | .nan => .nan | .inf s => .inf (!s) | .fin s n e => .fin (!s) n e

def Num.abs : Num → Num
  | .nan => .nan | .inf _ => .inf false | .fin _ n e => .fin false n e

/-- An exact sum. A zero from opposite signs is -0 under RDN only (R188). -/
def Num.add (m : Rnd) : Num → Num → Num
  | .nan, _ | _, .nan => .nan
  | .inf s, .inf t => if s = t then .inf s else .nan
  | .inf s, _ | _, .inf s => .inf s
  | .fin s n e, .fin t k f =>
    let g := min e f
    let x : Int := (if s then -(n : Int) else n) * 2 ^ (e - g).toNat + (if t then -(k : Int) else k) * 2 ^ (f - g).toNat
    if x = 0 then .fin (if n = 0 ∧ k = 0 ∧ s = t then s else decide (m = .rdn)) 0 0
    else .fin (decide (x < 0)) x.natAbs g

def Num.mul : Num → Num → Num
  | .nan, _ | _, .nan => .nan
  | .inf s, .inf t => .inf (s != t)
  | .inf s, .fin t n _ | .fin t n _, .inf s => if n = 0 then .nan else .inf (s != t)
  | .fin s n e, .fin t k f => .fin (s != t) (n * k) (e + f)

/-- The magnitude `q * 2^e` with a last bit that says whether more follows. -/
def sticky (neg : Bool) (q : Nat) (more : Bool) (e : Int) : Num := .fin neg (2 * q + (if more then 1 else 0)) (e - 1)

/-- A quotient to more than 96 bits, with what follows them marked (R223). -/
def Num.div : Num → Num → Num
  | .nan, _ | _, .nan => .nan
  | .inf _, .inf _ => .nan
  | .inf s, .fin t _ _ => .inf (s != t)
  | .fin s _ _, .inf t => .fin (s != t) 0 0
  | .fin s n e, .fin t k f =>
    if k = 0 then (if n = 0 then .nan else .inf (s != t)) else
    let h : Nat := 96 + Nat.log2 k
    sticky (s != t) (n * 2 ^ h / k) (n * 2 ^ h % k ≠ 0) (e - f - h)

/-- The integer square root, bit by bit. -/
def isqrtGo (n : Nat) : Nat → Nat → Nat
  | 0, r => r
  | i + 1, r => if (r + 2 ^ i) * (r + 2 ^ i) ≤ n then isqrtGo n i (r + 2 ^ i) else isqrtGo n i r

def isqrt (n : Nat) : Nat := isqrtGo n (Nat.log2 n / 2 + 1) 0

/-- R225. -/
def Num.sqrt : Num → Num
  | .nan => .nan
  | .inf s => if s then .nan else .inf false
  | .fin s n e =>
    if n = 0 then .fin s 0 0 else if s then .nan else
    let h : Nat := 200 + (if e % 2 = 0 then 0 else 1)
    let x := n * 2 ^ h
    let r := isqrt x
    sticky false r (r * r ≠ x) ((e - h) / 2)

/-! ### Floating formats (R175) -/

/-- Which codes are special (Table 10-2). -/
inductive Special | ieee | nanOnly | none
  deriving DecidableEq, Repr

structure FFmt where
  ebits : Nat
  mbits : Nat
  bias  : Nat
  sp    : Special
  deriving DecidableEq, Repr

def f32F : FFmt := ⟨8, 23, 127, .ieee⟩
def bf16F : FFmt := ⟨8, 7, 127, .ieee⟩
def fp16F : FFmt := ⟨5, 10, 15, .ieee⟩
def e4m3F : FFmt := ⟨4, 3, 7, .nanOnly⟩
def e5m2F : FFmt := ⟨5, 2, 15, .ieee⟩
def e3m2F : FFmt := ⟨3, 2, 3, .none⟩
def e2m3F : FFmt := ⟨2, 3, 1, .none⟩
def e2m1F : FFmt := ⟨2, 1, 1, .none⟩

def FFmt.width (f : FFmt) : Nat := f.ebits + f.mbits + 1

def FFmt.isNan (f : FFmt) (c : Nat) : Bool :=
  let e := bits c f.mbits f.ebits
  let m := bits c 0 f.mbits
  match f.sp with
  | .ieee => e = 2 ^ f.ebits - 1 && m ≠ 0
  | .nanOnly => e = 2 ^ f.ebits - 1 && m = 2 ^ f.mbits - 1
  | .none => false

def FFmt.neg (f : FFmt) (c : Nat) : Bool := c.testBit (f.ebits + f.mbits)

/-- The exact value of a code. -/
def FFmt.value (f : FFmt) (c : Nat) : Num :=
  let s := f.neg c
  let e := bits c f.mbits f.ebits
  let m := bits c 0 f.mbits
  if f.isNan c then .nan
  else if f.sp = .ieee ∧ e = 2 ^ f.ebits - 1 then .inf s
  else if e = 0 then .fin s m (1 - (f.bias : Int) - f.mbits)
  else .fin s (2 ^ f.mbits + m) ((e : Int) - f.bias - f.mbits)

/-- The code of the greatest finite magnitude. -/
def FFmt.maxCode (f : FFmt) : Nat :=
  match f.sp with
  | .ieee => 2 ^ (f.ebits + f.mbits) - 2 ^ f.mbits - 1
  | .nanOnly => 2 ^ (f.ebits + f.mbits) - 2
  | .none => 2 ^ (f.ebits + f.mbits) - 1

/-- The canonical NaN (R191). -/
def FFmt.canon (f : FFmt) : Nat :=
  match f.sp with
  | .ieee => f.maxCode + 1 + 2 ^ (f.mbits - 1)
  | _ => 2 ^ (f.ebits + f.mbits) - 1

def FFmt.signed (f : FFmt) (neg : Bool) (c : Nat) : Nat := if neg then c + 2 ^ (f.ebits + f.mbits) else c

/-- An infinity, where the format has one (R189). -/
def FFmt.infCode (f : FFmt) (neg : Bool) : Nat :=
  if f.sp = .ieee then f.signed neg (f.maxCode + 1) else f.canon

/-! ### Rounding (R188 to R191, R193) -/

/-- `n * 2^e` in units of `2^g`: quotient, remainder and the bits of the remainder. -/
def inUnits (n : Nat) (e g : Int) : Nat × Nat × Nat :=
  if g ≤ e then (n * 2 ^ (e - g).toNat, 0, 0)
  else (n / 2 ^ (g - e).toNat, n % 2 ^ (g - e).toNat, (g - e).toNat)

/-- Whether the magnitude `q` with remainder `r` of `h` bits rounds away from zero. `draw` counts under STOCH. -/
def roundsUp (m : Rnd) (neg : Bool) (q r h draw : Nat) : Bool :=
  match m with
  | .rne => decide (2 ^ h < 2 * r) || (decide (2 * r = 2 ^ h) && decide (r ≠ 0) && decide (q % 2 = 1))
  | .rtz => false
  | .rup => decide (r ≠ 0) && !neg
  | .rdn => decide (r ≠ 0) && neg
  | .rna => decide (r ≠ 0) && decide (2 ^ h ≤ 2 * r)
  | .stoch =>
    if r = 0 then false
    else if neg then !decide (draw < (2 ^ h - r) * 2 ^ 24 / 2 ^ h)
    else decide (draw < r * 2 ^ 24 / 2 ^ h)

/-- An overflow (R189, R190). -/
def FFmt.over (f : FFmt) (m : Rnd) (sat neg : Bool) : Nat :=
  if sat then f.signed neg f.maxCode else
  match m with
  | .rne | .rna | .stoch => f.infCode neg
  | .rtz => f.signed neg f.maxCode
  | .rup => if neg then f.signed neg f.maxCode else f.infCode neg
  | .rdn => if neg then f.infCode neg else f.signed neg f.maxCode

/-- An exact value rounded once to a format. -/
def FFmt.round (f : FFmt) (m : Rnd) (sat : Bool) (draw : Nat) : Num → Nat
  | .nan => f.canon
  | .inf s => if sat then f.signed s f.maxCode else f.infCode s
  | .fin s n e =>
    if n = 0 then f.signed s 0 else
    let g := max ((Nat.log2 n : Int) + e) (1 - (f.bias : Int)) - f.mbits
    let (q, r, h) := inUnits n e g
    let q := if roundsUp m s q r h draw then q + 1 else q
    let c := (g + f.mbits + f.bias - 1).toNat * 2 ^ f.mbits + q
    if f.maxCode < c then f.over m sat s else f.signed s c

/-- `rne(x, f)` (R8). -/
def FFmt.rne (f : FFmt) (x : Num) : Nat := f.round .rne false 0 x

/-- A draw: the generator state after it, and the 24 bits (R193). -/
def drawStep (x : Word) : Word × Nat :=
  let x := x ^^^ (x <<< 13)
  let x := x ^^^ (x >>> 7)
  let x := x ^^^ (x <<< 17)
  (x, bits x.toNat 40 24)

/-- A draw where the mode takes one. -/
def drawFor (m : Rnd) (g : Word) : Word × Nat := if m = .stoch then drawStep g else (g, 0)

/-- A narrowing with its draw. -/
def FFmt.narrow (f : FFmt) (m : Rnd) (sat : Bool) (g : Word) (x : Num) : Word × Nat :=
  let (g', d) := drawFor m g
  (g', f.round m sat d x)

/-- The integer that a mode rounds a finite value to. -/
def Num.toInt (m : Rnd) (draw : Nat) : Num → Int
  | .fin s n e =>
    let (q, r, h) := inUnits n e 0
    let q : Int := if roundsUp m s q r h draw then q + 1 else q
    if s then -q else q
  | _ => 0

/-! ### Integer types (R176, R190) -/

def intMin (w : Nat) (signed : Bool) : Int := if signed then -(2 ^ (8 * w - 1)) else 0
def intMax (w : Nat) (signed : Bool) : Int := if signed then 2 ^ (8 * w - 1) - 1 else 2 ^ (8 * w) - 1

/-- The code of an exact integer: wrapped, or clamped to the type's range. -/
def intCode (w : Nat) (signed clamp : Bool) (x : Int) : Nat :=
  let x := if clamp then max (intMin w signed) (min (intMax w signed) x) else x
  (x % 2 ^ (8 * w)).toNat

def intValue (w : Nat) (signed : Bool) (c : Nat) : Int := if signed then sextInt (8 * w) c else c

/-- A real value converted to an integer type (R190). -/
def Num.convert (w : Nat) (signed : Bool) (m : Rnd) (draw : Nat) (x : Num) : Nat :=
  match x with
  | .nan => 0
  | .inf s => intCode w signed true (if s then intMin w signed else intMax w signed)
  | _ => intCode w signed true (x.toInt m draw)

/-! ### The functions of R226, to 256 bits and more, with what follows marked (log entry 41) -/

/-- floor(π * 2^320) and floor(ln 2 * 2^320). -/
def piBits : Nat := 0x3243f6a8885a308d313198a2e03707344a4093822299f31d0082efa98ec4e6c89452821e638d01377
def ln2Bits : Nat := 0xb17217f7d1cf79abc9e3b39803f2f6af40f343267298b62d8a0d175b8baafa2be7b876206debac98

/-- The exponential series at `y` of 256 fraction bits: `n` terms from the `i`-th, the term and the sum so far. -/
def expSeries (y : Nat) : Nat → Nat → Nat → Nat → Nat
  | 0, _, _, sum => sum
  | n + 1, i, term, sum => expSeries y n (i + 1) (term * y / 2 ^ 256 / (i + 1)) (sum + term)

/-- 2^x, to be rounded by RNE. -/
def Num.exp2 : Num → Num
  | .nan => .nan
  | .inf s => if s then .fin false 0 0 else .inf false
  | .fin s n e =>
    if n = 0 then .fin false 1 0
    else if 9 ≤ (Nat.log2 n : Int) + e then (if s then .fin false 1 (-400) else .inf false)
    else
      let x : Int := (if s then -(n : Int) else n) * 2 ^ (e + 256).toNat
      let k := x / 2 ^ 256
      let f := (x % 2 ^ 256).toNat
      if f = 0 then .fin false 1 k
      else sticky false (expSeries (f * ln2Bits / 2 ^ 320) 70 0 (2 ^ 256) 0) true (k - 256)

/-- The series of atanh at `z` of 320 fraction bits, with z squared `y`. -/
def atanhSeries (y : Nat) : Nat → Nat → Nat → Nat → Nat
  | 0, _, _, sum => sum
  | n + 1, i, z, sum => atanhSeries y n (i + 2) (z * y / 2 ^ 320) (sum + z / i)

/-- log2 of a value. -/
def Num.log2 : Num → Num
  | .nan => .nan
  | .inf s => if s then .nan else .inf false
  | .fin s n e =>
    if n = 0 then .inf true else if s then .nan else
    let l := Nat.log2 n
    let k : Int := l + e
    if n = 2 ^ l then .fin (decide (k < 0)) k.natAbs 0
    else
      let z := (n - 2 ^ l) * 2 ^ 320 / (n + 2 ^ l)
      let ln := 2 * atanhSeries (z * z / 2 ^ 320) 110 1 z 0
      let r : Int := k * 2 ^ 320 + (ln * 2 ^ 320 / ln2Bits : Nat)
      if r < 0 then sticky true (r.natAbs - 1) true (-320) else sticky false r.natAbs true (-320)

/-- The reciprocal square root. -/
def Num.rsqrt : Num → Num
  | .nan => .nan
  | .inf s => if s then .nan else .fin false 0 0
  | .fin s n e =>
    if n = 0 then .inf s else if s then .nan else
    let (n, e) := if e % 2 = 0 then (n, e) else (2 * n, e - 1)
    let r := isqrt (2 ^ 400 / n)
    sticky false r (r * r * n ≠ 2 ^ 400) (-200 - e / 2)

def Num.rcp (x : Num) : Num := Num.div (.fin false 1 0) x

/-! ### The rotary unit (R243) -/

/-- The alternating series of sine and cosine at `y` (squared, 256 fraction bits): positive and negative sums. -/
def trigSeries (y : Nat) : Nat → Nat → Nat → Int → Int
  | 0, _, _, sum => sum
  | n + 1, i, term, sum =>
    trigSeries y n (i + 2) (term * y / 2 ^ 256 / ((i + 1) * (i + 2)))
      (if i / 2 % 2 = 0 then sum + term else sum - term)

/-- cos and sin of `π r / 512` for `0 ≤ r < 256`, to 256 fraction bits. -/
def quarter (r : Nat) : Nat × Nat :=
  let a := piBits * r / 512 / 2 ^ 64
  let y := a * a / 2 ^ 256
  ((trigSeries y 40 0 (2 ^ 256) 0).toNat, (trigSeries y 40 1 a 0).toNat)

/-- Ck and Sk as FP32 codes. -/
def turnTable (k : Nat) : Nat × Nat :=
  let r := k % 256
  let (c, s) : Nat × Nat := if r = 0 then (0x3F800000, 0) else
    let (c, s) := quarter r
    (f32F.rne (sticky false c true (-256)), f32F.rne (sticky false s true (-256)))
  let flip (x : Nat) : Nat := if x = 0 then 0 else x + 2 ^ 31
  match k / 256 % 4 with
  | 0 => (c, s)
  | 1 => (flip s, c)
  | 2 => (flip c, flip s)
  | _ => (s, flip c)

def f32Dy (c : Nat) : Dy := ((f32F.value c).dy).getD (0, 0)

/-- A dyadic value divided by 6, with what follows marked. -/
def sixth (x : Dy) : Num :=
  let n := x.1.natAbs * 2 ^ 400
  sticky (decide (x.1 < 0)) (n / 6) (n % 6 ≠ 0) (x.2 - 400)

/-- c and s for an angle in 0.64 turns, as FP32 codes. -/
def rotor (phi : Word) : Nat × Nat :=
  let k := bits phi.toNat 54 10
  let d := bits phi.toNat 0 54
  let (ck, sk) := turnTable k
  let e := if d = 0 then 0 else f32F.rne (sticky false (d * piBits) true (-383))
  let ed := f32Dy e
  let cd := f32Dy ck
  let sd := f32Dy sk
  let e2 := Dy.mul ed ed
  let a := Dy.add (6, 0) (Dy.mul (-3, 0) e2)
  let b := Dy.add (Dy.mul (6, 0) ed) (Dy.neg (Dy.mul ed e2))
  let zeroFix (x : Dy) : Nat := if x.1 = 0 then 0 else f32F.rne (sixth x)
  (zeroFix (Dy.add (Dy.mul cd a) (Dy.neg (Dy.mul sd b))), zeroFix (Dy.add (Dy.mul sd a) (Dy.mul cd b)))

/-- The sum of two exact products: an exact zero is -0 only when both are. -/
def rotSum (p q : Num) : Num := Num.add .rne p q

/-- A pair rotated by c and s, before its rounding: NaN in both for a NaN or an infinity in either. -/
def rotPair (x y : Num) (cs : Nat × Nat) : Num × Num :=
  match x, y with
  | .fin .., .fin .. =>
    let c := f32F.value cs.1
    let s := f32F.value cs.2
    (rotSum (x.mul c) (y.mul s).neg, rotSum (x.mul s) (y.mul c))
  | _, _ => (.nan, .nan)

end Sys2Proof.Machine
end

