-- ==== Sys2Proof/Machine/Operands.lean ====
section
/-! DEFINITION. Operand forms of the engines: register-space elements and groups (R152 to R155), views (R157 to R159), tile
rows and accumulator rows (R158, R179 to R186, R205). -/

namespace Sys2Proof

def ElemType.width : ElemType → Nat
  | .i8 | .ui8 | .e4m3 | .e5m2 => 1
  | .i16 | .ui16 | .f16 | .bf16 => 2
  | .i32 | .ui32 | .f32 => 4

def ElemType.signed : ElemType → Bool
  | .i8 | .i16 | .i32 => true
  | _ => false

/-- The format of a floating element type. -/
def ElemType.ffmt : ElemType → Option Machine.FFmt
  | .f16 => some Machine.fp16F | .bf16 => some Machine.bf16F | .f32 => some Machine.f32F
  | .e4m3 => some Machine.e4m3F | .e5m2 => some Machine.e5m2F
  | _ => none

def ElemType.isFloat (t : ElemType) : Bool := t.ffmt.isSome

/-- Bytes of an element (R154). -/
def EWidth.bytes (w : EWidth) : Nat := 2 ^ w.code

end Sys2Proof

namespace Sys2Proof.Machine

/-! ### Register space -/

/-- The location of a register-space byte, for ECC. -/
def locRs (core off : Nat) : Nat := 2 ^ 60 + core * 2 ^ 20 + off

/-- The address of element `i` of width `w` of the group at `v` (R152). -/
def elemAddr (v w i : Nat) : Nat := v * 1536 + i * w

def Core.elem (c : Core) (v w i : Nat) : Nat := c.rs.num (elemAddr v w i) w

def Core.elems (c : Core) (v w n : Nat) : List Nat := (List.range n).map (c.elem v w)

/-- The first uncorrectable byte among what an engine reads: address and length of each part (R103, R220). -/
def State.rsBad (s : State) (rs : List (Nat × Nat)) : Option Flt :=
  rs.findSome? (fun x => (s.badByte (locRs s.coreId x.1) x.2).map (fun i => (.machine, BitVec.ofNat 64 (x.1 + i))))

/-- Writes of an engine to register space: made, or none of them where one would cover an uncorrectable unit in part: EADDR is
then the unit's first byte (R103, R220, log entry 104). -/
def State.rsStore (s : State) (ws : List (Nat × List Byte)) : Except Flt State :=
  let at_ (u : Nat) : Nat := (ws.map (fun w : Nat × List Byte => ((List.range w.2.length).filter (fun i => (w.1 + i) / 8 = u / 8)).length)).sum
  let bad := if s.poison.isEmpty then none else
    (s.poison.filter (fun u => locRs s.coreId 0 ≤ u && u < locRs s.coreId 786432)).find? (fun u =>
      let n := at_ (u - locRs s.coreId 0)
      0 < n && n < 8)
  match bad with
  | some u => .error (.machine, BitVec.ofNat 64 (u - locRs s.coreId 0))
  | none =>
    .ok { s with
      core := { s.core with rs := ws.foldl (fun m w => m.writeN w.1 w.2) s.core.rs }
      poison := if s.poison.isEmpty then [] else s.poison.filter (fun u => at_ (u - locRs s.coreId 0) = 0 || u < locRs s.coreId 0) }

/-! ### Lanes: what a vector command captured at issue (R155, R219) -/

structure Lanes where
  vl    : Nat
  max   : Nat
  ew    : Nat
  tail  : Bool
  zero  : Bool
  mask  : Option (BitVec 3072)

/-- The lanes of a command: its issue has captured which k register masks it, and the register's bits are read at each execution
(R165, log entry 96). -/
def Lanes.of (c : Cmd) (k : Core) : Lanes :=
  let v := c.vcfg
  { vl := v.vl.toNat, max := vlmax v.ew v.grp, ew := v.ew.bytes, tail := c.pfx.tail.getD v.tail
    zero := c.pfx.mpol.getD v.mask, mask := c.pfx.mask.map (fun m => (k.k[m.toNat]?).getD 0) }

def Lanes.active (l : Lanes) (i : Nat) : Bool :=
  i < l.vl && (match l.mask with | some m => m.getLsbD i | none => true)

/-- What a command does with one element of its destination. -/
inductive Lane | keep | inactive | put (code : Nat)
  deriving DecidableEq, Repr

/-- The writes of a destination group from its lanes below vl: inactive and tail elements by their policies; nothing when
vl is 0. `tailFrom` is where the tail begins. -/
def Lanes.writes (l : Lanes) (v w : Nat) (lanes : List Lane) (tailFrom : Nat) : List (Nat × List Byte) :=
  if l.vl = 0 then [] else
  ((lanes.zip (List.range lanes.length)).filterMap (fun x : Lane × Nat =>
    match x.1 with
    | .keep => none
    | .inactive => if l.zero then some (elemAddr v w x.2, zeros w) else none
    | .put c => some (elemAddr v w x.2, leBytes w c)))
  ++ (if l.tail then (List.range (l.max - tailFrom)).map (fun j => (elemAddr v w (tailFrom + j), zeros w)) else [])

/-- The issue check of a group operand (R165, R222): aligned to its size and within v511. -/
def groupOk (v : VReg) (g : Nat) : Bool := v.toNat % g = 0 && v.toNat + g ≤ 512

/-! ### Views (R157 to R159) -/

structure View where
  kind : Nat
  fmt  : Nat
  rows : Nat
  cols : Nat
  pitch : Nat
  base : Nat
  deriving DecidableEq, Repr

def View.ofWord (w : Word) : View :=
  { kind := fld w 62 2, fmt := fld w 57 5, rows := fld w 48 9 + 1, cols := fld w 36 12 + 1, pitch := fld w 20 16
    base := fld w 0 20 }

def ceil8 (n : Nat) : Nat := (n + 7) / 8 * 8

/-- The row unit and the element, metadata and scale parts of a tile row of `c` columns (Table 10-3). -/
def tileParts (fmt c : Nat) : Nat × Nat × Nat × Nat :=
  match fmt with
  | 0 | 1 => (1, ceil8 (2 * c), 0, 0)
  | 2 | 3 | 13 | 14 => (1, ceil8 c, 0, 0)
  | 4 | 5 => (4, ceil8 (3 * c / 4), 0, 0)
  | 6 | 15 | 16 => (2, ceil8 (c / 2), 0, 0)
  | 7 | 8 | 12 => (32, ceil8 c, 0, ceil8 (c / 32))
  | 9 | 10 => (32, ceil8 (3 * c / 4), 0, ceil8 (c / 32))
  | 11 => (32, ceil8 (c / 2), 0, ceil8 (c / 32))
  | 17 => (16, ceil8 (c / 2), 0, ceil8 (c / 16))
  | 18 => (64, ceil8 c, 0, ceil8 (c / 32))
  | 19 => (64, ceil8 (c / 2), 0, ceil8 (c / 32))
  | 20 => (32, ceil8 (c / 4), 0, ceil8 (c / 32))
  | 21 | 22 => (64, ceil8 (c / 4), 0, ceil8 (c / 32))
  | 23 => (1, 8 * c, 0, 0)
  | 24 => (4, ceil8 (c / 2), ceil8 ((c + 7) / 8), 0)
  | 25 => (4, ceil8 (c / 4), ceil8 ((c + 7) / 8), 0)
  | 26 => (4, ceil8 c, ceil8 ((c + 7) / 8), 0)
  | 27 => (32, ceil8 (c / 2), ceil8 (c / 8), ceil8 (c / 32))
  | _ => (1, 0, 0, 0)

def View.elemType (v : View) : ElemType := (ElemType.ofCode v.fmt).getD .ui8

/-- The bytes of a row (R158). -/
def View.rowBytes (v : View) : Nat :=
  match v.kind with
  | 1 => (tileParts v.fmt v.cols).2.1 + (tileParts v.fmt v.cols).2.2.1 + (tileParts v.fmt v.cols).2.2.2
  | 2 => 8 * v.cols + 8
  | 3 => v.cols * v.elemType.width
  | _ => 0

/-- R159: the cause that refuses a descriptor. -/
def viewFault (w : Word) : Option Cause :=
  let v := View.ofWord w
  if (v.kind = 0 && w ≠ 0) || (v.kind = 2 && v.fmt ≠ 0) || (v.kind = 3 && 11 ≤ v.fmt) || v.base % 8 ≠ 0 then some .illegal
  else if v.kind = 1 ∧ 28 ≤ v.fmt then some .fmt
  else if (1 < v.rows && v.pitch * 8 < v.rowBytes) || 786432 < v.base + (v.rows - 1) * v.pitch * 8 + v.rowBytes
      || (v.kind = 1 && v.cols % (tileParts v.fmt v.cols).1 ≠ 0) then some .illegal
  else none

def View.rowAddr (v : View) (r : Nat) : Nat := v.base + r * v.pitch * 8

/-- What a command reads of a view, row by row. -/
def View.spans (v : View) : List (Nat × Nat) := (List.range v.rows).map (fun r => (v.rowAddr r, v.rowBytes))

/-- A row as one little-endian number. -/
def Core.row (c : Core) (v : View) (r : Nat) : Nat := c.rs.num (v.rowAddr r) v.rowBytes

/-- Element (r, j) of a vector view. -/
def Core.velem (c : Core) (v : View) (r j : Nat) : Nat := c.rs.num (v.rowAddr r + j * v.elemType.width) v.elemType.width

/-! ### Tile rows (R174 to R186) -/

/-- Bits of an element of the element part (Table 10-1, Table 10-3). -/
def elemBits (fmt : Nat) : Nat :=
  match fmt with
  | 0 | 1 | 20 | 21 | 26 => 16
  | 2 | 3 | 7 | 8 | 12 | 13 | 14 | 18 | 24 | 27 => 8
  | 4 | 5 | 9 | 10 => 6
  | 6 | 11 | 15 | 16 | 17 | 19 | 25 => 4
  | 22 => 2
  | _ => 64

/-- The floating format of an operand format's elements. -/
def elemFmt (fmt : Nat) : Option FFmt :=
  match fmt with
  | 0 | 26 => some bf16F
  | 1 => some fp16F
  | 2 | 7 | 24 | 27 => some e4m3F
  | 3 | 8 => some e5m2F
  | 4 | 9 => some e3m2F
  | 5 | 10 => some e2m3F
  | 6 | 11 | 17 | 25 => some e2m1F
  | _ => none

/-- The exact value of an element code before its scales; `none` is NaN-class (R175 to R178, R183). -/
def elemValue (fmt c : Nat) : Option Dy :=
  match elemFmt fmt with
  | some f => (f.value c).dy
  | none =>
    match fmt with
    | 12 => some (sextInt 8 c, -6)
    | 13 | 18 => some (sextInt 8 c, 0)
    | 15 | 19 => some (sextInt 4 c, 0)
    | 22 => some (if c = 1 then 1 else if c = 3 then -1 else 0, 0)
    | _ => some (c, 0)

/-- The power of two of a BF16 or FP16 element (R207). -/
def elemPower (fmt c : Nat) : Option Int :=
  match fmt with
  | 0 | 26 => some (max (bits c 7 8) 1 - 127)
  | 1 => some (max (bits c 10 5) 1 - 15)
  | _ => none

/-- Elements of a block, and bytes of its scale; 0 for a format without block scales. -/
def blockLen (fmt : Nat) : Nat :=
  match fmt with
  | 7 | 8 | 9 | 10 | 11 | 12 | 20 | 27 => 32
  | 17 => 16
  | 18 | 19 | 21 | 22 => 64
  | _ => 0
def scaleBytes (fmt : Nat) : Nat := if blockLen fmt = 64 then 2 else 1

/-- E8M0 (R175); code 0xFF is NaN-class. -/
def e8m0 (c : Nat) : Option Dy := if c = 255 then none else some (1, (c : Int) - 127)

def scaleValue (fmt c : Nat) : Option Dy :=
  if blockLen fmt = 64 then (fp16F.value c).dy else if fmt = 17 then (e4m3F.value c).dy else e8m0 c

def sparseFmt (fmt : Nat) : Bool := 24 ≤ fmt && fmt ≤ 27

/-- An element of a decoded row: element times block scale, its block scale, and its power of two. -/
structure Elem where
  value : Option Dy := some (0, 0)
  scale : Option Dy := some (1, 0)
  power : Option Int := none
  deriving DecidableEq, Repr

def mulOpt : Option Dy → Option Dy → Option Dy
  | some x, some y => some (x.mul y)
  | _, _ => none

/-- The eight elements of a codebook index (R182), before the scales. -/
def vqDecode (entry idx : Nat) : List Dy :=
  let count := ((List.range 7).filter (fun m => idx.testBit (m + 1))).length
  (List.range 8).map (fun m =>
    let mag : Int := 2 * bits entry (2 * m) 2 + (if idx.testBit 0 then 0 else 1)
    let neg := if m < 7 then idx.testBit (m + 1) else count % 2 = 1
    (if neg then -mag else mag, -1))

/-- The kept positions of group `g` of a sparse row (R184). -/
def keptAt (meta_ g : Nat) : Nat × Nat := (bits meta_ (4 * g) 2, bits meta_ (4 * g + 2) 2)

/-- A tile row decoded to its logical elements, from its bytes as one number. -/
def decodeRow (book : Nat → Nat) (fmt cols row : Nat) : List Elem :=
  let (_, ebytes, mbytes, _) := tileParts fmt cols
  let b := elemBits fmt
  let meta_ := row / 2 ^ (8 * ebytes)
  let scales := meta_ / 2 ^ (8 * mbytes)
  let scale (j : Nat) : Option Dy :=
    if blockLen fmt = 0 then some (1, 0) else
    scaleValue fmt (bits scales (8 * scaleBytes fmt * (j / blockLen fmt)) (8 * scaleBytes fmt))
  let item (j : Nat) : Nat := bits row (b * j) b
  let plain (j c : Nat) : Elem := ⟨mulOpt (elemValue fmt c) (scale j), scale j, elemPower fmt c⟩
  if fmt = 20 ∨ fmt = 21 then
    (List.range (cols / 8)).flatMap (fun q =>
      (vqDecode (book (bits (item q) 8 8)) (item q)).map (fun x => ⟨mulOpt (some x) (scale (8 * q)), scale (8 * q), none⟩))
  else if sparseFmt fmt then
    (List.range cols).map (fun j =>
      let g := j / 4
      let (i0, i1) := keptAt meta_ g
      if j % 4 = i0 then plain j (item (2 * g)) else if j % 4 = i1 then plain j (item (2 * g + 1))
      else { scale := scale j })
  else (List.range cols).map (fun j => plain j (item j))

/-- A group of a sparse row with `i0 ≥ i1` (R184). -/
def badGroups (fmt cols row : Nat) : Bool :=
  sparseFmt fmt && (List.range (cols / 4)).any (fun g =>
    let (i0, i1) := keptAt (row / 2 ^ (8 * (tileParts fmt cols).2.1)) g
    i1 ≤ i0)

def Core.book (c : Core) (i : Nat) : Nat := ((c.codebook[i]?).getD 0).toNat

def Core.tileRow (c : Core) (v : View) (r : Nat) : List Elem := decodeRow c.book v.fmt v.cols (c.row v r)

/-! ### Accumulator rows (R158, R205) -/

structure AccRow where
  mant : List (BitVec 64)
  exp  : BitVec 16
  guard : BitVec 8
  deriving DecidableEq, Repr

def Core.accRow (c : Core) (v : View) (r : Nat) : AccRow :=
  let a := v.rowAddr r
  { mant := (List.range v.cols).map (fun j => BitVec.ofNat 64 (c.rs.num (a + 8 * j) 8))
    exp := BitVec.ofNat 16 (c.rs.num (a + 8 * v.cols) 2), guard := BitVec.ofNat 8 (c.rs.num (a + 8 * v.cols + 2) 1) }

def AccRow.nan (x : AccRow) : Bool := x.guard.getLsbD 7
def AccRow.g (x : AccRow) : Nat := fld x.guard 0 5
def AccRow.e (x : AccRow) : Int := x.exp.toInt

/-- A guard word that no command may meet (R205). -/
def AccRow.badGuard (x : AccRow) : Bool := fld x.guard 5 2 ≠ 0 || 23 < x.g

def guardWord (nan : Bool) (g : Nat) : BitVec 8 := BitVec.ofNat 8 (boolNat nan * 128 + g)

def AccRow.bytes (x : AccRow) : List Byte :=
  x.mant.flatMap (fun m => leBytes 8 m.toNat) ++ leBytes 2 x.exp.toNat ++ leBytes 1 x.guard.toNat ++ zeros 5

def AccRow.write (v : View) (r : Nat) (x : AccRow) : Nat × List Byte := (v.rowAddr r, x.bytes)

/-- The nearest integer to `x ÷ 2^e`, ties to even. -/
def rneInt (x : Dy) (e : Int) : Int :=
  let (q, r, h) := inUnits x.1.natAbs x.2 e
  let q : Int := if roundsUp .rne false q r h 0 then q + 1 else q
  if x.1 < 0 then -q else q

end Sys2Proof.Machine
end

