-- ==== Sys2Proof/Machine/Flags.lean ====
section
/-! DEFINITION. What commands compute into mask bits and by comparison: the conditions of `vcmp` (R229), the lesser and
greater of two codes (R224), the masks' own operations and policies (R155, R170), and the counts of R171. -/

namespace Sys2Proof.Machine

/-- A floating code as an integer that orders as its value does; the two zeros differ by one. -/
def FFmt.key (f : FFmt) (c : Nat) : Int :=
  let m : Int := bits c 0 (f.ebits + f.mbits)
  if f.neg c then -m - 1 else m

/-- Two codes of a type in order: `none` when one is a NaN; zeros are equal (R229). -/
def codeOrder (t : ElemType) (a b : Nat) : Option Ordering :=
  match t.ffmt with
  | some f =>
    if f.isNan a ∨ f.isNan b then none else
    let z (c : Nat) : Int := let k := f.key c; if k = -1 then 0 else if k < 0 then k + 1 else k
    some (compare (z a) (z b))
  | none => some (compare (intValue t.width t.signed a) (intValue t.width t.signed b))

def condHolds (cc : VCond) (o : Option Ordering) : Bool :=
  match o with
  | none => cc = .ne
  | some o =>
    match cc with
    | .eq => o = .eq | .ne => o ≠ .eq | .lt => o = .lt | .le => o ≠ .gt | .gt => o = .gt | .ge => o ≠ .lt

/-- The greater (`big`) or the lesser of two codes (R224). -/
def pickCode (t : ElemType) (big : Bool) (a b : Nat) : Nat :=
  match t.ffmt with
  | some f =>
    if f.isNan a then (if f.isNan b then f.canon else b)
    else if f.isNan b then a
    else if (f.key a < f.key b) = big then b else a
  | none => if (intValue t.width t.signed a < intValue t.width t.signed b) = big then b else a

/-- Bits of a mask below `n`. -/
def lowBits (x : BitVec 3072) (n : Nat) : BitVec 3072 := BitVec.ofNat 3072 (x.toNat % 2 ^ n)

def countBits (x : BitVec 3072) (n : Nat) : Nat := ((List.range n).filter x.getLsbD).length

/-- The lowest index below `n` whose bit is `v`. -/
def firstBit (x : BitVec 3072) (n : Nat) (v : Bool) : Option Nat := (List.range n).find? (fun i => x.getLsbD i = v)

/-- A mask destination bit by bit (R155): bits from VLMAX on, and all of them when vl is 0, are unchanged. -/
def Lanes.maskWrite (l : Lanes) (old : BitVec 3072) (res : Nat → Bool) : BitVec 3072 :=
  if l.vl = 0 then old else
  (List.range l.max).foldl (fun x i =>
    if i < l.vl then
      if l.active i then setBit x i (res i) else if l.zero then setBit x i false else x
    else if l.tail then setBit x i false else x) old

end Sys2Proof.Machine
end

