-- ==== Sys2Proof/Machine/Kv.lean ====
section
/-! DEFINITION. KV pages: the inverted table, sequence records and the nine `kv.` instructions (05_kv_pages). -/

namespace Sys2Proof.Machine

def noEntry : Nat := 0xFFFFFFFF

/-- The KV control record (Table 5-3), with its address. -/
structure KvTab where
  addr  : Word
  home  : Word
  h     : Nat
  n     : Nat
  heads : Word
  links : Word
  freeHead  : Nat
  freeCount : Nat
  pool  : Word
  blocks : Nat

/-- A read of the table or of a sequence record by the executing companion core, or by the engine of the command in execution,
with the rights of the running context (R73): a lost unit notes DLOST (R382). -/
def State.kvGet (s : State) (a : Word) (n : Nat) : Except Stop (State × Nat) := do
  let (s, bs) ← s.lift (if s.core.exec.isSome then s.engRead s.cur a n else s.ownRead a n)
  pure (s, leNat bs)

def State.kvPut (s : State) (a : Word) (n v : Nat) : Except Stop State := s.lift (s.ownWrite a (leBytes n v))

def KvTab.entryAt (t : KvTab) (j : Nat) : Word := t.home + BitVec.ofNat 64 (32 * j)
def KvTab.linkAt (t : KvTab) (j : Nat) : Word := t.links + BitVec.ofNat 64 (4 * (j - 2 ^ t.h))
def KvTab.headAt (t : KvTab) (k : Nat) : Word := t.heads + BitVec.ofNat 64 (4 * k)

/-- An index of the overflow pool. -/
def KvTab.inPool (t : KvTab) (j : Nat) : Bool := 2 ^ t.h ≤ j && j < 2 ^ t.h + t.n

/-- The control record with the checks of R84 and R85. An `att.kv`, which the two rules do not name, makes them too (log
entry 82). -/
def State.kvTable (s : State) : Except Stop (State × KvTab) := do
  let a := s.core.kvtab
  if a = 0 then s.fail .prot 0 else
  let (s, w) ← s.kvGet a 64
  let r := BitVec.ofNat 512 w
  let t : KvTab := ⟨a, fldW r 0, fld r 64 8, fld r 96 32, fldW r 128, fldW r 192, fld r 256 32, fld r 288 32, fldW r 320, fld r 384 32⟩
  if fld r 416 96 ≠ 0 ∨ fld r 72 24 ≠ 0 ∨ t.h < 8 ∨ 26 < t.h ∨ 2 ^ 24 < t.n
      ∨ t.home.toNat % 4096 ≠ 0 ∨ t.heads.toNat % 4096 ≠ 0 ∨ t.links.toNat % 4096 ≠ 0 ∨ t.pool.toNat % 4096 ≠ 0
      ∨ !(t.freeHead = noEntry || t.inPool t.freeHead) then s.fail .prot a else pure (s, t)

/-! ### Entries (R87, R88) -/

abbrev KvEntry := BitVec 256

def keySeq (e : KvEntry) : Nat := fld e 0 32
def keyBlock (e : KvEntry) : Nat := fld e 32 32
def keyLh (e : KvEntry) : Nat := fld e 64 16
def entValid (e : KvEntry) : Bool := fld e 80 1 = 1
def entHome (e : KvEntry) : Bool := fld e 81 1 = 1
def entAlias (e : KvEntry) : Bool := fld e 82 1 = 1
def entFormat (e : KvEntry) : Nat := fld e 85 1
def entDetached (e : KvEntry) : Bool := fld e 86 1 = 1
def entRefs (e : KvEntry) : Nat := fld e 96 16
def entBase (e : KvEntry) : Nat := fld e 128 32
def entPhys (e : KvEntry) : Nat := fld e 160 32
def entHomeIx (e : KvEntry) : Nat := fld e 192 32

/-- The entry maps the key: valid, not detached, no nonzero reserved field, not both home and alias (R87, R89). -/
def entMatches (e : KvEntry) (seq lh lb : Nat) : Bool :=
  entValid e && !entDetached e && fld e 120 8 = 0 && fld e 87 9 = 0 && !(entHome e && entAlias e)
  && keySeq e = seq && keyLh e = lh && keyBlock e = lb

def State.kvEntry (s : State) (t : KvTab) (j : Nat) : Except Stop (State × KvEntry) := do
  let (s, w) ← s.kvGet (t.entryAt j) 32
  pure (s, BitVec.ofNat 256 w)

def State.kvSetEntry (s : State) (t : KvTab) (j : Nat) (e : KvEntry) : Except Stop State :=
  s.kvPut (t.entryAt j) 32 e.toNat

/-- The hash start of a key (R89). -/
def kvHash (h seq lh lb : Nat) : Nat :=
  let x : Word := BitVec.ofNat 64 (seq * 2 ^ 32 + lb)
  let x := x ^^^ (BitVec.ofNat 64 lh * 0x9E3779B97F4A7C15)
  let x := (x ^^^ (x >>> 33)) * 0xFF51AFD7ED558CCD
  let x := (x ^^^ (x >>> 33)) * 0xC4CEB9FE1A85EC53
  let x := x ^^^ (x >>> 33)
  x.toNat % 2 ^ h

/-! ### Lookup (R89) -/

/-- The first of the eight home-region slots that satisfies `p`: its index and its place among the eight. -/
def State.kvHomeScan (s : State) (t : KvTab) (k : Nat) (p : KvEntry → Bool) :
    List Nat → Except Stop (State × Option (Nat × Nat))
  | [] => .ok (s, none)
  | i :: is => do
    let j := (k + i) % 2 ^ t.h
    let (s, e) ← s.kvEntry t j
    if p e then .ok (s, some (j, i)) else s.kvHomeScan t k p is

/-- The walk of chain `k` from entry `j`: at most 64 entries, each of the pool. -/
def State.kvChain (s : State) (t : KvTab) (k : Nat) (p : KvEntry → Bool) : Nat → Nat → Except Stop (State × Option Nat)
  | _, 0xFFFFFFFF => .ok (s, none)
  | 0, _ => s.fail .kvProbe (t.headAt k)
  | fuel + 1, j => do
    if !t.inPool j then s.fail .kvProbe (t.headAt k) else
    let (s, e) ← s.kvEntry t j
    if p e then .ok (s, some j) else do
    let (s, next) ← s.kvGet (t.linkAt j) 4
    s.kvChain t k p fuel next

def State.kvLookup (s : State) (t : KvTab) (seq lh lb : Nat) : Except Stop (State × Option Nat) := do
  let k := kvHash t.h seq lh lb
  let (s, x) ← s.kvHomeScan t k (fun e => entMatches e seq lh lb) (List.range 8)
  match x with
  | some (j, _) => pure (s, some j)
  | none =>
    let (s, j) ← s.kvGet (t.headAt k) 4
    s.kvChain t k (fun e => entMatches e seq lh lb) 64 j

/-! ### Insertion and removal (R86, R90) -/

/-- The entries of chain `k`, in order. -/
def State.kvChainList (s : State) (t : KvTab) (k : Nat) : Nat → Nat → Except Stop (State × List Nat)
  | _, 0xFFFFFFFF => .ok (s, [])
  | 0, _ => s.fail .kvProbe (t.headAt k)
  | fuel + 1, j => do
    if !t.inPool j then s.fail .kvProbe (t.headAt k) else
    let (s, next) ← s.kvGet (t.linkAt j) 4
    let (s, rest) ← s.kvChainList t k fuel next
    .ok (s, j :: rest)

/-- The free head and count of the control record. -/
def State.kvSetFree (s : State) (t : KvTab) (head count : Nat) : Except Stop State := do
  let s ← s.kvPut (t.addr + 32) 4 head
  s.kvPut (t.addr + 36) 4 count

/-- An entry put at the head of chain `k`, in the overflow entry at the head of the free list. The check of the next free
head comes after the two of R90 (log entry 82); a free count of 0 stays 0 (log entry 83). -/
def State.kvPushPool (s : State) (t : KvTab) (k : Nat) (e : KvEntry) : Except Stop (State × Nat) := do
  let f := t.freeHead
  if f = noEntry then s.fail .kvPool t.addr else
  let (s, head) ← s.kvGet (t.headAt k) 4
  let (s, chain) ← s.kvChainList t k 64 head
  if 64 ≤ chain.length then s.fail .kvProbe (t.headAt k) else
  let (s, next) ← s.kvGet (t.linkAt f) 4
  if !(next = noEntry || t.inPool next) then s.fail .prot t.addr else
  let s ← s.kvSetFree t next (t.freeCount - 1)
  let s ← s.kvSetEntry t f (setFld (setFld e 84 1 1) 112 8 0xFF)
  let s ← s.kvPut (t.linkAt f) 4 head
  let s ← s.kvPut (t.headAt k) 4 f
  pure (s, f)

/-- A new home entry: the first slot of the eight whose valid flag is clear, else the pool. Of a slot that software built
with the flag set and R87 has every lookup pass over, the flag alone counts here (log entry 83). -/
def State.kvInsert (s : State) (t : KvTab) (e : KvEntry) : Except Stop (State × Nat) := do
  let k := kvHash t.h (keySeq e) (keyLh e) (keyBlock e)
  let (s, x) ← s.kvHomeScan t k (fun e => !entValid e) (List.range 8)
  match x with
  | some (j, i) => do
    let s ← s.kvSetEntry t j (setFld e 112 8 i)
    pure (s, j)
  | none => s.kvPushPool t k e

/-- The entry of a chain before entry `j`, from the entry `at_` on; the chain's last one, where `j` is not found. -/
def State.kvPred (s : State) (t : KvTab) (j : Nat) : Nat → Nat → Except Stop (State × Option Nat)
  | 0, _ => .ok (s, none)
  | fuel + 1, at_ =>
    if at_ = j ∨ !t.inPool at_ then .ok (s, none) else do
    let (s, next) ← s.kvGet (t.linkAt at_) 4
    let (s, p) ← s.kvPred t j fuel next
    .ok (s, some (p.getD at_))

/-- Entry `j` becomes invalid; one of the pool is unlinked from its chain and heads the free list (R90). Where it does not lie on
the chain of its key, the last link of the chain, or its head, takes the entry's own link (log entry 83). -/
def State.kvRemove (s : State) (t : KvTab) (j : Nat) : Except Stop State := do
  let (s, e) ← s.kvEntry t j
  let s ← s.kvSetEntry t j (setFld e 80 1 0)
  if j < 2 ^ t.h then pure s else
  let k := kvHash t.h (keySeq e) (keyLh e) (keyBlock e)
  let (s, head) ← s.kvGet (t.headAt k) 4
  let (s, pred) ← s.kvPred t j t.n head
  let (s, next) ← s.kvGet (t.linkAt j) 4
  let s ← match pred with
    | some p => s.kvPut (t.linkAt p) 4 next
    | none => s.kvPut (t.headAt k) 4 next
  let (s, t') ← s.kvTable
  let s ← s.kvPut (t.linkAt j) 4 t'.freeHead
  s.kvSetFree t j (t'.freeCount + 1)

/-- The home of an entry (R96): its own index where it is a home entry, else the one that it names. -/
def homeIx (j : Nat) (e : KvEntry) : Nat := if entHome e then j else entHomeIx e

/-! ### Sequence records (R91) -/

/-- The address of a sequence's record; `none` when the sequence is out of range. An `att.kv` makes the check of R84 too (log
entry 82). -/
def State.seqRecord (s : State) (q : Word) : Except Flt (Option Word) :=
  let v := s.core.kvseq
  if v.toNat / 4096 = 0 then .error (.prot, 0)
  else if 2 ^ (v.toNat % 32) ≤ q.toNat then .ok none
  else .ok (some (BitVec.ofNat 64 (v.toNat / 4096 * 4096) + q * 16))

/-- A committed-length read acquires at PACKAGE scope what the commits to the word released (R100): a `kv.len` for its companion
core; a command in execution for its own later accesses, and for what its retirement passes on. -/
def State.acquireLength (s : State) (loc : Nat) : State :=
  match s.core.exec with
  | none => s.acquireAt .package (BitVec.allOnes 16) loc
  | some (q, k) =>
    let c := s.core.comp q.owner
    (s.setComp q.owner { c with early := c.early.filter (fun e => e.cmd ≠ some (q, k)) }).mapLag (fun l =>
      if l.meets.any (s.pairs .package s.coreId loc l) then { l with meets := .cmd s.coreId q k :: l.meets } else l)

/-- A read of the committed length of the record at `va`. -/
def State.lengthRead (s : State) (va : Word) : Except Stop (State × Nat) := do
  let loc ← s.lift (s.locate va 4 false)
  let (s, n) ← s.kvGet va 4
  pure (s.acquireLength loc, n)

/-- A commit to the record at `va` releases at PACKAGE scope what its companion core performed or acquired (R100). -/
def State.releaseCommit (s : State) (va : Word) : Except Stop State := do
  let loc ← s.lift (s.locate va 4 true)
  pure (s.releaseAt s.cur .package 0 (.word loc .package s.coreId true))

/-! ### The instructions (R94 to R98) -/

/-- The earlier stores perform, then the instruction acts whole (R98). -/
def kvOp (s : State) (roles : List Role) (f : State → Except Stop State) : Host.Outcome State Fault Refusal :=
  fired (drainedOp s roles (fun u => do
    let t ← f u
    .ok (t.advance 4)))

def hi32 (w : Word) : Nat := w.toNat / 2 ^ 32
def lo32 (w : Word) : Nat := w.toNat % 2 ^ 32

def execKvFind (d a b : SReg) (s : State) : Host.Outcome State Fault Refusal :=
  kvOp s [.loader] (fun s => do
    let (s, t) ← s.kvTable
    if 2 ^ 16 ≤ (s.rd b).toNat then pure (s.wr d (BitVec.allOnes 64)) else
    let (s, x) ← s.kvLookup t (hi32 (s.rd a)) (s.rd b).toNat (lo32 (s.rd a))
    match x with
    | none => pure (s.wr d (BitVec.allOnes 64))
    | some j => do
      let (s, e) ← s.kvEntry t j
      pure (s.wr d (BitVec.ofNat 64 (j * 2 ^ 32 + entPhys e))))

/-- Entry `j` when it is one of the table and valid. -/
def State.kvValidEntry (s : State) (t : KvTab) (j : Word) : Except Stop (State × Option KvEntry) := do
  if 2 ^ t.h + t.n ≤ j.toNat then pure (s, none) else
  let (s, e) ← s.kvEntry t j.toNat
  pure (s, if entValid e then some e else none)

def execKvPos (d a : SReg) (s : State) : Host.Outcome State Fault Refusal :=
  kvOp s [.loader] (fun s => do
    let (s, t) ← s.kvTable
    let (s, x) ← s.kvValidEntry t (s.rd a)
    match x with
    | none => pure (s.wr d (BitVec.allOnes 64))
    | some e => pure (s.wr d (BitVec.ofNat 64 (entBase e))))

/-- The checks of R84 and R93, which an instruction makes before it waits or reads (Table 2-7, step 10), in the order of log
entry 82: the table, the sequence records, the alignment of the request. -/
def State.kvCheck (s : State) (records : Bool) (request : Word) : Except Flt Unit :=
  if s.core.kvtab = 0 ∨ (records ∧ s.core.kvseq.toNat / 4096 = 0) then .error (.prot, 0)
  else if request.toNat % 32 ≠ 0 then .error (.align, request) else .ok ()

/-- The request record at `a` (R93). -/
def State.kvRequest (s : State) (a : Word) : Except Stop (State × KvEntry) := do
  let (s, bs) ← s.lift (s.load (some 0) a 32)
  pure (s, recordOf 256 bs)

def execKvMap (d a : SReg) (s : State) : Host.Outcome State Fault Refusal :=
  kvOp s [.storer] (fun s => do
    s.lift (s.kvCheck false (s.rd a))
    let (s, t) ← s.kvTable
    let (s, r) ← s.kvRequest (s.rd a)
    if t.blocks ≤ entPhys r then pure (s.wr d (statusWord 5 0)) else
    let (s, x) ← s.kvLookup t (keySeq r) (keyLh r) (keyBlock r)
    match x with
    | some j => pure (s.wr d (statusWord 1 j))
    | none => do
      let flags := 1 + 2 + entFormat r * 32
      let e := setFld (setFld (setFld r 80 16 flags) 96 16 1) 112 16 0
      let (s, j) ← s.kvInsert t e
      pure (s.wr d (statusWord 0 j)))

def execKvAlias (d a b : SReg) (s : State) : Host.Outcome State Fault Refusal :=
  kvOp s [.storer] (fun s => do
    s.lift (s.kvCheck false (s.rd a))
    let (s, t) ← s.kvTable
    let (s, r) ← s.kvRequest (s.rd a)
    let (s, x) ← s.kvValidEntry t (s.rd b)
    match x with
    | none => pure (s.wr d (statusWord 2 0))
    | some e => do
      let hj := homeIx (s.rd b).toNat e
      let (s, home) ← s.kvEntry t hj
      if entRefs home = 65535 then pure (s.wr d (statusWord 4 65535)) else
      let (s, x) ← s.kvLookup t (keySeq r) (keyLh r) (keyBlock r)
      match x with
      | some j => pure (s.wr d (statusWord 1 j))
      | none => do
        let flags := 1 + 4 + entFormat home * 32
        let e := setFld (setFld (setFld (setFld r 80 16 flags) 96 32 0) 160 32 (entPhys home)) 192 64 hj
        let e := setFld e 128 32 (entBase r)
        let k := kvHash t.h (keySeq r) (keyLh r) (keyBlock r)
        let (s, j) ← s.kvPushPool t k e
        let s ← s.kvSetEntry t hj (setFld home 96 16 (entRefs home + 1))
        pure (s.wr d (statusWord 0 j)))

/-- A count of 0 that software has built stays 0 and frees the block (log entry 83). -/
def execKvUnmap (d a b : SReg) (s : State) : Host.Outcome State Fault Refusal :=
  kvOp s [.storer] (fun s => do
    let (s, t) ← s.kvTable
    if 2 ^ 16 ≤ (s.rd b).toNat then pure (s.wr d (statusWord 5 0)) else
    let (s, x) ← s.kvLookup t (hi32 (s.rd a)) (s.rd b).toNat (lo32 (s.rd a))
    match x with
    | none => pure (s.wr d (statusWord 2 0))
    | some j => do
      let (s, e) ← s.kvEntry t j
      let hj := homeIx j e
      let s ← if entAlias e then s.kvRemove t j else pure s
      let (s, home) ← s.kvEntry t hj
      let n := entRefs home - 1
      let home := setFld home 96 16 n
      if n = 0 then do
        let s ← s.kvSetEntry t hj home
        let s ← s.kvRemove t hj
        pure (s.wr d (statusWord 3 (entPhys home)))
      else do
        let s ← s.kvSetEntry t hj (if hj = j then setFld home 86 1 1 else home)
        pure (s.wr d (statusWord 0 n)))

def execKvRef (d a b : SReg) (s : State) : Host.Outcome State Fault Refusal :=
  kvOp s [.storer] (fun s => do
    let (s, t) ← s.kvTable
    let (s, x) ← s.kvValidEntry t (s.rd a)
    match x with
    | none => pure (s.wr d (statusWord 2 0))
    | some e => do
      let delta := (s.rd b).toInt
      if delta < -65535 ∨ 65535 < delta then pure (s.wr d (statusWord 5 0)) else
      let hj := homeIx (s.rd a).toNat e
      let (s, home) ← s.kvEntry t hj
      let n := (entRefs home : Int) + delta
      if 65535 < n ∨ (n ≤ 0 ∧ !entDetached home) ∨ n < 0 then pure (s.wr d (statusWord 4 (entRefs home))) else
      let home := setFld home 96 16 n.toNat
      let s ← s.kvSetEntry t hj home
      if n = 0 then do
        let s ← s.kvRemove t hj
        pure (s.wr d (statusWord 3 (entPhys home)))
      else pure (s.wr d (statusWord 0 n.toNat)))

def execKvLen (d a : SReg) (s : State) : Host.Outcome State Fault Refusal :=
  kvOp s everyRole (fun s => do
    match ← s.lift (s.seqRecord (s.rd a)) with
    | none => pure (s.wr d (BitVec.allOnes 64))
    | some va => do
      let (s, n) ← s.lengthRead va
      pure (s.wr d (BitVec.ofNat 64 n)))

def execKvCommit (d a b : SReg) (s : State) : Host.Outcome State Fault Refusal :=
  kvOp s [.storer] (fun s => do
    match ← s.lift (s.seqRecord (s.rd a)) with
    | none => pure (s.wr d (statusWord 5 0))
    | some va => do
      let (s, w) ← s.kvGet va 16
      let r := BitVec.ofNat 128 w
      let committed := fld r 0 32
      let n := (s.rd b).toNat
      if fld r 96 32 ≠ 0 then pure (s.wr d (statusWord 5 0))
      else if 0xFFFFFFFF < n ∨ n < committed ∨ fld r 32 32 < n then pure (s.wr d (statusWord 6 committed))
      else if committed < n then do
        let s ← s.releaseCommit va
        let s ← s.kvPut va 16 (setFld (setFld r 0 32 n) 64 32 (fld r 64 32 + 1)).toNat
        pure (s.wr d (statusWord 0 n))
      else pure (s.wr d (statusWord 0 committed)))

/-- Rows per block and bytes per row of a format (R80). -/
def kvRows (format : Nat) : Nat := if format = 0 then 16 else 32
def kvRowSize (format : Nat) : Nat := if format = 0 then 256 else 128

/-- `count` rows of `size` bytes at `src` can be read and at `dst` be written: every source row first, then every destination
row (R97, log entry 82). -/
def State.rowsOk (s : State) (dst src : Word) (count size : Nat) : Except Flt Unit := do
  let at_ (a : Word) (k : Nat) : Word := a + BitVec.ofNat 64 (k * size)
  (List.range count).forM (fun k => do let _ ← s.fetchFor s.cx s.coreId (at_ src k) size)
  (List.range count).forM (fun k => do
    let sp ← s.spans s.cx s.coreId (at_ dst k) size true
    match s.badSpan 0 sp with
    | some i => .error (.machine, at_ dst k + BitVec.ofNat 64 i)
    | none => .ok ())

/-- The rows are copied in order, each read after the one before it has been written (R97). -/
def State.copyRows (s : State) (dst src : Word) (size : Nat) : Nat → Except Stop State
  | 0 => .ok s
  | n + 1 => do
    let (s, bs) ← s.lift (s.ownRead src size)
    let s ← s.lift (s.ownWrite dst bs)
    s.copyRows (dst + BitVec.ofNat 64 size) (src + BitVec.ofNat 64 size) size n

/-- R97, in the order of its checks that log entry 82 names, from the control record on. -/
def State.kvAppend (s : State) (d : PReg) (a : Word) : Except Stop State := do
  let (s, t) ← s.kvTable
  let (s, r) ← s.kvRequest a
  let (s, x) ← s.kvLookup t (keySeq r) (keyLh r) (keyBlock r)
  match x with
  | none => s.fail .xlate a
  | some j => do
    let (s, e) ← s.kvEntry t j
    let hj := homeIx j e
    let (s, home) ← s.kvEntry t hj
    let rows := kvRows (entFormat home)
    let size := kvRowSize (entFormat home)
    match ← s.lift (s.seqRecord (BitVec.ofNat 64 (keySeq r))) with
    | none => s.fail .prot a
    | some va => do
      let (s, w) ← s.kvGet va 16
      let q := BitVec.ofNat 128 w
      let first := fld r 96 16
      let count := fld r 112 16
      let i0 := keyBlock r * rows + first
      if rows < first + count ∨ i0 < fld q 0 32 ∨ fld q 32 32 < i0 + count then s.fail .prot (a + 12)
      else if count = 0 then pure (s.wrP d false)
      else if 1 < entRefs home then pure (s.wrP d true)
      else do
        let dst := t.pool + BitVec.ofNat 64 (entPhys home * 4096 + first * size)
        s.lift (s.rowsOk dst (fldW r 192) count size)
        let s ← s.copyRows dst (fldW r 192) size count
        let s ← s.kvSetEntry t hj (setFld home 83 1 1)
        pure (s.wrP d false)

def execKvApp (d : PReg) (a : SReg) (s : State) : Host.Outcome State Fault Refusal :=
  fired (drainedOp s [.storer] (fun u => do
    u.lift (u.kvCheck true (u.rd a))
    if !u.core.quiet .storer then .error .wait else
    let t ← u.kvAppend d (u.rd a)
    .ok (t.advance 4)))

end Sys2Proof.Machine
end

