-- ==== Sys2Proof/Machine/Attention.lean ====
section
/-! DEFINITION. The attention pipe: rotation on load, queries, staging, running, write-out, merging and planning
(14_attention_pipe). -/

namespace Sys2Proof.Machine

/-! ### Issue (R241, R242) -/

/-- A view that `att.out` and `att.merge` write. -/
def attOutView (v : View) : Bool :=
  v.kind = 3 && v.rows ≤ 64 && (v.cols = 128 && v.elemType.isFloat || v.cols = 130 && v.elemType = .f32)

def attIssue (s : State) (i : Instr) (h : EHdr) (profile : Role) (q : QueueId) (narrows : Bool)
    (views : List WReg) (ops : List Word) (check : List View → Option (Cause × Word)) : Host.Outcome State Fault Refusal :=
  let vs := views.map (fun w => s.core.views[w.toNat])
  issue s i h profile q { rnd := narrows, sat := narrows } false
    (match check (vs.map View.ofWord) with
      | some (c, ea) => .error (.trap c ea)
      | none => .ok { ops := ops, views := vs })

def issueIf (ok : Bool) : Option (Cause × Word) := if ok then none else some (.illegal, 0)

def viewAt (vs : List View) (k : Nat) : View := vs.getD k (View.ofWord 0)

def execAttQ (h : EHdr) (va : WReg) (b c d : SReg) (pb : PbReg) (s : State) : Host.Outcome State Fault Refusal :=
  attIssue s (.attQ h va b c d pb) h .sequencer .seqAtt false [va] [s.rd b, s.rd c, s.rd d] (fun vs =>
    let v := viewAt vs 0
    issueIf (v.kind = 1 && v.fmt = 0 && v.cols = 128 && v.rows ≤ 64 && (s.rd b).toNat / 2 ^ 33 = 0))

def execAttQF (h : EHdr) (va : WReg) (s : State) : Host.Outcome State Fault Refusal :=
  attIssue s (.attQF h va) h .sequencer .seqAtt false [va] [] (fun vs =>
    let v := viewAt vs 0
    issueIf (v.kind = 3 && v.elemType = .ui32 && v.rows = 1 && v.cols = 128))

def execAttKv (h : EHdr) (a b : SReg) (pb : PbReg) (st : Bool) (s : State) : Host.Outcome State Fault Refusal :=
  attIssue s (.attKv h a b pb st) h .loader .loaderAtt false [] [s.rd a, s.rd b] (fun _ =>
    if (s.rd a).toNat % 16 ≠ 0 then some (.align, s.rd a) else issueIf ((s.rd b).toNat / 2 ^ 32 = 0))

def execAttRun (h : EHdr) (st : Bool) (s : State) : Host.Outcome State Fault Refusal :=
  attIssue s (.attRun h st) h .sequencer .seqAtt false [] [] (fun _ => none)

def execAttOut (h : EHdr) (vd : WReg) (s : State) : Host.Outcome State Fault Refusal :=
  attIssue s (.attOut h vd) h .sequencer .seqAtt true [vd] [] (fun vs => issueIf (attOutView (viewAt vs 0)))

def execAttMerge (h : EHdr) (vd va : WReg) (s : State) : Host.Outcome State Fault Refusal :=
  attIssue s (.attMerge h vd va) h .sequencer .seqAtt true [vd, va] [] (fun vs =>
    let d := viewAt vs 0
    let a := viewAt vs 1
    issueIf (attOutView d && a.kind = 3 && a.elemType = .f32 && a.cols = 130 && a.rows % d.rows = 0))

def execAttPlan (h : EHdr) (a : SReg) (s : State) : Host.Outcome State Fault Refusal :=
  attIssue s (.attPlan h a) h .sequencer .seqAtt false [] [s.rd a] (fun _ =>
    if (s.rd a).toNat % 32 ≠ 0 then some (.align, s.rd a) else none)

/-! ### Rotation of a row (R243) -/

/-- The codes of a row of 128 rotated at position `p`. -/
def rotateRow (f : FFmt) (sat : Bool) (freq : Nat → Word) (p : Nat) (row : List Nat) : List Nat :=
  (List.range 64).flatMap (fun j =>
    let r := rotPair (f.value (row.getD (2 * j) 0)) (f.value (row.getD (2 * j + 1) 0)) (rotor (BitVec.ofNat 64 p * freq j))
    [f.round .rne sat 0 r.1, f.round .rne sat 0 r.2])

def Att.freqAt (x : Att) (j : Nat) : Word := (x.freq[j]?).getD 0

def State.setAtt (s : State) (x : Att) : State := { s with core := { s.core with att := x } }

/-! ### Queries (R244) -/

def runAttQF (v : View) (s : State) : Except Flt State :=
  match s.rsBad v.spans with
  | some e => .error e
  | none => .ok (s.setAtt { s.core.att with
      freq := Vector.ofFn (fun j : Fin 64 => BitVec.ofNat 64 (s.core.rs.num (v.base + 8 * j.val) 8)) })

def minusInf : BitVec 32 := 0xFF800000

def runAttQ (v : View) (b c d : Word) (pb : PbReg) (s : State) : Except Flt State :=
  match s.rsBad v.spans with
  | some e => .error e
  | none =>
    let x := s.core.att
    let step := (b.toNat / 2 ^ 32) % 2
    let row (r : Nat) : QRow :=
      let codes := (List.range 128).map (fun j => bits (s.core.row v r) (16 * j) 16)
      { q := rotateRow bf16F false x.freqAt ((b.toNat + r * step) % 2 ^ 32) codes
        limit := BitVec.ofNat 64 (min (d.toNat + r * step) (2 ^ 64 - 1))
        m := minusInf, l := 0, o := List.replicate 128 0 }
    .ok (s.setAtt { x with
      pb := x.pb.set pb.toNat (b.setWidth 32), scale := c.setWidth 32, rows := (List.range v.rows).map row })

/-! ### Staging (R245) -/

/-- A key or value row as element codes (R80). -/
def rowCodes (format : Nat) (bs : List Byte) : List Nat :=
  let w := if format = 0 then 2 else 1
  (List.range 128).map (fun j => leNat ((bs.drop (w * j)).take w))

/-- What a staging holds while it goes through its blocks. -/
structure Staging where
  fmt  : Option Nat := none
  toks : List StageTok := []
  base : Option Nat := none

/-- The tokens of one block, row by row and at most to 512: `key` and `val` are the addresses of its blocks. -/
def stageRows (f b len pbase : Nat) (key val a : Word) : Nat → Nat → State → Staging → Except Stop (State × Staging)
  | 0, _, s, g => .ok (s, g)
  | fuel + 1, i, s, g =>
    let ix := b * kvRows f + i
    if len ≤ ix then .ok (s, g)
    else if 512 ≤ g.toks.length then s.fail .prot (a + 8)
    else do
      let off := BitVec.ofNat 64 (i * kvRowSize f)
      let (s, k) ← s.lift (s.engRead .loader (key + off) (kvRowSize f))
      let (s, v) ← s.lift (s.engRead .loader (val + off) (kvRowSize f))
      let fm := if f = 0 then bf16F else e4m3F
      let t : StageTok :=
        ⟨BitVec.ofNat 32 ix, rotateRow fm (f ≠ 0) s.core.att.freqAt ((pbase + i) % 2 ^ 32) (rowCodes f k), rowCodes f v⟩
      stageRows f b len pbase key val a fuel (i + 1) s { g with toks := g.toks ++ [t] }

/-- One block: its two lookups, its format and its rows; and whether the loop goes on. -/
def stageBlock (s : State) (a : Word) (seq kh vh len b : Nat) (g : Staging) : Except Stop (State × Staging × Bool) := do
  if len ≤ b * 16 then pure (s, g, false) else
  let (s, t) ← s.kvTable
  let (s, jk) ← s.kvLookup t seq kh b
  let (s, jv) ← s.kvLookup t seq vh b
  match jk, jv with
  | some jk, some jv => do
    let (s, ek) ← s.kvEntry t jk
    let (s, ev) ← s.kvEntry t jv
    let (s, hk) ← s.kvEntry t (homeIx jk ek)
    let (s, hv) ← s.kvEntry t (homeIx jv ev)
    let f := entFormat hk
    if decide (f ≠ entFormat hv) || (match g.fmt with | some x => decide (x ≠ f) | none => false) then s.fail .fmt a else
    let g := { g with fmt := some f }
    if len ≤ b * kvRows f then pure (s, g, false) else
    let block (e : KvEntry) : Word := t.pool + BitVec.ofNat 64 (entPhys e * 4096)
    let (s, g) ← stageRows f b len (entBase ek) (block ek) (block ev) a (kvRows f) 0 s { g with base := some (entBase ek) }
    pure (s, g, true)
  | _, _ => s.fail .xlate a

/-- The blocks of a piece from `b` on: each adds a token or ends the loop, and 512 tokens end it. -/
def stageBlocks (a : Word) (seq kh vh len : Nat) : Nat → Nat → State → Staging → Except Stop (State × Staging)
  | 0, _, s, g => .ok (s, g)
  | fuel + 1, b, s, g => do
    let (s, g, on) ← stageBlock s a seq kh vh len b g
    if on then stageBlocks a seq kh vh len fuel (b + 1) s g else pure (s, g)

/-- The committed length of a sequence; `none` when it is out of range. -/
def State.committed (s : State) (seq : Nat) : Except Stop (State × Option Nat) := do
  match ← s.lift (s.seqRecord (BitVec.ofNat 64 seq)) with
  | none => pure (s, none)
  | some va => do
    let (s, n) ← s.lengthRead va
    pure (s, some n)

/-- `att.kv` reads and stages; the stage and the PB register follow at its retirement. -/
def runAttKv (a b : Word) (pb : PbReg) (st : Bool) (s : State) : Except Stop State := do
  let (s, bs) ← s.lift (s.engRead .loader a 16)
  let r := recordOf 128 bs
  let (s, len) ← s.committed (fld r 0 32)
  match len with
  | none => s.fail .prot a
  | some len => do
    let (s, g) ← stageBlocks a (fld r 0 32) (bits b.toNat 0 16) (bits b.toNat 16 16) len (min (fld r 64 32) 514) (fld r 32 32) s {}
    let x := s.core.att
    let new : Staged :=
      { st := st, stage := { fmt := BitVec.ofNat 8 (g.fmt.getD 0), toks := g.toks }
        pb := g.base.map (fun p => (pb, BitVec.ofNat 32 p)) }
    pure (s.setAtt { x with staged := x.staged ++ [new] })

/-! ### Running the stages (R246) -/

def f32Val (c : BitVec 32) : Num := f32F.value c.toNat
def f32Of (x : Num) : BitVec 32 := BitVec.ofNat 32 (f32F.rne x)
def l2e : Num := f32F.value 0x3FB8AA3B

/-- E of R246. -/
def expE (x : BitVec 32) : BitVec 32 := f32Of (Num.exp2 (f32Val x))

/-- E(rne((a - b) * L2E)). -/
def expDiff (a b : BitVec 32) : BitVec 32 := expE (f32Of ((Num.add .rne (f32Val a) (f32Val b).neg).mul l2e))

/-- rne(rne(x * α) + y). -/
def decayAdd (x α y : BitVec 32) : BitVec 32 := f32Of (Num.add .rne (f32Val (f32Of ((f32Val x).mul (f32Val α)))) (f32Val y))

/-- An exact sum of values; `none` when one is NaN-class. -/
def sumDy (l : List (Option Dy)) : Option Dy :=
  l.foldl (fun acc x => match acc, x with | some u, some v => some (Dy.add u v) | _, _ => none) (some (0, 0))

/-- The score of a token (exact until its rounding). -/
def score (scale : BitVec 32) (q key : List Nat) (fmt : FFmt) : BitVec 32 :=
  match sumDy (List.zipWith (fun x y => mulOpt (bf16F.value x).dy (fmt.value y).dy) q key) with
  | none => BitVec.ofNat 32 f32F.canon
  | some d => match (f32Val scale).dy with
    | some k => f32Of (Num.ofDy (Dy.mul k d))
    | none => f32Of ((f32Val scale).mul (Num.ofDy d))

def f32Finite (c : BitVec 32) : Bool := (f32Val c).dy.isSome

/-- One row of the query buffer with the tokens of a stage added. -/
def runRow (scale : BitVec 32) (st : Stage) (r : QRow) : QRow :=
  let f := if st.fmt = 0 then bf16F else e4m3F
  let vis := st.toks.filter (fun t => t.index.toNat < r.limit.toNat)
  if r.nan ∨ vis.isEmpty then r else
  let ss := vis.map (fun t => score scale r.q t.key f)
  if ss.any (fun x => !f32Finite x) || vis.any (fun t => t.value.any (fun c => (f.value c).dy.isNone)) then { r with nan := true }
  else
    let m' := ss.foldl (fun m x => BitVec.ofNat 32 (pickCode .f32 true m.toNat x.toNat)) r.m
    let α := expDiff r.m m'
    let ps := ss.map (fun x => bf16F.rne (f32Val (expDiff x m')))
    let sum := f32Of (Num.ofDy ((sumDy (ps.map (fun p => (bf16F.value p).dy))).getD (0, 0)))
    { r with
      m := m', l := decayAdd r.l α sum
      o := (r.o.zip (List.range 128)).map (fun x : BitVec 32 × Nat =>
        let w := sumDy (List.zipWith (fun p (t : StageTok) => mulOpt (bf16F.value p).dy (f.value (t.value.getD x.2 0)).dy) ps vis)
        decayAdd x.1 α (f32Of (Num.ofDy (w.getD (0, 0))))) }

def runAttRun (st : Bool) (s : State) : State :=
  let x := s.core.att
  s.setAtt { x with rows := x.rows.map (runRow x.scale (if st then x.st1 else x.st0)) }

/-! ### Write-out and merging (R247, R248) -/

/-- The bytes of a row: its codes, and with 130 columns m and l. -/
def outRowBytes (v : View) (r : Nat) (y : List Nat) (m l : BitVec 32) : Nat × List Byte :=
  (v.rowAddr r, y.flatMap (leBytes v.elemType.width) ++ (if v.cols = 130 then leBytes 4 m.toNat ++ leBytes 4 l.toNat else []))

/-- Quotients narrowed in ascending order, each with its draw. -/
def divideAll (f : FFmt) (m : Rnd) (sat : Bool) (g : Word) (xs : List Num) (l : Num) : Word × List Nat :=
  let (g, ys) := xs.foldl (fun (a : Word × List Nat) x =>
    let (g, c) := f.narrow m sat a.1 (x.div l)
    (g, c :: a.2)) (g, [])
  (g, ys.reverse)

def canon32 : BitVec 32 := BitVec.ofNat 32 f32F.canon

/-- Rows written in order, with the generator. -/
def attWrite (s : State) (rows : List (Word → Word × (Nat × List Byte))) : Except Flt State := do
  let (g, ws) := rows.foldl (fun (a : Word × List (Nat × List Byte)) f =>
    let (g, w) := f a.1
    (g, w :: a.2)) (s.core.genAtt, [])
  let s ← s.rsStore ws.reverse
  pure { s with core := { s.core with genAtt := g } }

def runAttOut (v : View) (p : Prefix) (s : State) : Except Flt State :=
  let rows := s.core.att.rows
  if v.rows ≠ rows.length then .error (.illegal, 0) else
  let f := v.elemType.ffmt.getD f32F
  attWrite s ((rows.zip (List.range v.rows)).map (fun x : QRow × Nat => fun g =>
    let r := x.1
    let constant (c : Nat) := List.replicate 128 c
    if r.nan then (g, outRowBytes v x.2 (constant f.canon) canon32 canon32)
    else if (f32Val r.l).dy.map (·.1) = some 0 then (g, outRowBytes v x.2 (constant 0) r.m r.l)
    else
      let (g, y) := divideAll f (p.rnd.getD .rne) p.sat g (r.o.map f32Val) (f32Val r.l)
      (g, outRowBytes v x.2 y r.m r.l)))

/-- A partial as it is read: y, m, l. -/
structure Partial where
  y : List (BitVec 32)
  m : BitVec 32
  l : BitVec 32

def Core.partialRow (c : Core) (v : View) (r : Nat) : Partial :=
  let at_ (j : Nat) : BitVec 32 := BitVec.ofNat 32 (c.velem v r j)
  ⟨(List.range 128).map at_, at_ 128, at_ 129⟩

/-- l > 0. -/
def Partial.counts (p : Partial) : Bool := match f32Val p.l with | .fin s n _ => !s && n ≠ 0 | .inf s => !s | .nan => false

/-- A partial that makes its output NaN. -/
def Partial.spoils (p : Partial) : Bool :=
  (f32Val p.m).isNan || (match f32Val p.l with | .nan => true | .inf _ => true | .fin s n _ => s && n ≠ 0)
  || f32Val p.m = .inf false || (p.counts && p.y.any (fun c => (f32Val c).isNan))

/-- One output row of a merge: `none` is NaN; else the sums A, S and the maximum. -/
def mergeRows (ps : List Partial) : Option (List (BitVec 32) × BitVec 32 × BitVec 32) :=
  if ps.any Partial.spoils then none else
  match ps.filter Partial.counts with
  | [] => some ([], 0, minusInf)
  | k :: ks =>
    let mx := ks.foldl (fun m p => BitVec.ofNat 32 (pickCode .f32 true m.toNat p.m.toNat)) k.m
    let (a, sum) := (k :: ks).foldl (fun (x : List (BitVec 32) × BitVec 32) p =>
      let w := f32Of ((f32Val p.l).mul (f32Val (expDiff p.m mx)))
      (List.zipWith (fun a y => f32Of (Num.add .rne (f32Val a) (f32Val (f32Of ((f32Val w).mul (f32Val y)))))) x.1 p.y,
        f32Of (Num.add .rne (f32Val x.2) (f32Val w)))) (List.replicate 128 0, 0)
    some (a, sum, mx)

def runAttMerge (vd va : View) (p : Prefix) (s : State) : Except Flt State :=
  match s.rsBad va.spans with
  | some e => .error e
  | none =>
    let f := vd.elemType.ffmt.getD f32F
    let n := va.rows / vd.rows
    attWrite s ((List.range vd.rows).map (fun r => fun g =>
      match mergeRows ((List.range n).map (fun i => s.core.partialRow va (i * vd.rows + r))) with
      | none => (g, outRowBytes vd r (List.replicate 128 f.canon) canon32 canon32)
      | some ([], _, m) => (g, outRowBytes vd r (List.replicate 128 0) m 0)
      | some (a, sum, m) =>
        let (g, y) := divideAll f (p.rnd.getD .rne) p.sat g (a.map f32Val) (f32Val sum)
        (g, outRowBytes vd r y m sum)))

/-! ### Planning (R249 to R251) -/

/-- A plan record before its fields are packed: list entry, sequence, first block, count, core, part. -/
structure PlanRec where
  entry : Nat
  seq   : Nat
  first : Nat
  count : Nat
  core  : Nat
  last  : Bool

/-- The records of one core's share of one list entry, of at most `most` blocks each. -/
def planCut (entry seq total core most : Nat) : Nat → Nat → Nat → List PlanRec
  | 0, _, _ => []
  | fuel + 1, first, n =>
    if n = 0 then [] else
    let k := min n most
    ⟨entry, seq, first, k, core, first + k = total⟩ :: planCut entry seq total core most fuel (first + k) (n - k)

/-- The records of core `c`: its range of blocks over the entries (sequence, blocks, blocks before it). -/
def planCore (entries : List (Nat × Nat × Nat)) (total cores most c : Nat) : List PlanRec :=
  let lo := c * total / cores
  let hi := (c + 1) * total / cores
  ((entries.zip (List.range entries.length)).flatMap (fun x : (Nat × Nat × Nat) × Nat =>
    let (seq, n, start) := x.1
    let a := max lo start
    let b := min hi (start + n)
    if a < b then planCut x.2 seq n c most (b - a) (a - start) (b - a) else []))

/-- The 16 B of a record (Table 14-6). -/
def PlanRec.word (r : PlanRec) (part : Nat) : Nat :=
  boolNat (part = 0) * 2 ^ 121 + boolNat r.last * 2 ^ 120 + part * 2 ^ 112 + r.core * 2 ^ 96 + r.count * 2 ^ 64
    + r.first * 2 ^ 32 + r.seq

/-- Running totals: each length with the sum of those before it. -/
def withStarts : List (Nat × Nat) → Nat → List (Nat × Nat × Nat)
  | [], _ => []
  | (q, n) :: t, at_ => (q, n, at_) :: withStarts t (at_ + n)

/-- Each record with the number of earlier records of its entry. -/
def withParts : List PlanRec → Nat → Nat → List (PlanRec × Nat)
  | [], _, _ => []
  | r :: t, entry, n => let k := if r.entry = entry then n else 0; (r, k) :: withParts t r.entry (k + 1)

def planOk (p : BitVec 256) : Bool :=
  fld p 224 32 = 0 && fld p 176 16 = 0 && 1 ≤ fld p 168 8 && fld p 168 8 ≤ 32 && (fld p 160 8 = 16 || fld p 160 8 = 32)
  && 1 ≤ fld p 144 16 && fld p 144 16 ≤ 768 && 1 ≤ fld p 128 16 && fld p 128 16 ≤ 4096
  && fld p 64 64 % 16 = 0 && fld p 0 64 % 4 = 0

/-- `State.committed` through the log of a command. -/
def State.committedLog (s : State) (seq : Nat) (g : ReadLog) : Except Broken (State × Option Nat × ReadLog) := do
  match ← g.lift s (s.seqRecord (BitVec.ofNat 64 seq)) with
  | none => pure (s, none, g)
  | some va => do
    let fresh : Bool := g.next.length < 4
    let (s, bs, g) ← s.logRead .sequencer va 4 g
    let s := match s.locate va 4 false with | .ok loc => if fresh then s.acquireLength loc else s | .error _ => s
    pure (s, some (leNat bs), g)

/-- The sequences of the list with their blocks. -/
def planLengths (list : Word) (rows : Nat) : Nat → Nat → State → ReadLog → Except Broken (State × List (Nat × Nat) × ReadLog)
  | 0, _, s, g => .ok (s, [], g)
  | n + 1, i, s, g => do
    let at_ := list + BitVec.ofNat 64 (4 * i)
    let before := g.past
    let (s, bs, g) ← s.logRead .sequencer at_ 4 g
    let (s, len, g) ← s.committedLog (leNat bs) g
    match len with
    | none => .error ⟨s, (.prot, at_), before⟩
    | some len => do
      let (s, t, g) ← planLengths list rows n (i + 1) s g
      pure (s, (leNat bs, (len + rows - 1) / rows) :: t, g)

/-- `att.plan`: a fault keeps what it has read, up to the address at which it faulted (R76). -/
def runAttPlan (a : Word) (read : List Word) (s : State) : Except Broken State := do
  let (s, bs, g) ← s.logRead .sequencer a 32 { next := read }
  let p := recordOf 256 bs
  if !planOk p then .error ⟨s, (.prot, a), []⟩ else
  let cores := fld p 144 16
  let (s, lens, g) ← planLengths (fldW p 0) (fld p 160 8) (fld p 128 16) 0 s g
  let entries := withStarts lens 0
  let total := (lens.map (·.2)).sum
  let per := (List.range cores).map (planCore entries total cores (fld p 168 8))
  let recs := withParts per.flatten entries.length 0
  if fld p 192 32 < recs.length ∨ 65535 < recs.length ∨ recs.any (fun x => 255 < x.2) then
    .error ⟨s, (.prot, a + 24), g.past.take 24⟩
  else
  let index := ((List.range cores).map (fun c =>
    leBytes 4 (((per.take c).map List.length).sum + ((per.getD c []).length) * 2 ^ 16))).flatten
  let out := leBytes 4 total ++ leBytes 4 recs.length ++ leBytes 2 cores ++ zeros 6 ++ index
    ++ zeros (16 * ((cores + 3) / 4) - 4 * cores) ++ recs.flatMap (fun x => leBytes 16 (x.1.word x.2))
  g.lift s (s.engWrite .sequencer (fldW p 64) out)

/-! ### Execution (R252, R253) -/

/-- `f` as the work of a companion core: its are the table's reads, and what they note. -/
def asRole (r : Role) (f : State → Except Stop State) (s : State) : Except Stop State :=
  (f { s with cur := r }).map (fun t => { t with cur := s.cur })

def attEffect (c : Cmd) (s : State) : Except Flt State :=
  let v (k : Nat) : View := View.ofWord (c.views.getD k 0)
  let op (k : Nat) : Word := c.ops.getD k 0
  match c.instr with
  | .attQ _ _ _ _ _ pb => runAttQ (v 0) (op 0) (op 1) (op 2) pb s
  | .attQF .. => runAttQF (v 0) s
  | .attRun _ st => .ok (runAttRun st s)
  | .attOut .. => runAttOut (v 0) c.pfx s
  | .attMerge .. => runAttMerge (v 0) (v 1) c.pfx s
  | _ => .ok s

def runAtt (c : Cmd) (s : State) : EngEnd :=
  match c.instr with
  | .attPlan .. =>
    (match runAttPlan (c.ops.getD 0 0) c.prog.carry { s with cur := .sequencer } with
      | .ok t => .done { t with cur := s.cur }
      | .error x => Broken.fault { x with s := { x.s with cur := s.cur } } 0)
  | .attKv _ _ _ pb st =>
    (match asRole .loader (runAttKv (c.ops.getD 0 0) (c.ops.getD 1 0) pb st) s with
      | .ok t => .done t
      | .error (.trapAfter used cause ea) => .fault { s with used := used } cause ea {}
      | .error _ => .done s)
  | _ => engOf {} s (attEffect c s)

end Sys2Proof.Machine
end

