-- ==== Sys2Proof/Machine/Remote.lean ====
section
/-! DEFINITION. The fabric: paths, sessions, remote word operations, the combining buffer, batches, and fences
(16_fabric, R346, R347). -/

namespace Sys2Proof.Machine

/-! ### Performing a remote operation at its target (R267, R270, R277) -/

/-- The runs of a byte mask of a 64 B line: offset and length. -/
def maskRuns (mask : Nat) : List (Nat × Nat) :=
  ((List.range 64).foldl (fun (acc : List (Nat × Nat)) i =>
    if mask.testBit i then
      match acc with
      | (o, n) :: t => if o + n = i then (o, n + 1) :: t else (i, 1) :: acc
      | [] => [(i, 1)]
    else acc) []).reverse

/-- What a store packet carries: the parts of a line by its mask (log entry 50), or one operand of 2^size bytes. -/
def storeParts (p : Packet) : List (Word × List Byte) :=
  if p.size = 0xFF then
    (maskRuns (leNat (p.payload.take 8))).map (fun r => (p.addr + BitVec.ofNat 64 r.1, (p.payload.drop (8 + r.1)).take r.2))
  else [(p.addr, p.payload.take (2 ^ p.size.toNat))]

/-- The result of an atomic on `n` bytes; `d` is the compare value. -/
def ramoNew (op n : Nat) (old b d : Nat) : Nat :=
  let m := 2 ^ (8 * n)
  match op with
  | 0 => (old + b) % m
  | 1 => old ||| b % m
  | 2 => old ^^^ (b % m)
  | 3 => if sextInt (8 * n) old ≤ sextInt (8 * n) b then old else b % m
  | 4 => if sextInt (8 * n) old ≤ sextInt (8 * n) b then b % m else old
  | 5 => b % m
  | _ => if old = d % m then b % m else old

/-- A load, a store or an atomic performs for a context of this node: its value, or an error. It is an access of the store path
(R345); `w`: how its write stands on it. -/
def State.performRemote (s : State) (cx : Ctx) (core : Nat) (w : Writer) (p : Packet) : Except Flt (State × Word) := do
  if p.kind = 1 then do
    let parts := storeParts p
    let _ ← parts.mapM (fun x => s.pathPut (some cx) core w x.1 x.2)
    let t ← parts.foldlM (fun s x => s.pathPut (some cx) core w x.1 x.2) s
    pure (t, 0)
  else
    let n := 2 ^ p.size.toNat
    let loc ← if p.kind = 2 then s.locateFor (some cx) core p.addr n false else s.locateRmw (some cx) core p.addr n
    match s.badByte loc n with
    | some i => .error (.machine, p.addr + BitVec.ofNat 64 i)
    | none =>
      let old := s.mem.num loc n
      if p.kind = 2 then pure (s.traffic (some cx) core p.addr [(loc, n)], BitVec.ofNat 64 old) else do
      if isHost loc ∧ hostForbids (BitVec.ofNat 3 p.op.toNat) then .error (.prot, p.addr) else
      let new := ramoNew p.op.toNat n old (leNat (p.payload.take 8)) (leNat ((p.payload.drop 8).take 8))
      pure ((s.pathStep w loc (leBytes n new)).traffic (some cx) core p.addr [(loc, n), (loc, n)], BitVec.ofNat 64 old)

/-! ### Batches (R275 to R277) -/

def Batch.touch (b : Batch) (node : BitVec 12) : Batch :=
  { b with peers := if b.peers.contains node then b.peers else b.peers ++ [node], count := b.count + 1 }

/-- A peer that would be the 65th. -/
def Batch.full (b : Batch) (node : BitVec 12) : Bool := !b.peers.contains node && 64 ≤ b.peers.length

def Batch.fail (b : Batch) (node : BitVec 12) : Batch :=
  match b.peers.findIdx? (· = node) with
  | some i => { b with errors := setBit b.errors i true }
  | none => b

/-- A late batch of that tag that still waits for the node, else the tag's own batch, changed. -/
def Core.mapBatch (c : Core) (tag : BitVec 2) (node : BitVec 12) (f : Batch → Batch) : Core :=
  let waits (x : BitVec 2 × Batch) : Bool := x.1 = tag && x.2.peers.contains node && !x.2.answered.contains node
  match c.lateBatches.findIdx? waits with
  | some i => { c with lateBatches := c.lateBatches.modify i (fun x => (x.1, f x.2)) }
  | none => { c with batches := c.batches.set tag.toNat (f c.batches[tag.toNat]) }

def State.mapBatch (s : State) (tag : BitVec 2) (node : BitVec 12) (f : Batch → Batch) : State :=
  { s with core := s.core.mapBatch tag node f }

/-- Closed, asked and answered by every peer. -/
def Batch.done (b : Batch) : Bool := b.state = .closed && b.asked && b.peers.all b.answered.contains

/-- The batches of the core in focus that are complete become so; errors are posted or recorded (R275, R277, R375). -/
def State.settleBatches (s : State) : State :=
  let late := s.core.lateBatches.filter (fun x => x.2.done)
  let s := late.foldl (fun s x => match x.2.job with
    | some j => if x.2.errors = 0 then s else s.mapJob j (fun j => { j with lateBatch := true })
    | none => s) s
  let s := { s with core := { s.core with lateBatches := s.core.lateBatches.filter (fun x => !x.2.done) } }
  (List.range 4).foldl (fun s t =>
    let b := (s.core.batches[t]?).getD {}
    if b.done then
      let s := { s with core := { s.core with batches := s.core.batches.setIfInBounds t { b with state := .complete } } }
      if b.errors = 0 then s else s.postStorer ⟨.batchErr, BitVec.ofNat 64 t, .async⟩
    else s) s

/-- A peer's answer to the summary request of a batch, or its death. -/
def State.answered (s : State) (tag : BitVec 2) (node : BitVec 12) (failed : Bool) : State :=
  (s.mapBatch tag node (fun b =>
    let b := if failed then b.fail node else b
    { b with answered := b.answered ++ [node] })).settleBatches

/-! ### Sessions (R263, R264) -/

def State.session (s : State) (die : Nat) (node : BitVec 12) : Session :=
  (s.sessions.find? (fun x => x.die = die && x.node = node)).getD { die := die, node := node }

def State.setSession (s : State) (x : Session) : State :=
  { s with sessions := s.sessions.filter (fun y => !(y.die = x.die && y.node = x.node)) ++ [x] }

/-- The outcome of a packet at its source core, for its context: a reply's value, or a failure (R277). -/
def State.outcome (s : State) (core : Nat) (p : Packet) (node : BitVec 12) (v : Option Word) : State :=
  s.onContext p.context core (fun t =>
    if p.kind = 5 then t.answered p.tag node v.isNone
    else
      let t := if v.isNone then t.mapBatch p.tag node (fun b => b.fail node) else t
      if p.kind = 1 then t else
      match t.core.remote with
      | some w => if w.node = node ∧ w.seq = p.seq then { t with core := { t.core with remote := some { w with reply := some v } } } else t
      | none => t)

/-- Every unacknowledged packet of a dead node's session fails; closed batches that waited for it ask at their next event. -/
def State.killSession (s : State) (x : Session) : State :=
  let s := s.setSession { x with dead := true, unacked := [] }
  x.unacked.foldl (fun s y => s.outcome y.core y.pkt x.node none) s

/-- The sessions of every crossing towards a node are dead. -/
def State.killNode (s : State) (node : BitVec 12) : State :=
  (s.sessions.filter (fun x => x.node = node)).foldl (fun s x => s.killSession x) s

/-- A node is dead for a die's session: it has been declared so, or no usable alternative to it remains (R264). -/
def State.isDead (s : State) (die : Nat) (node : BitVec 12) : Bool := (s.session die node).dead || s.unreachable node.toNat

/-- A session that can number another packet. -/
def State.canSend (s : State) (core : Nat) (node : BitVec 12) : Bool :=
  node = s.node || s.isDead (dieOf core) node || (s.session (dieOf core) node).unacked.length < 4096

/-- What an operation of the storer on this node leaves of the storer: no unit of its bytes that it has read ahead is returned any
more (R339); where it reads, DLOST where one of the units was lost (R382), and the storer holds the write whose value it is (R342). -/
def State.noteRemote (s : State) (cx : Ctx) (p : Packet) : State :=
  let parts := if p.kind = 1 then (storeParts p).map (fun x => (x.1, x.2.length)) else [(p.addr, 2 ^ p.size.toNat)]
  let sp := parts.filterMap (fun x => match s.locateFor (some cx) s.coreId x.1 x.2 (p.kind = 1) with
    | .ok loc => some (loc, x.2)
    | .error _ => none)
  let s := s.dropEarly .storer sp
  if p.kind = 1 then s
  else sp.foldl (fun s x => (s.holdRead .storer 0 (fun _ => false) s.lagSeq x.1 x.2).noteLost .storer x.1 x.2) s

/-- A packet of the core in focus goes to a node: on this node it performs at once, after the writes `after`; to a dead node it
fails. -/
def State.sendPacket (s : State) (p : Packet) (node : BitVec 12) (after : List Nat := []) : State :=
  let core := s.coreId
  if node = s.node then
    if p.kind = 5 then s.answered p.tag node false else
    match s.cx with
    | none => s.outcome core p node none
    | some cx => match (s.noteRemote cx p).performRemote cx core { meets := [.batch core p.tag], after := after } p with
      | .ok (t, v) => t.outcome core p node (some v)
      | .error _ => s.outcome core p node none
  else
    let die := dieOf core
    let x := s.session die node
    let p := { p with source := s.node, die := BitVec.ofNat 3 die, seq := x.next }
    match (if x.dead then none else s.choosePath core node.toNat) with
    | none => s.outcome core p node none
    | some (d, alt) =>
      let y : Sent := ⟨p, d, alt, s.cycle, s.cycle, core⟩
      (s.setSession { x with next := x.next + 1, unacked := x.unacked ++ [y] }).emit d alt node p

/-- A packet of the storer of the core in focus. -/
def State.packet (s : State) (kind : BitVec 8) (op size : BitVec 8) (cls : BitVec 4) (tag : BitVec 2) (addr : Word)
    (payload : List Byte) : Packet :=
  { kind := kind, source := 0, die := 0, context := s.core.ctx.getD 0, core := BitVec.ofNat 16 s.coreId, seq := 0
    op := op, size := size, cls := cls, tag := tag, addr := addr, payload := payload }

/-! ### The combining buffer (R272, R273) -/

/-- The bytes of an entry as a mask and a line. -/
def Combine.payload (e : Combine) : List Byte :=
  let mask := (List.range 64).foldl (fun m i => if (lookupKey i e.bytes).isSome then m + 2 ^ i else m) 0
  leBytes 8 mask ++ (List.range 64).map (fun i => (lookupKey i e.bytes).getD 0)

def State.sendEntry (s : State) (e : Combine) : State :=
  s.sendPacket (s.packet 1 0 0xFF e.cls e.tag e.line e.payload) e.node e.after

/-- The selected entries are sent in the order in which they were made, as far as their sessions take them; the others stay in
theirs. -/
def State.sendCombined (s : State) (sel : Combine → Bool) : State :=
  let x := s.core.combine.foldl (fun (x : State × List Combine) e =>
    if sel e && x.1.canSend x.1.coreId e.node then (x.1.sendEntry e, x.2) else (x.1, x.2 ++ [e])) (s, [])
  { x.1 with core := { x.1.core with combine := x.2 } }

/-- The selected entries could all be sent. -/
def State.combinedReady (s : State) (sel : Combine → Bool) : Bool :=
  (s.core.combine.filter sel).all (fun e => s.canSend s.coreId e.node)

/-- Bytes put over those of a line. -/
def putBytes (l : List (Nat × Byte)) (off : Nat) (bs : List Byte) : List (Nat × Byte) :=
  (bs.zip (List.range bs.length)).foldl (fun l x => setKey (off + x.2) x.1 l) l

/-- The youngest entry of a flow, where it covers a line for a batch: what a store to the line merges into (R272). -/
def Core.merges (c : Core) (node : BitVec 12) (cls : BitVec 4) (tag : BitVec 2) (line : Word) : Option Combine :=
  (c.combine.filter (fun e => e.node = node && e.cls = cls)).getLast?.bind (fun e =>
    if e.line = line ∧ e.tag = tag then some e else none)

/-- A store enters the buffer: it merges, or its flow's entries are sent and it takes a new one, for which the oldest is sent
where all 16 are in use. `none`: what must be sent first cannot go yet. -/
def State.place (s : State) (node : BitVec 12) (cls : BitVec 4) (tag : BitVec 2) (a : Word) (bs : List Byte) : Option State :=
  let line := a &&& 0xFFFFFFFFFFFFFFC0
  let off := a.toNat % 64
  match s.core.merges node cls tag line with
  | some e =>
    let l := s.core.combine.map (fun x => if x = e then
      { x with bytes := putBytes x.bytes off bs, after := x.after ++ (s.engWriter .storer).after } else x)
    some { s with core := { s.core with combine := l } }
  | none =>
    let mine (e : Combine) : Bool := e.node = node && e.cls = cls
    let t := s.sendCombined mine
    let t := if 16 ≤ t.core.combine.length then
        match t.core.combine with | e :: _ => t.sendCombined (· = e) | [] => t
      else t
    if t.core.combine.any mine || 16 ≤ t.core.combine.length then none else
    some { t with core := { t.core with combine := t.core.combine ++ [{
      node := node, cls := cls, tag := tag, line := line, bytes := putBytes [] off bs, made := t.cycle
      after := (s.engWriter .storer).after }] } }

/-- The batch of a remote command, by its captured tag. -/
def Cmd.batch (c : Cmd) : BitVec 2 := BitVec.ofNat 2 (c.ops.getD 4 0).toNat

/-- The stage of an `rld` or `ramo`: its packet is out. -/
def Cmd.sentOut (c : Cmd) : Bool := c.prog.carry = [2]

/-- Commands of a batch that have yet to touch its peers. -/
def Queue.owes (q : Queue) (tag : BitVec 2) : Bool :=
  (q.cmds ++ (q.slots.filter (fun x => x.state = .pending)).map (·.cmd) ++ q.captured.map (·.cmd)).any (fun c =>
    c.batch = tag && !c.sentOut)

/-- A closed batch sends its buffered entries, and its summary requests after every operation of it: once the last of them has
gone to its peer or into an entry, and the entries have been sent (R272, R275). -/
def State.askBatch (s : State) (t : Nat) : State :=
  let b := (s.core.batches[t]?).getD {}
  let tag := BitVec.ofNat 2 t
  let s := if b.state = .closed ∧ !b.asked then s.sendCombined (fun e => e.tag = tag) else s
  if b.state = .closed ∧ !b.asked ∧ !(s.core.queue .storerRemote).owes tag ∧ !s.core.combine.any (fun e => e.tag = tag)
      ∧ b.peers.all (fun n => s.canSend s.coreId n) then
    let s := { s with core := { s.core with batches := s.core.batches.setIfInBounds t { (s.core.batches[t]?).getD {} with asked := true } } }
    (b.peers.foldl (fun s n => s.sendPacket (s.packet 5 0 0 0 tag 0 []) n) s).settleBatches
  else s

/-- The batches that ended tasks left closed ask their peers, oldest first, once their sessions have room: all their operations
have been sent (R275). -/
def State.askLates (s : State) : Nat → State
  | 0 => s
  | fuel + 1 =>
    match s.core.lateBatches.zipIdx.find? (fun x => x.1.2.state = .closed && !x.1.2.asked
        && x.1.2.peers.all (fun n => s.canSend s.coreId n)) with
    | some ((tag, b), i) =>
      let l := s.core.lateBatches.set i (tag, { b with asked := true })
      (b.peers.foldl (fun (s : State) n => s.sendPacket (s.packet 5 0 0 0 tag 0 []) n)
        { s with core := { s.core with lateBatches := l } }).settleBatches.askLates fuel
    | none => s

/-- Every closed batch of the core in focus asks its peers as soon as it can, those of ended tasks first. -/
def State.askBatches (s : State) : State :=
  (List.range 4).foldl State.askBatch (s.askLates s.core.lateBatches.length)

/-- The core has a closed batch that has not asked its peers. -/
def Core.toAsk (c : Core) : Bool :=
  (c.batches.toList ++ c.lateBatches.map (·.2)).any (fun b => b.state = .closed && !b.asked)

/-- Sessions have room again, or have died: the closed batches of the package that have waited for them ask (R275). -/
def State.askAll (s : State) : State :=
  ((s.coreId, s.core) :: s.others).foldl (fun s x => if x.2.toAsk then s.onCore x.1 State.askBatches else s) s

/-! ### Issue (R268, R269) -/

def ownWindow (a : Word) : Bool := a.toNat / 2 ^ 40 = 0xFF0000

def remoteIssue (s : State) (i : Instr) (h : EHdr) (a b c d : Word) (bad : Option (Cause × Word)) :
    Host.Outcome State Fault Refusal :=
  issue s i h .storer .storerRemote {} false (match bad with
    | some (cause, ea) => .error (.trap cause ea)
    | none => .ok { ops := [a, b, c, d, s.core.openTag.setWidth 64] })

/-- The checks of one target: alignment, node word, own window. -/
def wordCheck (a c : Word) (n : Nat) (src : Option Word) : Option (Cause × Word) :=
  if a.toNat % n ≠ 0 then some (.align, a)
  else match (match src with | some b => if b.toNat % n ≠ 0 then some b else none | none => none) with
  | some b => some (.align, b)
  | none => if 4096 ≤ c.toNat then some (.prot, c) else if ownWindow a then some (.prot, a) else none

def execRst (h : EHdr) (a b c : SReg) (size : BitVec 3) (s : State) : Host.Outcome State Fault Refusal :=
  let n := 2 ^ size.toNat
  remoteIssue s (.rst h a b c size) h (s.rd a) (s.rd b) (s.rd c) 0
    (wordCheck (s.rd a) (s.rd c) n (if 16 ≤ n then some (s.rd b) else none))

def execRstMc (h : EHdr) (a b c : SReg) (size : BitVec 3) (s : State) : Host.Outcome State Fault Refusal :=
  let n := 2 ^ size.toNat
  remoteIssue s (.rstMc h a b c size) h (s.rd a) (s.rd b) (s.rd c) 0 (
    if (s.rd a).toNat % 32 ≠ 0 then some (.align, s.rd a)
    else if 16 ≤ n ∧ (s.rd b).toNat % n ≠ 0 then some (.align, s.rd b)
    else if s.rd c = 0 ∨ 4 < (s.rd c).toNat then some (.prot, s.rd c)
    else if ownWindow (s.rd a) then some (.prot, s.rd a) else none)

def execRld (h : EHdr) (d a c : SReg) (size : BitVec 3) (s : State) : Host.Outcome State Fault Refusal :=
  remoteIssue s (.rld h d a c size) h (s.rd a) 0 (s.rd c) 0 (wordCheck (s.rd a) (s.rd c) (2 ^ size.toNat) none)

def execRamo (h : EHdr) (op : RamoOp) (d a b c : SReg) (size : BitVec 3) (s : State) : Host.Outcome State Fault Refusal :=
  remoteIssue s (.ramo h op d a b c size) h (s.rd a) (s.rd b) (s.rd c) (s.rd d)
    (wordCheck (s.rd a) (s.rd c) (2 ^ size.toNat) none)

/-! ### Execution (R270, R271) -/

/-- The data of `rst` and `rst.mc`, read through the command's log. -/
def remoteData (c : Cmd) (n : Nat) (s : State) (g : ReadLog) : Except Broken (State × List Byte × ReadLog) :=
  let b := c.ops.getD 1 0
  if n ≤ 8 then .ok (s, leBytes n b.toNat, g) else s.logRead .storer b n g

/-- A batch takes peers in order, unless one would be the 65th. -/
def State.joins (s : State) (tag : BitVec 2) (nodes : List (BitVec 12)) : Except Flt State := do
  let b ← nodes.foldlM (fun (b : Batch) n => if b.full n then .error (.prot, n.setWidth 64) else .ok (b.touch n))
    s.core.batches[tag.toNat]
  pure { s with core := { s.core with batches := s.core.batches.set tag.toNat b } }

/-- The copies of a store enter the buffer in order, or none does yet. -/
def State.placeAll (s : State) (cls : BitVec 4) (tag : BitVec 2) (es : List (Word × BitVec 12)) (bs : List Byte) : EngEnd :=
  match es.foldlM (fun s e => s.place e.2 cls tag e.1 bs) s with | some t => .done t | none => .wait s

def runRst (c : Cmd) (cls : BitVec 4) (n : Nat) (s : State) : EngEnd :=
  let node := BitVec.ofNat 12 (c.ops.getD 2 0).toNat
  let ready : Except Broken (State × List Byte) := do
    let (s, bs, g) ← remoteData c n s { next := c.prog.carry }
    let s ← g.lift s (s.joins c.batch [node])
    pure (s, bs)
  match ready with
  | .error x => x.fault 0
  | .ok (t, bs) => placed s (t.placeAll cls c.batch [(c.ops.getD 0 0, node)] bs)
where
  /-- a command that waits has done nothing yet -/
  placed (s : State) (e : EngEnd) : EngEnd := match e with | .wait _ => .wait s | e => e

/-- A replica list entry: its address and node, where it is in order. -/
def replica (bs : List Byte) (i n : Nat) : Option (Word × BitVec 12) :=
  let r := recordOf 128 ((bs.drop (16 * i)).take 16)
  if fld r 80 48 ≠ 0 ∨ 4096 ≤ fld r 64 16 ∨ fld r 0 64 % n ≠ 0 ∨ ownWindow (fldW r 0) then none
  else some (fldW r 0, BitVec.ofNat 12 (fld r 64 16))

def runRstMc (c : Cmd) (cls : BitVec 4) (n : Nat) (s : State) : EngEnd :=
  let a := c.ops.getD 0 0
  let k := (c.ops.getD 2 0).toNat
  let ready : Except Broken (State × List Byte × List (Word × BitVec 12)) := do
    let (s, bs, g) ← remoteData c n s { next := c.prog.carry }
    let data := g.past
    let (s, l, g) ← s.logRead .storer a (16 * k) g
    let es ← (List.range k).mapM (fun i => match replica l i n with
      | some e => .ok e
      | none => .error ⟨s, (.prot, a + BitVec.ofNat 64 (16 * i)), data ++ (g.past.drop data.length).take (16 * i)⟩)
    let s ← g.lift s (s.joins c.batch (es.map (·.2)))
    pure (s, bs, es)
  match ready with
  | .error x => x.fault 0
  | .ok (t, bs, es) => runRst.placed s (t.placeAll cls c.batch es bs)

/-- The buffered bytes at `a` for a node, from the youngest entry that holds each (R270). -/
def Core.buffered (k : Core) (node : BitVec 12) (a : Word) (n : Nat) : Option (List Byte) :=
  (List.range n).mapM (fun i =>
    let at_ := a + BitVec.ofNat 64 i
    (k.combine.reverse.filter (fun e => e.node = node && e.line = at_ &&& 0xFFFFFFFFFFFFFFC0)).findSome?
      (fun e => lookupKey (at_.toNat % 64) e.bytes))

def Combine.overlaps (e : Combine) (node : BitVec 12) (a : Word) (n : Nat) : Bool :=
  e.node = node && e.bytes.any (fun x => let at_ := (e.line + BitVec.ofNat 64 x.1).toNat; a.toNat ≤ at_ && at_ < a.toNat + n)

/-- A store of this core to the same line is not acknowledged. -/
def State.storesOut (s : State) (node : BitVec 12) (a : Word) : Bool :=
  (s.session (dieOf s.coreId) node).unacked.any (fun y => y.core = s.coreId && y.pkt.kind = 1
    && y.pkt.addr = a &&& 0xFFFFFFFFFFFFFFC0)

/-- The result of an `rld` or `ramo` goes to its register of the storer: what is made from it depends on it (R344), and on nothing
that the register held before. -/
def State.result (s : State) (d : SReg) (v : Option Word) : State :=
  let r : Regs := { s := regBits [d] }
  let c := s.core.storer.setReg d (v.getD (BitVec.allOnes 64))
  let c := { c with
    early := c.early.map (fun e => { e with named := e.named.also r })
    sbuf := c.sbuf.map (fun b => { b with regs := b.regs.without r }) }
  let hold (h : Hold) : Hold := if h.core = s.coreId ∧ h.role = .storer then
    { h with lent := false, regs := if h.lent then h.regs.also r else h.regs.without r } else h
  ({ s with core := { s.core with storer := c, remote := none } }).mapLag (fun l => { l with holds := l.holds.map hold })

/-- An operation that waits for a reply: once its session takes it, it joins its batch and is sent; then it is answered. -/
def awaitReply (s : State) (d : SReg) (node : BitVec 12) (p : Packet) (tag : BitVec 2) : EngEnd :=
  match s.joins tag [node] with
  | .error (cause, ea) => .fault s cause ea {}
  | .ok t =>
    if !s.canSend s.coreId node then .wait s else
    let die := dieOf s.coreId
    let w : RemoteWait := ⟨node, BitVec.ofNat 3 die, if node = s.node then 0 else (s.session die node).next, none⟩
    let t := ({ t with core := { t.core with remote := some w } }).sendPacket p node (s.engWriter .storer).after
    match t.core.remote with
    | some ⟨_, _, _, some v⟩ => .done (t.result d v)
    | _ => .wait (t.setHeadProg .storerRemote { carry := [2] })

def finishReply (s : State) (d : SReg) : EngEnd :=
  match s.core.remote with
  | some ⟨_, _, _, some v⟩ => .done (s.result d v)
  | _ => .wait s

/-- `rld` sends its flow's entry, which it does not merge into, and every entry that it overlaps (R270, R272). -/
def runRld (c : Cmd) (cls : BitVec 4) (d : SReg) (size : Nat) (s : State) : EngEnd :=
  if c.sentOut then finishReply s d else
  let a := c.ops.getD 0 0
  let n := 2 ^ size
  let node := BitVec.ofNat 12 (c.ops.getD 2 0).toNat
  match s.core.buffered node a n with
  | some bs => .done (s.result d (some (BitVec.ofNat 64 (leNat bs))))
  | none =>
    let go (e : Combine) : Bool := (e.node = node && e.cls = cls) || e.overlaps node a n
    let s := s.sendCombined go
    if s.core.combine.any go || s.storesOut node a then .wait s
    else awaitReply s d node (s.packet 2 0 (BitVec.ofNat 8 size) cls c.batch a []) c.batch

def runRamo (c : Cmd) (cls : BitVec 4) (op : RamoOp) (d : SReg) (size : Nat) (s : State) : EngEnd :=
  if c.sentOut then finishReply s d else
  let node := BitVec.ofNat 12 (c.ops.getD 2 0).toNat
  let flow (e : Combine) : Bool := e.node = node && e.cls = cls
  let s := s.sendCombined flow
  if s.core.combine.any flow then .wait s
  else awaitReply s d node (s.packet 3 (BitVec.ofNat 8 op.code) (BitVec.ofNat 8 size) cls c.batch (c.ops.getD 0 0)
    (leBytes 8 (c.ops.getD 1 0).toNat ++ leBytes 8 (c.ops.getD 3 0).toNat)) c.batch

/-- A command of the remote queue in the engine. -/
def runRemote (c : Cmd) (s : State) : EngEnd :=
  match c.instr with
  | .rst h _ _ _ size => runRst c h.cls (2 ^ size.toNat) s
  | .rstMc h _ _ _ size => runRstMc c h.cls (2 ^ size.toNat) s
  | .rld h d _ _ size => runRld c h.cls d size.toNat s
  | .ramo h op d _ _ _ size => runRamo c h.cls op d size.toNat s
  | _ => .done s

/-! ### Batches and paths as instructions (R278 to R280) -/

/-- What the operations of batches have written on this node is acquired, as those of every peer are known to have performed
(R276). -/
def State.acquireBatches (s : State) (which : Nat → Bool) : State :=
  let tags := (List.range 4).filter (fun t => which t && ((s.core.batches[t]?).map (·.state)) = some .complete)
  let n := s.coreId
  if tags.isEmpty then s else s.acquireMet (fun x => match x with | .batch c t => c = n && tags.contains t.toNat | _ => false)

/-- A tag is used anew: what waited there waits there no more. -/
def State.dropBatch (s : State) (tag : BitVec 2) : State :=
  s.mapLag (fun l => { l with meets := l.meets.filter (fun x => x ≠ .batch s.coreId tag) })

/-- The open batch closes and the next tag opens (`bcls`). -/
def State.closeBatch (s : State) : State :=
  let t := s.core.openTag
  let u := t + 1
  let old := s.core.batches[t.toNat]
  let bs := s.core.batches.set t.toNat { old with state := .closed }
  let bs := bs.set u.toNat { state := .opened, job := s.jobHere }
  ({ s.dropBatch u with core := { s.core with batches := bs, openTag := u } }).askBatches

def execBcls (d : SReg) (s : State) : Host.Outcome State Fault Refusal :=
  fired (companionOp s [.storer] (
    let t := s.core.openTag
    let next := s.core.batches[(t + 1).toNat]
    if next.state = .empty ∨ next.state = .complete then .ok ((s.closeBatch.wr d (t.setWidth 64)).advance 4)
    else .error .wait))

def execBwait (n : BitVec 2) (s : State) : Host.Outcome State Fault Refusal :=
  companionOp s [.storer] (
    if (s.core.batches.toList.filter (fun b => b.state = .closed)).length ≤ n.toNat
    then .ok ((s.acquireBatches (fun _ => true)).advance 4) else .error .wait)

def Batch.word (b : Batch) : Word :=
  let st := match b.state with | .empty => 0 | .opened => 1 | .closed => 2 | .complete => 3
  BitVec.ofNat 64 (st * 2 ^ 62 + boolNat (b.errors ≠ 0) * 2 ^ 61 + b.peers.length * 2 ^ 32 + b.count.toNat)

/-- What `bstat` returns. -/
def State.bstat (s : State) (a b : Word) : Word :=
  if 3 < a.toNat then BitVec.allOnes 64 else
  let x := (s.core.batches[a.toNat]?).getD {}
  if b = 0 then x.word
  else if b = 1 then x.errors
  else if b.toNat ≤ 65 then (match x.peers[b.toNat - 2]? with | some n => n.setWidth 64 | none => BitVec.allOnes 64)
  else BitVec.allOnes 64

def execBstat (d a b : SReg) (s : State) : Host.Outcome State Fault Refusal :=
  companionOp s [.storer] (.ok (((s.acquireBatches (fun t => s.rd b = 0 && s.rd a = BitVec.ofNat 64 t)).wr d
    (s.bstat (s.rd a) (s.rd b))).advance 4))

/-- What `path` returns. -/
def State.pathRead (s : State) (a b : Word) : Word :=
  let die := dieOf s.coreId
  if b.toNat ≤ 3 then (if 4095 < a.toNat then BitVec.allOnes 64 else s.pathEntry die a.toNat b.toNat)
  else if b = 4 then
    (if 4095 < a.toNat then BitVec.allOnes 64 else
      match s.choosePath s.coreId a.toNat with | some (d, k) => BitVec.ofNat 64 (d * 4 + k) | none => BitVec.allOnes 64)
  else if b = 5 then BitVec.ofNat 64 (s.liveness die)
  else if b = 6 then s.node.setWidth 64
  else BitVec.allOnes 64

def execPath (d a b : SReg) (s : State) : Host.Outcome State Fault Refusal :=
  companionOp s [.storer] (.ok ((s.wr d (s.pathRead (s.rd a) (s.rd b))).advance 4))

/-! ### Fences (R346, R347) -/

/-- A fence over the classes of a mask at a scope: the stores that these classes follow to locations within the scope's extent
perform (R338), and so do the deferred atomics of the companion core in them; combining-buffer entries in them are sent; no
unit of the extent read ahead is returned to a later load in them; and later releases cover what the fence has ordered (R342). -/
def State.fenced (s : State) (mask : BitVec 16) (sc : Scope) : State :=
  let s := if s.cur = .storer then s.sendCombined (fun e => maskNames mask e.cls) else s
  let s := s.performDeferreds (fun x => x.role = s.cur && maskNames mask x.cls)
  let s := s.drain s.cur (fun b => b.names &&& mask ≠ 0 && scopeHolds sc s.coreId b.loc)
  (s.setMe { s.me with early := s.me.early.map (fun e => { e with
    fenced := e.fenced ||| mask, past := if scopeHolds sc s.coreId e.loc then e.past ||| mask else e.past }) }).fenceHolds s.cur
      mask sc

/-- `fence.x` also orders them before the port path of the core, at its scope (R347). -/
def State.fencedX (s : State) (mask : BitVec 16) (sc : Scope) : State := (s.fenced mask sc).orderPort s.cur mask sc

def fenceOp (s : State) (mask : BitVec 16) (f : State → State) : Host.Outcome State Fault Refusal :=
  fired (companionOp s everyRole (
    if mask = 0 then .error (.trap .illegal 0)
    else if s.cur = .storer ∧ !s.combinedReady (fun e => maskNames mask e.cls) then .error .wait
    else .ok ((f s).advance 4)))

def execFence (mask : BitVec 16) (sc : Scope) (s : State) : Host.Outcome State Fault Refusal :=
  fenceOp s mask (fun t => t.fenced mask sc)
def execFenceX (mask : BitVec 16) (sc : Scope) (s : State) : Host.Outcome State Fault Refusal :=
  fenceOp s mask (fun t => t.fencedX mask sc)

/-! ### Events of the fabric -/

/-- Entries made 64 cycles ago are sent, and what waited for a session with them. -/
def execCombineEntryTimeout (s : State) : Host.Outcome State Fault Refusal :=
  fired (.next (s.sendCombined (fun e => e.made.toNat + 64 ≤ s.cycle.toNat)).askBatches)

/-- A reply to a packet of another node; with no path to it the reply is not sent (R262). The source core by which its path is
chosen is the core in focus (log entry 116). -/
def State.reply (s : State) (p : Packet) (r : Packet) : State :=
  match s.choosePath s.coreId p.source.toNat with
  | some (d, alt) => s.emit d alt p.source r
  | none => s

/-- A reply packet. An error reply says so by a payload of one byte, which no other reply has (log entry 50). -/
def replyTo (p : Packet) (node : BitVec 12) (kind : BitVec 8) (failed : Bool) (payload : List Byte) : Packet :=
  let bs : List Byte := if failed then [1] else payload
  { p with kind := kind, source := node, op := 0, size := BitVec.ofNat 8 (Nat.log2 bs.length), payload := bs }

def errorReply (p : Packet) : Bool := p.payload.length = 1

def State.inSession (s : State) (p : Packet) : InSession :=
  (s.inbound.find? (fun x => x.node = p.source && x.die = p.die)).getD { node := p.source, die := p.die }

def State.setInSession (s : State) (x : InSession) : State :=
  { s with inbound := s.inbound.filter (fun y => !(y.node = x.node && y.die = x.die)) ++ [x] }

/-- The next packet of a session performs, and its reply is stored and sent (R263, R275, R277). -/
def State.takePacket (s : State) (p : Packet) : State :=
  let x := s.inSession p
  let mark := (p.context, p.core, p.tag)
  let (s, r, failed) := match s.findCtx p.context with
    | none => (s, replyTo p s.node 4 true [], if p.kind = 5 then x.failed.filter (· ≠ mark) else x.failed ++ [mark])
    | some cx =>
      if p.kind = 5 then (s, replyTo p s.node 6 (x.failed.contains mark) [], x.failed.filter (· ≠ mark))
      else match s.performRemote cx s.coreId {} p with
        | .ok (t, v) => (t, replyTo p s.node 4 false (if p.kind = 1 then [] else leBytes 8 v.toNat), x.failed)
        | .error _ => (s, replyTo p s.node 4 true [], x.failed ++ [mark])
  let s := s.setInSession { x with next := x.next + 1, replies := ((p.seq, r) :: x.replies).take 4096, failed := failed }
  s.reply p r

/-- Packets that waited for their turn, while the next one is among them. -/
def State.takeEarly (s : State) (node : BitVec 12) (die : BitVec 3) : Nat → State
  | 0 => s
  | fuel + 1 =>
    match s.inbound.find? (fun x => x.node = node && x.die = die) with
    | none => s
    | some x =>
      match x.early.find? (fun q => q.seq = x.next) with
      | none => s
      | some q => State.takeEarly ((s.setInSession { x with early := x.early.filter (fun y => y.seq ≠ q.seq) }).takePacket q) node die fuel

/-- A packet of kind 1, 2, 3 or 5 arrives. Sequences are compared as plain numbers, and the one after 2^32 - 1 is 0 (log entry
117). -/
def State.receiveNumbered (s : State) (p : Packet) : State :=
  let s := if p.fresh then s.setInSession { node := p.source, die := p.die } else s
  let x := s.inSession p
  if p.seq = x.next then (s.takePacket p).takeEarly p.source p.die 4096
  else if p.seq.toNat < x.next.toNat then
    match x.replies.find? (fun r => r.1 = p.seq) with | some (_, r) => s.reply p r | none => s
  else if x.early.any (fun q => q.seq = p.seq) then s
  else s.setInSession { x with early := x.early ++ [p] }

/-- A reply or summary reply arrives: its packet is acknowledged, and where the context is held its core answered. -/
def State.receiveReply (s : State) (p : Packet) (known : Bool) : State :=
  let x := s.session p.die.toNat p.source
  match x.unacked.find? (fun y => y.pkt.seq = p.seq) with
  | none => s
  | some y =>
    let s := s.setSession { x with unacked := x.unacked.filter (fun z => z.pkt.seq ≠ p.seq), lastAck := s.cycle }
    if known then
      (s.outcome y.core y.pkt p.source (if errorReply p then none else some (BitVec.ofNat 64 (leNat (p.payload.take 8))))).askAll
    else s.askAll

/-- An answer to a copy of a notice, not to a numbered packet (log entry 50). -/
def isNoticeAnswer (p : Packet) : Bool := p.kind = 4 && p.size = 5

/-- R260, R263. A notice, a pull, a decrement or a collective step that it carries comes about as its own event. -/
def execKrytwayPacketReceive (p : Packet) (s : State) : Host.Outcome State Fault Refusal :=
  let known := (s.findCtx p.context).isSome
  fired (.next (
    if p.kind = 1 ∨ p.kind = 2 ∨ p.kind = 3 ∨ p.kind = 5 then s.receiveNumbered p
    else
      let s := if (p.kind = 4 ∧ !isNoticeAnswer p) ∨ p.kind = 6 then s.receiveReply p known else s
      if 10 < p.kind.toNat ∨ !known then s.reply p (replyTo p s.node 4 true [])
      else if isNoticeAnswer p then
        s.toCoreFor (some p.context) p.core.toNat
          (.noticeAnswer (BitVec.ofNat 32 (leNat (p.payload.drop 4))) p.seq (leNat (p.payload.take 4)))
      else s))

/-- An alternative is no longer live. -/
def State.clearLive (s : State) (die node alt : Nat) : State :=
  { s with paths := setKey (pathKey die node alt) (setBit (s.pathEntry die node alt) 51 false) s.paths }

/-- A packet goes again, on the alternative that R262 now chooses; none left: the node is dead (R264). -/
def State.resend (s : State) (x : Session) (y : Sent) : State :=
  let s := s.clearLive y.die x.node.toNat y.alt
  let x := s.session x.die x.node
  match s.choosePath y.core x.node.toNat with
  | none => s.killNode x.node
  | some (d, alt) =>
    (s.setSession { x with unacked := x.unacked.map (fun z =>
      if z.pkt.seq = y.pkt.seq then { z with die := d, alt := alt, atCycle := s.cycle } else z) }).emit d alt x.node y.pkt

/-- The packets to a node that 16,384 cycles have left unacknowledged go again (R263). -/
def State.resendAll (s : State) (node : BitVec 12) : State :=
  (s.sessions.filter (fun x => x.node = node)).foldl (fun s x =>
    (x.unacked.filter (fun y => y.atCycle.toNat + 16384 ≤ s.cycle.toNat)).foldl (fun s y =>
      if (s.session x.die node).dead then s else s.resend x y) s) s

/-- A session whose node is dead by R264. -/
def State.sessionDead (s : State) (x : Session) : Bool :=
  s.unreachable x.node.toNat || (match x.unacked with
    | [] => false
    | y :: _ => max x.lastAck.toNat y.first.toNat + s.liveness x.die ≤ s.cycle.toNat)

/-- A peer's summary request arrives as the next packet of its session: every earlier operation of the session has performed or
failed (R263, R275). -/
def execSummaryRequest (node : BitVec 12) (core : BitVec 10) (tag : BitVec 2) (s : State) : Host.Outcome State Fault Refusal :=
  let p := { s.packet 5 0 0 0 tag 0 [] with source := node, die := BitVec.ofNat 3 (dieOf core.toNat), core := core.setWidth 16 }
  fired (.next (s.receiveNumbered { p with seq := (s.inSession p).next }))

/-- A summary reply reaches the core in focus. -/
def execSummaryReply (tag : BitVec 2) (node : BitVec 12) (failed : Bool) (s : State) : Host.Outcome State Fault Refusal :=
  let waits (b : Batch) : Bool := b.state = .closed && b.asked && b.peers.contains node && !b.answered.contains node
  if waits s.core.batches[tag.toNat] || s.core.lateBatches.any (fun x => x.1 = tag && waits x.2) then
    let drop (x : Session) : Session := if x.node = node ∧ x.die = dieOf s.coreId then
      { x with unacked := x.unacked.filter (fun y => !(y.core = s.coreId && y.pkt.kind = 5 && y.pkt.tag = tag)), lastAck := s.cycle } else x
    fired (.next (({ s with sessions := s.sessions.map drop }).answered tag node failed))
  else .next s

end Sys2Proof.Machine
end

