-- ==== Sys2Proof/Machine/Collective.lean ====
section
/-! DEFINITION. Collective rounds: their start (R284 to R291), their steps (R292 to R297), and their ends (R298 to R303). -/

namespace Sys2Proof.Machine

/-! ### The parameter block and the group record (Tables 17-1 and 17-2) -/

def blkOp (p : BitVec 1024) : Nat := fld p 0 8
def blkRed (p : BitVec 1024) : Nat := fld p 8 8
def blkFmt (p : BitVec 1024) : Nat := fld p 16 8
def blkAlgo (p : BitVec 1024) : Nat := fld p 24 8
def blkGroup (p : BitVec 1024) : Nat := fld p 32 20
def blkCount (p : BitVec 1024) : Nat := fld p 64 64
def blkSend (p : BitVec 1024) : Word := fldW p 128
def blkRecv (p : BitVec 1024) : Word := fldW p 192
def blkChunk (p : BitVec 1024) : Nat := if fld p 256 32 = 0 then 2 ^ 20 else fld p 256 32
def blkDeadline (p : BitVec 1024) : Nat := fld p 288 32
def blkRoot (p : BitVec 1024) : Nat := fld p 512 32

/-- The size of an element of the data format. -/
def blkElem (p : BitVec 1024) : Nat := if blkFmt p = 1 ∨ blkFmt p = 2 then 2 else 4

def grpP (g : BitVec 512) : Nat := fld g 64 16
def grpRank (g : BitVec 512) : Nat := fld g 80 16

/-- The algorithms that Table 17-3 gives an operation, by their codes. -/
def algosOf (op : Nat) : List Nat :=
  match op with
  | 0 | 3 => [0, 1, 2, 3]
  | 1 | 2 => [0, 1, 3]
  | 4 => [0, 3]
  | _ => [0, 2, 3]

/-- The checks of a parameter block by itself (R286, R287, R290). -/
def blockOk (p : BitVec 1024) : Bool :=
  let op := blkOp p
  fld p 544 480 = 0 && fld p 52 12 = 0 && op ≤ 5 && blkRed p ≤ 2 && blkFmt p ≤ 3 && (algosOf op).contains (blkAlgo p)
  && (blkDeadline p = 0 || op = 0 || op = 3 || op = 5) && (op ≤ 1 || blkRed p = 0)
  && (if op = 5 then blkCount p = 0 && blkSend p = 0 && blkRecv p = 0 else 1 ≤ blkCount p && blkCount p ≤ 2 ^ 32)
  && (blkSend p).toNat % 256 = 0 && (blkRecv p).toNat % 256 = 0 && fld p 320 64 % 8 = 0 && fld p 448 64 % 16 = 0
  && fld p 256 32 % 4096 = 0 && fld p 256 32 ≤ 2 ^ 24

/-- The algorithm that `auto` becomes (R288). -/
def resolveAlgo (p : BitVec 1024) (members : Nat) : Nat :=
  if blkAlgo p ≠ 0 then blkAlgo p else
  match blkOp p with
  | 0 => if members ≤ 8 then 3 else if blkCount p * 4 ≤ 65536 then 2 else 1
  | 1 | 2 => if members ≤ 8 then 3 else 1
  | 4 => 3
  | _ => 2

/-- The bytes of the send and of the receive buffer of a member (Table 17-3). -/
def bufferBytes (p : BitVec 1024) (members : Nat) (root : Bool) : Nat × Nat :=
  let n := blkCount p
  let e := blkElem p
  match blkOp p with
  | 0 => (n * e, n * 4)
  | 1 => (members * n * e, members * n * 4)
  | 2 => (n * e, members * n * e)
  | 3 => (if root then n * e else 0, n * e)
  | 4 => (members * n * e, members * n * e)
  | _ => (0, 0)

/-! ### Round slots (R290, R302) -/

def State.collUnit (s : State) (ctx : BitVec 16) (core : Nat) : CollUnit :=
  (s.colls.find? (fun u => u.ctx = ctx && u.core = core)).getD { ctx := ctx, core := core }

def State.setCollUnit (s : State) (u : CollUnit) : State :=
  { s with colls := s.colls.filter (fun v => !(v.ctx = u.ctx && v.core = u.core)) ++ [u] }

/-- The unit of the executing storer. -/
def State.myColl (s : State) : CollUnit := s.collUnit (s.core.ctx.getD 0) s.coreId

def CollUnit.slot (u : CollUnit) (i : Nat) : Option Round := (u.rounds[i]?).join

def CollUnit.setSlot (u : CollUnit) (i : Nat) (r : Option Round) : CollUnit :=
  { u with rounds := u.rounds.setIfInBounds i r }

def CollUnit.handle (u : CollUnit) (i : Nat) : Word := BitVec.ofNat 64 (((u.gens[i]?).getD 0).toNat * 2 ^ 16 + i)

/-- The round that a handle names. -/
def CollUnit.current (u : CollUnit) (h : Word) : Option (Nat × Round) :=
  let i := h.toNat % 8
  match u.slot i with
  | some r => if h = u.handle i then some (i, r) else none
  | none => none

def Round.p (r : Round) : Nat := grpP r.group
def Round.rank (r : Round) : Nat := grpRank r.group
def Round.root (r : Round) : Nat := blkRoot r.block
def Round.gen (r : Round) : BitVec 32 := BitVec.ofNat 32 (fld r.group 32 32)

def Round.id (r : Round) (ctx : BitVec 16) : RoundId :=
  { ctx := ctx, group := BitVec.ofNat 32 (fld r.group 0 32), gen := r.gen, round := r.n }

/-- The participants in position order, this member's position and the coordinator's. -/
def Round.ranks (r : Round) : List Nat := r.parts.getD []
/-- The consumer word of the member at a position. -/
def Round.word (r : Round) (p : Nat) : BitVec 32 := (r.members[(r.ranks[p]?).getD 0]?).getD 0
def Round.q (r : Round) : Nat := r.ranks.length
def Round.pos (r : Round) : Nat := (r.ranks.findIdx? (· = r.rank)).getD 0
def Round.center (r : Round) : Nat := (r.ranks.findIdx? (· = r.root)).getD 0

/-- The running round with an identity at a core. -/
def CollUnit.running (u : CollUnit) (id : RoundId) : Option (Nat × Round) :=
  (List.range 8).findSome? (fun i => match u.slot i with
    | some r => if r.state = .running ∧ r.id u.ctx = id then some (i, r) else none
    | none => none)

/-! ### The steps of a round (R293 to R296) -/

/-- What a step moves. Places and lengths are bytes, except that `widen`, `comb` and `fold` count elements. -/
inductive Move
  /-- own send elements from `src`, widened, into recv elements from `dst` -/
  | widen (src dst n : Nat)
  /-- own send bytes into recv -/
  | copy (src dst n : Nat)
  /-- bytes of position `p`'s send (or recv) buffer into recv -/
  | get (p : Nat) (send : Bool) (src dst n : Nat)
  /-- recv elements combined with the same elements of position `p`'s recv; `mine` puts the own operand first -/
  | comb (p at_ n : Nat) (mine : Bool)
  /-- recv elements from `dst` become the combination, in position order, of every position's send elements from `src` -/
  | fold (src dst n : Nat)
  deriving DecidableEq, Repr

/-- The elements `lo` to `hi - 1` of segment `k` of a ring or direct all-reduce (R294): first and count. -/
def Round.seg (r : Round) (k : Nat) : Nat × Nat :=
  let n := blkCount r.block
  let q := max 1 r.q
  (k * n / q, (k + 1) * n / q - k * n / q)

/-- Chunks of a broadcast by ring. -/
def Round.chunks (r : Round) : Nat :=
  (blkCount r.block * blkElem r.block + blkChunk r.block - 1) / blkChunk r.block

/-- Ring operations with a step -1. -/
def Round.isRing (r : Round) : Bool := r.algo = 1 && blkOp r.block ≠ 3

/-- How many steps a round has, the step -1 included: steps are numbered from 0 in that order. -/
def Round.total (r : Round) : Nat :=
  match blkOp r.block, r.algo with
  | 0, 1 => 2 * r.q - 1
  | 0, _ => 2
  | 1, 1 | 2, 1 => r.q
  | 3, 1 => r.chunks
  | 5, 2 => 2
  | _, _ => 1

/-- The position `k` places before this one. -/
def Round.back (r : Round) (k : Nat) : Nat := (r.pos + r.q * (k / max 1 r.q + 1) - k) % max 1 r.q

/-- Relative positions of a tree (R295). -/
def Round.rel (r : Round) : Nat := (r.pos + r.q - r.center) % max 1 r.q
def Round.unrel (r : Round) (v : Nat) : Nat := (v + r.center) % max 1 r.q
def Round.kids (r : Round) : List Nat := ([2 * r.rel + 1, 2 * r.rel + 2].filter (· < r.q)).map r.unrel
def Round.parent (r : Round) : Nat := r.unrel ((r.rel - 1) / 2)
def Round.others (r : Round) : List Nat := (List.range r.q).filter (· ≠ r.pos)

/-- The step of a tree's down phase. -/
def Round.down (r : Round) : Nat := if blkOp r.block = 3 then 0 else 1

/-- The reports that step `j` waits for: position and step (R293). -/
def Round.needs (r : Round) (j : Nat) : List (Nat × Nat) :=
  if r.isRing then (if j = 0 ∨ r.q = 1 then [] else [(r.back 1, j - 1), ((r.pos + 1) % max 1 r.q, j - 1)])
  else match r.algo, blkOp r.block with
  | 1, _ => if r.rel = 0 then [] else [(r.back 1, j)]
  | 2, _ => if j = r.down then (if r.rel = 0 then [] else [(r.parent, j)]) else r.kids.map (fun k => (k, 0))
  | _, 0 => if j = 0 then [] else r.others.map (fun x => (x, 0))
  | _, 5 => if r.pos = r.center then r.others.map (fun x => (x, 0)) else []
  | _, _ => []

/-- The reports that completion waits for: every participant's whose steps read this member's buffers (R298). -/
def Round.finals (r : Round) : List (Nat × Nat) :=
  if r.isRing then (if r.q = 1 then [] else [((r.pos + 1) % max 1 r.q, r.total - 1)])
  else match r.algo, blkOp r.block with
  | 1, _ => if r.rel + 1 < r.q then [((r.pos + 1) % max 1 r.q, r.total - 1)] else []
  | 2, 5 => []
  | 2, _ => r.kids.map (fun k => (k, r.down))
  | _, 0 => r.others.map (fun x => (x, 1))
  | _, 3 => if r.pos = r.center then r.others.map (fun x => (x, 0)) else []
  | _, 5 => if r.pos = r.center then [] else [(r.center, 0)]
  | _, _ => r.others.map (fun x => (x, 0))

/-- What step `j` moves, in its order (R294 to R296). -/
def Round.moves (r : Round) (j : Nat) : List Move :=
  let n := blkCount r.block
  let b := n * blkElem r.block
  let prev := r.back 1
  let me := r.pos
  match blkOp r.block, r.algo with
  | 0, 1 =>
    if j = 0 then [.widen 0 0 n]
    else if j < r.q then let x := r.seg (r.back j); [.comb prev x.1 x.2 false]
    else let x := r.seg (r.back (j - r.q)); [.get prev false (4 * x.1) (4 * x.1) (4 * x.2)]
  | 0, 2 =>
    if j = 0 then .widen 0 0 n :: r.kids.map (fun k => .comb k 0 n true)
    else if r.rel = 0 then [] else [.get r.parent false 0 0 (4 * n)]
  | 0, _ =>
    if j = 0 then let x := r.seg me; [.fold x.1 x.1 x.2]
    else r.others.map (fun k => let x := r.seg k; .get k false (4 * x.1) (4 * x.1) (4 * x.2))
  | 1, 1 => if j = 0 then [.widen 0 0 (r.q * n)] else [.comb prev (r.back (j + 1) * n) n false]
  | 1, _ => [.fold (me * n) (me * n) n]
  | 2, 1 => if j = 0 then [.copy 0 (me * b) b] else let k := r.back j; [.get prev false (k * b) (k * b) b]
  | 2, _ => (List.range r.q).map (fun k => if k = me then .copy 0 (k * b) b else .get k true 0 (k * b) b)
  | 3, 1 =>
    let o := j * blkChunk r.block
    let m := min (blkChunk r.block) (b - o)
    if r.rel = 0 then [.copy o o m] else [.get prev false o o m]
  | 3, 2 => if r.rel = 0 then [.copy 0 0 b] else [.get r.parent false 0 0 b]
  | 3, _ => if r.rel = 0 then [.copy 0 0 b] else [.get r.center true 0 0 b]
  | 4, _ => (List.range r.q).map (fun k => if k = me then .copy (me * b) (k * b) b else .get k true (me * b) (k * b) b)
  | _, _ => []

/-- Lengths of at most `size` that make up `n`, with their offsets. -/
def pieces (size n : Nat) : List (Nat × Nat) :=
  (List.range ((n + size - 1) / size)).map (fun i => (i * size, min size (n - i * size)))

/-- A move cut so that a pull moves at most chunk bytes, in ascending offset order (R296). -/
def Round.split (r : Round) (m : Move) : List Move :=
  let c := blkChunk r.block
  match m with
  | .get p send src dst n => (pieces c n).map (fun x => .get p send (src + x.1) (dst + x.1) x.2)
  | .comb p at_ n mine => (pieces (c / 4) n).map (fun x => .comb p (at_ + x.1) x.2 mine)
  | .fold src dst n => (pieces (c / blkElem r.block) n).map (fun x => .fold (src + x.1) (dst + x.1) x.2)
  | m => [m]

/-- What a move pulls: position, which buffer, offset and length in bytes, in the order in which it uses them. -/
def Round.pulls (r : Round) (m : Move) : List (Nat × Bool × Nat × Nat) :=
  match m with
  | .widen .. | .copy .. => []
  | .get p send src _ n => [(p, send, src, n)]
  | .comb p at_ n _ => [(p, false, 4 * at_, 4 * n)]
  | .fold src _ n => r.others.map (fun k => (k, true, blkElem r.block * src, blkElem r.block * n))

/-! ### Combining (R292) -/

/-- A send element widened to the receive format. -/
def widenElem (fmt c : Nat) : Nat :=
  match fmt with
  | 1 => f32F.rne (bf16F.value c)
  | 2 => f32F.rne (fp16F.value c)
  | _ => c

/-- A combine of two elements of the receive format. -/
def combElem (red fmt u v : Nat) : Nat :=
  match red, fmt with
  | 0, 3 => (u + v) % 2 ^ 32
  | 0, _ => f32F.rne (Num.add .rne (f32F.value u) (f32F.value v))
  | 1, 3 => pickCode .i32 true u v
  | 1, _ => pickCode .f32 true u v
  | _, 3 => pickCode .i32 false u v
  | _, _ => pickCode .f32 false u v

/-- The elements of `e` bytes of a buffer. -/
def elemsOf (e : Nat) (bs : List Byte) : List Nat :=
  (List.range (bs.length / e)).map (fun i => leNat ((bs.drop (e * i)).take e))

def elemBytes (l : List Nat) : List Byte := l.flatMap (leBytes 4)

/-! ### Performing a step -/

/-- How a step can fail to perform: the peer bytes that came with it do not reach, or an access faults; `used` counts the traffic
until then. -/
inductive StepStop | short | flt (used : List (Nat × Nat)) (f : Flt)

/-- A step in progress: the state, and the peer bytes not used yet. -/
abbrev Stepping := State × List Byte

def State.toStep {α : Type} (s : State) : Except Flt α → Except StepStop α
  | .ok a => .ok a
  | .error f => .error (.flt s.used f)

/-- The port operation of a core that reads its buffers for a round (R345). -/
def State.roundKeys (s : State) (id : RoundId) (owner : Nat) : List PortKey :=
  match (s.collUnit id.ctx owner).running id with | some (i, _) => [⟨owner, id.ctx, .round i⟩] | none => []

/-- `n` bytes at `a` as the reducer lanes read them for a round, from a buffer of core `owner` for the member in focus: by
the owner's port path (R345), and lost units note DLOST of the member's storer (R382). -/
def State.stepRead (s : State) (id : RoundId) (owner : Nat) (a : Word) (n : Nat) : Except StepStop (State × List Byte) := do
  let ctx := id.ctx
  let cx := s.findCtx ctx
  let t := s.costs cx owner a n false
  let sp ← t.toStep (s.spans cx owner a n false)
  let bs ← t.toStep (s.readSpans (s.portBytes (s.roundKeys id owner) s.node.toNat s.coreId) a 0 sp)
  let s := if sp.any (fun p => s.lostIn p.1 p.2) then
      s.onContext ctx s.coreId (fun t => t.setComp .storer { t.core.storer with dlost := true })
    else s
  .ok (s.traffic cx owner a sp, bs)

/-- Bytes of this member's own buffer. -/
def ownBytes (id : RoundId) (a : Word) (off n : Nat) (x : Stepping) : Except StepStop (List Byte × Stepping) := do
  let (t, bs) ← x.1.stepRead id x.1.coreId (a + BitVec.ofNat 64 off) n
  pure (bs, (t, x.2))

/-- A pull: a member of this package is read where its round stands, the bytes of another have come. -/
def pullBytes (r : Round) (id : RoundId) (p : Nat) (send : Bool) (off n : Nat) (x : Stepping) :
    Except StepStop (List Byte × Stepping) := do
  let s := x.1
  let core := wordCore (r.word p)
  match (if s.wordNode (r.word p) = s.node.toNat then (s.collUnit id.ctx core).running id else none) with
  | some (_, y) =>
    let a := if send then blkSend y.block else blkRecv y.block
    let (t, bs) ← s.stepRead id core (a + BitVec.ofNat 64 off) n
    pure (bs, (t, x.2))
  | none => if x.2.length < n then .error .short else pure (x.2.take n, (s, x.2.drop n))

def putRecv (ctx : BitVec 16) (r : Round) (off : Nat) (bs : List Byte) (x : Stepping) : Except StepStop Stepping := do
  let t ← x.1.toStep (x.1.putFor (x.1.findCtx ctx) x.1.coreId (blkRecv r.block + BitVec.ofNat 64 off) bs)
  pure (t, x.2)

/-- The combination in position order of every position's send elements, from position `k` on. -/
def foldSends (ctx : BitVec 16) (r : Round) (id : RoundId) (src n : Nat) :
    Nat → Nat → Option (List Nat) → Stepping → Except StepStop (List Nat × Stepping)
  | 0, _, acc, x => pure (acc.getD [], x)
  | fuel + 1, k, acc, x => do
    let e := blkElem r.block
    let fmt := blkFmt r.block
    let (bs, x) ← if k = r.pos then ownBytes id (blkSend r.block) (e * src) (e * n) x else pullBytes r id k true (e * src) (e * n) x
    let ws := (elemsOf e bs).map (widenElem fmt)
    let acc := match acc with
      | none => ws
      | some l => List.zipWith (combElem (blkRed r.block) fmt) l ws
    foldSends ctx r id src n fuel (k + 1) (some acc) x

/-- One move of a step. -/
def doMove (ctx : BitVec 16) (r : Round) (id : RoundId) (x : Stepping) (m : Move) : Except StepStop Stepping := do
  let e := blkElem r.block
  let fmt := blkFmt r.block
  match m with
  | .widen src dst n =>
    let (bs, x) ← ownBytes id (blkSend r.block) (e * src) (e * n) x
    putRecv ctx r (4 * dst) (elemBytes ((elemsOf e bs).map (widenElem fmt))) x
  | .copy src dst n =>
    let (bs, x) ← ownBytes id (blkSend r.block) src n x
    putRecv ctx r dst bs x
  | .get p send src dst n =>
    let (bs, x) ← pullBytes r id p send src n x
    putRecv ctx r dst bs x
  | .comb p at_ n mine =>
    let (theirs, x) ← pullBytes r id p false (4 * at_) (4 * n) x
    let (own, x) ← ownBytes id (blkRecv r.block) (4 * at_) (4 * n) x
    let (u, v) := if mine then (own, theirs) else (theirs, own)
    putRecv ctx r (4 * at_) (elemBytes (List.zipWith (combElem (blkRed r.block) fmt) (elemsOf 4 u) (elemsOf 4 v))) x
  | .fold src dst n =>
    let (l, x) ← foldSends ctx r id src n r.q 0 none x
    putRecv ctx r (4 * dst) (elemBytes l) x

/-- The reports are in. -/
def Round.holds (r : Round) (needs : List (Nat × Nat)) : Bool :=
  needs.all (fun x => r.got.contains ((r.ranks[x.1]?).getD 0, x.2))

/-! ### Ends (R298 to R300) -/

/-- The contributor record (Table 17-4). -/
def recordBytes (r : Round) (status count : Nat) (ranks : List Nat) (cause : BitVec 32) : List Byte :=
  let bitmap := ranks.foldl (fun m k => m ||| 2 ^ k) 0
  leBytes 4 count ++ leBytes 2 status ++ leBytes 1 r.algo ++ zeros 1 ++ leBytes 4 r.gen.toNat ++ leBytes 4 cause.toNat
    ++ leBytes 512 bitmap

def State.writeRecord (s : State) (ctx : BitVec 16) (r : Round) (bs : List Byte) : State :=
  let a := fldW r.block 448
  if a = 0 then s else s.orReport ctx s.coreId 2 (s.putFor (s.findCtx ctx) s.coreId a bs)

/-- A round's slot at the core in focus, and at the coordinator the start report that it keeps from now on (R291). -/
def State.setRound (s : State) (ctx : BitVec 16) (i : Nat) (r : Round) : State :=
  let u := s.collUnit ctx s.coreId
  let kept := match r.state, r.parts with
    | .running, _ | _, none => u.kept
    | _, some l =>
      if r.rank = r.root then
        u.kept ++ [⟨r.id ctx, l, r, s.cycle + BitVec.ofNat 64 (s.liveness (dieOf s.coreId))⟩]
      else u.kept
  s.setCollUnit { u.setSlot i (some r) with kept := kept }

/-- A message of a round to the member of a rank; with no path to its node it is not sent (R262). -/
def State.sendColl (s : State) (ctx : BitVec 16) (r : Round) (k step : Nat) (body : CollBody) : State :=
  let w := (r.members[k]?).getD 0
  let m (port : Option (Nat × BitVec 256)) : Msg := .coll port w (r.id ctx) r.rank step body
  let n := match body with | .data _ (.data bs) => bs.length | _ => 0
  let kind := match body with | .pull .. => 7 | .data .. => 8 | _ => 10
  if s.wordNode w = s.node.toNat then { s with outbox := s.outbox ++ [m none] }
  else (s.emitFor (s.findCtx ctx) (s.wordNode w) n (s.control ctx 0 kind 0xFF 0) (fun port hdr => m (some (port, hdr)))).getD s

/-- The same to several ranks. -/
def State.tell (s : State) (ctx : BitVec 16) (r : Round) (ks : List Nat) (step : Nat) (body : CollBody) : State :=
  (ks.filter (· ≠ r.rank)).foldl (fun s k => s.sendColl ctx r k step body) s

/-- The step index of the report that a member's round has ended (R303, log entry 48). -/
def endStep : Nat := 2 ^ 32 - 1

/-- A round ends at this member: the other members hear of it, and those not known to have ended it are noted, whether or not they
took part; the one that an abort names as its cause is not (R303, log entry 48). -/
def State.noteAbroad (s : State) (ctx : BitVec 16) (r : Round) (cause : BitVec 32) : State :=
  let others := ((List.range r.p).filter (· ≠ r.rank)).map (fun k => (k, BitVec.ofNat 12 (s.wordNode ((r.members[k]?).getD 0))))
  let u := s.collUnit ctx s.coreId
  let left := others.filter (fun x => !r.got.contains (x.1, endStep) && x.1 ≠ cause.toNat)
  let s := if left.isEmpty then s else s.setCollUnit { u with abroad := u.abroad ++ [⟨r.id ctx, r.job, left⟩] }
  s.tell ctx r (List.range r.p) endStep .step

/-- Another member has ended its round. -/
def CollUnit.ended (u : CollUnit) (id : RoundId) (rank : Nat) : CollUnit :=
  { u with abroad := (u.abroad.map (fun x =>
      if x.id = id then { x with ranks := x.ranks.filter (fun y => y.1 ≠ rank) } else x)).filter (fun x => !x.ranks.isEmpty) }

/-- The report that a member has ended a round reaches this member: noted where the round has ended here, and kept for it where it
has not been issued here yet; where it runs, the round takes it. -/
def State.markOver (s : State) (id : RoundId) (rank : Nat) : State :=
  let u := s.collUnit id.ctx s.coreId
  if u.abroad.any (fun x => x.id = id) then s.setCollUnit (u.ended id rank)
  else if (u.running id).isSome ∨ (s.findCtx id.ctx).isNone ∨ u.ends.contains (id, rank) then s
  else s.setCollUnit { u with ends := u.ends ++ [(id, rank)] }

/-- Completion with status 0, 1 or 2 (R291, R298, R299): the record, then the counter. -/
def State.finishRound (s : State) (ctx : BitVec 16) (i : Nat) (r : Round) : State :=
  let out := !r.ranks.contains r.rank
  let status := if out then 2 else if r.q = r.p then 0 else 1
  let s := s.writeRecord ctx r (recordBytes r status (if out then 0 else r.q) r.ranks 0xFFFFFFFF)
  let ctr := fldW r.block 320
  let s := if ctr = 0 then s else
    s.orReport ctx s.coreId 2 (s.bumpFor (s.findCtx ctx) s.coreId ctr (fld r.block 384 64))
  (s.setRound ctx i { r with state := .complete, status := status }).noteAbroad ctx r 0xFFFFFFFF

/-- COLL_ABORT goes to the storer of the core in focus for a context: posted while the task that issued the round runs there or
lies saved, else noted in the job's completion record (R300, R375). -/
def State.postAbort (s : State) (ctx : BitVec 16) (job : Option Nat) (task : Nat) (handle : Word) : State :=
  let late (t : State) : State := match job with | some j => t.mapJob j (fun j => { j with lateAbort := true }) | none => t
  let there := s.core.ctx = some ctx ∨ s.saved.any (fun v => v.ctx = ctx && v.cluster = clusterOf s.coreId)
  if there then
    s.onContext ctx s.coreId (fun t =>
      if t.core.storer.run = .running ∧ t.core.taskNo = task then t.post .storer ⟨.collAbort, handle, .async⟩ else late t)
  else late s

/-- A member aborts its round (R300). -/
def State.abortRound (s : State) (ctx : BitVec 16) (i : Nat) (r : Round) (cause : BitVec 32) : State :=
  let s := s.tell ctx r (List.range r.p) r.step (.abort cause)
  let s := s.writeRecord ctx r (recordBytes r 3 0 [] cause)
  let s := (s.setRound ctx i { r with state := .aborted, status := 3, causeRank := cause }).noteAbroad ctx r cause
  s.postAbort ctx r.job r.task ((s.collUnit ctx s.coreId).handle i)

/-! ### Starting (R290, R291) -/

/-- The coordinator sends the start report to every member. -/
def State.startRound (s : State) (ctx : BitVec 16) (i : Nat) (r : Round) : State :=
  let parts := (List.range r.p).filter r.ready.contains
  (s.setRound ctx i { r with parts := some parts, since := s.cycle }).tell ctx r (List.range r.p) r.step (.start parts)

/-- The buffers' bytes translate, with the right, and lie in this package's HBM (R290): the walks that this takes, or the first
that does not. -/
def State.hbmCheck (s : State) (a : Word) (n : Nat) (w : Bool) : Except Stop State :=
  (cuts a.toNat (n / 4096 + 2) 0 n).foldlM (fun (s : State) c => do
    let at_ := a + BitVec.ofNat 64 c.1
    let loc ← s.lift (s.locate at_ c.2 w)
    let s := s.spend s.cx (s.walkBytes s.cx s.coreId at_)
    if loc < 0xC000000000 then pure s else s.fail .prot at_) s

/-- The members' words are valid, and this core of this node is the member of its rank. -/
def State.membersOk (s : State) (l : List (BitVec 32)) (rank : Nat) : Bool :=
  l.all (s.consumerOk (s.core.ctx.getD 0))
  && (match l[rank]? with
    | some w => s.wordNode w = s.node.toNat && w.toNat % 1024 = s.coreId
    | none => false)

/-- The start of a round in slot `i` (R290, R291). The slot's generation rises at each, so that its first handle has generation 1
(log entry 111). -/
def State.openRound (s : State) (d : SReg) (p : BitVec 1024) (g : BitVec 512) (l : List (BitVec 32)) (i : Nat) : State :=
  let u := s.myColl
  let u := { u with gens := u.gens.setIfInBounds i ((u.gens[i]?).getD 0 + 1) }
  let rank := grpRank g
  let coord := rank = blkRoot p
  let r : Round := {
    block := p, group := g, members := l, n := BitVec.ofNat 32 (fld g 96 32), algo := resolveAlgo p (grpP g)
    job := s.jobHere, task := s.core.taskNo, issued := s.cycle, since := s.cycle, ready := if coord then [rank] else [] }
  let id := r.id u.ctx
  let r := { r with got := (u.ends.filter (fun x => x.1 = id)).map (fun x => (x.2, endStep)) }
  let u := { u with ends := u.ends.filter (fun x => x.1 ≠ id) }
  let s := (s.setCollUnit (u.setSlot i (some r))).wr d (u.handle i)
  if !coord then s.tell u.ctx r [blkRoot p] 0 .ready
  else if grpP g = 1 then s.startRound u.ctx i r else s

/-- A long read by the executing companion core, in the parts of `cuts`. -/
def State.loadParts (s : State) (cls : Option (BitVec 4)) (a : Word) : List (Nat × Nat) → Except Stop (State × List Byte)
  | [] => .ok (s, [])
  | x :: t => do
    let (s, bs) ← s.lift (s.load cls (a + BitVec.ofNat 64 x.1) x.2)
    let (s, rest) ← s.loadParts cls a t
    pure (s, bs ++ rest)

/-- `coll` (R290): a refusal or a trap comes before the release, which waits until the combining buffer can be sent. Of several free
slots it takes the lowest (log entry 110). -/
def State.coll (s : State) (d : SReg) (a : Word) : Except Stop State := do
  if a.toNat % 128 ≠ 0 then .error (.trap .align a) else
  let (s, bs) ← s.lift (s.load (some 0) a 128)
  let p := recordOf 1024 bs
  if !blockOk p then .ok (s.wr d (refusalWord 1)) else
  let ga := BitVec.ofNat 64 (0xFF00000200000000 + 64 * blkGroup p)
  let (s, gs) ← s.lift (s.load (some 0) ga 64)
  let g := recordOf 512 gs
  let la := fldW g 128
  if fld g 192 320 ≠ 0 ∨ la.toNat % 4 ≠ 0 ∨ grpP g = 0 ∨ 4096 < grpP g ∨ grpP g ≤ grpRank g ∨ grpP g ≤ blkRoot p then
    .ok (s.wr d (refusalWord 3)) else
  let (s, ls) ← (s.loadParts (some 0) la (cuts la.toNat 6 0 (4 * grpP g)))
  let l := (elemsOf 4 ls).map (BitVec.ofNat 32)
  if !s.membersOk l (grpRank g) then .ok (s.wr d (refusalWord 3)) else
  match (List.range 8).find? (fun i => (s.myColl.slot i).isNone) with
  | none => .ok (s.wr d (refusalWord 2))
  | some i =>
    let (ns, nr) := bufferBytes p (grpP g) (grpRank g = blkRoot p)
    let s ← s.hbmCheck (blkSend p) ns false
    let s ← s.hbmCheck (blkRecv p) nr true
    let t ← s.lift (s.putFor s.cx s.coreId (ga + 12) (leBytes 4 (fld g 96 32 + 1)))
    if !t.combinedReady (fun _ => true) then .error .wait else
    let t := { t with groups := if t.groups.contains l then t.groups else t.groups ++ [l] }
    .ok (((t.fencedX 0xFFFF .group).notePort .storer (t.portKey (.round i))).openRound d p g l i)

def execColl (d a : SReg) (s : State) : Host.Outcome State Fault Refusal :=
  fired (companionOp s [.storer] (do
    let t ← s.coll d (s.rd a)
    .ok (t.advance 4)))

def execCwait (d a : SReg) (s : State) : Host.Outcome State Fault Refusal :=
  companionOp s [.storer] (
    match s.myColl.current (s.rd a) with
    | none => .ok ((s.wr d (BitVec.allOnes 64)).advance 4)
    | some (i, r) =>
      if r.state = .running then .error .wait
      else .ok (((s.setCollUnit (s.myColl.setSlot i none)).wr d (BitVec.ofNat 64 r.status)).advance 4))

/-- What `cstat` returns (R302). -/
def Round.stat (r : Round) (b : Word) : Word :=
  if b = 0 then
    let st := match r.state with | .running => 1 | .complete => 2 | .aborted => 3
    let parts := match r.parts with
      | some l => l.length
      | none => if r.rank = r.root then r.ready.length else 0
    BitVec.ofNat 64 (st * 2 ^ 62 + r.sent % 65536 * 2 ^ 32 + parts)
  else if b = 1 then r.gen.setWidth 64
  else BitVec.allOnes 64

def execCstat (d a b : SReg) (s : State) : Host.Outcome State Fault Refusal :=
  companionOp s [.storer] (
    let v := match s.myColl.current (s.rd a) with
      | none => BitVec.allOnes 64
      | some (_, r) => r.stat (s.rd b)
    .ok ((s.wr d v).advance 4))

/-! ### Events -/

/-- The rank whose report a round has waited for too long (R291, R300): the cycle after which the wait has run out, and it. -/
def State.roundWait (s : State) (r : Round) : Option (Nat × Nat) :=
  let t := s.liveness (dieOf s.coreId)
  match r.parts with
  | none =>
    if r.rank ≠ r.root then some (r.issued.toNat + blkDeadline r.block * 1000 + t, r.root)
    else if blkDeadline r.block ≠ 0 then none
    else (List.range r.p).find? (fun k => !r.ready.contains k) |>.map (fun k => (r.issued.toNat + t, k))
  | some _ =>
    let needs := if r.step < r.total then r.needs r.step else r.finals
    needs.findSome? (fun x =>
      let k := (r.ranks[x.1]?).getD 0
      if r.got.contains (k, x.2) then none else some (r.since.toNat + t, k))

/-- A running round at the core in focus for which time is up aborts: the report it waits for comes too late. -/
def State.overdue (s : State) (ctx : BitVec 16) (i : Nat) (r : Round) : Option State :=
  match (if r.state = .running then s.roundWait r else none) with
  | some (t, k) => if t < s.cycle.toNat then some (s.abortRound ctx i r (BitVec.ofNat 32 k)) else none
  | none => none

/-- The coordinator's deadline has passed, and it has not started the round (R291). -/
def State.deadlineOver (s : State) (r : Round) : Bool :=
  r.state = .running && r.rank = r.root && r.parts.isNone && blkDeadline r.block ≠ 0
  && r.issued.toNat + blkDeadline r.block * 1000 < s.cycle.toNat

/-- A ready report reaches the coordinator (R285, R291); a kept start report answers it for the liveness timeout only, and one
that comes after the deadline is answered by the start without it. -/
def execCollReadyReport (id : RoundId) (sender : Sender) (s : State) : Host.Outcome State Fault Refusal :=
  let u := s.collUnit id.ctx s.coreId
  let k := sender.rank.toNat
  match u.running id with
  | some (i, r) =>
    if r.rank ≠ r.root ∨ r.p ≤ k then .next s else
    match r.parts with
    | some l => .next (s.tell id.ctx r [k] r.step (.start l))
    | none =>
      if s.deadlineOver r then .next (s.startRound id.ctx i r) else
      match s.overdue id.ctx i r with
      | some t => .next t
      | none =>
        let r := { r with ready := if r.ready.contains k then r.ready else r.ready ++ [k] }
        .next (if r.ready.length = r.p then s.startRound id.ctx i r else s.setRound id.ctx i r)
  | none =>
    match u.kept.find? (fun x => x.id = id && s.cycle.toNat < x.until_.toNat) with
    | some x => .next (s.tell id.ctx x.round [k] x.round.step (.start x.parts))
    | none => .next s

/-- The coordinator's deadline passes (R291). -/
def execCollDeadline (ctx : BitVec 16) (slot : BitVec 3) (s : State) : Host.Outcome State Fault Refusal :=
  match (s.collUnit ctx s.coreId).slot slot.toNat with
  | some r => .next (if s.deadlineOver r then s.startRound ctx slot.toNat r else s)
  | none => .next s

/-- The coordinator's start report reaches a member (R291): it takes part, or is excluded and completes at once. -/
def execCollStartReport (id : RoundId) (report : StartReport) (s : State) :
    Host.Outcome State Fault Refusal :=
  match (s.collUnit id.ctx s.coreId).running id with
  | some (i, r) =>
    if r.parts.isSome ∨ r.rank = r.root ∨ report.sender.rank.toNat ≠ r.root then .next s else
    match s.overdue id.ctx i r with
    | some t => .next t
    | none =>
      let r := { r with parts := some ((List.range r.p).filter report.ranks.contains), since := s.cycle }
      if r.ranks.contains r.rank then .next (s.setRound id.ctx i r) else fired (.next (s.finishRound id.ctx i r))
  | none => .next s

/-- A step of a round is done: it is reported to the other participants (R293). -/
def State.endStep (s : State) (ctx : BitVec 16) (i : Nat) (r : Round) : State :=
  (s.setRound ctx i { r with step := r.step + 1, sent := r.sent + 1, piece := 0, since := s.cycle }).tell ctx r r.ranks r.step .step

/-- The next move of a step, `m`, its bytes of members of other nodes being `bs`; `last` ends the step. -/
def State.stepMove (s : State) (ctx : BitVec 16) (i : Nat) (r : Round) (m : Move) (bs : List Byte) (last : Bool) : State :=
  match doMove ctx r (r.id ctx) (s, bs) m with
  | .ok (t, _) =>
    let r := { r with piece := r.piece + 1, asked := false, due := [], buf := [] }
    if last then t.endStep ctx i r else t.setRound ctx i { r with since := s.cycle }
  | .error .short => s
  | .error (.flt used (c, ea)) =>
    ({ s with used := used }.faultTraffic (s.findCtx ctx) s.coreId c ea).abortRound ctx i r (BitVec.ofNat 32 r.rank)

/-- The member of a position is on another node. -/
def State.isFar (s : State) (r : Round) (p : Nat) : Bool := s.wordNode (r.word p) ≠ s.node.toNat

/-- The bytes that a move pulls from members of other nodes. -/
def State.farBytes (s : State) (r : Round) (m : Move) : Nat :=
  (((r.pulls m).filter (fun x => s.isFar r x.1)).map (fun x => x.2.2.2)).sum

/-- The next move of the step in progress, and whether it ends the step. -/
def Round.next (r : Round) : Option (Move × Bool) :=
  let ms := (r.moves r.step).flatMap r.split
  ms[r.piece]?.map (fun m => (m, r.piece + 1 = ms.length))

/-- The pulls of a move are booked on the timetable of the member's step pulls (R145, R283), and those from members of other nodes
on that of the port that they come by too (R265, log entry 107). -/
def State.bookStep (s : State) (ctx : BitVec 16) (i : Nat) (r : Round) (m : Move) : State :=
  let (s, due) := (r.pulls m).foldl (fun (a : State × List ((Nat × Bool × Nat × Nat) × Nat)) x =>
    let (t, there) := if a.1.isFar r x.1 then a.1.bookPort (a.1.wordNode (r.word x.1)) x.2.2.2 else (a.1, 0)
    let u := t.collUnit ctx t.coreId
    let (here, free) := bookAt u.free t.cycle.toNat x.2.2.2 256 2048
    (t.setCollUnit { u with free := free }, a.2 ++ [(x, max here there)])) (s, [])
  s.setRound ctx i { r with asked := true, due := due, since := s.cycle }

/-- The booked pulls whose cycle has come are released: those from members of other nodes are sent. A dead peer among them aborts
the round (R300). -/
def State.sendStep (s : State) (ctx : BitVec 16) (i : Nat) (r : Round) : State :=
  let go := r.due.filter (fun x => x.2 ≤ s.cycle.toNat && s.isFar r x.1.1)
  match go.find? (fun x => s.isDead (dieOf s.coreId) (BitVec.ofNat 12 (s.wordNode (r.word x.1.1)))) with
  | some x => s.abortRound ctx i r (BitVec.ofNat 32 ((r.ranks[x.1.1]?).getD 0))
  | none =>
  go.foldl (fun s x => s.sendColl ctx r ((r.ranks[x.1.1]?).getD 0) r.step (.pull x.1.2.1 x.1.2.2.1 x.1.2.2.2))
    (s.setRound ctx i { r with due := r.due.filter (fun x => s.cycle.toNat < x.2) })

/-- A round's next move can go on without a packet from outside: a booked pull of it is due, or all of it is there. -/
def State.stepReady (s : State) (r : Round) : Bool :=
  r.due.any (fun x => x.2 ≤ s.cycle.toNat)
    || r.due.isEmpty && (match r.next with | some (m, _) => r.buf.length = s.farBytes r m | none => false)

/-- A step of a round goes on, once the reports that it waits for are in (R293): its next move performs. What it pulls is booked
and released first, and `ans` brings the packets of the answers from other nodes, of at most 4,096 B each (R259, R283). A fault
aborts the round (R300). -/
def execCollStep (ctx : BitVec 16) (slot : BitVec 3) (ans : PullAnswer) (s : State) : Host.Outcome State Fault Refusal :=
  match (s.collUnit ctx s.coreId).slot slot.toNat with
  | none => .next s
  | some r =>
    let i := slot.toNat
    if !(r.state = .running && r.ranks.contains r.rank && decide (r.step < r.total) && r.holds (r.needs r.step)) then .next s else
    match r.next with
    | none => .next (s.endStep ctx i r)
    | some (m, last) =>
      let need := s.farBytes r m
      if (r.pulls m).isEmpty then .next (s.stepMove ctx i r m [] last)
      else if !r.asked then .next (s.bookStep ctx i r m)
      else if r.due.any (fun x => x.2 ≤ s.cycle.toNat) then .next (s.sendStep ctx i r)
      else if r.due.isEmpty ∧ r.buf.length = need then .next (s.stepMove ctx i r m r.buf last)
      else if need = 0 then .next s
      else match ans with
        | .data bs =>
          let buf := r.buf ++ bs
          if bs.isEmpty ∨ 4096 < bs.length ∨ need < buf.length then .next s
          else if r.due.isEmpty ∧ buf.length = need then .next (s.stepMove ctx i r m buf last)
          else .next (s.setRound ctx i { r with buf := buf })
        | _ => .next (s.abortRound ctx i r (BitVec.ofNat 32 r.rank))

/-- A step pull of a member on another node is answered from this member's buffers, by the core's port path (R283, R345). -/
def State.serveStep (s : State) (q : StepPull) (off : Word) (len : Nat) : State :=
  match (s.collUnit q.id.ctx s.coreId).running q.id with
  | none => s
  | some (_, r) =>
    let w := (r.members[q.rank.toNat]?).getD 0
    let a := (if q.send then blkSend r.block else blkRecv r.block) + off
    let cx := s.findCtx q.id.ctx
    let ans := match s.portFetch cx s.coreId (s.roundKeys q.id s.coreId) (s.wordNode w) (wordCore w) a len with | .ok bs => PullAnswer.data bs | .error _ => .faulted
    (answerParts ans).foldl (fun s x => s.sendColl q.id.ctx r q.rank.toNat q.step (.data (off.toNat + x.1) x.2))
      (s.costsWhole cx s.coreId a len false)

/-- A pull request of another node reaches this core (R146, R283). -/
def execPullRequestServe (req : PullReq) (s : State) : Host.Outcome State Fault Refusal :=
  .next (match req.coll with
    | some q => s.serveStep q req.addr req.len
    | none => s.servePull req)

def execCollStepReport (id : RoundId) (rank : BitVec 16) (step : Nat) (s : State) : Host.Outcome State Fault Refusal :=
  let s := if step = endStep then s.markOver id rank.toNat else s
  match (s.collUnit id.ctx s.coreId).running id with
  | some (i, r) =>
    if r.got.contains (rank.toNat, step) then .next s
    else
      match s.overdue id.ctx i r with
      | some t => .next t
      | none =>
        let t := { r with got := r.got ++ [(rank.toNat, step)] }
        let since := if r.step < r.total ∧ t.holds (r.needs r.step) ∧ !r.holds (r.needs r.step) then s.cycle else r.since
        .next (s.setRound id.ctx i { t with since := since })
  | none => .next s

def execCollRoundComplete (ctx : BitVec 16) (slot : BitVec 3) (s : State) : Host.Outcome State Fault Refusal :=
  match (s.collUnit ctx s.coreId).slot slot.toNat with
  | some r =>
    if r.state = .running ∧ r.ranks.contains r.rank ∧ r.step = r.total ∧ r.holds r.finals then
      fired (.next (s.finishRound ctx slot.toNat r))
    else .next s
  | none => .next s

def execCollAbortReport (id : RoundId) (report : AbortReport) (s : State) :
    Host.Outcome State Fault Refusal :=
  let s := s.markOver id report.sender.rank.toNat
  match (s.collUnit id.ctx s.coreId).running id with
  | some (i, r) => .next (s.abortRound id.ctx i { r with got := r.got ++ [(report.sender.rank.toNat, endStep)] } report.cause)
  | none => .next s

/-- A waited-for report has not come within the liveness timeout (R300). -/
def execCollWaitTimeout (ctx : BitVec 16) (slot : BitVec 3) (s : State) : Host.Outcome State Fault Refusal :=
  match (s.collUnit ctx s.coreId).slot slot.toNat with
  | some r => .next ((s.overdue ctx slot.toNat r).getD s)
  | none => .next s

/-- The positions whose reports or bytes the steps of a round need, or whose reports its completion does; none of a round that has
not started. -/
def Round.peers (r : Round) : List Nat :=
  if r.parts.isNone then [] else
  (List.range r.total).flatMap (fun j => (r.needs j).map (·.1) ++ (r.moves j).flatMap (fun m => (r.pulls m).map (·.1)))
    ++ r.finals.map (·.1)

/-- A round whose participants are those of the start report, or, where it has not started and has no deadline, all its members
(R291): what steps it has. -/
def Round.settled (r : Round) : Round :=
  if r.parts.isNone ∧ blkDeadline r.block = 0 then { r with parts := some (List.range r.p) } else r

/-- The running rounds of this package with a peer on a node that is dead abort, naming that peer (R300); a dead node's members
are waited for no more. -/
def State.abortDead (s : State) (node : BitVec 12) : State :=
  s.colls.foldl (fun s v =>
    s.onCore v.core (fun s =>
      if !s.isDead (dieOf v.core) node then s else
      let s := (List.range 8).foldl (fun s i =>
        match (s.collUnit v.ctx v.core).slot i with
        | some r =>
          if r.state ≠ .running then s else
          let x := r.settled
          match x.peers.find? (fun p => s.wordNode (x.word p) = node.toNat) with
          | some p => s.abortRound v.ctx i r (BitVec.ofNat 32 ((x.ranks[p]?).getD 0))
          | none => s
        | none => s) s
      let u := s.collUnit v.ctx v.core
      if u.abroad.isEmpty then s else
      s.setCollUnit { u with abroad := (u.abroad.map (fun x =>
        { x with ranks := x.ranks.filter (fun y => y.2 ≠ node) })).filter (fun x => !x.ranks.isEmpty) })) s

/-- A path to a node has gone: with no usable alternative left every crossing's session for it is dead (R264). -/
def State.sever (s : State) (node : BitVec 12) : State :=
  if node = s.node ∨ !s.unreachable node.toNat then s else ((s.killNode node).abortDead node).askAll

/-- A Krytway port loses lanes (R266): it runs at half width, or is down and firmware clears live on every route through
it. CAP_LINKS keeps what it held at reset (R410, log entry 86). -/
def execLinkLaneLoss (port : BitVec 5) (down : Bool) (s : State) : Host.Outcome State Fault Refusal :=
  let p := port.toNat
  let links := setBit (setBit s.links (2 * p) (!down)) (2 * p + 1) false
  let dead (x : Nat × Word) : Bool := down && portOf (x.1 / 16384) x.2 = p
  let nodes := ((s.paths.filter dead).map (fun x => BitVec.ofNat 12 (x.1 / 4))).eraseDups
  let s := { s with
    links := if s.width p = 0 then s.links else links
    paths := s.paths.map (fun x => if dead x then (x.1, setBit x.2 51 false) else x) }
  fired (.next (nodes.foldl State.sever s))

/-- A node is dead (R264): its sessions' packets fail, and rounds that need it abort (R300). -/
def execNodeDead (node : BitVec 12) (s : State) : Host.Outcome State Fault Refusal :=
  let dies := (List.range 8).filter (fun d =>
    let x := s.session d node
    node ≠ s.node && !x.dead && s.sessionDead x)
  fired (.next ((dies.foldl (fun s d => s.killSession (s.session d node)) s).abortDead node).askAll)

/-- The packets to a node that 16,384 cycles have left unacknowledged go again (R263); with no path left it is dead. -/
def execAckTimeout (node : BitVec 12) (s : State) : Host.Outcome State Fault Refusal :=
  fired (.next ((s.resendAll node).abortDead node).askAll)

/-- The coordinator stops keeping a start report (R291). -/
def execCoordinatorStartReportExpiry (id : RoundId) (s : State) : Host.Outcome State Fault Refusal :=
  let u := s.collUnit id.ctx s.coreId
  .next (s.setCollUnit { u with kept := u.kept.filter (fun x => !(x.id = id && x.until_.toNat ≤ s.cycle.toNat)) })

end Sys2Proof.Machine
end

