-- ==== Sys2Proof/Machine/Matrix.lean ====
section
/-! DEFINITION. The matrix engine: the format-word queue, macros, accumulators, the multiply, exponent control and write-out
(11_matrix_engine). -/

namespace Sys2Proof.Machine

/-! ### Format words (R187, R198, R199) -/

def fwA (w : Word) : Nat := fld w 0 5
def fwB (w : Word) : Nat := fld w 5 5
def fwScaleA (w : Word) : Nat := fld w 10 8
def fwScaleB (w : Word) : Nat := fld w 18 8
def fwCeil (w : Word) : Nat := fld w 26 8
def fwOutliers (w : Word) : Bool := w.getLsbD 34

/-- The checks of R198 when a command pops a word. -/
def fwOk (w : Word) : Bool :=
  fld w 36 28 = 0 && fwA w < 20 && fwB w < 28 && fwB w ≠ 23 && fwScaleA w ≠ 255 && fwScaleB w ≠ 255 && fwCeil w ≠ 255
  && (w.getLsbD 35 = sparseFmt (fwB w))

def execFmtPush (a : SReg) (s : State) : Host.Outcome State Fault Refusal :=
  companionOp s [.sequencer] (
    if 16 ≤ s.core.fmtq.length then .error .wait
    else .ok ({ s with core := { s.core with fmtq := s.core.fmtq ++ [s.rd a] } }.advance 4))

/-! ### Shapes (R202 to R204, R209 to R212) -/

/-- N_m and Km: the columns of a macro by B format, the logical rows by sparseness (R208). -/
def macroCols (fmtB : Nat) : Nat := if fmtB = 1 then 64 else 128
def macroRows (sparse : Bool) : Nat := if sparse then 512 else 256

/-- B tiles whose rows run along K (R181). -/
def rowsAlongK (fmt : Nat) : Bool := fmt ≤ 6 || (13 ≤ fmt && fmt ≤ 16)

/-- A tile that `mload` and `mload.vq` take (R203); code 23 is refused by its format word. -/
def loadShape (v : View) : Bool :=
  v.kind = 1 && (if rowsAlongK v.fmt then v.rows ≤ 256 && v.cols ≤ macroCols v.fmt
    else if v.fmt = 23 then true
    else v.rows ≤ 128 && v.cols ≤ macroRows (sparseFmt v.fmt))

def mmmaShape (vd va : View) (m cnt : Nat) (lay sparse : Bool) : Bool :=
  let n := 2 ^ cnt
  vd.kind = 2 && va.kind = 1 && m % n = 0 && va.cols % 32 = 0 && 32 ≤ va.cols
  && va.cols ≤ (if lay then macroRows sparse * n else macroRows sparse)
  && va.rows = vd.rows && va.rows ≤ 64
  && (if lay then vd.cols = 64 || vd.cols = 128 else vd.cols = 64 * n || vd.cols = 128 * n)

def moutShape (vd va : View) : Bool := vd.kind = 3 && va.kind = 2 && vd.rows = va.rows && vd.cols = va.cols

def mcompShape (vd va : View) : Bool :=
  vd.kind = 1 && va.kind = 1
  && (if va.fmt = 7 then vd.fmt = 27 && va.rows = vd.rows && va.cols = vd.cols
    else (va.fmt = 2 && vd.fmt = 24 || va.fmt = 6 && vd.fmt = 25 || va.fmt = 0 && vd.fmt = 26)
      && va.rows % 4 = 0 && va.rows = vd.cols && va.cols = vd.rows)

def mcodeShape (va : View) : Bool := va.kind = 3 && va.fmt = 4 && va.rows = 1 && va.cols = 256
def outlShape (va : View) : Bool := va.kind = 1 && va.fmt = 23 && va.rows = 1 && va.cols ≤ 512

/-- Whether a matrix command's views suit it, as R202 checks at issue; views in the order vd, va. -/
def matrixOk (i : Instr) (views : List Word) : Bool :=
  let v (k : Nat) : View := View.ofWord (views.getD k 0)
  match i with
  | .mcode .. => mcodeShape (v 0)
  | .mload .. | .mloadVq .. => loadShape (v 0)
  | .mmma _ _ _ _ m cnt lay => mmmaShape (v 0) (v 1) m.toNat cnt.toNat lay false
  | .mmmaSp _ _ _ _ m cnt lay => mmmaShape (v 0) (v 1) m.toNat cnt.toNat lay true
  | .mcomp .. => mcompShape (v 0) (v 1)
  | .outl .. => outlShape (v 0)
  | .azero .. | .aexp .. | .anorm .. => (v 0).kind = 2
  | .mout .. | .moutRet .. => moutShape (v 0) (v 1)
  | _ => false

/-! ### Issue (R201, R202) -/

def mIssue (s : State) (i : Instr) (h : EHdr) (pops narrows : Bool) (views : List WReg) (ops : List Word) :
    Host.Outcome State Fault Refusal :=
  let vs := views.map (fun w => s.core.views[w.toNat])
  issue s i h .sequencer .seqMat { rnd := narrows, sat := narrows } pops
    (if matrixOk i vs then .ok { ops := ops, views := vs } else .error (.trap .illegal 0))

def execMcode (h : EHdr) (va : WReg) (s : State) : Host.Outcome State Fault Refusal :=
  mIssue s (.mcode h va) h false false [va] []
def execMload (h : EHdr) (m : BitVec 3) (va : WReg) (s : State) : Host.Outcome State Fault Refusal :=
  mIssue s (.mload h m va) h true false [va] []
def execMloadVq (h : EHdr) (m : BitVec 3) (va : WReg) (s : State) : Host.Outcome State Fault Refusal :=
  mIssue s (.mloadVq h m va) h true false [va] []
def execMmma (h : EHdr) (cost : BitVec 4) (vd va : WReg) (m : BitVec 3) (cnt : BitVec 2) (lay : Bool) (s : State) :
    Host.Outcome State Fault Refusal :=
  mIssue s (.mmma h cost vd va m cnt lay) h true false [vd, va] []
def execMmmaSp (h : EHdr) (cost : BitVec 4) (vd va : WReg) (m : BitVec 3) (cnt : BitVec 2) (lay : Bool) (s : State) :
    Host.Outcome State Fault Refusal :=
  mIssue s (.mmmaSp h cost vd va m cnt lay) h true false [vd, va] []
def execMcomp (h : EHdr) (vd va : WReg) (s : State) : Host.Outcome State Fault Refusal :=
  mIssue s (.mcomp h vd va) h false false [vd, va] []
def execOutl (h : EHdr) (va : WReg) (s : State) : Host.Outcome State Fault Refusal :=
  mIssue s (.outl h va) h false false [va] []
def execAzero (h : EHdr) (vd : WReg) (e : BitVec 16) (s : State) : Host.Outcome State Fault Refusal :=
  mIssue s (.azero h vd e) h false false [vd] []
def execAexp (h : EHdr) (vd : WReg) (x : SReg) (s : State) : Host.Outcome State Fault Refusal :=
  mIssue s (.aexp h vd x) h false false [vd] [s.rd x]
def execAnorm (h : EHdr) (vd : WReg) (s : State) : Host.Outcome State Fault Refusal :=
  mIssue s (.anorm h vd) h false false [vd] []
def execMout (h : EHdr) (vd va : WReg) (nantrap : Bool) (s : State) : Host.Outcome State Fault Refusal :=
  mIssue s (.mout h vd va nantrap) h false true [vd, va] []
def execMoutRet (h : EHdr) (vd va : WReg) (nantrap : Bool) (s : State) : Host.Outcome State Fault Refusal :=
  mIssue s (.moutRet h vd va nantrap) h false true [vd, va] []

/-! ### Loading B (R203, R204) -/

def dyAbs (x : Dy) : Dy := (x.1.natAbs, x.2)
def dyMax (x y : Dy) : Dy := if x.lt y then y else x

/-- A tile's elements as a function of (k, n), with its sizes along K and N. -/
structure Tile where
  ks : Nat
  ns : Nat
  at_ : Nat → Nat → Elem

def Core.tile (c : Core) (v : View) : Tile :=
  let rows := (List.range v.rows).map (c.tileRow v)
  if rowsAlongK v.fmt then ⟨v.rows, v.cols, fun k n => (rows.getD k []).getD n {}⟩
  else ⟨v.cols, v.rows, fun k n => (rows.getD n []).getD k {}⟩

/-- What R207 compares of the 16 elements from `k0` of column `n`. -/
def Tile.run16 (t : Tile) (fmt k0 n : Nat) : Option (Option Dy) :=
  if blockLen fmt ≠ 0 then some ((t.at_ k0 n).scale.map dyAbs)
  else
    let ps := ((List.range 16).filterMap (fun i => if k0 + i < t.ks then (t.at_ (k0 + i) n).power else none))
    match ps with
    | [] => none
    | p :: r => some (some (1, r.foldl max p))

/-- The macro that a tile loads. -/
def Tile.toMacro (t : Tile) (fmt scale : Nat) : Macro :=
  { loaded := true, fmt := BitVec.ofNat 5 fmt, scale := BitVec.ofNat 8 scale, sparse := sparseFmt fmt
    vals := (List.range t.ks).flatMap (fun k => (List.range t.ns).filterMap (fun n =>
      match (t.at_ k n).value with
      | some x => if x.1 = 0 then none else some (k * 128 + n, some x)
      | none => some (k * 128 + n, none)))
    scales := (List.range ((t.ks + 15) / 16)).flatMap (fun b => (List.range t.ns).filterMap (fun n =>
      (t.run16 fmt (16 * b) n).map (fun x => (16 * b * 128 + n, x)))) }

/-- `mload` and `mload.vq` in the engine. -/
def loadMacro (s : State) (m : Nat) (v : View) (w : Word) (vq : Bool) : Except Flt State :=
  if !fwOk w || v.fmt ≠ fwB w || vq ≠ (fwB w = 20 || fwB w = 21) then .error (.fmt, 0) else
  match s.rsBad v.spans with
  | some e => .error e
  | none =>
    if (List.range v.rows).any (fun r => badGroups v.fmt v.cols (s.core.row v r)) then .error (.fmt, 0)
    else .ok { s with core := { s.core with
      macros := s.core.macros.setIfInBounds m ((s.core.tile v).toMacro v.fmt (fwScaleB w)) } }

def Macro.value (m : Macro) (k n : Nat) : Option Dy :=
  match lookupKey (k * 128 + n) m.vals with
  | none => some (0, 0)
  | some x => mulOpt x (e8m0 m.scale.toNat)

/-! ### Headroom and the scale ceiling (R205 to R207) -/

/-- The greatest element magnitude of a format (R206). -/
def elemMax (fmt : Nat) : Dy :=
  match fmt with
  | 0 | 1 | 26 => (2, 0)
  | 2 | 7 | 24 | 27 => (448, 0)
  | 3 | 8 => (57344, 0)
  | 4 | 9 => (28, 0)
  | 5 | 10 => (15, -1)
  | 6 | 11 | 17 | 25 => (6, 0)
  | 12 => (2, 0)
  | 13 | 18 => (128, 0)
  | 14 => (255, 0)
  | 15 | 19 => (8, 0)
  | 16 => (15, 0)
  | 20 | 21 => (7, -1)
  | _ => (1, 0)

/-- The contribution bound of a command that adds `groups` groups to each column. -/
def contribution (w : Word) (groups : Nat) : Dy :=
  let gb := Dy.mul (32, 0) (Dy.mul (elemMax (fwA w)) (elemMax (fwB w)))
  (gb.1 * (groups + (if fwOutliers w then 1 else 0)), gb.2 + 2 * ((fwCeil w : Int) - 127))

/-- A row that a cost of `h` would leave without a true bound. -/
def AccRow.noHeadroom (x : AccRow) (h : Nat) (c : Dy) : Bool :=
  x.g < h || Dy.lt (((2 ^ h - 1 : Nat) : Int), 63 - (x.g : Int) + x.e) c

/-- `x` exceeds the ceiling of a format word. -/
def overCeil (w : Word) (x : Dy) : Bool := Dy.lt (1, (fwCeil w : Int) - 127) (dyAbs x)

/-- The A group scale, or an element's power with it, exceeds the ceiling in group `γ` of a row. -/
def overA (w : Word) (row : List Elem) (grp : Nat) : Bool :=
  let es := (row.drop (32 * grp)).take 32
  let t : Dy := (1, (fwScaleA w : Int) - 127)
  es.any (fun e =>
    (match e.scale with | some x => overCeil w (Dy.mul x t) | none => false)
    || (match e.power with | some p => overCeil w (Dy.mul (1, p) t) | none => false))

/-- The same for B: columns of a macro, rows from `k0` to `k0 + 31`. -/
def overB (w : Word) (m : Macro) (k0 : Nat) : Bool :=
  let t : Dy := (1, (fwScaleB w : Int) - 127)
  (blockLen (fwB w) = 0 && overCeil w t)
  || (List.range (macroCols (fwB w))).any (fun n => [k0, k0 + 16].any (fun k =>
      match lookupKey (k * 128 + n) m.scales with
      | some (some x) => overCeil w (Dy.mul x t)
      | _ => false))

/-! ### Outliers (R186, R209) -/

def outRow (x : Nat) : Nat := bits x 32 6
def outK (x : Nat) : Nat := bits x 16 16
def outValue (x : Nat) : Option Dy := (bf16F.value (bits x 0 16)).dy

def badOutlier (l : List Nat) (rows ks x : Nat) : Bool :=
  bits x 38 26 ≠ 0 || rows ≤ outRow x || ks ≤ outK x || 32 < (l.filter (fun y => outRow y = outRow x)).length

/-! ### The multiply (R208) -/

/-- The exact sum of one group, `none` when NaN-class. -/
def groupSum (a : List Elem) (ta : Dy) (b : Nat → Option Dy) : Option Dy :=
  ((a.zip (List.range a.length)).foldl (fun (acc : Option Dy) x =>
    match acc, mulOpt x.1.value (b x.2) with
    | some u, some v => some (Dy.add u v)
    | _, _ => none) (some (0, 0))).map (fun x => Dy.mul x ta)

/-- An addition to a mantissa at the row's exponent, or the NaN flag. -/
def addTo (mant : BitVec 64) (e : Int) (x : Option Dy) : BitVec 64 × Bool :=
  match x with
  | some x => (mant + BitVec.ofInt 64 (rneInt x e), false)
  | none => (mant, true)

/-- One column of one row: its groups in ascending K, then the row's outliers in list order. -/
def addColumn (w : Word) (row : List Elem) (b : Nat → Option Dy) (outs : List Nat) (mant : BitVec 64) (e : Int) :
    BitVec 64 × Bool :=
  let ta : Dy := (1, (fwScaleA w : Int) - 127)
  let step (x : BitVec 64 × Bool) (v : Option Dy) : BitVec 64 × Bool := let (m, n) := addTo x.1 e v; (m, x.2 || n)
  let x := (List.range (row.length / 32)).foldl (fun x g =>
    step x (groupSum ((row.drop (32 * g)).take 32) ta (fun i => b (32 * g + i)))) (mant, false)
  outs.foldl (fun x o => step x (mulOpt (outValue o) (b (outK o)))) x

/-- The format-word and macro checks of R208. -/
def mmmaFmt (w : Word) (va vd : View) (set : List Macro) (cnt : Nat) (lay sparse : Bool) : Bool :=
  fwOk w && va.fmt = fwA w
  && set.all (fun q => q.loaded && q.fmt.toNat = fwB w && q.scale.toNat = fwScaleB w && q.sparse = sparse)
  && vd.cols = (if lay then macroCols (fwB w) else macroCols (fwB w) * 2 ^ cnt)

/-- `mmma` and `mmma.sp` in the engine, with the outlier list that they find. Where a group and an outlier residual both exceed the
ceiling, every group is tested before the list (R207, log entry 102). Uncorrectable units of the A view and the accumulator are
tested after the format and macro checks and before the outlier list, the guard words and the ceiling (log entry 114). -/
def multiply (s : State) (vd va : View) (h m cnt : Nat) (lay sparse : Bool) (w : Word) (list : List Nat) : Except Flt State :=
  let set := (List.range (2 ^ cnt)).map (fun j => (s.core.macros[m + j]?).getD {})
  if !mmmaFmt w va vd set cnt lay sparse then .error (.fmt, 0) else
  match s.rsBad (va.spans ++ vd.spans) with
  | some e => .error e
  | none =>
    let outs := if fwOutliers w then list else []
    match (List.range outs.length).find? (fun i => badOutlier outs va.rows va.cols (nthNat outs i)) with
    | some i => .error (.fmt, BitVec.ofNat 64 i)
    | none =>
    let rows := (List.range va.rows).map (s.core.tileRow va)
    let accs := (List.range vd.rows).map (s.core.accRow vd)
    match accs.findIdx? AccRow.badGuard with
    | some r => .error (.headroom, BitVec.ofNat 64 r)
    | none =>
    let km := macroRows sparse
    let groups := va.cols / 32
    let overGroup (g : Nat) : Bool := rows.any (fun r => overA w r g)
      || (if lay then overB w (set.getD (32 * g / km) {}) (32 * g % km) else set.any (fun q => overB w q (32 * g)))
    match (List.range groups).find? overGroup with
    | some g => .error (.scaleCeiling, BitVec.ofNat 64 (32 * g))
    | none =>
    match (List.range outs.length).find? (fun i => match outValue (nthNat outs i) with
        | some x => Dy.lt (Dy.mul (elemMax (fwA w)) (1, (fwCeil w : Int) - 127)) (dyAbs x)
        | none => false) with
    | some i => .error (.scaleCeiling, BitVec.ofNat 64 (2 ^ 32 + i))
    | none =>
    match accs.findIdx? (fun x => x.noHeadroom h (contribution w groups)) with
    | some r => .error (.headroom, BitVec.ofNat 64 r)
    | none =>
    let nm := macroCols (fwB w)
    let bAt (n : Nat) (k : Nat) : Option Dy :=
      if lay then (set.getD (k / km) {}).value (k % km) n else (set.getD (n / nm) {}).value k (n % nm)
    let new := (List.range vd.rows).map (fun r =>
      let x := accs.getD r ⟨[], 0, 0⟩
      let mine := outs.filter (fun o => outRow o = r)
      let cols := (x.mant.zip (List.range vd.cols)).map (fun c => addColumn w (rows.getD r []) (bAt c.2) mine c.1 x.e)
      (AccRow.mk (cols.map (·.1)) x.exp (guardWord (x.nan || cols.any (·.2)) (x.g - h))).write vd r)
    s.rsStore new
where
  nthNat (l : List Nat) (i : Nat) : Nat := l.getD i 0

/-! ### Exponent control (R211) -/

def accZero (s : State) (v : View) (e : BitVec 16) : Except Flt State :=
  s.rsStore ((List.range v.rows).map (fun r =>
    (AccRow.mk (List.replicate v.cols 0) e (guardWord false 23)).write v r))

/-- The rows of an accumulator view, with the checks of what reads them: the guard words of all rows come before any check that the
command makes of its own (log entry 113). -/
def accRows (s : State) (v : View) : Except Flt (List AccRow) :=
  match s.rsBad v.spans with
  | some e => .error e
  | none =>
    let l := (List.range v.rows).map (s.core.accRow v)
    match l.findIdx? AccRow.badGuard with
    | some r => .error (.headroom, BitVec.ofNat 64 r)
    | none => .ok l

/-- A mantissa divided by `2^d`, or multiplied by `2^(-d)`. -/
def shiftMant (m : BitVec 64) (d : Int) : BitVec 64 := BitVec.ofInt 64 (rneInt (m.toInt, 0) d)

/-- `aexp` (R211), the guard words of all rows first (log entry 113). -/
def accExp (s : State) (v : View) (t : BitVec 16) : Except Flt State := do
  let rows ← accRows s v
  match rows.findIdx? (fun x => t.toInt - x.e < 0 && (x.g : Int) + (t.toInt - x.e) < 0) with
  | some r => .error (.headroom, BitVec.ofNat 64 r)
  | none =>
    s.rsStore ((rows.zip (List.range v.rows)).map (fun p =>
      let x := p.1
      let d := t.toInt - x.e
      (AccRow.mk (x.mant.map (shiftMant · d)) t (guardWord x.nan (min 23 ((x.g : Int) + d)).toNat)).write v p.2))

/-- `anorm` (R211), the guard words of all rows first (log entry 113). A row whose g is 23 already is written as any other, so that its
pad bytes become zero (R158, log entry 115). -/
def accNorm (s : State) (v : View) : Except Flt State := do
  let rows ← accRows s v
  match rows.findIdx? (fun x => 32767 < x.e + (23 - (x.g : Int))) with
  | some r => .error (.headroom, BitVec.ofNat 64 r)
  | none =>
    s.rsStore ((rows.zip (List.range v.rows)).map (fun p =>
      let x := p.1
      let d : Int := 23 - (x.g : Int)
      (AccRow.mk (x.mant.map (shiftMant · d)) (BitVec.ofInt 16 (x.e + d)) (guardWord x.nan 23)).write v p.2))

/-! ### Write-out (R212) -/

/-- An accumulator value narrowed to an element type, with its draw. -/
def outCode (t : ElemType) (m : Rnd) (sat : Bool) (g : Word) (x : Dy) : Word × Nat :=
  match t.ffmt with
  | some f => f.narrow m sat g (Num.ofDy x)
  | none => let (g, d) := drawFor m g; (g, (Num.ofDy x).convert t.width t.signed m d)

/-- One row written out: the elements in ascending order. -/
def outRowCodes (t : ElemType) (m : Rnd) (sat : Bool) (x : AccRow) (g : Word) : Word × List Nat :=
  if x.nan then (g, x.mant.map (fun _ => match t.ffmt with | some f => f.canon | none => 0))
  else
    let (g, l) := x.mant.foldl (fun (a : Word × List Nat) v =>
      let (g, c) := outCode t m sat a.1 (v.toInt, x.e)
      (g, c :: a.2)) (g, [])
    (g, l.reverse)

/-- `mout` and `mout.ret` (R212), the guard words of all rows before NAN_ROW of any (log entry 113). -/
def writeOut (s : State) (vd va : View) (nantrap ret : Bool) (p : Prefix) : Except Flt State := do
  let rows ← accRows s va
  match (if nantrap then rows.findIdx? AccRow.nan else none) with
  | some r => .error (.nanRow, BitVec.ofNat 64 r)
  | none =>
    let t := vd.elemType
    let (g, outs) := rows.foldl (fun (a : Word × List (List Nat)) x =>
      let (g, l) := outRowCodes t (p.rnd.getD .rne) p.sat x a.1
      (g, l :: a.2)) (s.core.genMat, [])
    let ws := (outs.reverse.zip (List.range vd.rows)).map (fun x => (vd.rowAddr x.2, x.1.flatMap (leBytes t.width)))
    let clear := if ret then (rows.zip (List.range va.rows)).map (fun x =>
      (AccRow.mk (List.replicate va.cols 0) x.1.exp (guardWord false 23)).write va x.2) else []
    let s ← s.rsStore (ws ++ clear)
    pure { s with core := { s.core with genMat := g } }

/-! ### Compression (R185, R210) -/

/-- `x` counts as greater than `y`: a NaN-class value is above every other. -/
def magGreater (x y : Option Dy) : Bool :=
  match x, y with
  | none, some _ => true
  | some a, some b => Dy.lt (dyAbs b) (dyAbs a)
  | _, none => false

/-- The kept pair of four, ascending. -/
def keepPair (xs : List (Option Dy)) : Nat × Nat :=
  let at_ (i : Nat) : Option Dy := xs.getD i (some (0, 0))
  let beats (i j : Nat) : Bool := magGreater (at_ i) (at_ j) || (!magGreater (at_ j) (at_ i) && i < j)
  let kept := (List.range 4).filter (fun i => ((List.range 4).filter (fun j => j ≠ i && beats j i)).length < 2)
  (kept.getD 0 0, kept.getD 1 1)

/-- Items of `b` bits packed, the first lowest. -/
def pack (b : Nat) (l : List Nat) : Nat := l.foldr (fun x acc => x + 2 ^ b * acc) 0

/-- One sparse row from the codes and values of its logical elements, and the scale part. -/
def sparseRow (fmt cols : Nat) (codes : List Nat) (vals : List (Option Dy)) (scales : Nat) : List Byte :=
  let (_, eb, mb, sb) := tileParts fmt cols
  let pairs := (List.range (cols / 4)).map (fun g => keepPair ((vals.drop (4 * g)).take 4))
  let kept := (pairs.zip (List.range (cols / 4))).flatMap (fun p =>
    [codes.getD (4 * p.2 + p.1.1) 0, codes.getD (4 * p.2 + p.1.2) 0])
  leBytes eb (pack (elemBits fmt) kept) ++ leBytes mb (pack 4 (pairs.map (fun p => p.1 + 4 * p.2))) ++ leBytes sb scales

def compress (s : State) (vd va : View) : Except Flt State :=
  match s.rsBad va.spans with
  | some e => .error e
  | none =>
    let c := s.core
    let code (r j : Nat) : Nat := bits (c.row va r) (elemBits va.fmt * j) (elemBits va.fmt)
    s.rsStore ((List.range vd.rows).map (fun n =>
      let bytes := if va.fmt = 7 then
          sparseRow 27 vd.cols ((List.range vd.cols).map (code n)) ((c.tileRow va n).map (·.value))
            (bits (c.row va n) (8 * ceil8 va.cols) (8 * (va.cols / 32)))
        else
          let codes := (List.range vd.cols).map (fun k => code k n)
          sparseRow vd.fmt vd.cols codes (codes.map (elemValue va.fmt)) 0
      (vd.rowAddr n, bytes)))

/-! ### Execution (R197, R213) -/

/-- The format word that a command reserved leaves the queue, and the command counts as begun (R200, R213). -/
def State.beginMatrix (s : State) (c : Cmd) : State :=
  { s with core := { s.core with
      tiles := s.core.tiles + 1
      fmtq := if c.held then s.core.fmtq.drop 1 else s.core.fmtq
      fmtRes := if c.held then s.core.fmtRes - 1 else s.core.fmtRes } }

/-- A matrix command once its format word is popped. -/
def matrixEffect (c : Cmd) (s : State) : Except Flt State :=
  let v (k : Nat) : View := View.ofWord (c.views.getD k 0)
  let w := c.fmt.getD 0
  if !matrixOk c.instr c.views then .error (.illegal, 0) else
  match c.instr with
  | .mcode .. => match s.rsBad (v 0).spans with
    | some e => .error e
    | none => .ok { s with core := { s.core with
        codebook := Vector.ofFn (fun i : Fin 256 => BitVec.ofNat 16 (s.core.velem (v 0) 0 i.val)) } }
  | .mload _ m _ => loadMacro s m.toNat (v 0) w false
  | .mloadVq _ m _ => loadMacro s m.toNat (v 0) w true
  | .mmma _ h _ _ m cnt lay => multiply s (v 0) (v 1) h.toNat m.toNat cnt.toNat lay false w (c.outl.getD s.core.outliers)
  | .mmmaSp _ h _ _ m cnt lay => multiply s (v 0) (v 1) h.toNat m.toNat cnt.toNat lay true w (c.outl.getD s.core.outliers)
  | .mcomp .. => compress s (v 0) (v 1)
  | .outl .. => match s.rsBad (v 0).spans with
    | some e => .error e
    | none => .ok { s with core := { s.core with
        outliers := (List.range (v 0).cols).map (fun j => s.core.rs.num ((v 0).base + 8 * j) 8) } }
  | .azero _ _ e => accZero s (v 0) e
  | .aexp _ _ _ => accExp s (v 0) (BitVec.ofNat 16 (c.ops.headD 0).toNat)
  | .anorm .. => accNorm s (v 0)
  | .mout _ _ _ t => writeOut s (v 0) (v 1) t false c.pfx
  | .moutRet _ _ _ t => writeOut s (v 0) (v 1) t true c.pfx
  | _ => .ok s

/-- A command of the sequencer's matrix queue or of the follow-on queue in the engine. -/
def runMatrix (c : Cmd) (s : State) : EngEnd :=
  let s := s.beginMatrix c
  engOf {} s (matrixEffect c s)

end Sys2Proof.Machine
end

