-- ==== Sys2Proof/Machine/System.lean ====
section
/-! DEFINITION. Prefix words, traps, the return from a handler, system registers, replay, `disc`, `wfi`, and the translation
instructions (R28 to R30, R77 to R79, R358 to R377). -/

namespace Sys2Proof.Machine

/-- A branch, by the fields of its word (R29): `br`, `br.n`, `brl`, `ret`, `eret`. -/
def isBranchWord (w : Nat) : Bool :=
  w % 4 = 0 && (bits w 3 5 = 0x0C && [1, 2, 3, 4].contains (bits w 26 6) || bits w 3 5 = 0x1C && bits w 26 6 = 1)

/-- Step 4 of Table 2-7 for a prefix at `pa`: the fetch of the next word, then what makes the prefix an orphan. -/
def Companion.orphan (c : Companion) (pa : Nat) : Option Stop :=
  if pa + 4 ≥ 0x10000 then some (.trapPfx .prot (BitVec.ofNat 64 (pa + 4))) else
  let w := c.word (pa + 4)
  if w % 4 = 2 || w.testBit 2 || isBranchWord w then some (.trapPfx .orphanPrefix (BitVec.ofNat 64 (pa + 4))) else none

/-- A prefix waits for its instruction (R30). -/
def execPfx (p : Prefix) (s : State) : Host.Outcome State Fault Refusal :=
  let c := s.me
  match c.orphan c.pc.toNat with
  | some e => settle s (.error e)
  | none =>
    .next ((s.setMe { c with
      pfx := some ⟨p, c.pc, BitVec.ofNat 32 (c.word c.pc.toNat)⟩ }).advance 4)

/-! ### Traps and the return (R361, R370, R372) -/

/-- A posted trap that the companion core can take (R359, R360). -/
def State.trapReady (s : State) (r : Role) : Bool :=
  let c := s.core.comp r
  !c.h && !c.posted.isEmpty && c.run = .running && s.live

/-- A companion core takes the posted trap that is its turn (R359 to R361). -/
def execTrapEntry (r : Role) (s : State) : Host.Outcome State Fault Refusal :=
  let c := s.core.comp r
  match c.posted with
  | p :: t =>
    if s.trapReady r then .next ((s.setComp r { c with posted := t }).takeTrap r p c.unitPc true) else .next s
  | [] => .next s

def execTrap (a : SReg) (s : State) : Host.Outcome State Fault Refusal :=
  companionOp s everyRole (.error (.trapNext .trap (s.rd a) 4))

def execBrk (n : BitVec 6) (s : State) : Host.Outcome State Fault Refusal :=
  companionOp s everyRole (.error (.trapNext .brk (n.setWidth 64) 4))

def execEret (s : State) : Host.Outcome State Fault Refusal := companionOp s everyRole s.eret

/-! ### System registers (R367, R371) -/

/-- A bucket as it reads (R331). -/
def bucketWord (b : Option Bucket) : Word :=
  match b with
  | some b => match b.cap with | some _ => BitVec.ofInt 64 b.level | none => 0x7FFFFFFFFFFFFFFF
  | none => 0

/-- CAP_CORES (Table 26-3). -/
def Fuses.capCores (f : Fuses) : Word :=
  let gib := f.stackSize.toList.foldl (fun a b => a + b / 2 ^ 30) 0
  let clusters := ((List.range 96).filter f.clusterPresent).length
  let cores := ((List.range 768).filter f.present).length
  BitVec.ofNat 64 (gib * 2 ^ 48 + clusters * 2 ^ 10 + cores)

/-- The system registers of Table 22-5, for the executing companion core. -/
def State.sysRead (s : State) (n : BitVec 6) : Option Word :=
  let c := s.me
  match n.toNat with
  | 0 => some (c.status s.cur)
  | 1 => some (c.cause.setWidth 64)
  | 2 => some (c.epc.setWidth 64)
  | 3 => some c.eaddr
  | 4 => some s.core.tvec
  | 5 => some ((s.core.ctx.getD 0).setWidth 64)
  | 6 => some s.cycle
  | 7 => some s.core.seed
  | 8 => some (s.core.quant.setWidth 64)
  | 9 => some s.core.retto
  | 10 => some s.core.kvtab
  | 11 => some s.core.kvseq
  | 12 => some (pspolWord s.core.port.policy)
  | 13 => some (ppaceWord s.core.port.policy)
  | 14 => some (bucketWord (s.cx.map (·.time)))
  | 15 => some (bucketWord (s.cx.map (·.bw)))
  | 16 => some (bucketWord (s.cx.map (·.nrg)))
  | 17 => some s.fuses.capCores
  | 18 => some s.fuses.links
  | _ => none

/-- A generator state set from a seed (R192). -/
def generator (x : Word) : Word := if x = 0 then 0x9E3779B97F4A7C15 else x

/-- A write of SEED sets the three generator states (R192). -/
def Core.setSeed (c : Core) (v : Word) : Core :=
  { c with seed := v, genVec := generator v, genMat := generator (v ^^^ 0x5555555555555555)
           genAtt := generator (v ^^^ 0xAAAAAAAAAAAAAAAA) }

/-- The registers that `sysw` writes (Table 22-5); reserved bits are ignored (R10). -/
def State.sysWrite (s : State) (n : BitVec 6) (v : Word) : Option State :=
  match n.toNat with
  | 0 => some (s.setMe { s.me with dlost := s.me.dlost && !v.getLsbD 1 })
  | 2 => some (s.setMe { s.me with epc := v.setWidth 16 })
  | 4 => some { s with core := { s.core with tvec := v &&& 0x0000FFFDFFFDFFFD } }
  | 7 => some { s with core := s.core.setSeed v }
  | 8 => some { s with core := { s.core with quant := v.setWidth 32 } }
  | 9 => some { s with core := { s.core with retto := v } }
  | 10 => some { s with core := { s.core with kvtab := v &&& 0xFFFFFFFFFFFFFFC0 } }
  | 11 => some { s with core := { s.core with kvseq := v &&& 0xFFFFFFFFFFFFF01F } }
  | _ => none

def execSysr (d : SReg) (n : BitVec 6) (s : State) : Host.Outcome State Fault Refusal :=
  companionOp s everyRole (match s.sysRead n with
    | some v => .ok ((s.wr d v).advance 4)
    | none => .error (.trap .illegal 0))

def execSysw (n : BitVec 6) (a : SReg) (s : State) : Host.Outcome State Fault Refusal :=
  drainedOp s everyRole (fun u =>
    if 18 < n.toNat then .error (.trap .illegal 0) else
    match u.sysWrite n (u.rd a) with
    | some t => .ok (t.advance 4)
    | none => .error (.trap .prot 0))

/-! ### Replay, discardable regions, waiting (R373, R376, R377) -/

/-- A captured command is discarded (R373, R374); a batch that waited for it asks its peers (R275). -/
def State.discardSlot (s : State) (q : QueueId) (i : Nat) (x : Slot) : State :=
  let s := s.retireEffects q x.cmd true
  let y := s.core.queue q
  let s := s.setQueue q { y with slots := y.slots.set i { x with state := .discarded } }
  if q = .storerRemote then s.askBatches else s

def State.replay (s : State) (d : SReg) (a : Word) : Except Stop State :=
  let c := s.me
  let slots := match c.active with | some q => (s.core.queue q).slots | none => []
  let i := a.toNat % 16
  if !c.h then .error (.trap .prot 0)
  else if 512 ≤ a.toNat ∨ bits a.toNat 4 4 ≠ 0 then .ok (s.wr d 5)
  else match c.active, slots[i]? with
  | some q, some x =>
    if x.state ≠ .pending then .ok (s.wr d 2)
    else if a.getLsbD 8 then .ok ((s.discardSlot q i x).wr d 0)
    else if !(s.core.queue q).room then .error .wait
    else .ok ((s.setQueue q ((s.core.queue q).inject i)).wr d 0)
  | _, _ => .ok (s.wr d 5)

def execReplay (d a : SReg) (s : State) : Host.Outcome State Fault Refusal :=
  companionOp s everyRole (do
    let t ← s.replay d (s.rd a)
    .ok (t.advance 4))

/-- A region that `disc` may declare (R377). -/
def discOk (a b : Word) : Bool :=
  let lo := a.toNat
  let hi := lo + b.toNat
  let loc := 0xFF00000000000000
  let clu := 0xFF00000100000000
  lo % 4096 = 0 && b.toNat % 4096 = 0
  && (loc ≤ lo && hi ≤ loc + 0x200000 && hi ≤ loc + 0x1FE800
      || clu ≤ lo && lo < clu + 0x1000000 && hi ≤ clu + 0x1000000)

def execDisc (d a b : SReg) (s : State) : Host.Outcome State Fault Refusal :=
  companionOp s everyRole (
    let set (l : List (Word × Word)) (v : Word) := ({ s with core := { s.core with disc := l } }.wr d v).advance 4
    if s.rd b = 0 then .ok (set [] 0)
    else if !discOk (s.rd a) (s.rd b) then .ok ((s.wr d 5).advance 4)
    else if 8 ≤ s.core.disc.length then .ok ((s.wr d 2).advance 4)
    else .ok (set (s.core.disc ++ [(s.rd a, s.rd b)]) 0))

/-- R376: the deadline posts TIMER, a posted trap ends the wait. -/
def execWfi (a : SReg) (s : State) : Host.Outcome State Fault Refusal :=
  let v := s.rd a
  let idle := s.me.posted.isEmpty
  if s.prefixNow.bare ∧ idle ∧ (v = 0 ∨ s.cycle.toNat < v.toNat) then
    .next (s.setMe { s.me with waiting := true, wfi := if v = 0 then none else some v })
  else companionOp s everyRole
    (.ok ((if idle then s.setMe { s.me with posted := [⟨.timer, v, .async⟩] } else s).advance 4))

/-- The deadline of a `wfi` comes before any trap is posted (R376): TIMER is posted and the wait ends. -/
def execTimer (r : Role) (s : State) : Host.Outcome State Fault Refusal :=
  let c := s.core.comp r
  match c.wfi with
  | some d =>
    if c.waiting ∧ c.run = .running ∧ c.posted.isEmpty ∧ d.toNat ≤ s.cycle.toNat then
      .next (s.setComp r { c with
        posted := [⟨.timer, d, .async⟩], waiting := false, wfi := none, pfx := none, pc := c.pc + 4 })
    else .next s
  | none => .next s

/-! ### Translation (R77 to R79) -/

/-- The unbacked stretches of the physical address map below 2^56 (Table 4-1, R68): first byte and end. -/
def Fuses.holes (f : Fuses) : List (Nat × Nat) :=
  ((List.range 16).map (fun i => (i * 0xC00000000 + ((f.stackSize[i]?).getD 0), (i + 1) * 0xC00000000)))
    ++ [(0xC000000000, 0x10000000000), (0x20000000000, 2 ^ 56)]

/-- Some byte of `[t, t + n)` is unbacked. -/
def Fuses.hasHole (f : Fuses) (t n : Nat) : Bool := f.holes.any (fun h => h.1 < h.2 && t < h.2 && h.1 < t + n)

/-- The checks of a range descriptor for slot `b` of a context (R77): its status code. -/
def rangeStatus (f : Fuses) (ranges : Vector (Option Range) 64) (d : BitVec 256) (b : Nat) : Nat :=
  let base := fld d 0 64
  let limit := fld d 64 64
  let t := (base + fld d 128 64) % 2 ^ 64
  let n := limit - base
  if fld d 194 62 ≠ 0 then 4
  else if base % 4096 ≠ 0 ∨ limit % 4096 ≠ 0 ∨ limit ≤ base ∨ 0xFF00000000000000 ≤ limit - 1 then 2
  else if (List.range 64).any (fun i => i ≠ b && (match (ranges[i]?).join with
      | some g => decide (base < g.limit.toNat ∧ g.base.toNat < limit)
      | none => false)) then 1
  else if 2 ^ 56 < t + n then 3
  else if f.hasHole t n then 3 else 0

def rangeOf (d : BitVec 256) : Range :=
  { base := fldW d 0, limit := fldW d 64, offset := fldW d 128, r := fld d 192 1 = 1, w := fld d 193 1 = 1 }

def State.mapCtx (s : State) (id : BitVec 16) (f : Ctx → Ctx) : State :=
  { s with ctxs := s.ctxs.map (fun c => if c.id = id then f c else c) }

/-- Range slots of the running context set by `f`. -/
def State.setRanges (s : State) (f : Vector (Option Range) 64 → Vector (Option Range) 64) : State :=
  match s.core.ctx with
  | some id => s.mapCtx id (fun c => { c with ranges := f c.ranges })
  | none => s

/-- The units that the companion cores of the core in focus have read ahead are not returned any more. -/
def State.forgetEarly (s : State) : State :=
  everyRole.foldl (fun s r => s.setComp r { s.core.comp r with early := [] }) s

/-- Every access of the running context that has used its range slots performs: the buffered stores and the deferred atomics of
its cores (R78). -/
def State.shootDown (s : State) : State :=
  match s.core.ctx with
  | none => s
  | some id => (s.coreId :: s.others.map (·.1)).foldl (fun s n => s.onCore n (fun t =>
      if t.core.ctx = some id then ((everyRole.foldl State.drainAll t).performDeferreds (fun _ => true)).forgetEarly
      else t)) s

def State.rmap (s : State) (d : SReg) (a b : Word) : Except Stop State := do
  if !s.me.h then .error (.trap .prot 0) else
  if a.toNat % 32 ≠ 0 then .error (.trap .align a) else
  let (s, bs) ← liftFlt (s.load (some 0) a 32)
  let r := recordOf 256 bs
  if 63 < b.toNat then .ok (s.wr d 5) else
  let ranges := match s.cx with | some c => c.ranges | none => Vector.replicate 64 none
  let code := rangeStatus s.fuses ranges r b.toNat
  let s := if code = 0 then s.shootDown.setRanges (fun v => v.setIfInBounds b.toNat (some (rangeOf r))) else s
  .ok (s.wr d (BitVec.ofNat 64 code))

def execRmap (d a b : SReg) (s : State) : Host.Outcome State Fault Refusal :=
  fired (drainedOp s everyRole (fun u => do
    let t ← u.rmap d (u.rd a) (u.rd b)
    .ok (t.advance 4)))

/-- Kind 1 drops cached page leaves, and no cache of translations is modelled: the walk is made at every access (R75). -/
def State.rinv (s : State) (d : SReg) (a b : Word) : Except Stop State :=
  if !s.me.h then .error (.trap .prot 0)
  else if b = 0 then
    if 63 < a.toNat then .ok (s.wr d 5)
    else .ok ((s.shootDown.setRanges (fun v => v.setIfInBounds a.toNat none)).wr d 0)
  else if b = 1 then .ok (s.shootDown.wr d 0)
  else if b = 2 then .ok ((s.shootDown.setRanges (fun _ => Vector.replicate 64 none)).wr d 0)
  else .ok (s.wr d 5)

def execRinv (d a b : SReg) (s : State) : Host.Outcome State Fault Refusal :=
  fired (drainedOp s everyRole (fun u => do
    let t ← u.rinv d (u.rd a) (u.rd b)
    .ok (t.advance 4)))

/-- Table 4-8. -/
def probeWord (x : Resolved) : Word :=
  let mk (w r : Bool) (size source addr : Nat) : Word := BitVec.ofNat 64
    (2 ^ 63 + boolNat w * 2 ^ 62 + boolNat r * 2 ^ 61 + size * 2 ^ 58 + source * 2 ^ 56 + addr % 2 ^ 56)
  match x with
  | .window _ off _ owned => mk owned owned 0 3 off
  | .range pa r w => mk w r 0 1 pa
  | .page pa r w size => mk w r size 2 pa
  | _ => 0

/-- A walk that meets an uncorrectable unit raises MACHINE with the probed address (log entry 75). -/
def execRprobe (d a : SReg) (s : State) : Host.Outcome State Fault Refusal :=
  drainedOp s everyRole (fun u =>
    let x := u.resolve u.cx u.coreId (u.rd a)
    if x = .broken then .error (.trap .machine (u.rd a)) else
    .ok (((u.spend u.cx (u.walkBytes u.cx u.coreId (u.rd a))).wr d (probeWord x)).advance 4))

end Sys2Proof.Machine
end

