-- ==== Sys2Proof/Machine/Task.lean ====
section
/-! DEFINITION. Jobs, tasks and graphs as their instructions and the front ends carry them out (18_tasks_and_graphs). -/

namespace Sys2Proof.Machine

/-! ### Submitting and dealing (R312 to R315) -/

/-- An instruction of major 0x18: the stores that come before it perform first (R311). -/
def frontOp (s : State) (f : State → Except Stop State) : Host.Outcome State Fault Refusal :=
  fired (drainedOp s everyRole (fun u => do
    let t ← f u
    .ok (t.advance 4)))

def execJob (d a : SReg) (s : State) : Host.Outcome State Fault Refusal :=
  frontOp s (fun s => do
    let va := s.rd a
    if va.toNat % 128 ≠ 0 then .error (.trap .align va) else
    let (s, bs) ← liftFlt (s.load (some 0) va 128)
    let (t, r) := s.submit (s.core.ctx.getD 0) (recordOf 1024 bs)
    let t := match r with
      | .ok _ => t.letGo t.cur (BitVec.allOnes 16) (fun l => scopeHolds .package t.coreId l.loc) (.launch s.jobIds)
      | .error _ => t
    .ok (t.wr d (submitWord r)))

/-- The next chunk of a job, first index and count, and the job after it (R313). -/
def Job.chunk (j : Job) : (Nat × Nat) × Job :=
  let r := j.left
  let e := max 1 (fld j.card 312 8 * j.cores.length)
  let n := min r (max (fld j.card 448 32) ((r + e - 1) / e))
  ((j.next, n), { j with left := r - n, next := j.next + n })

def State.putJob (s : State) (j : Job) : State := s.mapJob j.id (fun _ => j)

def State.mapTask (s : State) (core : Nat) (f : Task → Task) : State :=
  { s with tasks := s.tasks.map (fun t => if s.taskOf core = some t then f t else t) }

/-- The chunk word of `deal`. -/
def chunkWord (c : Nat × Nat) : Word := if c.2 = 0 then 0 else BitVec.ofNat 64 (c.2 * 2 ^ 32 + c.1)

/-- The `i`-th further chunk of the core's task, taken from the front end if it is not there yet (R315). The first chunk of
a plain task is the one that it started with. -/
def State.dealAt (s : State) (i : Nat) : State × Word :=
  match s.taskOf s.coreId with
  | none => (s, 0)
  | some t =>
    match s.findJob t.job with
    | none => (s, 0)
    | some j =>
      if cardGraph j.card then (s, 0) else
      match t.chunks[if t.entry.isSome then i else i + 1]? with
      | some c => (s, chunkWord c)
      | none =>
        if j.left = 0 then (s, 0) else
        let (c, j) := j.chunk
        ((s.putJob j).mapTask s.coreId (fun t => { t with chunks := t.chunks ++ [c] }), chunkWord c)

def execDeal (d : SReg) (s : State) : Host.Outcome State Fault Refusal :=
  frontOp s (fun s =>
    let (t, w) := s.dealAt s.me.deals
    let t := t.setMe { t.me with deals := t.me.deals + 1 }
    .ok (t.wr d w))

/-- Every engine command that a companion core has issued has retired or been captured (R316). -/
def Core.drainedOf (c : Core) (r : Role) : Bool :=
  QueueId.all.all (fun q => q.owner ≠ r || ((c.queue q).cmds.isEmpty && (c.queue q).done.isEmpty))

def execTaskEnd (s : State) : Host.Outcome State Fault Refusal :=
  frontOp s (fun s => if s.core.drainedOf s.cur then .ok (s.setMe { s.me with run := .ended }) else .error .wait)

/-! ### Graph instructions (R320 to R324) -/

/-- The graph that a handle names at the die of the core in focus (R320). -/
def State.graphAt (s : State) (h : Word) : Option Graph :=
  s.graphs.find? (fun g => s.core.ctx = some g.ctx && g.die = dieOf s.coreId && h = graphHandle g.slot g.gen)

def Graph.isSame (g x : Graph) : Bool := x.ctx = g.ctx && x.die = g.die && x.slot = g.slot

def State.putGraph (s : State) (g : Graph) : State :=
  { s with graphs := s.graphs.map (fun x => if g.isSame x then g else x) }

/-- What a read by a companion core of a context at a core leaves, as far as it does not fault: its traffic, and DLOST (R382). -/
def State.readBy (s : State) (cx : Option Ctx) (core : Nat) (r : Role) (a : Word) (n : Nat) : State :=
  let sp := s.reach cx core a false (cuts a.toNat (n / 4096 + 2) 0 n)
  (s.onContext ((cx.map (·.id)).getD 0) core (fun t => sp.foldl (fun t p => t.noteLost r p.1 p.2) t)).traffic cx core a sp

/-- What the executing companion core's reading of a graph table leaves. -/
def State.tableRead (s : State) (a : Word) : State :=
  if a.toNat % 64 ≠ 0 then s else
  s.readBy s.cx s.coreId s.cur a (tableBytes (s.fetchFor s.cx s.coreId) a)

/-- R320. It waits while the die's balance engine serves a rebind (log entry 77). -/
def execGbind (d a : SReg) (s : State) : Host.Outcome State Fault Refusal :=
  frontOp s (fun s =>
    match s.jobHere.bind s.findJob with
    | none => .ok (s.wr d (statusWord 5 0))
    | some j =>
      if s.rebinding (dieOf s.coreId) then .error .wait else do
      let a := s.rd a
      let s := s.tableRead a
      let (t, code, v) ← s.lift (s.bind s.cx s.coreId (dieOf s.coreId) j a (s.fetchFor s.cx s.coreId))
      .ok (t.wr d (statusWord code v)))

/-- Equal source, destination, p, c, record size and d (R323). -/
def chanSame (x y : BitVec 256) : Bool := fld x 0 128 = fld y 0 128

/-- No channel with records would lose them without its discard bit (R323). -/
def rebindKeeps (old new : List (BitVec 256)) : Bool :=
  (List.range old.length).all (fun j =>
    let x := (old[j]?).getD 0
    chanInit x = 0 || (match new[j]? with | some y => chanSame x y || chanDiscard y | none => chanDiscard x))

/-- The solved new table of `grebind`, or its status. -/
def State.solveRebind (s : State) (g : Graph) (a : Word) : Except Flt (Except Nat Solved) := do
  match s.findJob g.job with
  | none => pure (.error 8)
  | some j =>
    if a.toNat % 64 ≠ 0 then pure (.error 5) else
    match ← readTable (s.fetchFor s.cx s.coreId) a with
    | none => pure (.error 5)
    | some (h, stages, chans) =>
      match solve j.card j.cores a h stages chans true with
      | .error code => pure (.error code)
      | .ok plan => pure (if rebindKeeps g.plan.chans plan.chans then .ok plan else .error 7)

def State.grebind (s : State) (d : SReg) (a b : Word) : Except Stop State :=
  let pc := s.me.pc
  match s.graphAt a with
  | none => .ok ((s.wr d (statusWord 8 0)).advance 4)
  | some g =>
    match g.rebound.find? (fun x => x.core = s.coreId && x.role = s.cur && x.pc = pc) with
    | some x =>
      (match x.fault with
        | some (c, ea) => .error (.trap c ea)
        | none =>
          .ok (((s.putGraph { g with rebound := g.rebound.filter (· ≠ x) }).wr d (statusWord 0 a.toNat)).advance 4))
    | none =>
      match g.rebind with
      | some r =>
        if r.core = s.coreId ∧ r.role = s.cur ∧ r.pc = pc then .error .wait else .ok ((s.wr d (statusWord 8 0)).advance 4)
      | none =>
        if s.rebinding g.die then .error .wait else do
        let s := s.tableRead b
        let r ← s.lift (s.solveRebind g b)
        match r with
        | .error code => .ok ((s.wr d (statusWord code 0)).advance 4)
        | .ok plan => .ok (s.putGraph { g with rebind := some ⟨plan, s.coreId, s.cur, pc⟩ })

/-- A fault of a rebind's copy is taken once: its record goes as the trap is taken (R323). -/
def State.forgetRebound (s : State) (a : Word) : State :=
  match s.graphAt a with
  | some g =>
    let mine (x : Rebound) : Bool := x.core = s.coreId && x.role = s.cur && x.pc = s.me.pc && x.fault.isSome
    s.putGraph { g with rebound := g.rebound.filter (fun x => !mine x) }
  | none => s

def execGrebind (d a b : SReg) (s : State) : Host.Outcome State Fault Refusal :=
  if s.admits everyRole then
    let t := s.drainAll s.cur
    match t.grebind d (t.rd a) (t.rd b) with
    | .error (.trap c ea) => settle (t.forgetRebound (t.rd a)) (.error (.trap c ea))
    | r => fired (settle t r)
  else settle s (.error (.trap .illegal 0))

def execFire (d a b : SReg) (s : State) : Host.Outcome State Fault Refusal :=
  frontOp s (fun s =>
    let n := (s.rd b).toNat
    match s.graphAt (s.rd a) with
    | none => .ok (s.wr d (statusWord 2 0))
    | some g =>
      if n = 0 ∨ 2 ^ 32 ≤ g.requested + n then .ok (s.wr d (statusWord 5 0))
      else .ok ((s.putGraph { g with requested := g.requested + n }).wr d (statusWord 0 (g.requested + n))))

def Graph.key (g : Graph) : Nat := slotKey g.ctx g.die 4 g.slot

/-- R322: with its periods complete it acquires what the ends of their tasks released. -/
def execFireWait (a b : SReg) (s : State) : Host.Outcome State Fault Refusal :=
  frontOp s (fun s =>
    match s.graphAt (s.rd a) with
    | none => .ok s
    | some g =>
      let n := (s.rd b).toNat % 2 ^ 32
      let of_ : Option (Nat × Nat × Nat) → Bool
        | some (k, period, _) => k = g.key && period < n
        | none => false
      if n ≤ g.completed then .ok (s.acquireMet (Meet.endOf g.job of_)) else .error .wait)

/-- The state of a job that a handle names (R324): a job in its slot, or one that has completed since its slot was last
taken. The handle names no die; the earliest launched job of the context that has it is meant. -/
def State.jobState (s : State) (h : Word) : Word :=
  let ctx := s.core.ctx.getD 0
  match s.jobs.find? (fun j => j.ctx = ctx && h = jobHandle j.slot j.gen) with
  | some j => if j.started then 1 else 0
  | none =>
    let slot := h.toNat % 64
    if (List.range 8).any (fun die => match lookupKey (slotKey ctx die 64 slot) s.jobGens with
        | some g => h = jobHandle slot g && !s.jobs.any (fun j => j.ctx = ctx && j.die = die && j.slot = slot)
        | none => false)
    then 2 else BitVec.allOnes 64

/-- What `gstat` returns (R324). -/
def State.gstat (s : State) (a b : Word) : Word :=
  if b = 4 then s.jobState a
  else match s.graphAt a with
  | none => BitVec.allOnes 64
  | some g =>
    if b = 0 then BitVec.ofNat 64 g.completed
    else if b = 1 then BitVec.ofNat 64 g.requested
    else if b = 2 then (if g.rebind.isSome then 3 else if g.completed < g.requested then 2 else 1)
    else if b = 3 then fldW g.plan.hdr 64
    else BitVec.allOnes 64

def execGstat (d a b : SReg) (s : State) : Host.Outcome State Fault Refusal :=
  frontOp s (fun s => .ok (s.wr d (s.gstat (s.rd a) (s.rd b))))

/-! ### The start of a task (R309, R310, R314, R322) -/

/-- The instruction store of a role as the card's image gives it (R309). -/
def State.image (s : State) (cx : Option Ctx) (core : Nat) (card : BitVec 1024) (r : Role) : Except Flt Mem := do
  let bs ← s.fetchFor cx core (cardImage card r) (4 * cardLen card r)
  pure (Mem.writeN [] 0 bs)

/-- A job's image of a role is read: what it holds, or the report of the fault (R309, R416). -/
def State.readImage (s : State) (j : Job) (r : Role) : State × Option Mem :=
  match s.image s.cx s.coreId j.card r with
  | .ok m => (s.costs s.cx s.coreId (cardImage j.card r) (4 * cardLen j.card r) false, some m)
  | .error f => ((s.faultTraffic s.cx s.coreId f.1 f.2).report (s.core.ctx.getD 0) s.coreId r.num f.1.code f.2, none)

/-- The three instruction stores of the core in focus are written from a job's images. Each image that cannot be read is
reported, and where there is one no store is written: what the stores hold is the code of another job's later tasks (R309, log
entry 108). `true` when each could be read. -/
def State.writeStores (s : State) (j : Job) : State × Bool :=
  let (s, l) := s.readImage j .loader
  let (s, q) := s.readImage j .sequencer
  let (s, t) := s.readImage j .storer
  match l, q, t with
  | some l, some q, some t =>
    ((((s.setComp .loader { s.core.loader with istore := l }).setComp .sequencer { s.core.sequencer with istore := q }).setComp
      .storer { s.core.storer with istore := t }), true)
  | _, _, _ => (s, false)

/-- The takes of the core in focus end as `nfree` ends them (R133). -/
def State.endTakes (s : State) : State :=
  (List.range 64).foldl (fun s i =>
    match (s.core.port.takes[i]?).join with
    | some t => if t.pull = .none then s.decline i t else s.setPort (s.core.port.setTake i none)
    | none => s) s

/-- No pull of the core in focus is in flight: an armed one outlives its task (R117), and a take ends as `nfree` ends it, after
its pull (R133, R140). -/
def Port.settled (p : Port) : Bool :=
  p.takes.toList.all (fun x => match x with
    | some t => (match t.pull with | .none | .retired _ => true | _ => false)
    | none => true)

/-- A job's task can start on the core in focus: at the job's first task there the takes can end. -/
def State.startable (s : State) (j : Job) : Bool := s.core.lastJob = some j.id || s.core.port.settled

/-- What a job's first task finds on a core (R133, R153, R182, R196, R209, R240, R310, log entry 87). -/
def State.freshCore (s : State) : State :=
  let s := s.endTakes
  let s := s.setPort { s.core.port with policy := 0, ringH := 0, ringT := 0, ringU := 0, places := [] }
  let lo := locRs s.coreId 0
  { s with
    poison := s.poison.filter (fun u => !(lo ≤ u && u < lo + 2 ^ 20))
    core := { s.core with
      rs := [], k := Vector.replicate 8 0, vbm := Vector.replicate 4 0, views := Vector.replicate 8 0
      macros := Vector.replicate 8 {}, codebook := Vector.replicate 256 0, outliers := [], att := {} } }

/-- The batches of the task before that are closed and not complete go on (R275). -/
def Core.lateOnes (c : Core) : List (BitVec 2 × Batch) :=
  (List.range 4).filterMap (fun t => match c.batches[t]? with
    | some b => if b.state = .closed then some (BitVec.ofNat 2 t, b) else none
    | none => none)

/-- A companion core at the start of a task (R13, R35, R314). -/
def Companion.started (c : Companion) (entry : Nat) (s1 s2 s3 s4 : Word) : Companion :=
  { run := .running, pc := BitVec.ofNat 17 entry, entry := true, istore := c.istore
    s := ((((Vector.replicate 64 0).set 1 s1).set 2 s2).set 3 s3).set 4 s4 }

/-- A core whose task starts holds nothing of earlier writes: its tokens, tags, queues and batches are new, and so are the
programs of its companion cores. -/
def Lag.forgetCore (n : Nat) (l : Lag) : Lag :=
  { l with
    eng := if l.core = n then none else l.eng
    src := l.src.filter (fun x => x.1 ≠ n)
    holds := l.holds.filter (fun h => h.core ≠ n)
    upto := l.upto.filter (fun u => u.core ≠ n)
    meets := l.meets.filter (fun x => match x with
      | .token c .. | .tag c _ | .cmd c .. | .batch c _ | .unsent c .. => c ≠ n
      | _ => true) }

/-- The start of a task acquires, for its three companion cores, the release of the `job` that submitted its card and those of
the ended tasks that `which` selects (R314, R322, Table 20-2). -/
def State.acquireStart (s : State) (id : Nat) (which : Option (Nat × Nat × Nat) → Bool) : State :=
  everyRole.foldl (fun s r => s.takeIn r (BitVec.allOnes 16) (fun _ x => x = .launch id || x.endOf id which)) s

/-- A task of a job starts on the core in focus, with its entries and its argument registers (R314, R322, R368). Where an
image cannot be read none of its companion cores starts, and the job is cancelled (R309). -/
def State.startTask (s : State) (j : Job) (t : Task) (entry : Role → Nat) (s1 s2 s3 s4 : Word) : State :=
  let first := s.core.lastJob ≠ some j.id
  let (s, ok) := if first then s.writeStores j else (s, true)
  if !ok then s.cancelJob j.id else
    let s := if first then s.freshCore else s
    let c := s.core
    let start (r : Role) : Companion := (c.comp r).started (entry r) s1 s2 s3 s4
    let set := c.setSeed ((s.cx.map (·.seed)).getD 0)
    let batches := (Vector.replicate 4 ({} : Batch)).set 0 { state := .opened, job := some j.id }
    let c := { set with
      loader := start .loader, sequencer := start .sequencer, storer := start .storer
      queues := Vector.replicate 10 {}, tokens := {}, tags := 0, fmtq := [], fmtRes := 0, tiles := 0
      tvec := 0
      kvtab := (s.cx.map (·.kvtab)).getD 0
      kvseq := (s.cx.map (·.kvseq)).getD 0
      quant := (s.cx.map (·.quant)).getD 0
      retto := ((s.cx.map (fun x : Ctx => x.retto)).getD 0).setWidth 64
      batches := batches, openTag := 0, lateBatches := c.lateBatches ++ c.lateOnes, remote := none
      lastJob := some j.id, taskNo := c.taskNo + 1 }
    (({ s with core := c, tasks := s.tasks ++ [t] }).putJob { j with tasks := j.tasks + 1, started := true }).mapLag
      (Lag.forgetCore s.coreId)

/-! ### What a core can start (R322, R328) -/

def Graph.count (g : Graph) : Nat := max 1 g.plan.entries.length

/-- The stage of an entry by its number since the table was installed. -/
def Graph.stageOf (g : Graph) (k : Nat) : Nat := ((g.plan.entries[k % g.count]?).map (·.stage)).getD 0

/-- The earlier entries of stage `x` are ones that an entry of `stage` waits for: `x` is the source of one of its input channels
or the destination of one of its output channels (R322). -/
def Graph.near (g : Graph) (stage x : Nat) : Bool :=
  g.plan.chans.any (fun c => chanDst c = stage && chanSrc c = x || chanSrc c = stage && chanDst c = x)

/-- The next entry of a graph, if it can start on a core (R322, R323). -/
def Graph.ready (g : Graph) (core : Nat) : Option Firing :=
  let n := g.count
  match g.plan.entries[g.next % n]? with
  | none => none
  | some e =>
    if e.core = core ∧ g.base + g.next / n < g.requested ∧ (g.rebind.isNone ∨ g.next % n ≠ 0)
        ∧ !g.running.any (fun k => g.near e.stage (g.stageOf k)) then some e else none

/-- The graphs of a job with an entry to start on a core. -/
def State.readyGraph (s : State) (j : Job) (core : Nat) : Option (Graph × Firing) :=
  s.graphs.findSome? (fun g => if g.job = j.id then (g.ready core).map (fun e => (g, e)) else none)

/-- The job whose task the core in focus starts next: the highest priority, then the earliest launch (R328). -/
def State.nextJob (s : State) : Option Job :=
  let can (j : Job) : Bool := s.core.ctx = some j.ctx && !j.cancelled && j.cores.contains s.coreId
    && (0 < j.left || (s.readyGraph j s.coreId).isSome)
  bestBy (fun x y => cardPriority y.card < cardPriority x.card || (cardPriority x.card = cardPriority y.card && x.id < y.id))
    (s.jobs.filter can)

/-- The core in focus runs its context and has no task. -/
def State.taskFree (s : State) : Bool := s.live && (s.taskOf s.coreId).isNone

/-- A plain task starts, with its first chunk (R314). -/
def State.startPlain (s : State) : State :=
  match (if s.taskFree then s.nextJob else none) with
  | some j =>
    if j.left = 0 ∨ !s.startable j then s else
    let (c, j) := j.chunk
    let args := fldW j.card 320
    ((s.putJob j).startTask j { core := s.coreId, ctx := j.ctx, job := j.id, chunks := [c] } (cardEntry j.card)
      (args + BitVec.ofNat 64 (c.1 * fld j.card 384 32)) (BitVec.ofNat 64 c.2) (BitVec.ofNat 64 c.1) args).acquireStart j.id
      (fun _ => true)
  | none => s

/-- The number of an entry's first firing of its stage since the table was installed (R322). -/
def Graph.firing (g : Graph) (e : Firing) : Nat :=
  let n := g.count
  let before := ((g.plan.entries.take (g.next % n)).filter (fun x => x.stage = e.stage)).map (·.firings)
  g.next / n * (g.plan.reps[e.stage]?).getD 0 + before.sum

/-- A firing table entry starts as a task (R322). -/
def State.startEntry (s : State) : State :=
  match (if s.taskFree then s.nextJob else none) with
  | some j =>
    match s.readyGraph j s.coreId with
    | some (g, e) =>
      if !s.startable j then s else
      let stage := (g.plan.stages[e.stage]?).getD 0
      let k := g.next
      let t := s.putGraph { g with next := k + 1, running := g.running ++ [k] }
      let waited : Option (Nat × Nat × Nat) → Bool
        | some (key, _, stage) => key = g.key && g.near e.stage stage
        | none => false
      (t.startTask j { core := s.coreId, ctx := j.ctx, job := j.id, chunks := [], entry := some (g.key, k) }
        (stageEntry stage) (g.plan.table + BitVec.ofNat 64 (32 + 32 * e.stage)) (BitVec.ofNat 64 (g.firing e))
        (BitVec.ofNat 64 e.firings) (fldW g.plan.hdr 128)).acquireStart j.id waited
    | none => s
  | none => s

def execTaskStart (core : BitVec 10) (s : State) : Host.Outcome State Fault Refusal :=
  .next (s.onCore core.toNat State.startPlain)

def execGraphEntryStart (core : BitVec 10) (s : State) : Host.Outcome State Fault Refusal :=
  .next (s.onCore core.toNat State.startEntry)

/-! ### The end of a task (R316, R317, R374, R375) -/

/-- The task on the core in focus belongs to a cancelled job (R317). -/
def State.hereCancelled (s : State) : Bool :=
  match s.jobHere with
  | some id => s.jobs.any (fun j => j.id = id && j.cancelled)
  | none => false

/-- Every engine command of the core has retired or been captured. -/
def Core.drained (c : Core) : Bool := everyRole.all c.drainedOf

/-- The task on the core in focus has ended: all three companion cores, and every engine command; or its job is cancelled
and all three have ended. -/
def State.taskOver (s : State) : Bool :=
  s.live && (s.taskOf s.coreId).isSome && everyRole.all (fun r => (s.core.comp r).run ≠ .running)
  && (s.core.drained || s.hereCancelled) && s.combinedReady (fun _ => true)

/-- Every command left in a queue or its capture area is discarded (R374). -/
def State.discardAll (s : State) (q : QueueId) : State :=
  let x := s.core.queue q
  let left := x.cmds ++ x.done ++ (x.slots.filter (fun y => y.state = .pending)).map (·.cmd) ++ x.captured.map (·.cmd)
  (left.foldl (fun s c => s.retireEffects q c true) s).setQueue q {}

/-- A period is complete when each of its entries has ended (R322). -/
def Graph.entryEnded (g : Graph) (k : Nat) : Graph :=
  let g := { g with running := g.running.filter (· ≠ k), ended := g.ended ++ [k] }
  let n := g.count
  let p := g.completed - g.base
  let whole := (List.range n).all (fun i => g.ended.contains (p * n + i))
  if whole then { g with completed := g.completed + 1, ended := g.ended.filter (fun i => (p + 1) * n ≤ i) } else g

/-- A companion core is idle; the traps that it has not taken are dealt with by their kinds (R375). -/
def State.idle (s : State) (r : Role) : State :=
  let c := s.core.comp r
  c.posted.foldl State.lateCause (s.setComp r { c with posted := [], run := .idle, waiting := false, wfi := none })

/-- What a task's end leaves of a core: tokens and regions gone, the open batch closed (R46, R275, R377). -/
def Core.shut (c : Core) : Core :=
  let b := (c.batches[c.openTag.toNat]?).getD {}
  { c with
    batches := if b.state = .opened then c.batches.setIfInBounds c.openTag.toNat { b with state := .closed } else c.batches
    tokens := {}, torn := [], disc := [], fmtq := [], fmtRes := 0, remote := none, port := { c.port with publishing := none } }

/-- The graphs after a task has ended: its entry's end, and no rebind's outcome for a core that will not ask. -/
def Graph.afterTask (t : Task) (g : Graph) : Graph :=
  let g := { g with rebound := g.rebound.filter (fun x => x.core ≠ t.core) }
  match t.entry with
  | some (key, k) => if g.key = key then g.entryEnded k else g
  | none => g

/-- The stores, atomics and sends of the task perform (R317). -/
def State.releaseAll (s : State) : State :=
  ((everyRole.foldl State.drainAll s).performDeferreds (fun _ => true)).sendCombined (fun _ => true)

/-- What the companion cores and the engines of the core in focus have performed, read or acquired waits at the end of its task:
its release at PACKAGE scope (R317). -/
def State.releaseEnd (s : State) (t : Task) : State :=
  let n := s.coreId
  let entry := t.entry.bind (fun x => (s.graphs.find? (fun g => g.key = x.1)).map (fun g =>
    (x.1, g.base + x.2 / g.count, g.stageOf x.2)))
  let mine (l : Lag) : Bool := (l.core = n && l.eng.isSome) || everyRole.any (fun r => l.covered n r (BitVec.allOnes 16))
    || l.meets.any (fun x => match x with | .cmd c _ _ => c = n | _ => false)
  s.mapOrdered mine (fun l => if scopeHolds .package n l.loc then { l with meets := .over t.job entry :: l.meets } else l)

/-- The task `t` on the core in focus ends. -/
def State.endTask (s : State) (t : Task) : State :=
  let s := QueueId.all.foldl State.discardAll (s.releaseAll.releaseEnd t)
  let s := everyRole.foldl State.idle s
  let s := { s with core := s.core.shut, tasks := s.tasks.filter (· ≠ t) }
  let s := s.askBatches
  { s with graphs := s.graphs.map (Graph.afterTask t) }

/-! ### The end of a job (R317, R353) -/

/-- Every core of the package with a context's state, saved ones too. -/
def State.allCores (s : State) : List Core :=
  s.core :: s.others.map (·.2) ++ s.saved.flatMap (fun v => v.cores.map (·.2))

/-- What a core still holds of a job: a retention slot in use, a batch closed and not complete (R128, R275). -/
def Core.holdsJob (c : Core) (job : Nat) : Bool :=
  c.port.retain.toList.any (fun x => match x with | some r => r.job = some job | none => false)
  || c.batches.toList.any (fun b => b.state = .closed && b.job = some job)
  || c.lateBatches.any (fun x => x.2.job = some job)

/-- A round of the job runs, here or at another member of this package, or is not known to have ended at one of its members
(R303). -/
def State.roundsLeft (s : State) (job : Nat) : Bool :=
  let rounds := s.colls.flatMap (fun u => (u.rounds.toList.filterMap id).map (fun r => (r.id u.ctx, r)))
  let mine := (rounds.filter (fun x => x.2.job = some job)).map (·.1)
  rounds.any (fun x => x.2.state = .running && mine.contains x.1)
  || s.colls.any (fun u => u.abroad.any (fun x => x.job = some job))

/-- The conditions of R317 and R353 on a job's completion. -/
def State.jobOver (s : State) (j : Job) : Bool :=
  !s.tasks.any (fun t => t.job = j.id)
  && (j.cancelled || (j.left = 0 && !j.unbound && s.graphs.all (fun g => g.job ≠ j.id || (g.completed = g.requested && g.rebind.isNone))))
  && !s.allCores.any (fun c => c.holdsJob j.id) && !s.roundsLeft j.id

def execJobComplete (ctx : BitVec 16) (slot : BitVec 6) (s : State) : Host.Outcome State Fault Refusal :=
  match s.jobs.find? (fun j => j.ctx = ctx && j.slot = slot.toNat && s.jobOver j) with
  | some j => fired (.next ((s.complete j (if j.cancelled then 1 else 0) 0).launchWaiting j.die))
  | none => .next s

/-! ### The end of a rebind's drain (R323) -/

/-- The records of the unchanged channels, in channel and record order: old place, new place, length. -/
def Graph.moves (g : Graph) (plan : Solved) : List (Word × Word × Nat) :=
  (List.range (min g.plan.chans.length plan.chans.length)).flatMap (fun j =>
    let x := (g.plan.chans[j]?).getD 0
    let y := (plan.chans[j]?).getD 0
    if !chanSame x y then [] else
    let size := chanSize x
    let first := (g.completed - g.base) * (g.plan.reps[chanSrc x]?).getD 0 * chanP x
    let ring := max 1 ((g.plan.rings[j]?).getD 1)
    (List.range (chanInit x)).map (fun i =>
      (fldW g.plan.hdr 128 + BitVec.ofNat 64 ((g.plan.offsets[j]?).getD 0 + (first + i) % ring * size),
        fldW plan.hdr 128 + BitVec.ofNat 64 ((plan.offsets[j]?).getD 0 + i * size), size)))

/-- The copies, as far as the first fault; they read as loads of the companion core `r` (R323, R382). -/
def State.copyMoves (s : State) (cx : Option Ctx) (core : Nat) (r : Role) : List (Word × Word × Nat) → State × Option Flt
  | [] => (s, none)
  | (src, dst, n) :: t =>
    match (do
      let bs ← s.fetchFor cx core src n
      (s.readBy cx core r src n).putFor cx core dst bs : Except Flt State) with
    | .ok u => State.copyMoves u cx core r t
    | .error f => (s, some f)

/-- The writes of the new table, as far as the first fault: one ends the rebind as a fault of a copy does (log entry 119). -/
def State.copyWrites (s : State) (cx : Option Ctx) (core : Nat) : List (Word × List Byte) → State × Option Flt
  | [] => (s, none)
  | (a, bs) :: t =>
    match s.putFor cx core a bs with
    | .ok u => State.copyWrites u cx core t
    | .error f => (s, some f)

/-- The copies and then the writes of the new table, as far as the first fault. -/
def State.copyRecords (s : State) (cx : Option Ctx) (core : Nat) (r : Role) (moves : List (Word × Word × Nat))
    (writes : List (Word × List Byte)) : State × Option Flt :=
  match s.copyMoves cx core r moves with
  | (u, none) => u.copyWrites cx core writes
  | (u, some f) => (u, some f)

/-- The drained period has ended: the records are copied and the new table installed, or the rebind is abandoned. The graphs
that wait for the balance engine are bound (R320). -/
def State.rebindDrained (s : State) (g : Graph) (r : Rebind) : State :=
  let gen := (lookupKey g.key s.firingGens).getD 0 + 1
  let (t, bad) := s.copyRecords (s.findCtx g.ctx) r.core r.role (g.moves r.plan) (r.plan.writes gen)
  let done : Rebound := ⟨r.core, r.role, r.pc, bad⟩
  let t := match bad with
    | some _ => t.putGraph { g with rebind := none, rebound := g.rebound ++ [done] }
    | none =>
      { t with firingGens := setKey g.key gen t.firingGens }.putGraph { g with
        rebind := none, rebound := g.rebound ++ [done], plan := r.plan, base := g.completed, next := 0, ended := [] }
  t.launchWaiting g.die

def execRebindDrainComplete (slot : BitVec 2) (s : State) : Host.Outcome State Fault Refusal :=
  match s.graphs.find? (fun g => s.core.ctx = some g.ctx && g.die = dieOf s.coreId && g.slot = slot.toNat) with
  | some g =>
    match g.rebind with
    | some r => if g.running.isEmpty ∧ g.next % g.count = 0 then fired (.next (s.rebindDrained g r)) else .next s
    | none => .next s
  | none => .next s

end Sys2Proof.Machine
end

