-- ==== Sys2Proof/Machine/Tile.lean ====
section
/-! DEFINITION. Tile moves: copy, fingerprint, fill and compare (R104 to R107). -/

namespace Sys2Proof.Machine

/-- One bit of CRC-64 of ECMA-182, most significant bit first (R106). -/
def crcBit (x : Word) : Word := if x.getLsbD 63 then (x <<< 1) ^^^ 0x42F0E1EBA9EA3693 else x <<< 1

def crcByte (x : Word) (b : Byte) : Word :=
  crcBit (crcBit (crcBit (crcBit (crcBit (crcBit (crcBit (crcBit (x ^^^ ((b.setWidth 64) <<< 56)))))))))

/-- The fingerprint of bytes (R106). -/
def crc64 (bs : List Byte) : Word := bs.foldl crcByte 0

/-- The operand checks at issue, in the order of R105; `copy`: b is an address, `pages`: tmov.fp, `result`: d is used. -/
def tileCheck (a b c d : Word) (copy pages result : Bool) : Option (Cause × Word) :=
  if a.toNat % 64 ≠ 0 then some (.align, a)
  else if copy && b.toNat % 64 ≠ 0 then some (.align, b)
  else if c.toNat % 64 ≠ 0 ∨ 2 ^ 32 ≤ c.toNat then some (.align, c)
  else if pages && c.toNat % 4096 ≠ 0 then some (.align, c)
  else if result && d.toNat % 8 ≠ 0 then some (.align, d)
  else none

/-- The captured operands of a tile move; its tag bit is cleared as it issues (R105). -/
def tileIssue (s : State) (i : Instr) (h : EHdr) (a b c d : Word) (copy pages result : Bool) (tag : BitVec 6) :
    Host.Outcome State Fault Refusal :=
  issue s i h .loader .loaderPort {} false (match tileCheck a b c d copy pages result with
    | some (cause, ea) => .error (.trap cause ea)
    | none => .ok { ops := [a, b, c, d], also := fun s => s.clearTags (1#64 <<< tag.toNat) })

def execTmov (h : EHdr) (a b c : SReg) (tag : BitVec 6) (s : State) : Host.Outcome State Fault Refusal :=
  tileIssue s (.tmov h a b c tag) h (s.rd a) (s.rd b) (s.rd c) 0 true false false tag
def execTmovFp (h : EHdr) (a b c d : SReg) (tag : BitVec 6) (s : State) : Host.Outcome State Fault Refusal :=
  tileIssue s (.tmovFp h a b c d tag) h (s.rd a) (s.rd b) (s.rd c) (s.rd d) true true true tag
def execTfill (h : EHdr) (a b c : SReg) (tag : BitVec 6) (s : State) : Host.Outcome State Fault Refusal :=
  tileIssue s (.tfill h a b c tag) h (s.rd a) (s.rd b) (s.rd c) 0 false false false tag
def execTcmp (h : EHdr) (a b c d : SReg) (tag : BitVec 6) (s : State) : Host.Outcome State Fault Refusal :=
  tileIssue s (.tcmp h a b c d tag) h (s.rd a) (s.rd b) (s.rd c) (s.rd d) true false true tag

/-- Which tile move a command is. -/
inductive TileOp | mov | fp | fill | cmp
  deriving DecidableEq, Repr

/-- The offset of the first byte in which two units differ. -/
def firstDiff : List Byte → List Byte → Nat → Option Nat
  | x :: xs, y :: ys, k => if x = y then firstDiff xs ys (k + 1) else some k
  | _, _, _ => none

/-- The parts of a range whose addresses translate, with their offsets in it and their locations. -/
def State.rangeParts (s : State) (a : Word) (n : Nat) (w : Bool) : List (Nat × Nat × Nat) :=
  (cuts a.toNat (n / 4096 + 2) 0 n).filterMap (fun c => match s.locate (a + BitVec.ofNat 64 c.1) c.2 w with
    | .ok loc => some (c.1, loc, c.2)
    | .error _ => none)

/-- A copy of `n` bytes from `b` to `a` takes its units in descending order (R105): its ranges overlap, and the destination starts
above the source. Where their addresses do not overlap but name bytes in common, some of these lie earlier in the destination
than in the source (log entry 84). -/
def State.descends (s : State) (a b : Word) (n : Nat) : Bool :=
  if a.toNat < b.toNat + n ∧ b.toNat < a.toNat + n then decide (b.toNat < a.toNat) else
  let src := s.rangeParts b n false
  (s.rangeParts a n true).any (fun (o, loc, k) => src.any (fun (o', loc', k') =>
    loc < loc' + k' && loc' < loc + k && decide (o + loc' < o' + loc)))

/-- The `u`-th 64 B unit: it is read whole, then written (R105); what a fault has let it read is not read again. The carry of `fp`
is one word for each 4 KiB, the sum of its units' shares of the fingerprint; that of `cmp` is the first differing offset so far. -/
def tileUnit (op : TileOp) (a b : Word) (units u : Nat) (p : Progress) (s : State) : Except Broken (State × List Word) := do
  let off := BitVec.ofNat 64 (64 * u)
  let g : ReadLog := { next := p.read }
  match op with
  | .fill =>
    let s ← g.lift s (s.engWrite .loader (a + off) ((List.replicate 8 (leBytes 8 b.toNat)).flatten))
    pure (s, p.carry)
  | .cmp =>
    let (s, x, g) ← s.logRead .loader (a + off) 64 g
    let (s, y, _) ← s.logRead .loader (b + off) 64 g
    let r := match p.carry, firstDiff x y (64 * u) with
      | [], some i => [BitVec.ofNat 64 i]
      | l, _ => l
    pure (s, r)
  | .mov =>
    let (s, x, g) ← s.logRead .loader (b + off) 64 g
    let s ← g.lift s (s.engWrite .loader (a + off) x)
    pure (s, p.carry)
  | .fp =>
    let (s, x, g) ← s.logRead .loader (b + off) 64 g
    let s ← g.lift s (s.engWrite .loader (a + off) x)
    let share := crc64 (x ++ zeros ((63 - u % 64) * 64))
    let carry := if p.carry.isEmpty then List.replicate (units / 64) 0 else p.carry
    pure (s, carry.set (u / 64) (carry.getD (u / 64) 0 ^^^ share))

/-- The result writes of `fp` and `cmp`, each one further unit (R105). -/
def tileResult (op : TileOp) (d : Word) (k : Nat) (carry : List Word) (s : State) : Except Flt State :=
  match op with
  | .fp => s.engWrite .loader (d + BitVec.ofNat 64 (8 * k)) (leBytes 8 (carry.getD k 0).toNat)
  | _ => s.engWrite .loader d (leBytes 8 (carry.headD (BitVec.allOnes 64)).toNat)

/-- A unit of work from the recorded progress: a 64 B unit, or a result write after them (R105). -/
def tileStep (op : TileOp) (a b d : Word) (units : Nat) (p : Progress) (s : State) : Except Broken (State × List Word) :=
  let k := p.units
  if k < units then tileUnit op a b units (if p.down = some true then units - 1 - k else k) p s else do
    let t ← ({} : ReadLog).lift s (tileResult op d (k - units) p.carry s)
    pure (t, p.carry)

/-- A tile move in the engine (R105): the next unit from its recorded progress. Its order is fixed at its first unit; a fault keeps
the progress, and what has been read of its unit. -/
def runTile (op : TileOp) (x : Cmd) (s : State) : EngEnd :=
  let a := x.ops.getD 0 0
  let b := x.ops.getD 1 0
  let c := x.ops.getD 2 0
  let units := c.toNat / 64
  let results := match op with | .fp => units / 64 | .cmp => 1 | _ => 0
  let k := x.prog.units
  let copies : Bool := op = .mov || op = .fp
  let p := { x.prog with down := some (x.prog.down.getD (copies && s.descends a b c.toNat)) }
  if units + results ≤ k then .done s else
  match tileStep op a b (x.ops.getD 3 0) units p s with
  | .error e => .fault e.s e.flt.1 e.flt.2 { p with read := e.read }
  | .ok (t, carry) =>
    if k + 1 < units + results then .wait (t.setHeadProg .loaderPort { p with units := k + 1, carry := carry, read := [] }) else .done t

end Sys2Proof.Machine
end

