-- ==== Sys2Proof/Machine/Vmem.lean ====
section
/-! DEFINITION. The vector configuration, view registers, vector memory access, and the companion instructions over register
space, masks and bitmaps (09_register_space). -/

namespace Sys2Proof.Machine

/-! ### Vector configuration (R156) -/

/-- The configuration with a width, a group size and a requested count. -/
def VCfg.setTo (v : VCfg) (ew : EWidth) (grp : BitVec 2) (n : Nat) : VCfg :=
  { v with vl := BitVec.ofNat 12 (min n (vlmax ew grp)), ew := ew, grp := grp }

/-- A new configuration is installed and its vl returned. -/
def State.configure (s : State) (d : SReg) (v : VCfg) : State :=
  ((s.setMe { s.me with vcfg := v }).wr d (v.vl.setWidth 64)).advance 4

def execSetvl (d a : SReg) (w : EWidth) (g : BitVec 2) (s : State) : Host.Outcome State Fault Refusal :=
  companionOp s everyRole (.ok (s.configure d (s.me.vcfg.setTo w g (s.rd a).toNat)))

def execSetvli (d : SReg) (n : BitVec 6) (w : EWidth) (g : BitVec 2) (s : State) : Host.Outcome State Fault Refusal :=
  companionOp s everyRole (.ok (s.configure d (s.me.vcfg.setTo w g (if n = 0 then vlmax w g else n.toNat))))

/-- The configuration that a `vcfg` config word gives (Table 9-2). -/
def VCfg.fromWord (w : Word) (n : Nat) : Option VCfg :=
  if w.toNat / 64 ≠ 0 then none else
  match EWidth.ofCode (w.toNat % 4) with
  | none => none
  | some ew => some (VCfg.setTo { tail := w.getLsbD 4, mask := w.getLsbD 5 } ew (BitVec.ofNat 2 (bits w.toNat 2 2)) n)

def execVcfg (d a b : SReg) (s : State) : Host.Outcome State Fault Refusal :=
  companionOp s everyRole (match VCfg.fromWord (s.rd a) (s.rd b).toNat with
    | some v => .ok (s.configure d v)
    | none => .error (.trap .illegal 0))

/-! ### Views (R159, R160) -/

def execWset (w : WReg) (a : SReg) (s : State) : Host.Outcome State Fault Refusal :=
  drainedOp s everyRole (fun u =>
    let v := u.rd a
    match viewFault v with
    | some c => .error (.trap c 0)
    | none => .ok ({ u with core := { u.core with views := u.core.views.set w.toNat v } }.advance 4))

def execWget (d : SReg) (w : WReg) (s : State) : Host.Outcome State Fault Refusal :=
  drainedOp s everyRole (fun u => .ok ((u.wr d u.core.views[w.toNat]).advance 4))

/-! ### Companion instructions over register space, masks and bitmaps (R171) -/

/-- A read of register space, masks or bitmaps acquires the effects of the commands that it waited for: those that its
companion core has issued (R171, R343). -/
def State.acquireOwn (s : State) : State :=
  let own (l : Lag) : Bool := l.core = s.coreId && (match l.eng with | some (q, _) => q ≠ .followOn && q.owner = s.cur | none => false)
    || l.meets.any (fun x => match x with | .cmd n q _ => n = s.coreId && q.owner = s.cur | _ => false)
  (s.setMe (s.me.follow (BitVec.allOnes 16) (fun _ => true))).mapLag (fun l => if own l then l.acquiredBy s.coreId s.cur (BitVec.allOnes 16) else l)

/-- An instruction of major 0x17: it waits for the engine commands that its companion core has issued. -/
def spaceOp (s : State) (profile : List Role) (f : State → Except Stop State) : Host.Outcome State Fault Refusal :=
  companionOp s profile (if !s.core.quiet s.cur then .error .wait else do
    let t ← f s
    .ok (t.advance 4))

def execVmvSx (v : VReg) (a : SReg) (s : State) : Host.Outcome State Fault Refusal :=
  spaceOp s [.sequencer] (fun t =>
    let w := t.me.vcfg.ew.bytes
    if t.me.vcfg.vl = 0 then .ok t
    else liftFlt (t.rsStore [(elemAddr v.toNat w 0, leBytes w (t.rd a).toNat)]))

def execVmvXs (d : SReg) (v : VReg) (s : State) : Host.Outcome State Fault Refusal :=
  spaceOp s [.sequencer] (fun t =>
    let w := t.me.vcfg.ew.bytes
    match t.rsBad [(elemAddr v.toNat w 0, w)] with
    | some (c, ea) => .error (.trap c ea)
    | none => .ok (t.acquireOwn.wr d (BitVec.ofInt 64 (sextInt (8 * w) (t.core.elem v.toNat w 0)))))

def execKpop (d : SReg) (k : KReg) (s : State) : Host.Outcome State Fault Refusal :=
  spaceOp s [.sequencer] (fun t =>
    .ok (t.acquireOwn.wr d (BitVec.ofNat 64 (countBits t.core.k[k.toNat] t.me.vcfg.vl.toNat))))

def execKffs (d : SReg) (k : KReg) (s : State) : Host.Outcome State Fault Refusal :=
  spaceOp s [.sequencer] (fun t => .ok (t.acquireOwn.wr d (match firstBit t.core.k[k.toNat] t.me.vcfg.vl.toNat true with
    | some i => BitVec.ofNat 64 i
    | none => BitVec.allOnes 64)))

def State.setVbm (s : State) (n : VbmReg) (x : BitVec 3072) : State :=
  { s with core := { s.core with vbm := s.core.vbm.set n.toNat x } }

def execVbmClr (n : VbmReg) (s : State) : Host.Outcome State Fault Refusal :=
  spaceOp s [.loader, .storer] (fun t => .ok (t.setVbm n 0))

def execVbmRd (d : SReg) (n : VbmReg) (s : State) : Host.Outcome State Fault Refusal :=
  spaceOp s [.loader, .storer] (fun t =>
    let x := t.core.vbm[n.toNat]
    let vl := t.me.vcfg.vl.toNat
    .ok (t.acquireOwn.wr d (BitVec.ofNat 64 (countBits x vl * 2 ^ 32 + (firstBit x vl false).getD vl))))

/-! ### Issue of vector memory commands (R164, R165) -/

/-- The group size that a command captured. -/
def VCfg.group (v : VCfg) : Nat := 2 ^ v.grp.toNat

/-- The operand checks at issue. `x` is the index group; `load` forbids it to overlap the data. -/
def vmemCheck (v : VCfg) (t : ElemType) (d : VReg) (x : Option VReg) (load : Bool) : Bool :=
  t.width = v.ew.bytes && groupOk d v.group
  && (match x with
    | none => true
    | some x => x.toNat + v.indexRegs ≤ 512
        && !(load && x.toNat < d.toNat + v.group && d.toNat < x.toNat + v.indexRegs))

def vmemIssue (s : State) (i : Instr) (h : EHdr) (load : Bool) (t : ElemType) (d : VReg) (x : Option VReg)
    (a b : Word) : Host.Outcome State Fault Refusal :=
  issue s i h (if load then .loader else .storer) (if load then .loaderVec else .storerVec) { mask := true, tail := load } false
    (if vmemCheck s.me.vcfg t d x load then .ok { ops := [a, b] } else .error (.trap .illegal 0))

def execVld (h : EHdr) (t : ElemType) (v : VReg) (sa : SReg) (s : State) : Host.Outcome State Fault Refusal :=
  vmemIssue s (.vld h t v sa) h true t v none (s.rd sa) 0
def execVlds (h : EHdr) (t : ElemType) (v : VReg) (sa sb : SReg) (s : State) : Host.Outcome State Fault Refusal :=
  vmemIssue s (.vlds h t v sa sb) h true t v none (s.rd sa) (s.rd sb)
def execVldx (h : EHdr) (t : ElemType) (v : VReg) (sa : SReg) (x : VReg) (bm : Option VbmReg) (s : State) :
    Host.Outcome State Fault Refusal :=
  vmemIssue s (.vldx h t v sa x bm) h true t v (some x) (s.rd sa) 0
def execVldff (h : EHdr) (t : ElemType) (v : VReg) (sa : SReg) (n : VbmReg) (s : State) : Host.Outcome State Fault Refusal :=
  vmemIssue s (.vldff h t v sa n) h true t v none (s.rd sa) 0
def execVst (h : EHdr) (t : ElemType) (v : VReg) (sa : SReg) (s : State) : Host.Outcome State Fault Refusal :=
  vmemIssue s (.vst h t v sa) h false t v none (s.rd sa) 0
def execVsts (h : EHdr) (t : ElemType) (v : VReg) (sa sb : SReg) (s : State) : Host.Outcome State Fault Refusal :=
  vmemIssue s (.vsts h t v sa sb) h false t v none (s.rd sa) (s.rd sb)
def execVstx (h : EHdr) (t : ElemType) (v : VReg) (sa : SReg) (x : VReg) (bm : Option VbmReg) (s : State) :
    Host.Outcome State Fault Refusal :=
  vmemIssue s (.vstx h t v sa x bm) h false t v (some x) (s.rd sa) 0

/-! ### Their execution (R165 to R168) -/

/-- How a command forms its addresses. -/
inductive VAddr
  | unit
  | stride (b : Word)
  | index (x : Nat) (bm : Option VbmReg)
  | firstFault (n : VbmReg)

/-- A vector memory command in the engine. -/
structure VMem where
  load : Bool
  v    : Nat
  w    : Nat
  a    : Word
  how  : VAddr

def VMem.addr (m : VMem) (c : Core) (i : Nat) : Word :=
  match m.how with
  | .unit | .firstFault _ => m.a + BitVec.ofNat 64 (i * m.w)
  | .stride b => m.a + BitVec.ofNat 64 i * b
  | .index x _ => m.a + BitVec.ofNat 64 (c.elem x 4 i)

/-- The queue of the command. -/
def VMem.queue (m : VMem) : QueueId := if m.load then .loaderVec else .storerVec

/-- An element that the bitmap says is done (R166). -/
def VMem.skips (m : VMem) (i : Nat) (c : Core) : Bool :=
  match m.how with
  | .index _ (some n) => c.vbm[n.toNat].getLsbD i
  | _ => false

/-- What a command with a bitmap carries: the element at which it faulted, plus one (0: none), then the elements that it has done
out of order. -/
def carryFault (carry : List Word) : Nat := (carry.headD 0).toNat
def carryDone (carry : List Word) : List Nat := carry.tail.map (·.toNat)

/-- The write of element `i` by a store: but for the bytes that elements of a higher index have written, which the command did
before it (R166, R167). -/
def VMem.put (m : VMem) (done : List Nat) (i : Nat) (ea : Word) (bs : List Byte) (s : State) : Except Flt State := do
  let loc ← s.locate ea m.w true
  let later (k : Nat) : Bool := done.any (fun j => i < j &&
    (match s.locate (m.addr s.core j) m.w true with | .ok x => x ≤ loc + k && loc + k < x + m.w | .error _ => false))
  let bare := (List.range m.w).filter (fun k => !later k)
  if bare.length = m.w then s.engWrite .storer ea bs else
  bare.foldlM (fun s k => s.engWrite .storer (ea + BitVec.ofNat 64 k) ((bs.drop k).take 1)) s

/-- A vector load has filled part of a vector register: no unit read ahead is returned any more to a command whose indices lie there
(R344). -/
def State.noteFilled (s : State) (v : Nat) : State :=
  let c := s.core.loader
  let uses (e : Early) : Bool := match e.cmd with
    | some (q, k) => (s.core.queue q).cmds.any (fun x => x.num = k && (indexGroup x.vcfg x.instr).contains v)
    | none => false
  s.setComp .loader { c with early := (c.early.filter (fun e => !uses e)).map (fun e =>
    if e.filled.contains v then e else { e with filled := v :: e.filled }) }

/-- One element's access; `done`: the elements that the command has done out of order. -/
def VMem.access (m : VMem) (done : List Nat) (i : Nat) (s : State) : Except Flt State := do
  match m.how with
  | .index x _ => match s.rsBad [(elemAddr x 4 i, 4)] with | some e => .error e | none => pure ()
  | _ => pure ()
  let ea := m.addr s.core i
  if ea.toNat % m.w ≠ 0 then .error (.align, ea) else
  if m.load then do
    let (s, bs) ← s.engRead .loader ea m.w
    (s.noteFilled (elemAddr m.v m.w i / 1536)).rsStore [(elemAddr m.v m.w i, bs)]
  else do
    let _ ← s.locate ea m.w true
    match s.rsBad [(elemAddr m.v m.w i, m.w)] with
    | some e => .error e
    | none => m.put done i ea (s.core.rs.readN (elemAddr m.v m.w i) m.w) s

/-- The bitmap bit of an element is set. -/
def VMem.mark (m : VMem) (i : Nat) (s : State) : State :=
  match m.how with
  | .index _ (some n) => s.setVbm n (setBit s.core.vbm[n.toNat] i true)
  | _ => s

/-- Zero into the elements of `is` of a load's destination, where `on`. -/
def VMem.zero (m : VMem) (l : Lanes) (on : Bool) (is : List Nat) (s : State) : Except Flt State :=
  if m.load && on && l.vl ≠ 0 then s.rsStore (is.map (fun i => (elemAddr m.v m.w i, zeros m.w))) else .ok s

/-- The end of a command that has reached element `n`: the tail by its policy. A fault of the tail leaves it at its end: its
replay begins there. -/
def VMem.finish (m : VMem) (l : Lanes) (n : Nat) (carry : List Word) (s : State) : EngEnd :=
  match m.zero l l.tail ((List.range (l.max - l.vl)).map (fun j => l.vl + j)) s with
  | .ok t => .done (t.setHeadProg m.queue { units := n })
  | .error (cause, ea) => .fault s cause ea (match m.how with
    | .firstFault _ => { units := n, carry := [3] }
    | .index _ (some _) => { carry := carry }
    | _ => { units := n, carry := carry })

/-- A fault at element `i`; `first` says that no active element came before it. A replay of the form with a bitmap finds in
it what is done (R166), and begins at the faulting element (R76). -/
def VMem.fault (m : VMem) (l : Lanes) (i : Nat) (first : Bool) (carry : List Word) (c : Cause) (ea : Word) (s : State) :
    EngEnd :=
  match m.how with
  | .firstFault _ =>
    if c = .xlate ∨ c = .prot then (if first then .fault s .firstFault ea { units := i } else m.finish l i carry s)
    else .fault s c ea { units := i, carry := if first then [] else [1] }
  | .index _ (some _) => .fault s c ea { carry := BitVec.ofNat 64 (i + 1) :: carry.tail }
  | _ => .fault s c ea { units := i }

/-- A command with a bitmap does element `i` out of order (R166). After a fault at an element, no other comes before that one (R76);
what the bitmap or the mask now says is done is done. -/
def VMem.pick (m : VMem) (c : Cmd) (i : Nat) (s : State) : EngEnd :=
  let l := Lanes.of c s.core
  let carry := c.prog.carry
  match m.how with
  | .index _ (some _) =>
    if 0 < carryFault carry ∧ carryFault carry ≠ i + 1 then .wait s
    else if !l.active i || m.skips i s.core then
      .wait (s.setHeadProg m.queue { units := c.prog.units, carry := 0 :: carry.tail })
    else
    match m.access (carryDone carry) i s with
    | .ok u => .wait ((m.mark i u).setHeadProg m.queue { units := c.prog.units, carry := 0 :: BitVec.ofNat 64 i :: carry.tail })
    | .error (cause, ea) => m.fault l i false carry cause ea s
  | _ => .wait s

/-- A vector memory command in the engine: its next active element, and the inactive ones before it by their policy. The carry
is empty until an active element has been reached, and 3 at the end of a `vldff` whose tail faulted. A command with a bitmap that
a fault at an element has stopped begins at that element. The index of an element is read when the element is accessed, though
earlier elements have been written by then (R162, log entry 101). -/
def runVmem (m : VMem) (c : Cmd) (s : State) : EngEnd :=
  let l := Lanes.of c s.core
  let carry := c.prog.carry
  let bitmap : Bool := match m.how with | .index _ (some _) => true | _ => false
  if !bitmap ∧ carry = [3] then m.finish l c.prog.units carry s
  else if bitmap ∧ 0 < carryFault carry then
    m.pick c (carryFault carry - 1) s
  else
  let rest := (List.range l.vl).drop c.prog.units
  let past := rest.takeWhile (fun i => !l.active i || m.skips i s.core)
  match m.zero l l.zero (past.filter (fun i => !l.active i)) s with
  | .error (cause, ea) => .fault s cause ea (if bitmap then { carry := carry } else c.prog)
  | .ok t =>
    match rest[past.length]? with
    | none => m.finish l l.vl carry t
    | some i =>
      match m.access (carryDone carry) i t with
      | .ok u => .wait ((m.mark i u).setHeadProg m.queue { units := i + 1, carry := if bitmap then carry else [1] })
      | .error (cause, ea) => m.fault l i carry.isEmpty carry cause ea t

/-- The vector memory command that an instruction is. -/
def Cmd.vmem (c : Cmd) : Option VMem :=
  let a := c.ops.getD 0 0
  match c.instr with
  | .vld _ t v _ => some ⟨true, v.toNat, t.width, a, .unit⟩
  | .vlds _ t v _ _ => some ⟨true, v.toNat, t.width, a, .stride (c.ops.getD 1 0)⟩
  | .vldx _ t v _ x bm => some ⟨true, v.toNat, t.width, a, .index x.toNat bm⟩
  | .vldff _ t v _ n => some ⟨true, v.toNat, t.width, a, .firstFault n⟩
  | .vst _ t v _ => some ⟨false, v.toNat, t.width, a, .unit⟩
  | .vsts _ t v _ _ => some ⟨false, v.toNat, t.width, a, .stride (c.ops.getD 1 0)⟩
  | .vstx _ t v _ x bm => some ⟨false, v.toNat, t.width, a, .index x.toNat bm⟩
  | _ => none

end Sys2Proof.Machine
end

