-- ==== Sys2Proof/Machine/Vector.lean ====
section
/-! DEFINITION. The vector engine: majors 0x05 and 0x06 (13_vector_engine, R170). -/

namespace Sys2Proof.Machine

/-! ### Issue (R170, R221, R222) -/

/-- The group size of an operand of width `w`; `none` above 8 (R222). -/
def VCfg.groupFor (v : VCfg) (w : Nat) : Option Nat :=
  let n := v.group * w / v.ew.bytes
  if 8 < n then none else some (max 1 n)

def VCfg.fits (v : VCfg) (t : ElemType) (r : VReg) : Bool :=
  match v.groupFor t.width with | some g => groupOk r g | none => false

/-- Every prefix field but those excluded; a rounding field only beside a floating type. -/
def vTakes (fl rnd sat mask : Bool) : Takes := { rnd := rnd && fl, sat := sat, mask := mask, tail := true }

def vIssue (s : State) (i : Instr) (h : EHdr) (k : Takes) (ok : Bool) : Host.Outcome State Fault Refusal :=
  issue s i h .sequencer .seqVec k false (if ok then .ok {} else .error (.trap .illegal 0))

/-- The operand check of a command whose operands all have the captured width. -/
def vOk (s : State) (t : ElemType) (rs : List VReg) : Bool :=
  t.width = s.me.vcfg.ew.bytes && rs.all (fun r => groupOk r s.me.vcfg.group)

/-- Arithmetic of minors 0 to 5 and 10. -/
def vArith (s : State) (i : Instr) (h : EHdr) (t : ElemType) (d a b : VReg) : Host.Outcome State Fault Refusal :=
  vIssue s i h (vTakes t.isFloat true true true) (vOk s t [d, a, b])

/-- The functions of minors 11 to 15; `fixed`: f32 takes no rounding field. -/
def vFun (s : State) (i : Instr) (h : EHdr) (fixed : Bool) (t : ElemType) (d a : VReg) : Host.Outcome State Fault Refusal :=
  vIssue s i h (vTakes t.isFloat (!(fixed && t = .f32)) false true) (t.isFloat && vOk s t [d, a])

/-- A command that takes no rounding and no saturation. -/
def vPlain (s : State) (i : Instr) (h : EHdr) (ok : Bool) (t : ElemType) (rs : List VReg) : Host.Outcome State Fault Refusal :=
  vIssue s i h (vTakes false false false true) (ok && vOk s t rs)

def execVadd (h : EHdr) (t : ElemType) (d a b : VReg) (s : State) : Host.Outcome State Fault Refusal :=
  vArith s (.vadd h t d a b) h t d a b
def execVsub (h : EHdr) (t : ElemType) (d a b : VReg) (s : State) : Host.Outcome State Fault Refusal :=
  vArith s (.vsub h t d a b) h t d a b
def execVmul (h : EHdr) (t : ElemType) (d a b : VReg) (s : State) : Host.Outcome State Fault Refusal :=
  vArith s (.vmul h t d a b) h t d a b
def execVfma (h : EHdr) (t : ElemType) (d a b : VReg) (s : State) : Host.Outcome State Fault Refusal :=
  vArith s (.vfma h t d a b) h t d a b
def execVfms (h : EHdr) (t : ElemType) (d a b : VReg) (s : State) : Host.Outcome State Fault Refusal :=
  vArith s (.vfms h t d a b) h t d a b
def execVfnma (h : EHdr) (t : ElemType) (d a b : VReg) (s : State) : Host.Outcome State Fault Refusal :=
  vArith s (.vfnma h t d a b) h t d a b
def execVdiv (h : EHdr) (t : ElemType) (d a b : VReg) (s : State) : Host.Outcome State Fault Refusal :=
  vArith s (.vdiv h t d a b) h t d a b
def execVmin (h : EHdr) (t : ElemType) (d a b : VReg) (s : State) : Host.Outcome State Fault Refusal :=
  vPlain s (.vmin h t d a b) h true t [d, a, b]
def execVmax (h : EHdr) (t : ElemType) (d a b : VReg) (s : State) : Host.Outcome State Fault Refusal :=
  vPlain s (.vmax h t d a b) h true t [d, a, b]
def execVabs (h : EHdr) (t : ElemType) (d a : VReg) (s : State) : Host.Outcome State Fault Refusal :=
  vIssue s (.vabs h t d a) h (vTakes false false true true) (vOk s t [d, a])
def execVneg (h : EHdr) (t : ElemType) (d a : VReg) (s : State) : Host.Outcome State Fault Refusal :=
  vIssue s (.vneg h t d a) h (vTakes false false true true) (vOk s t [d, a])
def execVsqrt (h : EHdr) (t : ElemType) (d a : VReg) (s : State) : Host.Outcome State Fault Refusal :=
  vFun s (.vsqrt h t d a) h false t d a
def execVrsqrt (h : EHdr) (t : ElemType) (d a : VReg) (s : State) : Host.Outcome State Fault Refusal :=
  vFun s (.vrsqrt h t d a) h true t d a
def execVrcp (h : EHdr) (t : ElemType) (d a : VReg) (s : State) : Host.Outcome State Fault Refusal :=
  vFun s (.vrcp h t d a) h true t d a
def execVexp2 (h : EHdr) (t : ElemType) (d a : VReg) (s : State) : Host.Outcome State Fault Refusal :=
  vFun s (.vexp2 h t d a) h true t d a
def execVlog2 (h : EHdr) (t : ElemType) (d a : VReg) (s : State) : Host.Outcome State Fault Refusal :=
  vFun s (.vlog2 h t d a) h true t d a
def execVcvt (h : EHdr) (t u : ElemType) (d a : VReg) (s : State) : Host.Outcome State Fault Refusal :=
  vIssue s (.vcvt h t u d a) h (vTakes (t.isFloat || u.isFloat) true true true) (s.me.vcfg.fits t d && s.me.vcfg.fits u a)
def execVand (h : EHdr) (t : ElemType) (d a b : VReg) (s : State) : Host.Outcome State Fault Refusal :=
  vPlain s (.vand h t d a b) h true t [d, a, b]
def execVor (h : EHdr) (t : ElemType) (d a b : VReg) (s : State) : Host.Outcome State Fault Refusal :=
  vPlain s (.vor h t d a b) h true t [d, a, b]
def execVxor (h : EHdr) (t : ElemType) (d a b : VReg) (s : State) : Host.Outcome State Fault Refusal :=
  vPlain s (.vxor h t d a b) h true t [d, a, b]
def execVnot (h : EHdr) (t : ElemType) (d a : VReg) (s : State) : Host.Outcome State Fault Refusal :=
  vPlain s (.vnot h t d a) h true t [d, a]
def execVshl (h : EHdr) (t : ElemType) (d a b : VReg) (s : State) : Host.Outcome State Fault Refusal :=
  vPlain s (.vshl h t d a b) h (!t.isFloat) t [d, a, b]
def execVshr (h : EHdr) (t : ElemType) (d a b : VReg) (s : State) : Host.Outcome State Fault Refusal :=
  vPlain s (.vshr h t d a b) h (!t.isFloat) t [d, a, b]
def execVsra (h : EHdr) (t : ElemType) (d a b : VReg) (s : State) : Host.Outcome State Fault Refusal :=
  vPlain s (.vsra h t d a b) h (!t.isFloat) t [d, a, b]
def execVcmp (h : EHdr) (cc : VCond) (t : ElemType) (d : KReg) (a b : VReg) (s : State) :
    Host.Outcome State Fault Refusal :=
  vPlain s (.vcmp h cc t d a b) h true t [a, b]
def execVsel (h : EHdr) (t : ElemType) (d a b : VReg) (k : KReg) (s : State) : Host.Outcome State Fault Refusal :=
  vPlain s (.vsel h t d a b k) h true t [d, a, b]
def execVredsum (h : EHdr) (t : ElemType) (d a b : VReg) (s : State) : Host.Outcome State Fault Refusal :=
  vArith s (.vredsum h t d a b) h t d a b
def execVredmax (h : EHdr) (t : ElemType) (d a b : VReg) (s : State) : Host.Outcome State Fault Refusal :=
  vPlain s (.vredmax h t d a b) h true t [d, a, b]
def execVredmin (h : EHdr) (t : ElemType) (d a b : VReg) (s : State) : Host.Outcome State Fault Refusal :=
  vPlain s (.vredmin h t d a b) h true t [d, a, b]
def execVscan (h : EHdr) (op : ScanOp) (t : ElemType) (d a : VReg) (s : State) : Host.Outcome State Fault Refusal :=
  vIssue s (.vscan h op t d a) h (vTakes t.isFloat (op = .sum) (op = .sum) true) (vOk s t [d, a])
def execVperm (h : EHdr) (t : ElemType) (d a b : VReg) (s : State) : Host.Outcome State Fault Refusal :=
  vPlain s (.vperm h t d a b) h true t [d, a, b]
def execVslideup (h : EHdr) (t : ElemType) (d a : VReg) (n : BitVec 15) (s : State) : Host.Outcome State Fault Refusal :=
  vPlain s (.vslideup h t d a n) h true t [d, a]
def execVslidedn (h : EHdr) (t : ElemType) (d a : VReg) (n : BitVec 15) (s : State) : Host.Outcome State Fault Refusal :=
  vPlain s (.vslidedn h t d a n) h true t [d, a]
def execVbcast (h : EHdr) (t : ElemType) (d a : VReg) (j : BitVec 12) (s : State) : Host.Outcome State Fault Refusal :=
  vPlain s (.vbcast h t d a j) h true t [d, a]
def execVcomp (h : EHdr) (t : ElemType) (d a : VReg) (k : KReg) (s : State) : Host.Outcome State Fault Refusal :=
  vIssue s (.vcomp h t d a k) h (vTakes false false false false) (vOk s t [d, a])
def execViota (h : EHdr) (t : ElemType) (d : VReg) (k : KReg) (s : State) : Host.Outcome State Fault Refusal :=
  vPlain s (.viota h t d k) h (!t.isFloat) t [d]
def execVrot (h : EHdr) (t : ElemType) (d a b : VReg) (s : State) : Host.Outcome State Fault Refusal :=
  vIssue s (.vrot h t d a b) h (vTakes true true false true)
    ((t = .f32 || t = .f16 || t = .bf16) && vOk s t [d, a, b])

/-- The pairs of R236. -/
def dotPair (t u : ElemType) : Bool :=
  match t, u with
  | .f32, .e4m3 | .f32, .e5m2 | .f32, .bf16 | .f32, .f16 | .i32, .i8 | .i32, .ui8 | .i32, .i16 | .i32, .ui16 => true
  | _, _ => false

/-- `vdot`: the group size of the destination's width holds for its sources too (R222, log entry 105). -/
def execVdot (h : EHdr) (t u : ElemType) (d a b : VReg) (s : State) : Host.Outcome State Fault Refusal :=
  vIssue s (.vdot h t u d a b) h (vTakes u.isFloat true true true) (dotPair t u && vOk s t [d, a, b])
def execVseed (h : EHdr) (a : VReg) (s : State) : Host.Outcome State Fault Refusal :=
  vIssue s (.vseed h a) h {} true
def execVmv (h : EHdr) (t : ElemType) (d a : VReg) (s : State) : Host.Outcome State Fault Refusal :=
  vPlain s (.vmv h t d a) h true t [d, a]
def execKand (h : EHdr) (d a b : KReg) (s : State) : Host.Outcome State Fault Refusal :=
  vIssue s (.kand h d a b) h {} true
def execKor (h : EHdr) (d a b : KReg) (s : State) : Host.Outcome State Fault Refusal :=
  vIssue s (.kor h d a b) h {} true
def execKxor (h : EHdr) (d a b : KReg) (s : State) : Host.Outcome State Fault Refusal :=
  vIssue s (.kxor h d a b) h {} true
def execKnot (h : EHdr) (d a : KReg) (s : State) : Host.Outcome State Fault Refusal :=
  vIssue s (.knot h d a) h {} true

/-! ### Element arithmetic (R223 to R227) -/

inductive ArithOp | add | sub | mul | fma | fms | fnma | abs | neg | div | sqrt
  deriving DecidableEq, Repr

/-- The exact result on floating values. -/
def ArithOp.num (op : ArithOp) (m : Rnd) (a b d : Num) : Num :=
  match op with
  | .add => Num.add m a b
  | .sub => Num.add m a b.neg
  | .mul => a.mul b
  | .fma => Num.add m (a.mul b) d
  | .fms => Num.add m (a.mul b) d.neg
  | .fnma => Num.add m d (a.mul b).neg
  | .abs => a.abs
  | .neg => a.neg
  | .div => a.div b
  | .sqrt => a.sqrt

/-- The exact result on integers; the quotient rounds toward zero. -/
def ArithOp.int (op : ArithOp) (a b d : Int) : Int :=
  match op with
  | .add => a + b
  | .sub => a - b
  | .mul => a * b
  | .fma => a * b + d
  | .fms => a * b - d
  | .fnma => d - a * b
  | .abs => a.natAbs
  | .neg => -a
  | .div => a.tdiv b
  | .sqrt => a

/-- One element of R223, with its draw. Under saturation `vabs` and `vneg` of an infinity clamp as R190 clamps (log entry 106). -/
def arithCode (op : ArithOp) (t : ElemType) (m : Rnd) (sat : Bool) (g : Word) (a b d : Nat) : Word × Nat :=
  match t.ffmt with
  | some f => f.narrow m sat g (op.num m (f.value a) (f.value b) (f.value d))
  | none =>
    let v := intValue t.width t.signed
    if op = .div ∧ v b = 0 then (g, 2 ^ (8 * t.width) - 1)
    else (g, intCode t.width t.signed sat (op.int (v a) (v b) (v d)))

/-- One element of R226: RNE to f32, then once more to a narrower type. -/
def funCode (fn : Num → Num) (t : ElemType) (m : Rnd) (g : Word) (a : Nat) : Word × Nat :=
  match t.ffmt with
  | some f =>
    let r := f32F.rne (fn (f.value a))
    if t = .f32 then (g, r) else f.narrow m false g (f32F.value r)
  | none => (g, a)

/-- One element of R227. -/
def convertCode (t u : ElemType) (m : Rnd) (sat : Bool) (g : Word) (a : Nat) : Word × Nat :=
  match u.ffmt, t.ffmt with
  | some fu, some ft =>
    if t = u then ((drawFor m g).1, if ft.isNan a then ft.canon else a) else ft.narrow m sat g (fu.value a)
  | some fu, none =>
    let (g, d) := drawFor m g
    (g, (fu.value a).convert t.width t.signed m d)
  | none, some ft => ft.narrow m sat g (Num.ofDy (intValue u.width u.signed a, 0))
  | none, none => (g, intCode t.width t.signed sat (intValue u.width u.signed a))

/-! ### Shifts and logic (R228) -/

def shiftCode (w : Nat) (left arith : Bool) (a n : Nat) : Nat :=
  let n := n % (8 * w)
  if left then a * 2 ^ n % 2 ^ (8 * w)
  else if arith then (sextInt (8 * w) a / 2 ^ n % 2 ^ (8 * w)).toNat
  else a / 2 ^ n

/-! ### Reductions and scans (R231, R232) -/

/-- What a sum carries: an f32 code's value, or an exact integer; what the others carry: a code. -/
inductive Acc | num (x : Num) | int (x : Int) | code (c : Nat)
  deriving DecidableEq, Repr

def redValue (op : ScanOp) (t : ElemType) (c : Nat) : Acc :=
  match op, t.ffmt with
  | .sum, some f => .num (f.value c)
  | .sum, none => .int (intValue t.width t.signed c)
  | _, _ => .code c

def redComb (op : ScanOp) (t : ElemType) (m : Rnd) (sat : Bool) (g : Word) (x y : Acc) : Word × Acc :=
  match x, y with
  | .num u, .num v =>
    let (g, c) := f32F.narrow m sat g (Num.add m u v)
    (g, .num (f32F.value c))
  | .int u, .int v => (g, .int (u + v))
  | .code u, .code v => (g, .code (pickCode t (op = .max) u v))
  | _, _ => (g, x)

/-- The result of a reduction or of a scan's element: a lone NaN leaves as the canonical one (R191, log entry 85). -/
def redNarrow (t : ElemType) (m : Rnd) (sat : Bool) (g : Word) (x : Acc) : Word × Nat :=
  match x, t.ffmt with
  | .num u, some f => if t = .f32 then (g, f.round .rne sat 0 u) else f.narrow m sat g u
  | .int u, _ => (g, intCode t.width t.signed sat u)
  | .code c, some f => (g, if f.isNan c then f.canon else c)
  | .code c, none => (g, c)
  | .num _, none => (g, 0)

/-- comb with absent operands. -/
def combOpt (comb : Word → Acc → Acc → Word × Acc) (g : Word) : Option Acc → Option Acc → Word × Option Acc
  | some x, some y => let (g, z) := comb g x y; (g, some z)
  | some x, none => (g, some x)
  | none, y => (g, y)

/-- One level of the tree, in ascending order. -/
def redLevel (comb : Word → Acc → Acc → Word × Acc) : Word → List (Option Acc) → Word × List (Option Acc)
  | g, x :: y :: t =>
    let (g, z) := combOpt comb g x y
    let (g, r) := redLevel comb g t
    (g, z :: r)
  | g, l => (g, l)

/-- Levels until one value is left: `n` of them. -/
def redTree (comb : Word → Acc → Acc → Word × Acc) : Nat → Word → List (Option Acc) → Word × List (Option Acc)
  | 0, g, l => (g, l)
  | n + 1, g, l => if l.length ≤ 1 then (g, l) else let (g, r) := redLevel comb g l; redTree comb n g r

/-- The smallest power of two that is not below `n`, from `p` up. -/
def pow2Above (n : Nat) : Nat → Nat → Nat
  | 0, p => p
  | f + 1, p => if n ≤ p then p else pow2Above n f (2 * p)

/-! ### Execution -/

/-- What a command makes: the generator, the register-space writes, a mask. -/
structure VOut where
  gen    : Word
  writes : List (Nat × List Byte) := []
  mask   : Option (Nat × BitVec 3072) := none

/-- Lanes below `n` in ascending order, each active one computed with its draw. -/
def mapLanes (l : Lanes) (f : Word → Nat → Word × Nat) (g : Word) : Word × List Lane :=
  let (g, r) := (List.range l.vl).foldl (fun (x : Word × List Lane) i =>
    if l.active i then let (g, c) := f x.1 i; (g, .put c :: x.2) else (x.1, .inactive :: x.2)) (g, [])
  (g, r.reverse)

def nth (l : List Nat) (i : Nat) : Nat := l.getD i 0

/-- An element-wise command: the destination, its width, and what each active lane becomes. -/
def eachLane (l : Lanes) (d : VReg) (w : Nat) (g : Word) (f : Word → Nat → Word × Nat) : VOut :=
  let (g, r) := mapLanes l f g
  { gen := g, writes := l.writes d.toNat w r l.vl }

/-- A vector command's effect, from all its sources (R162). -/
def vectorOut (c : Cmd) (k : Core) : VOut :=
  let l := Lanes.of c k
  let m := c.pfx.rnd.getD .rne
  let sat := c.pfx.sat
  let g := k.genVec
  let src (r : VReg) (w : Nat) : List Nat := k.elems r.toNat w l.vl
  let arith (op : ArithOp) (t : ElemType) (d a b : VReg) : VOut :=
    let x := src a t.width
    let y := src b t.width
    let z := src d t.width
    eachLane l d t.width g (fun g i => arithCode op t m sat g (nth x i) (nth y i) (nth z i))
  let fn (f : Num → Num) (t : ElemType) (d a : VReg) : VOut :=
    let x := src a t.width
    eachLane l d t.width g (fun g i => funCode f t m g (nth x i))
  let bitwise (t : ElemType) (d a b : VReg) (f : Nat → Nat → Nat) : VOut :=
    let x := src a t.width
    let y := src b t.width
    eachLane l d t.width g (fun g i => (g, f (nth x i) (nth y i)))
  let move (t : ElemType) (d : VReg) (f : Nat → Nat) : VOut := eachLane l d t.width g (fun g i => (g, f i))
  let kbits (d : KReg) (f : Nat → Bool) : VOut :=
    { gen := g, mask := some (d.toNat, l.maskWrite k.k[d.toNat] f) }
  let reduce (op : ScanOp) (t : ElemType) (d a b : VReg) : VOut :=
    if l.vl = 0 then { gen := g } else
    let x := src a t.width
    let size := pow2Above l.vl 13 1
    let xs := (List.range size).map (fun i => if l.active i then some (redValue op t (nth x i)) else none)
    let comb := redComb op t m sat
    let (g, r) := redTree comb 13 g xs
    let (g, r) := combOpt comb g (r.headD none) (some (redValue op t (k.elem b.toNat t.width 0)))
    let (g, v) := redNarrow t m sat g (r.getD (.code 0))
    { gen := g, writes := l.writes d.toNat t.width [.put v] 1 }
  let scan (op : ScanOp) (t : ElemType) (d a : VReg) : VOut :=
    let x := src a t.width
    let comb := redComb op t m sat
    let (g, _, r) := (List.range l.vl).foldl (fun (q : Word × Option Acc × List Lane) i =>
      if l.active i then
        let (g, r) := combOpt comb q.1 q.2.1 (some (redValue op t (nth x i)))
        let (g, v) := redNarrow t m sat g (r.getD (.code 0))
        (g, r, .put v :: q.2.2)
      else (q.1, q.2.1, .inactive :: q.2.2)) (g, none, [])
    { gen := g, writes := l.writes d.toNat t.width r.reverse l.vl }
  match c.instr with
  | .vadd _ t d a b => arith .add t d a b
  | .vsub _ t d a b => arith .sub t d a b
  | .vmul _ t d a b => arith .mul t d a b
  | .vfma _ t d a b => arith .fma t d a b
  | .vfms _ t d a b => arith .fms t d a b
  | .vfnma _ t d a b => arith .fnma t d a b
  | .vabs _ t d a => arith .abs t d a a
  | .vneg _ t d a => arith .neg t d a a
  | .vdiv _ t d a b => arith .div t d a b
  | .vsqrt _ t d a => arith .sqrt t d a a
  | .vmin _ t d a b => bitwise t d a b (pickCode t false)
  | .vmax _ t d a b => bitwise t d a b (pickCode t true)
  | .vrsqrt _ t d a => fn Num.rsqrt t d a
  | .vrcp _ t d a => fn Num.rcp t d a
  | .vexp2 _ t d a => fn Num.exp2 t d a
  | .vlog2 _ t d a => fn Num.log2 t d a
  | .vcvt _ t u d a =>
    let x := src a u.width
    eachLane l d t.width g (fun g i => convertCode t u m sat g (nth x i))
  | .vand _ t d a b => bitwise t d a b (fun x y => x &&& y)
  | .vor _ t d a b => bitwise t d a b (fun x y => x ||| y)
  | .vxor _ t d a b => bitwise t d a b (fun x y => x ^^^ y)
  | .vnot _ t d a => bitwise t d a a (fun x _ => 2 ^ (8 * t.width) - 1 - x)
  | .vshl _ t d a b => bitwise t d a b (shiftCode t.width true false)
  | .vshr _ t d a b => bitwise t d a b (shiftCode t.width false false)
  | .vsra _ t d a b => bitwise t d a b (shiftCode t.width false true)
  | .vcmp _ cc t d a b =>
    let x := src a t.width
    let y := src b t.width
    kbits d (fun i => condHolds cc (codeOrder t (nth x i) (nth y i)))
  | .vsel _ t d a b kc =>
    let x := src a t.width
    let y := src b t.width
    move t d (fun i => if k.k[kc.toNat].getLsbD i then nth x i else nth y i)
  | .vredsum _ t d a b => reduce .sum t d a b
  | .vredmax _ t d a b => reduce .max t d a b
  | .vredmin _ t d a b => reduce .min t d a b
  | .vscan _ op t d a => scan op t d a
  | .vperm _ t d a b =>
    let x := src a t.width
    let y := src b t.width
    move t d (fun i => if nth y i < l.vl then nth x (nth y i) else 0)
  | .vslideup _ t d a n =>
    let x := src a t.width
    { gen := g, writes := l.writes d.toNat t.width ((List.range l.vl).map (fun i =>
        if i < n.toNat then .keep else if l.active i then .put (nth x (i - n.toNat)) else .inactive)) l.vl }
  | .vslidedn _ t d a n =>
    let x := src a t.width
    move t d (fun i => if i + n.toNat < l.vl then nth x (i + n.toNat) else 0)
  | .vbcast _ t d a j =>
    let x := src a t.width
    move t d (fun _ => if j.toNat < l.vl then nth x j.toNat else 0)
  | .vcomp _ t d a kc =>
    let x := src a t.width
    let r := ((List.range l.vl).filter k.k[kc.toNat].getLsbD).map (fun i => Lane.put (nth x i))
    { gen := g, writes := l.writes d.toNat t.width r r.length }
  | .viota _ t d ka => move t d (fun i => countBits k.k[ka.toNat] i % 2 ^ (8 * t.width))
  | .vrot _ t d a b =>
    let x := src a t.width
    let y := src b t.width
    let f := t.ffmt.getD f32F
    eachLane l d t.width g (fun g i =>
      let p := i / 2 * 2
      if i % 2 = 0 ∧ i + 1 = l.vl then (g, nth x i) else
      let theta := nth y p + 2 ^ (8 * t.width) * nth y (p + 1)
      let r := rotPair (f.value (nth x p)) (f.value (nth x (p + 1)))
        (rotor (BitVec.ofNat 64 (theta * 2 ^ (64 - 16 * t.width))))
      f.narrow m false g (if i % 2 = 0 then r.1 else r.2))
  | .vdot _ t u d a b =>
    let n := 4 / u.width
    let x := k.elems a.toNat u.width (n * l.vl)
    let y := k.elems b.toNat u.width (n * l.vl)
    let z := src d 4
    eachLane l d 4 g (fun g i =>
      match u.ffmt with
      | some f =>
        let sum := (List.range n).foldl (fun acc j =>
          Num.add m acc ((f.value (nth x (n * i + j))).mul (f.value (nth y (n * i + j))))) (f32F.value (nth z i))
        f32F.narrow m sat g sum
      | none =>
        let v := intValue u.width u.signed
        let sum := (List.range n).foldl (fun acc j => acc + v (nth x (n * i + j)) * v (nth y (n * i + j)))
          (intValue 4 t.signed (nth z i))
        (g, intCode 4 t.signed sat sum))
  | .vmv _ t d a =>
    let x := src a t.width
    move t d (nth x)
  | .kand _ d a b => kbits d (fun i => k.k[a.toNat].getLsbD i && k.k[b.toNat].getLsbD i)
  | .kor _ d a b => kbits d (fun i => k.k[a.toNat].getLsbD i || k.k[b.toNat].getLsbD i)
  | .kxor _ d a b => kbits d (fun i => k.k[a.toNat].getLsbD i != k.k[b.toNat].getLsbD i)
  | .knot _ d a => kbits d (fun i => !k.k[a.toNat].getLsbD i)
  | _ => { gen := g }

/-- The register-space bytes that a vector command reads: address and length. A source counts as read whole below vl, whichever of
its elements the result takes, and its operands in the order a, b, dst (R220, log entry 103). -/
def vectorReads (c : Cmd) : List (Nat × Nat) :=
  let vl := c.vcfg.vl.toNat
  let span (r : VReg) (w : Nat) : Nat × Nat := (elemAddr r.toNat w 0, vl * w)
  if vl = 0 then (match c.instr with | .vseed _ a => [(elemAddr a.toNat 8 0, 8)] | _ => []) else
  match c.instr with
  | .vadd _ t _ a b | .vsub _ t _ a b | .vmul _ t _ a b | .vdiv _ t _ a b | .vmin _ t _ a b | .vmax _ t _ a b
  | .vand _ t _ a b | .vor _ t _ a b | .vxor _ t _ a b | .vshl _ t _ a b | .vshr _ t _ a b | .vsra _ t _ a b
  | .vcmp _ _ t _ a b | .vsel _ t _ a b _ | .vperm _ t _ a b | .vrot _ t _ a b => [span a t.width, span b t.width]
  | .vfma _ t d a b | .vfms _ t d a b | .vfnma _ t d a b => [span a t.width, span b t.width, span d t.width]
  | .vabs _ t _ a | .vneg _ t _ a | .vsqrt _ t _ a | .vrsqrt _ t _ a | .vrcp _ t _ a | .vexp2 _ t _ a | .vlog2 _ t _ a
  | .vnot _ t _ a | .vscan _ _ t _ a | .vslideup _ t _ a _ | .vslidedn _ t _ a _ | .vcomp _ t _ a _ | .vmv _ t _ a =>
    [span a t.width]
  | .vbcast _ t _ a j => if j.toNat < vl then [(elemAddr a.toNat t.width j.toNat, t.width)] else []
  | .vcvt _ _ u _ a => [span a u.width]
  | .vredsum _ t _ a b | .vredmax _ t _ a b | .vredmin _ t _ a b => [span a t.width, (elemAddr b.toNat t.width 0, t.width)]
  | .vdot _ _ _ d a b => [span a 4, span b 4, span d 4]
  | .vseed _ a => [(elemAddr a.toNat 8 0, 8)]
  | _ => []

/-- A command of the sequencer's vector queue in the engine (R219, R220, R237). -/
def runVector (c : Cmd) (s : State) : EngEnd :=
  match s.rsBad (vectorReads c) with
  | some (cause, ea) => .fault s cause ea {}
  | none =>
    match c.instr with
    | .vseed _ a => .done { s with core := s.core.setSeed (BitVec.ofNat 64 (s.core.rs.num (elemAddr a.toNat 8 0) 8)) }
    | _ =>
      let o := vectorOut c s.core
      match s.rsStore o.writes with
      | .error (cause, ea) => .fault s cause ea {}
      | .ok t => .done { t with core := { t.core with
          genVec := o.gen, k := match o.mask with | some (i, x) => t.core.k.setIfInBounds i x | none => t.core.k } }

end Sys2Proof.Machine
end

