-- ==== Sys2Proof/Machine/Run.lean ====
section
/-! DEFINITION. The engines at work on their queues: a command executes, and retires (R14, R44, R45, R197), and the waits
that a remote result puts on the storer (R271). -/

namespace Sys2Proof

/-- A companion instruction that names an s register and that the storer's profile leaves out (Table 2-9). -/
def Instr.notStorer : Instr → Bool
  | .kvFind .. | .kvPos .. | .decl .. | .ntake .. | .nfree .. | .psched .. | .vmvSx .. | .vmvXs .. | .kpop .. | .kffs ..
  | .fmtPush .. => true
  | _ => false

end Sys2Proof

namespace Sys2Proof.Machine

/-- An instruction that names an s register passes steps 7 to 9 of Table 2-7 on the storer. -/
def State.storerAdmits (s : State) (i : Instr) : Bool :=
  match i.hdr with
  | none => !i.notStorer && s.prefixNow.bare
  | some h => tokLegal .storer h.tok && (match i with
    | .vst .. | .vsts .. | .vstx .. => prefixWithin s.prefixNow { mask := true }
    | .pub .. | .pubMc .. | .rst .. | .rstMc .. | .rld .. | .ramo .. => s.prefixNow.bare
    | _ => false)

/-- The value of `a` with an immediate is no multiple of `n`. -/
def State.misaligned {k : Nat} (s : State) (a : SReg) (imm : BitVec k) (n : Nat) : Bool :=
  (s.rd a + imm.signExtend 64).toNat % n ≠ 0

/-- The operand checks of the storer's instructions that name an s register (Table 2-7, step 10), in their order: the registers
that each reads, and whether it fails. -/
def State.checks (s : State) (i : Instr) : List (List SReg × Bool) :=
  let at_ (a : SReg) (n : Nat) : List SReg × Bool := ([a], s.misaligned a (0 : BitVec 64) n)
  let imm {k : Nat} (a : SReg) (x : BitVec k) (n : Nat) : List (List SReg × Bool) := [([a], s.misaligned a x n)]
  let idx (a b : SReg) (x : BitVec 17) (n : Nat) : List (List SReg × Bool) := [([a, b], (s.ea64 a b x).toNat % n ≠ 0)]
  let amo (u : AmoUse) (op : BitVec 3) (d a : SReg) (x : BitVec 17) : List (List SReg × Bool) :=
    [([], !amoLegal u op d), ([a], s.misaligned a x 8)]
  let vst (t : ElemType) (v : VReg) (x : Option VReg) : List (List SReg × Bool) := [([], !vmemCheck s.me.vcfg t v x false)]
  let word (a c : SReg) (n : Nat) (src : List SReg) : List (List SReg × Bool) :=
    at_ a n :: src.map (fun b => at_ b n) ++ [([c], decide (4096 ≤ (s.rd c).toNat)), ([a], ownWindow (s.rd a))]
  let handler : List SReg × Bool := ([], !s.me.h)
  let table : List SReg × Bool := ([], s.core.kvtab = 0)
  let records : List SReg × Bool := ([], s.core.kvseq.toNat / 4096 = 0)
  match i with
  | .bfx _ _ pos w | .bfi _ _ pos w => [([], 64 < pos.toNat + w.toNat + 1)]
  | .lea _ sel _ => [([], (windowBase sel).isNone)]
  | .ldH _ a x | .lduH _ a x | .stH _ a x => imm a x 2
  | .ldW _ a x | .lduW _ a x | .stW _ a x => imm a x 4
  | .ldD _ a x | .stD _ a x => imm a x 8
  | .ldHS _ _ a b x | .lduHS _ _ a b x | .stHS _ _ a b x => idx a b x 2
  | .ldWS _ _ a b x | .lduWS _ _ a b x | .stWS _ _ a b x => idx a b x 4
  | .ldDS _ _ a b x | .stDS _ _ a b x | .ldAcq _ _ _ a b x | .stRel _ _ _ a b x => idx a b x 8
  | .amoAdd u _ _ d a _ x => amo u 0 d a x
  | .amoOr u _ _ d a _ x => amo u 1 d a x
  | .amoXor u _ _ d a _ x => amo u 2 d a x
  | .amoMin u _ _ d a _ x => amo u 3 d a x
  | .amoMax u _ _ d a _ x => amo u 4 d a x
  | .amoSwap u _ _ d a _ x => amo u 5 d a x
  | .amoCas u _ _ d a _ x => amo u 6 d a x
  | .amoLd u _ _ d a x => amo u 7 d a x
  | .sysr _ n => [([], (s.sysRead n).isNone)]
  | .sysw n _ => [([], (s.sysWrite n 0).isNone)]
  | .rmap _ a _ => [handler, at_ a 32]
  | .rinv .. | .replay .. => [handler]
  | .vcfg _ a b => [([a], (VCfg.fromWord (s.rd a) (s.rd b).toNat).isNone)]
  | .wset _ a => [([a], (viewFault (s.rd a)).isSome)]
  | .kvUnmap .. | .kvRef .. => [table]
  | .kvMap _ a | .kvAlias _ a _ => [table, at_ a 32]
  | .kvApp _ a => [table, records, at_ a 32]
  | .kvLen .. | .kvCommit .. => [records]
  | .cntArm _ a => [at_ a 32]
  | .cntAdd a _ _ | .cntWait a _ _ | .cntRd _ a _ => [at_ a 8]
  | .job _ a | .coll _ a => [at_ a 128]
  | .vst _ t v _ | .vsts _ t v .. => vst t v none
  | .vstx _ t v _ x _ => vst t v (some x)
  | .pub _ a _ c => [at_ a 32, at_ c 8]
  | .pubMc _ a b c d => [at_ a 32, at_ c 8, ([b, d], (s.rd b).toNat % 4 ≠ 0 ∨ s.rd d = 0 ∨ 64 < (s.rd d).toNat)]
  | .rst _ a b c size => word a c (2 ^ size.toNat) (if 4 ≤ size.toNat then [b] else [])
  | .rstMc _ a b c size =>
    [at_ a 32] ++ (if 4 ≤ size.toNat then [at_ b (2 ^ size.toNat)] else [])
      ++ [([c], decide (s.rd c = 0 ∨ 4 < (s.rd c).toNat)), ([a], ownWindow (s.rd a))]
  | .rld _ _ a c size | .ramo _ _ _ a _ c size => word a c (2 ^ size.toNat) []
  | _ => []

/-- A check fails before any that reads a register of `waits`. -/
def failsFirst (waits : SReg → Bool) : List (List SReg × Bool) → Bool
  | [] => false
  | (regs, fails) :: t => !regs.any waits && (fails || failsFirst waits t)

/-- The s registers that a remote load or atomic of the storer will write (R271). -/
def Core.awaited (c : Core) (d : SReg) : Bool :=
  let q := c.queue .storerRemote
  (q.cmds ++ q.done).any (fun c => match c.instr with
    | .rld _ x .. | .ramo _ _ x .. => x = d
    | _ => false)

/-- The next instruction of the storer meets the register of a remote load or atomic that has not retired (R271). No wait
comes before step 10 of Table 2-7: an instruction that fails a check which does not read that register traps at once (R34). -/
def State.interlocked (s : State) (i : Instr) : Bool :=
  s.cur = .storer && i.sregs.any s.core.awaited && s.storerAdmits i && !failsFirst s.core.awaited (s.checks i)

/-! ### What a value depends on (R340, R344) -/

/-- Registers whose values follow something, after an instruction: those that it writes are among them where it has loaded what they
follow (`lent`), or where a source of it is. -/
def Regs.after (i : Instr) (lent : Bool) (r : Regs) : Regs :=
  if lent || r.meets i.sources then r.also i.targets else r.without i.targets

/-- What a buffered store is after an instruction: an access of it whose operands follow a load of the store's bytes comes after the
store, and later ones of its class with it (R340, R344). -/
def BufStore.after_ (i : Instr) (b : BufStore) : BufStore :=
  { b with
    lent := false, regs := b.regs.after i b.lent, names := if b.regs.meets i.sources then b.names ||| i.classOf else b.names }

/-- The same of what its companion core holds of a write. -/
def Hold.after_ (i : Instr) (h : Hold) : Hold :=
  { h with
    lent := false, regs := h.regs.after i h.lent, names := if h.regs.meets i.sources then h.names ||| i.classOf else h.names }

/-- The stores that an instruction's operands are computed from perform before the accesses that it makes, unless these are a
plain store's, which follows them in the buffer. -/
def State.beforeAccess (s : State) (i : Instr) : State :=
  if i.quietAccess then s else s.drain s.cur (fun b => b.regs.meets i.sources)

/-- The executing companion core has trapped since `old`, or has been stopped by a double trap. -/
def State.trappedSince (old s : State) : Bool := s.me.h && !old.me.h || s.me.run = .stopped

/-- What an executed instruction leaves of the stores that have not performed: a store that it has made comes after the stores and
the writes which its operands are computed from. One that has trapped has computed nothing. -/
def State.noteStores (old s : State) (i : Instr) : State :=
  let c := s.me
  let ids := (c.sbuf.filter (fun b => b.id < old.me.stores && b.regs.meets i.sources)).map (·.id)
  let nums := s.upTo (fun l => (l.hold s.coreId s.cur).regs.meets i.sources)
  s.setMe { c with sbuf := c.sbuf.map (fun b =>
    if old.trappedSince s then { b with lent := false }
    else if old.me.stores ≤ b.id then { b with after := b.after ++ ids, prior := b.prior ++ nums }
    else b.after_ i) }

/-- What it leaves of the writes of the store path: one that it has made itself comes after those which its operands are computed
from, and its companion core holds more of these. -/
def State.noteWrites (old s : State) (i : Instr) : State :=
  let nums := s.upTo (fun l => l.num < old.lagSeq && (l.hold s.coreId s.cur).regs.meets i.sources)
  let mine (h : Hold) : Bool := h.core = s.coreId && h.role = s.cur
  s.mapLag (fun l =>
    let made := old.lagSeq ≤ l.num && l.src.isNone && l.holds.any mine
    { l with
      after := if made then l.after ++ nums else l.after
      holds := l.holds.map (fun h => if !mine h then h
        else if old.trappedSince s then { h with lent := false } else h.after_ i) })

/-- What an executed instruction leaves of the units that its companion core has read ahead (R340, R344). -/
def Early.after (i : Instr) (e : Early) : Early :=
  { e with past := e.past ||| i.follows, named := e.named.after i e.lent, lent := false }

/-- What an executed instruction leaves of what its companion core has not performed, and of what it has read ahead. -/
def State.noteOrder (old s : State) (i : Instr) : State :=
  if s.me.waiting then s else
  let s := old.noteWrites (old.noteStores s i) i
  s.setMe { s.me with early := s.me.early.map (Early.after i) }

/-- A command in the engine of its queue. -/
def runCmd (c : Cmd) (s : State) : EngEnd :=
  match c.vmem with
  | some m => runVmem m c s
  | none =>
  match c.instr with
  | .tmov .. => runTile .mov c s
  | .tmovFp .. => runTile .fp c s
  | .tfill .. => runTile .fill c s
  | .tcmp .. => runTile .cmp c s
  | .pull .. | .pullF .. => runPull c s
  | .pub .. => runPub c false s
  | .pubMc .. => runPub c true s
  | .rst .. | .rstMc .. | .rld .. | .ramo .. => runRemote c s
  | .attQ .. | .attQF .. | .attKv .. | .attRun .. | .attOut .. | .attMerge .. | .attPlan .. => runAtt c s
  | .mcode .. | .mload .. | .mloadVq .. | .mmma .. | .mmmaSp .. | .mcomp .. | .outl .. | .azero .. | .aexp ..
  | .anorm .. | .mout .. | .moutRet .. => runMatrix c s
  | _ => runVector c s

/-- The queue has a command that its engine can take: the matrix engine takes a waiting follow-on first (R197). -/
def Core.canExecute (c : Core) (q : QueueId) : Bool :=
  !(c.queue q).stopped && !(c.queue q).cmds.isEmpty
  && (q ≠ .seqMat || (c.queue .followOn).cmds.isEmpty || (c.queue .followOn).stopped)

/-! ### A write that other parties see in parts (R36) -/

/-- What a write of the queue has still to reach is reached. -/
def Torn.mend (c : Core) (x : Torn) : Core :=
  { c with
    rs := x.rs.foldl (fun m b => m.write b.1 b.2) c.rs
    k := x.k.foldl (fun v y => v.set y.1.toNat ((v[y.1.toNat] &&& ~~~y.2.1) ||| (y.2.2 &&& y.2.1))) c.k }

/-- Queues whose commands one engine takes one at a time (R197). -/
def sameEngine (q p : QueueId) : Bool := q = p || (q = .seqMat && p = .followOn) || (q = .followOn && p = .seqMat)

/-- The selected writes reach what they have still to reach. -/
def Core.mend (c : Core) (sel : Torn → Bool) : Core :=
  { (c.torn.filter sel).foldl Torn.mend c with torn := c.torn.filter (fun x => !sel x) }

def State.mend (s : State) (sel : Torn → Bool) : State := { s with core := s.core.mend sel }

/-- A write of another command of the engine that takes command `num` of a queue. -/
def Torn.ofOther (q : QueueId) (num : Nat) (x : Torn) : Bool := sameEngine q x.q && !(x.q = q && x.num = num)

/-- A write of a command of a queue up to `num`. -/
def Torn.upTo (q : QueueId) (num : Nat) (x : Torn) : Bool := x.q = q && x.num ≤ num

/-- Of what command `num` of a queue has written since `old`, the bytes of register space at `late` and the bits `bits` of each k
register are seen later: before its engine takes another command, or it retires. -/
def Core.tear (c old : Core) (q : QueueId) (num : Nat) (late : List Nat) (bits : BitVec 3072) : Core :=
  let rs := (late.filter (fun a => c.rs.read a ≠ old.rs.read a)).map (fun a => (a, c.rs.read a))
  let ks := (List.range 8).map (fun i => BitVec.ofNat 3 i)
  let diff (r : KReg) : BitVec 3072 := (c.k[r.toNat] ^^^ old.k[r.toNat]) &&& bits
  { c with
    rs := rs.foldl (fun m b => m.write b.1 (old.rs.read b.1)) c.rs
    k := ks.foldl (fun v r => v.set r.toNat (c.k[r.toNat] ^^^ diff r)) c.k
    torn := c.torn ++ [⟨q, num, rs, ks.map (fun r => (r, diff r, c.k[r.toNat]))⟩] }

/-- The accesses of the command in execution are over; one that has ended uses no unit read ahead any more. -/
def State.rest (s : State) (q : QueueId) (ended : Bool) : State :=
  let c := s.core.comp q.owner
  let s := if ended then s.setComp q.owner { c with early := c.early.filter (fun e => e.cmd.isNone || e.cmd ≠ s.core.exec) } else s
  { s with core := { s.core with exec := none } }

/-- How a command's execution ends in its queue. -/
def State.endIn (q : QueueId) (e : EngEnd) : State :=
  let t := match e with
    | .done t => (t.rest q true).finishHead q
    | .fault t cause ea p => (t.rest q true).capture q cause ea p
    | .wait t => t.rest q false
  if q = .storerRemote then t.askBatches else t

/-- The stores that the head of a queue follows perform (R25), the writes of the engine's commands before it are whole, and its
engine's accesses are its own. -/
def State.readyHead (s : State) (q : QueueId) (c : Cmd) : State :=
  ((s.mend (Torn.ofOther q c.num)).executes q c).beforeCommand q.owner c

/-- The engine of a queue takes its next command (R44, R76). -/
def State.engine (s : State) (q : QueueId) : State :=
  match (s.core.queue q).cmds with
  | [] => s
  | c :: _ => State.endIn q (runCmd c (s.readyHead q c))

/-- The same, with a write that other parties see in parts (R36). -/
def State.engineTorn (s : State) (q : QueueId) (late : List Nat) (bits : BitVec 3072) : State :=
  match (s.core.queue q).cmds with
  | [] => s
  | c :: _ =>
    let t := s.engine q
    { t with core := t.core.tear (s.core.mend (Torn.ofOther q c.num)) q c.num late bits }

/-- The engine of a queue takes an element of its head out of order (R166). -/
def State.engineElement (s : State) (q : QueueId) (i : Nat) : State :=
  match (s.core.queue q).cmds with
  | [] => s
  | c :: _ => match c.vmem with
    | some m => State.endIn q (m.pick c i (s.readyHead q c))
    | none => s

def execEngineCommandExecute (q : QueueId) (s : State) : Host.Outcome State Fault Refusal :=
  .next (if s.live ∧ s.core.canExecute q then s.engine q else s)

/-- The oldest executed command of a queue that may retire: commands of a queue retire in order. -/
def Core.retirable (c : Core) (q : QueueId) : Option Cmd :=
  match (c.queue q).done with
  | [] => none
  | x :: _ => match x.instr with
    | .pull .. | .pullF .. => if c.port.pullRetires x then some x else none
    | _ => some x

/-- A command retires (R14): its tag, its pushes and its entry in the queue. -/
def State.retire (s : State) (q : QueueId) (c : Cmd) : State :=
  let s := (s.mend (Torn.upTo q c.num)).retireEffects q c false
  let s := s.setQueue q { s.core.queue q with done := (s.core.queue q).done.drop 1 }
  if q = .followOn then s.placeFollows else if q = .storerRemote then s.askBatches else s

def execEngineCommandRetire (q : QueueId) (s : State) : Host.Outcome State Fault Refusal :=
  .next (match s.core.retirable q with
    | some c => s.retire q c
    | none => s)

end Sys2Proof.Machine
end

