-- ==== Sys2Proof/Machine/Sched.lean ====
section
/-! DEFINITION. Grants, buckets, pre-emption and the context switch (R327 to R334, R378 to R382), and the end of a task. -/

namespace Sys2Proof

/-- The state of a core, and the barrier of a cluster, that a state area which no save has written tells to the context-save
engine, by the number of the step that reads it (R379: its layout is not architectural): log entry 88. -/
opaque Config.openCore : Nat → Machine.Core
opaque Config.openBar : Nat → Machine.Bar

end Sys2Proof

namespace Sys2Proof.Machine

/-! ### Wants (R328) -/

def State.wants (s : State) (ctx : BitVec 16) (die cluster : Nat) : Bool :=
  (s.workOn ctx die).any (fun j => j.cores.any (fun c => clusterOf c = cluster))

/-! ### Rotation pointers (R329) -/

/-- A set pointer moves to the next context of its level, and is unset when none has work. -/
def State.movePointer (s : State) (die level : Nat) : State :=
  match lookupKey (pointerKey die level) s.pointers with
  | none => s
  | some p =>
    let l := s.ranked die level
    match l.find? (fun x => p.toNat < x.toNat), l.head? with
    | some x, _ | none, some x => { s with pointers := setKey (pointerKey die level) x s.pointers }
    | none, none => { s with pointers := s.pointers.filter (fun x => x.1 ≠ pointerKey die level) }

/-- The pointer as an allocation finds it: set to the lowest context when it is unset, unset when none has work. -/
def State.needPointer (s : State) (die level : Nat) : State :=
  match lookupKey (pointerKey die level) s.pointers, (s.ranked die level).head? with
  | none, some x => { s with pointers := setKey (pointerKey die level) x s.pointers }
  | some _, none => { s with pointers := s.pointers.filter (fun x => x.1 ≠ pointerKey die level) }
  | _, _ => s

/-- The eligible contexts of a level in allocation order. -/
def State.turnOrder (s : State) (die level : Nat) : List (BitVec 16) :=
  let l := s.ranked die level
  let p := ((lookupKey (pointerKey die level) s.pointers).getD 0).toNat
  (l.filter (fun x => p ≤ x.toNat) ++ l.filter (fun x => x.toNat < p)).filter
    (fun x => match s.findCtx x with | some c => c.eligible | none => false)

/-! ### Allocation (R329) -/

/-- `f` at each core of a cluster. -/
def State.onCluster (s : State) (cluster : Nat) (f : State → State) : State :=
  (List.range 8).foldl (fun s i => s.onCore (cluster * 8 + i) f) s

def State.setGrant (s : State) (cluster : Nat) (g : Grant) : State := { s with grants := s.grants.setIfInBounds cluster g }

/-- A free cluster goes to its next owner: to be restored where that context has saved state for it, else as the context
finds it for the first time (R119, R327). -/
def State.pass (s : State) (cluster : Nat) (next : Option (BitVec 16)) : State :=
  match next with
  | none => (s.onCluster cluster (fun t => { t with core := {} })).setGrant cluster {}
  | some id =>
    if s.saved.any (fun v => v.ctx = id && v.cluster = cluster) then
      (s.onCluster cluster (fun t => { t with core := {} })).setGrant cluster { owner := some id, phase := .restoring }
    else
      let s := s.onCluster cluster (fun t => { t with core := { ctx := some id } })
      { s.setGrant cluster { owner := some id } with bars := setKey cluster {} s.bars }

/-- Retention clocks stop while a core does not run its context (R148): a deadline becomes what is left of it. -/
def Core.stopClocks (now : Word) (c : Core) : Core :=
  { c with port := { c.port with
      retain := c.port.retain.map (fun x => match x with
        | some r => some { r with deadline := r.deadline.map (fun d => BitVec.ofNat 64 (d.toNat - now.toNat)) }
        | none => none) } }

def Core.startClocks (now : Word) (c : Core) : Core :=
  { c with port := { c.port with
      retain := c.port.retain.map (fun x => match x with
        | some r => some { r with deadline := r.deadline.map (· + now) }
        | none => none) } }

/-- An allocation gives a cluster to `next`. A stop, a save or a restore that has begun for another owner goes on where the
allocation names the old owner again (log entry 120). -/
def State.assign (s : State) (cluster : Nat) (next : Option (BitVec 16)) : State :=
  match s.grants[cluster]? with
  | none => s
  | some g =>
    match g.phase with
    | .held =>
      if g.owner = next then s
      else if g.owner = none then s.pass cluster next
      else (s.onCluster cluster (fun t => { t with core := t.core.stopClocks t.cycle })).setGrant cluster
        { g with phase := .preempting next }
    | .preempting _ => s.setGrant cluster { g with phase := .preempting next }
    | .saving _ => s.setGrant cluster { g with phase := .saving next }
    | .restoring => if g.owner = next then s else s.pass cluster next

/-- The owners that an allocation gives the clusters of a die. -/
def State.owners (s : State) (die : Nat) : List (Nat × Option (BitVec 16)) :=
  let order := ((List.range 16).reverse).flatMap (s.turnOrder die)
  ((List.range 12).filterMap (fun i =>
    let c := die * 12 + i
    if s.fuses.clusterPresent c then some (c, order.find? (fun x => s.wants x die c)) else none))

def State.allocateDie (s : State) (die : Nat) : State :=
  let s := (List.range 16).foldl (fun s l => s.needPointer die l) s
  (s.owners die).foldl (fun s x => s.assign x.1 x.2) s

/-- Every die's allocation. -/
def State.allocate (s : State) : State := (List.range 8).foldl State.allocateDie { s with realloc := false }

/-- The cycle of the next slice boundary, and of the next accounting tick. -/
def State.sliceCycle (s : State) : Nat := s.sliceDone * 131072
def State.tickCycle (s : State) : Nat := s.tickDone * 1000

/-- A slice boundary (R329): where a tick falls in the same cycle, the steps of R332 come first. -/
def execSliceBoundary (s : State) : Host.Outcome State Fault Refusal :=
  if s.sliceCycle ≤ s.cycle.toNat ∧ s.sliceCycle < s.tickCycle ∧ !s.refillDue then
    let s := (List.range 8).foldl (fun s d => (List.range 16).foldl (fun s l => s.movePointer d l) s) s
    .next { s.allocate with sliceDone := s.sliceDone + 1 }
  else .next s

/-! ### Buckets (R330 to R333) -/

/-- A level between its limits. -/
def satLevel (x : Int) : Int := max (-(2 ^ 63)) (min (2 ^ 63 - 1) x)

def Bucket.charge (b : Bucket) (n : Nat) : Bucket :=
  match b.cap with | some _ => { b with level := satLevel (b.level - n) } | none => b

def Bucket.fill (b : Bucket) : Bucket :=
  match b.cap with | some c => { b with level := min (c : Int) (satLevel (b.level + b.refill)) } | none => b

def Bucket.full (b : Bucket) : Bool := b.cap.isNone || 0 < b.level

/-- The cores granted to a context. -/
def State.coresOf (s : State) (id : BitVec 16) : Nat := ((List.range 768).filter (fun c => s.coreGranted id c)).length

/-- The charges of a tick (Table 19-2). A context that had neither units nor traffic is charged no energy (R331). -/
def State.chargeCtx (s : State) (meter : List Charge) (c : Ctx) : Ctx :=
  let used := lookupKey c.id.toNat s.used
  let mine := meter.filter (fun m => m.ctx = c.id)
  let nrg := if s.coresOf c.id = 0 ∧ used.isNone then 0 else (mine.map (·.nrg)).sum
  { c with time := c.time.charge (s.coresOf c.id), bw := c.bw.charge (used.getD 0), nrg := c.nrg.charge nrg }

/-- Step 3 of R332, and the allocation that falls due at the tick, unless a slice boundary of the same cycle makes it. -/
def State.testEligible (s : State) : State :=
  let fit (c : Ctx) : Bool := c.time.full && c.bw.full && c.nrg.full
  let changed := s.ctxs.any (fun c => c.eligible ≠ fit c)
  let tick := s.tickCycle
  let s := { s with
    ctxs := s.ctxs.map (fun c => { c with eligible := fit c }), realloc := s.realloc || changed, tickDone := s.tickDone + 1
    refillDue := false }
  if s.realloc ∧ tick ≠ s.sliceCycle then s.allocate else s

/-- An accounting tick (R332): the charges, then, unless a refill falls in this tick, the test. -/
def execAccountingTick (meter : List Charge) (s : State) : Host.Outcome State Fault Refusal :=
  if s.tickCycle ≤ s.cycle.toNat ∧ s.tickCycle ≤ s.sliceCycle ∧ !s.refillDue then
    let t := { s with ctxs := s.ctxs.map (s.chargeCtx meter), used := [] }
    .next (if s.tickDone % 1000 = 0 then { t with refillDue := true } else t.testEligible)
  else .next s

/-- The refill of a tick, after its charges (R332). -/
def execBucketRefill (s : State) : Host.Outcome State Fault Refusal :=
  if s.refillDue then
    let fill (c : Ctx) : Ctx := { c with time := c.time.fill, bw := c.bw.fill, nrg := c.nrg.fill }
    .next ({ s with ctxs := s.ctxs.map fill }).testEligible
  else .next s

/-! ### Stopping a core (R213, R334, R378) -/

/-- The matrix engine goes on until an `mout.ret` retires, its queues are empty, or its count is `d` (R213). What it has
executed retires first. -/
def State.matrixStop (d : Nat) : Nat → State → State
  | 0, s => s
  | fuel + 1, s =>
    match (s.core.queue .seqMat).done with
    | c :: _ =>
      let t := s.retire .seqMat c
      (match c.instr with | .moutRet .. => t | _ => State.matrixStop d fuel t)
    | [] =>
      match (s.core.queue .followOn).done with
      | c :: _ => State.matrixStop d fuel (s.retire .followOn c)
      | [] =>
        let q := if s.core.canExecute .followOn then QueueId.followOn else .seqMat
        if d ≤ s.core.tiles ∨ !s.core.canExecute q then s else State.matrixStop d fuel (s.engine q)

/-- The reduction depth of the job whose task the core in focus runs. -/
def State.depthHere (s : State) : Nat :=
  match s.jobHere.bind s.findJob with | some j => cardDepth j.card | none => 0

/-- What has executed in a queue retires. -/
def State.retireDone (s : State) (q : QueueId) : State := (s.core.queue q).done.foldl (fun s c => s.retire q c) s

/-- The engines stop: the matrix engine where R213 says, the attention pipe and the vector engine when the command that they have
begun is finished (R253), the others after what they have executed; a command of several units keeps its progress (R334). -/
def State.stopEngines (s : State) : State :=
  ([QueueId.loaderAtt, .seqAtt, .seqVec].foldl State.retireDone (State.matrixStop s.depthHere 1024 s)).mend (fun _ => true)

/-- A core of a cluster that is pre-empted stops; what it has sent on its way goes (R378, Table 20-6). -/
def State.stopCore (s : State) : State := s.stopEngines.releaseAll

/-- A cluster whose owner changes stops its cores and engines (R334, R378). -/
def execClusterPreempt (cluster : BitVec 7) (s : State) : Host.Outcome State Fault Refusal :=
  let c := cluster.toNat
  match s.grants[c]? with
  | some g =>
    match g.phase with
    | .preempting next => fired (.next ((s.onCluster c State.stopCore).setGrant c { g with phase := .saving next }))
    | _ => .next s
  | none => .next s

/-! ### The end of a task (R316, R317) -/

/-- The end of the task on the core in focus; where its job is cancelled, its engines stop first. -/
def State.finishTask (s : State) : State :=
  match s.taskOf s.coreId with
  | none => s
  | some t => if s.hereCancelled then s.stopEngines.endTask t else s.endTask t

/-- A task of a cancelled job that a context switch has saved ends where it lies (R317). -/
def State.finishSaved (s : State) (n : Nat) : State :=
  (s.tasks.filter (fun t => t.core = n && s.saved.any (fun v => v.ctx = t.ctx && v.cluster = clusterOf n)
    && s.jobs.any (fun j => j.id = t.job && j.cancelled))).foldl
    (fun s t => s.onSaved t.ctx n (fun u => u.endTask t)) s

def execTaskFinish (core : BitVec 10) (s : State) : Host.Outcome State Fault Refusal :=
  let n := core.toNat
  fired (.next ((s.onCore n (fun s => if s.taskOver then s.finishTask else s)).finishSaved n))

/-! ### The save area (R379, Table 22-9) -/

def areaCluster (base c : Nat) : Nat := base + c * 2 ^ 26
def areaLocal (base core : Nat) : Nat := base + core / 8 * 2 ^ 26 + 2 ^ 24 + core % 8 * 2 ^ 22
def areaRegs (base core : Nat) : Nat := areaLocal base core + 2 ^ 21
def areaDie (base d : Nat) : Nat := base + 6 * 2 ^ 30 + d * 2 ^ 26

/-- The locations of a core's discardable regions (R377): first byte and length. -/
def Core.discRegions (c : Core) (n : Nat) : List (Nat × Nat) :=
  c.disc.map (fun r =>
    let x := r.1.toNat % 2 ^ 48
    (if x < 2 ^ 32 then locLocal n x else locCluster (clusterOf n) (x - 2 ^ 32), r.2.toNat))

/-- The cores of a cluster with their numbers. -/
def State.coresAt (s : State) (cluster : Nat) : List (Nat × Core) :=
  (List.range 8).map (fun i => let n := cluster * 8 + i; (n, (s.core? n).getD {}))

/-- An image is written into memory: fresh ECC where it goes. -/
def State.putImage (s : State) (dst : Nat) (src : Mem) (a n : Nat) (skip : Nat → Bool) : State :=
  { s with
    mem := s.mem.image dst src a n skip
    poison := s.poison.filter (fun u => !(dst ≤ u && u < dst + n)) }

/-- A memory image is copied within memory. -/
def State.copyImage (s : State) (dst src n : Nat) (skip : Nat → Bool) : State := s.putImage dst s.mem src n skip

/-- The uncorrectable units of HBM at `src` as units of the scratchpad or register space at `dst` whose image lies there. -/
def State.badImage (s : State) (dst src n : Nat) : List Nat :=
  (s.poison.filter (fun u => src ≤ u && u < src + n)).flatMap (fun u =>
    (List.range 4).map (fun i => dst + (u - src) + 8 * i))

/-- Units become uncorrectable. -/
def State.spoil (s : State) (units : List Nat) : State :=
  { s with poison := s.poison ++ units.filter (fun u => !s.poison.contains u) }

/-- A saved image comes back: what its memory can no longer give is uncorrectable there (R69, R103). -/
def State.loadImage (s : State) (dst src n : Nat) : State :=
  (s.copyImage dst src n (fun _ => false)).spoil (s.badImage dst src n)

/-- State area number `k`, of `n` bytes (R379): what it holds is open but for its CRC-64, which stands last (log entry 88). -/
def areaImage (k n : Nat) : Mem :=
  let body := (List.range (n - 8)).map (Config.stateByte k)
  ((List.range n).zip (body ++ leBytes 8 (crc64 body).toNat)).filter (fun c => c.2 ≠ 0)

/-- A state area in memory carries its CRC-64. -/
def State.areaOk (s : State) (at_ n : Nat) : Bool :=
  (s.badByte at_ n).isNone && (crc64 (s.mem.readN at_ (n - 8))).toNat = s.mem.num (at_ + n - 8) 8

/-- Memory holds the image of state area number `k`. -/
def State.areaHolds (s : State) (at_ n k : Nat) : Bool := s.mem.readN at_ n = (areaImage k n).readN 0 n

/-- The state areas of a cluster: address and size (Table 22-9). -/
def areaStates (base cluster : Nat) : List (Nat × Nat) :=
  (List.range 8).map (fun i => (areaRegs base (cluster * 8 + i) + 0xC0000, 0x140000))
    ++ [(areaCluster base cluster + 48 * 2 ^ 20, 0x100000)]

/-- A location of a cluster's local stores and cluster store. -/
def inCluster (cluster loc : Nat) : Bool :=
  locLocal (cluster * 8) 0 ≤ loc && loc < locLocal (cluster * 8 + 8) 0 || locCluster cluster 0 ≤ loc && loc < locCluster (cluster + 1) 0

/-- A location of the register spaces of a cluster's cores. -/
def inRegs (cluster loc : Nat) : Bool := locRs (cluster * 8) 0 ≤ loc && loc < locRs (cluster * 8 + 8) 0

/-- A pull whose response has been requested and has not landed (R378). -/
def State.pullsOut (s : State) : Bool :=
  s.core.port.takes.toList.any (fun x => match x with
    | some t => (match t.pull with | .booked _ true => true | _ => false)
    | none => false)

/-- The stopped cluster can be saved: its combining buffers are empty and its pulls have landed. -/
def State.saveReady (s : State) (cluster : Nat) : Bool :=
  (List.range 8).all (fun i =>
    let t := s.focus (cluster * 8 + i)
    t.core.combine.isEmpty && !t.pullsOut)

/-- What the port path of a core need not see of places that are saved, it sees, with the earlier writes to their units (log entry
71). -/
def State.settleAt (s : State) (cluster : Nat) (which : Nat → Bool) : State :=
  let seen (l : Lag) : Bool := clusterOf l.core = cluster || which l.loc
  { s with lag := s.lag.filter (fun l => !seen l
      && !s.lag.any (fun x => seen x && l.num < x.num && l.sharesUnit x.loc x.old.length)) }

/-- The images and the state of a cluster are saved for its old owner (R378 to R380). A unit that cannot be read stays so in
its image. -/
def State.saveCluster (s : State) (cluster : Nat) (c : Ctx) : State :=
  let cores := s.coresAt cluster
  let regions := cores.flatMap (fun x => x.2.discRegions x.1)
  let skip (loc : Nat) : Bool := regions.any (fun r => r.1 ≤ loc && loc < r.1 + r.2)
  let base := c.save.toNat
  let v : Saved := {
    ctx := c.id, cluster := cluster, cores := cores, bar := (lookupKey cluster s.bars).getD {}
    lost := s.lost.filter (inCluster cluster)
    poison := s.poison.filter (fun u => (inCluster cluster u && !skip u) || inRegs cluster u)
    first := s.areaSeq }
  let s := s.copyImage (areaCluster base cluster) (locCluster cluster 0) 0x1000000 skip
  let s := cores.foldl (fun s x =>
    (s.copyImage (areaLocal base x.1) (locLocal x.1 0) 0x200000 skip).putImage (areaRegs base x.1) x.2.rs 0 0xC0000
      (fun _ => false)) s
  let s := ((areaStates base cluster).zip (cores.map (fun x => Area.core x.2) ++ [.bar v.bar])).foldl (fun s a =>
    { s.putImage a.1.1 (areaImage s.areaSeq a.1.2) 0 a.1.2 (fun _ => false) with
      areas := s.areas ++ [(s.areaSeq, a.2)], areaSeq := s.areaSeq + 1 }) s
  let s := cores.foldl (fun s x => (s.mapLag (Lag.forgetCore (savedCore c.id x.1))).swapSaved c.id x.1)
    (s.settleAt cluster (inCluster cluster))
  { s with
    saved := s.saved.filter (fun w => !(w.ctx = c.id && w.cluster = cluster)) ++ [v]
    lost := s.lost.filter (fun u => !inCluster cluster u)
    used := setKey c.id.toNat ((lookupKey c.id.toNat s.used).getD 0) s.used }

/-- A location of a die store. -/
def inDie (die loc : Nat) : Bool := locDie die 0 ≤ loc && loc < locDie (die + 1) 0

/-- The die store of a context that has lost its last cluster on a die is saved (R378). -/
def State.saveDie (s : State) (die : Nat) (c : Ctx) : State :=
  if s.dieGranted c.id die then s else
  { (s.copyImage (areaDie c.save.toNat die) (locDie die 0) 0x4000000 (fun _ => false)).settleAt 96 (inDie die) with
    savedDies := s.savedDies.filter (fun x => !(x.1 = c.id && x.2.1 = die)) ++ [(c.id, die, s.poison.filter (inDie die))] }

/-- The die store of a context that takes its first cluster on a die again comes back. -/
def State.loadDie (s : State) (die : Nat) (c : Ctx) : State :=
  match s.savedDies.find? (fun x => x.1 = c.id && x.2.1 = die) with
  | none => s
  | some x =>
    { (s.loadImage (locDie die 0) (areaDie c.save.toNat die) 0x4000000).spoil x.2.2 with
      savedDies := s.savedDies.filter (fun x => !(x.1 = c.id && x.2.1 = die)) }

/-- The save of a cluster ends, and the cluster passes to its next owner (R327, R378). -/
def execContextSaveComplete (cluster : BitVec 7) (s : State) : Host.Outcome State Fault Refusal :=
  let n := cluster.toNat
  match s.grants[n]? with
  | some g =>
    match g.phase, g.owner.bind s.findCtx with
    | .saving next, some c =>
      if !s.saveReady n then .next s else
      let t := (s.saveCluster n c).setGrant n {}
      .next ((t.saveDie (n / 12) c).pass n next)
    | _, _ => .next s
  | none => .next s

/-! ### The restore (R379 to R382) -/

/-- The 64 B units of a region. -/
def unitsOf (r : Nat × Nat) : List Nat := (List.range (r.2 / 64)).map (fun i => r.1 + 64 * i)

/-- Lost units: their bytes read as zero until they are written, whatever their image has held (R382). -/
def State.lose (s : State) (units : List Nat) : State :=
  { s with
    poison := s.poison.filter (fun u => !units.contains (u - u % 64))
    mem := s.mem.filter (fun c => !units.contains (c.1 - c.1 % 64))
    lost := s.lost ++ units.filter (fun u => !s.lost.contains u) }

/-- The firings held for the core in focus are performed in their order (R118). -/
def State.fireHeld (s : State) : State :=
  let held := (List.range 16).filterMap (fun i => match s.core.arm i with
    | some a => if a.held then some (i, a) else none
    | none => none)
  let order := sortBy (fun x : Nat × Arm => x.2.thr.toNat) (sortBy (fun x : Nat × Arm => x.2.seq) held)
  order.foldl (fun s x => ({ s with core := s.core.setArm x.1 none }).fireArm x.2 x.1) s

/-- The job whose images a restored core's stores take again: its task's, else the last task's while that job lasts. -/
def State.storesJob (s : State) : Option Job :=
  match s.jobHere with | some id => s.findJob id | none => s.core.lastJob.bind s.findJob

/-- Register space of the core in focus comes back from its place in the save area. -/
def State.loadRegs (s : State) (src : Nat) : State :=
  let dst := locRs s.coreId 0
  let bad := s.badImage dst src 0xC0000
  { s with
    core := { s.core with rs := Mem.image [] 0 s.mem src 0xC0000 (fun _ => false) }
    poison := s.poison.filter (fun u => !(dst ≤ u && u < dst + 0xC0000)) }.spoil bad

/-- A core as its context finds it again: clocks, register space and stores, then what was held for it. -/
def State.resumeCore (s : State) (base : Nat) (c : Core) (bad : List Nat) : State :=
  let s := { s with core := c.startClocks s.cycle }
  let s := (s.loadRegs (areaRegs base s.coreId)).spoil (bad.filter (fun u => decide (locRs s.coreId 0 ≤ u)
    && decide (u < locRs (s.coreId + 1) 0)))
  let s := match s.storesJob with
    | none => s
    | some j =>
      let (t, ok) := s.writeStores j
      if ok then t else t.cancelJob j.id
  s.fireHeld

/-- Messages held for the core in focus and its context are taken. -/
def State.takeHeld (s : State) : State :=
  let mine (x : BitVec 16 × Nat × HeldMsg) : Bool := s.core.ctx = some x.1 && x.2.1 = s.coreId
  let l := s.held.filter mine
  l.foldl (fun s x => x.2.2.take s) { s with held := s.held.filter (fun x => !mine x) }

/-- A state area whose CRC-64 does not match (R379, R409): the jobs of the cluster's tasks are cancelled, the host told. -/
def State.badArea (s : State) (cluster : Nat) (id : BitVec 16) : State :=
  let jobs := (s.tasks.filter (fun t => t.ctx = id && clusterOf t.core = cluster)).map (·.job)
  (jobs.foldl State.cancelJob s).report id 0x3FF 0xFF Cause.machine.code 0

/-- A core that no save has written, without what its images and its card's stores give it. -/
def openCore (k : Nat) : Core :=
  let c := Config.openCore k
  { c with
    rs := [], loader := { c.loader with istore := [] }, sequencer := { c.sequencer with istore := [] }
    storer := { c.storer with istore := [] } }

/-- The state of a core as its state area holds it (R379): `mine`, where the area is the one that its save has written, or has no
CRC-64 that matches; what the save told that wrote it last, where it holds another one's bytes; and open where no save has
written it (log entry 88). -/
def State.areaCore (s : State) (at_ n k : Nat) (mine : Core) : Core :=
  if !s.areaOk at_ n ∨ s.areaHolds at_ n k then mine else
  match s.areas.reverse.find? (fun x => s.areaHolds at_ n x.1) with
  | some (_, .core c) => c
  | _ => openCore s.ticks

/-- The same of the barrier of a cluster. -/
def State.areaBar (s : State) (at_ n k : Nat) (mine : Bar) : Bar :=
  if !s.areaOk at_ n ∨ s.areaHolds at_ n k then mine else
  match s.areas.reverse.find? (fun x => s.areaHolds at_ n x.1) with
  | some (_, .bar b) => b
  | _ => Config.openBar s.ticks

/-- What the state areas of a cluster hold (R379). -/
def State.fromAreas (s : State) (c : Ctx) (v : Saved) : Saved :=
  let at_ (i : Nat) : Nat × Nat := ((areaStates c.save.toNat v.cluster)[i]?).getD (0, 0)
  { v with
    cores := (v.cores.zip (List.range v.cores.length)).map (fun x =>
      (x.1.1, { s.areaCore (at_ x.2).1 (at_ x.2).2 (v.first + x.2) x.1.2 with ctx := some c.id }))
    bar := s.areaBar (at_ 8).1 (at_ 8).2 (v.first + 8) v.bar }

/-- A cluster's state comes back to the same physical units (R381). -/
def State.restoreCluster (s : State) (cluster : Nat) (c : Ctx) (v : Saved) : State :=
  let base := c.save.toNat
  let s := s.loadImage (locCluster cluster 0) (areaCluster base cluster) 0x1000000
  let s := (List.range 8).foldl (fun s i =>
    let n := cluster * 8 + i
    s.loadImage (locLocal n 0) (areaLocal base n) 0x200000) s
  let s := (s.spoil (v.poison.filter (inCluster cluster))).loadDie (cluster / 12) c
  let s := { s with lost := s.lost.filter (fun u => !inCluster cluster u) }
  let s := s.lose (v.lost ++ (v.cores.flatMap (fun x => x.2.discRegions x.1)).flatMap unitsOf)
  let s := { s with
    bars := setKey cluster v.bar s.bars, saved := s.saved.filter (fun w => !(w.ctx = c.id && w.cluster = cluster)) }
  let s := s.setGrant cluster { owner := some c.id }
  let s := v.cores.foldl (fun s x => s.onCore x.1 (fun t =>
    ((t.mapLag (Lag.forgetCore x.1)).swapSaved c.id x.1).resumeCore base x.2 v.poison)) s
  (s.onCluster cluster State.takeHeld).askAll

/-- The context-save engine of a die restores a cluster, by its number there; its state areas must carry their CRCs (R3, R379,
R381). -/
def execContextRestore (die : BitVec 3) (unit : BitVec 4) (s : State) : Host.Outcome State Fault Refusal :=
  if 12 ≤ unit.toNat then .next s else
  let n := die.toNat * 12 + unit.toNat
  match s.grants[n]? with
  | some g =>
    match g.phase, g.owner.bind s.findCtx, s.saved.find? (fun v => g.owner = some v.ctx && v.cluster = n) with
    | .restoring, some c, some v =>
      let whole := (areaStates c.save.toNat n).all (fun a => s.areaOk a.1 a.2)
      let t := s.restoreCluster n c (s.fromAreas c v)
      fired (.next (if whole then t else t.badArea n c.id))
    | _, _, _ => .next s
  | none => .next s

end Sys2Proof.Machine
end

