-- ==== Sys2Proof/Machine/HostPort.lean ====
section
/-! DEFINITION. The host's control window, context records, reset, and the part's own errors and power events
(26_host_and_package, R69, R103, R266). -/

namespace Sys2Proof.Machine

/-! ### Context records (R408) -/

/-- Bytes of memory by physical address, if the memory exists and no unit of it is broken. -/
def State.physical (s : State) (a n : Nat) : Option (List Byte) :=
  if s.fuses.backed a ∧ s.fuses.backed (a + n - 1) ∧ (s.badByte a n).isNone then some (s.mem.readN a n) else none

/-- A bucket of a record: cap at `lo`, then refill and start (R331); `none` where a field is out of its range. -/
def bucketOf {m : Nat} (r : BitVec m) (lo : Nat) : Option Bucket :=
  let cap := fld r lo 64
  let refill := fld r (lo + 64) 64
  let start := (fldW r (lo + 128)).toInt
  if 2 ^ 63 ≤ refill then none
  else if cap = 2 ^ 64 - 1 then some { level := start, refill := refill, cap := none }
  else if 2 ^ 63 ≤ cap then none
  else some { level := start, refill := refill, cap := some cap }

/-- The range slots of a record's descriptors, each checked as `rmap` checks it (R77, R408). -/
def rangesOf (f : Fuses) (bs : List Byte) : Option (Vector (Option Range) 64) :=
  (List.range 64).foldlM (fun v i =>
    let d := recordOf 256 ((bs.drop (32 * i)).take 32)
    if fld d 64 64 = 0 then some v
    else if rangeStatus f v d i = 0 then some (v.setIfInBounds i (some (rangeOf d))) else none)
    (Vector.replicate 64 none)

/-- A context as its record gives it; `none` where the record is invalid (R408, Table 26-2). -/
def ctxOf (f : Fuses) (id : BitVec 16) (bs : List Byte) : Option Ctx := do
  let h := recordOf 1024 (bs.take 128)
  let kvtab := fldW h 832
  let kvseq := fldW h 896
  let time ← bucketOf h 256
  let bw ← bucketOf h 448
  let nrg ← bucketOf h 640
  let ranges ← rangesOf f (bs.drop 128)
  if fld h 240 16 ≠ 0 ∨ fld h 198 2 ≠ 0 ∨ fld h 176 16 ≠ 0 ∨ fld h 832 6 ≠ 0 ∨ fld h 901 7 ≠ 0
      ∨ fld h 128 16 ≠ id.toNat ∨ fld h 0 64 % 2 ^ 17 ≠ 0 ∨ fld h 64 64 % 2 ^ 26 ≠ 0 then none
  else some {
    id := id, root := fldW h 0, save := fldW h 64, quant := BitVec.ofNat 32 (fld h 144 32)
    vector := BitVec.ofNat 6 (fld h 192 6), retto := BitVec.ofNat 40 (fld h 200 40), kvtab := kvtab, kvseq := kvseq
    seed := fldW h 960, ranges := ranges, time := time, bw := bw, nrg := nrg
    eligible := time.full && bw.full && nrg.full }

def State.setStat (s : State) (code : Word) : State := { s with window := { s.window with ctxStat := code } }

/-- CTXCMD op 1 (R405, R408, R414). -/
def State.createCtx (s : State) (id : BitVec 16) : State :=
  if !s.window.ready then s.setStat 4
  else if (s.findCtx id).isSome then s.setStat 1
  else if 256 ≤ s.ctxs.length then s.setStat 3
  else
    let a := s.window.ctxAddr.toNat
    match (if a % 256 = 0 then s.physical a 2176 else none).bind (ctxOf s.fuses id) with
    | none => s.setStat 2
    | some c => { s with ctxs := s.ctxs ++ [c] }.setStat 0

/-- CTXCMD op 2 (R407): every job of the context is cancelled; the context goes when the last has completed. -/
def State.destroyCtx (s : State) (id : BitVec 16) : State :=
  if !s.window.ready then s.setStat 4
  else match s.findCtx id with
  | none => s.setStat 1
  | some _ =>
    let s := { s with jobs := s.jobs.map (fun j : Job => if j.ctx = id then { j with cancelled := true } else j) }
    (s.mapCtx id (fun c => { c with dying := true })).finishDestroy id

def State.otherOp (s : State) : State := s.setStat (if s.window.ready then 5 else 4)

def execCtxcmdCreate (ctx : BitVec 16) (s : State) : Host.Outcome State Fault Refusal := .next (s.createCtx ctx)
def execCtxcmdDestroy (ctx : BitVec 16) (s : State) : Host.Outcome State Fault Refusal := .next (s.destroyCtx ctx)

/-- An op that is neither 1 nor 2; with op 1 or 2 the write is one of the other two events. -/
def execCtxcmdInvalidOp (op : BitVec 4) (s : State) : Host.Outcome State Fault Refusal :=
  .next (if op = 1 ∨ op = 2 then s else s.otherOp)

/-! ### Launching and cancelling (R406, R407) -/

def State.launchCard (s : State) (ctx : BitVec 16) : State :=
  let put (s : State) (v : Word) : State := { s with window := { s.window with lstat := v } }
  if !s.window.ready then put s (refusalWord 5)
  else if (s.findCtx ctx).isNone then put s (refusalWord 4)
  else
    let (t, r) := s.submit ctx s.window.card
    put t (submitWord r)

/-- The job that a CANCEL names: a current handle of the context, of the earliest launch (the write names no die). -/
def State.cancelHandle (s : State) (ctx : BitVec 16) (handle : BitVec 32) : State :=
  match s.jobs.find? (fun j => j.ctx = ctx && handle.setWidth 64 = jobHandle j.slot j.gen) with
  | some j => s.cancelJob j.id
  | none => s

def execLaunch (ctx : BitVec 16) (s : State) : Host.Outcome State Fault Refusal := fired (.next (s.launchCard ctx))

def execCancel (ctx : BitVec 16) (handle : BitVec 32) (s : State) : Host.Outcome State Fault Refusal :=
  .next (s.cancelHandle ctx handle)

/-! ### The other registers (R405, Table 26-1) -/

def State.clearFault (s : State) : State := { s with window := { s.window with fault := 0, faddr := 0 } }

/-- A write of PLIMIT is held between 1,000 and 4,800. -/
def clampLimit (v : Word) : BitVec 13 := BitVec.ofNat 13 (max 1000 (min 4800 (v.toNat % 2 ^ 13)))

def State.setLimit (s : State) (v : Word) : State := { s with window := { s.window with plimit := clampLimit v } }

def execFaultClear (s : State) : Host.Outcome State Fault Refusal := .next s.clearFault

def execPlimitWrite (v : Word) (s : State) : Host.Outcome State Fault Refusal := .next (s.setLimit v)

/-- A path table entry is written whole (R261). With no usable alternative left the node is dead; one that gets a usable alternative
again has its dead sessions start afresh (R264). -/
def State.writePath (s : State) (die node alt : Nat) (v : Word) : State :=
  let v := v &&& 0x000FFFFFFFFFFFFF
  let s := { s with paths := setKey (pathKey die node alt) v s.paths }
  if s.pathUsable die v then { s with sessions := s.sessions.filter (fun x => !(x.dead && x.node.toNat = node)) }
  else s.sever (BitVec.ofNat 12 node)

/-- A host write of 8 B at an offset of the window. -/
def State.windowWrite (s : State) (off : Nat) (v : Word) : State :=
  let id : BitVec 16 := v.setWidth 16
  if off = 0x10 then { s with window := { s.window with ctxAddr := v } }
  else if off = 0x18 then
    (match bits v.toNat 16 4 with | 1 => s.createCtx id | 2 => s.destroyCtx id | _ => s.otherOp)
  else if off = 0x28 then s.cancelHandle id (BitVec.ofNat 32 (bits v.toNat 32 32))
  else if off = 0x30 then
    (if v.getLsbD 63 then s.clearFault else { s with window := { s.window with fault := s.window.fault &&& ~~~v } })
  else if off = 0x38 then s.setLimit v
  else if 0x10000 ≤ off ∧ off < 0x10080 ∧ off % 8 = 0 then
    { s with window := { s.window with card := setFld s.window.card ((off - 0x10000) * 8) 64 v.toNat } }
  else if off = 0x10080 then s.launchCard id
  else if 0x100000 ≤ off ∧ off < 0x300000 ∧ off % 8 = 0 then
    let die := (off - 0x100000) / 0x40000
    let o := (off - 0x100000) % 0x40000
    if o = 0x20000 then { s with pathHead := s.pathHead.setIfInBounds die (v &&& 0xFFFFFFFF00000FFF) }
    else if o < 0x20000 then s.writePath die (o / 32) (o / 8 % 4) v
    else s
  else s

def execHostRegisterWrite (off : BitVec 22) (v : Word) (s : State) : Host.Outcome State Fault Refusal :=
  fired (.next (s.windowWrite off.toNat v))

/-- PSTAT (Table 26-1). -/
def State.pstat (s : State) : Word :=
  BitVec.ofNat 64 (Config.firmwareVersion.toNat * 2 ^ 32 + boolNat s.window.tripped * 2 + boolNat s.window.ready)

/-- The capability block (Table 26-4). -/
def Fuses.capBlock (f : Fuses) : List Byte :=
  leBytes 16 ((List.range 96).foldl (fun a c => a + boolNat (f.clusterPresent c) * 2 ^ c) 0)
    ++ (List.range 96).map (fun c => BitVec.ofNat 8 ((List.range 8).foldl (fun a i => a + boolNat (f.present (c * 8 + i)) * 2 ^ i) 0))
    ++ f.stackSize.toList.flatMap (leBytes 8) ++ leBytes 8 f.links.toNat

/-- What a host read of an offset returns. -/
def State.windowRead (s : State) (off : Nat) : Word :=
  let w := s.window
  if off = 0 then s.pstat
  else if off = 0x20 then w.ctxStat
  else if off = 0x30 then w.fault
  else if off = 0x38 then w.plimit.setWidth 64
  else if off = 0x40 then w.faddr
  else if off = 0x10088 then w.lstat
  else if 0x20000 ≤ off ∧ off < 0x200F8 then BitVec.ofNat 64 (leNat ((s.fuses.capBlock.drop (off - 0x20000)).take 8))
  else if 0x100000 ≤ off ∧ off < 0x300000 ∧ off % 8 = 0 then
    let die := (off - 0x100000) / 0x40000
    let o := (off - 0x100000) % 0x40000
    if o = 0x20000 then (s.pathHead[die]?).getD 0
    else if o < 0x20000 then s.pathEntry die (o / 32) (o / 8 % 4)
    else 0
  else 0

/-! ### Reset, power and errors (R69, R103, R413, R414) -/

/-- The part has brought itself up (R414): every unit of HBM and of the scratchpads is zero with fresh ECC, host memory is as it
was, and PSTAT.ready is set. -/
def State.broughtUp (s : State) (host : Mem) : State :=
  { s with mem := host, poison := s.poison.filter isHost, lost := [], lag := [], window := { s.window with ready := true } }

/-- A reset brings the part up (R414): every register at its value at reset, then the bring-up. What is fused stays, and what
others have been told is told. Where a bring-up is on its way already and no trip has ended it, it ends: what the host has
written and been told by then stays (R405). -/
def execReset (s : State) : Host.Outcome State Fault Refusal :=
  let host := s.mem.filter (fun c => isHost c.1)
  .next (if s.window.ready ∨ s.window.tripped then
      { State.reset with
        agenda := s.agenda, outbox := s.outbox, fuses := s.fuses, links := s.fuses.links, ticks := s.ticks }.broughtUp host
    else s.broughtUp host)

/-- A junction above its limit (R413): the part stops and tells the host; then it waits for reset. -/
def execThermalTrip (s : State) : Host.Outcome State Fault Refusal :=
  .next { s with window := { s.window with tripped := true }, outbox := s.outbox ++ [.msix 0] }

/-- Idle cycles in the engines change timing alone (R413). -/
def execPowerThrottle (s : State) : Host.Outcome State Fault Refusal := .next s

/-- Scrubbing rewrites corrected units (R69); what reads give is what they gave. -/
def execHbmScrub (_ : Nat) (s : State) : Host.Outcome State Fault Refusal := .next s

/-- A bit error in the ECC unit of a location: `fatal` when it leaves the unit uncorrectable (R69, R103). -/
def execEccError (unit : Nat) (fatal : Bool) (s : State) : Host.Outcome State Fault Refusal :=
  let u := eccUnit unit
  .next (if fatal ∧ !s.poison.contains u then { s with poison := u :: s.poison } else s)

end Sys2Proof.Machine
end

