-- ==== Sys2Proof/Machine/Dispatch.lean ====
section
/-! DEFINITION. The meaning of each instruction and event: one call of its own definition. -/

namespace Sys2Proof.Machine

def exec (i : Instr) (s : State) : Host.Outcome State Fault Refusal :=
  match i with
  | .pfx p => Sys2Proof.Machine.execPfx p s
  | .add d a b => Sys2Proof.Machine.execAdd d a b s
  | .sub d a b => Sys2Proof.Machine.execSub d a b s
  | .mul d a b => Sys2Proof.Machine.execMul d a b s
  | .mulh d a b => Sys2Proof.Machine.execMulh d a b s
  | .mulhs d a b => Sys2Proof.Machine.execMulhs d a b s
  | .div d a b => Sys2Proof.Machine.execDiv d a b s
  | .divu d a b => Sys2Proof.Machine.execDivu d a b s
  | .rem d a b => Sys2Proof.Machine.execRem d a b s
  | .remu d a b => Sys2Proof.Machine.execRemu d a b s
  | .and d a b => Sys2Proof.Machine.execAnd d a b s
  | .or d a b => Sys2Proof.Machine.execOr d a b s
  | .xor d a b => Sys2Proof.Machine.execXor d a b s
  | .shl d a b => Sys2Proof.Machine.execShl d a b s
  | .shr d a b => Sys2Proof.Machine.execShr d a b s
  | .sra d a b => Sys2Proof.Machine.execSra d a b s
  | .min d a b => Sys2Proof.Machine.execMin d a b s
  | .max d a b => Sys2Proof.Machine.execMax d a b s
  | .minu d a b => Sys2Proof.Machine.execMinu d a b s
  | .maxu d a b => Sys2Proof.Machine.execMaxu d a b s
  | .clz d a => Sys2Proof.Machine.execClz d a s
  | .ctz d a => Sys2Proof.Machine.execCtz d a s
  | .popc d a => Sys2Proof.Machine.execPopc d a s
  | .mov d a => Sys2Proof.Machine.execMov d a s
  | .sext d a w => Sys2Proof.Machine.execSext d a w s
  | .zext d a w => Sys2Proof.Machine.execZext d a w s
  | .addi d a imm => Sys2Proof.Machine.execAddi d a imm s
  | .andi d a imm => Sys2Proof.Machine.execAndi d a imm s
  | .ori d a imm => Sys2Proof.Machine.execOri d a imm s
  | .xori d a imm => Sys2Proof.Machine.execXori d a imm s
  | .shli d a sh => Sys2Proof.Machine.execShli d a sh s
  | .shri d a sh => Sys2Proof.Machine.execShri d a sh s
  | .srai d a sh => Sys2Proof.Machine.execSrai d a sh s
  | .bfx d a pos widthM1 => Sys2Proof.Machine.execBfx d a pos widthM1 s
  | .bfi d a pos widthM1 => Sys2Proof.Machine.execBfi d a pos widthM1 s
  | .movi d imm => Sys2Proof.Machine.execMovi d imm s
  | .movh d imm => Sys2Proof.Machine.execMovh d imm s
  | .lea d sel off => Sys2Proof.Machine.execLea d sel off s
  | .cmpEq d a b => Sys2Proof.Machine.execCmpEq d a b s
  | .cmpNe d a b => Sys2Proof.Machine.execCmpNe d a b s
  | .cmpLt d a b => Sys2Proof.Machine.execCmpLt d a b s
  | .cmpLe d a b => Sys2Proof.Machine.execCmpLe d a b s
  | .cmpLtu d a b => Sys2Proof.Machine.execCmpLtu d a b s
  | .cmpLeu d a b => Sys2Proof.Machine.execCmpLeu d a b s
  | .pand d a b => Sys2Proof.Machine.execPand d a b s
  | .por d a b => Sys2Proof.Machine.execPor d a b s
  | .pxor d a b => Sys2Proof.Machine.execPxor d a b s
  | .pnot d a => Sys2Proof.Machine.execPnot d a s
  | .sel d a b => Sys2Proof.Machine.execSel d a b s
  | .ptb d imm => Sys2Proof.Machine.execPtb d imm s
  | .ptbr d a => Sys2Proof.Machine.execPtbr d a s
  | .br a p => Sys2Proof.Machine.execBr a p s
  | .brN a p => Sys2Proof.Machine.execBrN a p s
  | .brl a p => Sys2Proof.Machine.execBrl a p s
  | .ret p => Sys2Proof.Machine.execRet p s
  | .tok act => Sys2Proof.Machine.execTok act s
  | .ldB d a imm => Sys2Proof.Machine.execLdB d a imm s
  | .ldH d a imm => Sys2Proof.Machine.execLdH d a imm s
  | .ldW d a imm => Sys2Proof.Machine.execLdW d a imm s
  | .ldD d a imm => Sys2Proof.Machine.execLdD d a imm s
  | .lduB d a imm => Sys2Proof.Machine.execLduB d a imm s
  | .lduH d a imm => Sys2Proof.Machine.execLduH d a imm s
  | .lduW d a imm => Sys2Proof.Machine.execLduW d a imm s
  | .stB v a imm => Sys2Proof.Machine.execStB v a imm s
  | .stH v a imm => Sys2Proof.Machine.execStH v a imm s
  | .stW v a imm => Sys2Proof.Machine.execStW v a imm s
  | .stD v a imm => Sys2Proof.Machine.execStD v a imm s
  | .rmap d a b => Sys2Proof.Machine.execRmap d a b s
  | .rinv d a b => Sys2Proof.Machine.execRinv d a b s
  | .rprobe d a => Sys2Proof.Machine.execRprobe d a s
  | .kvFind d a b => Sys2Proof.Machine.execKvFind d a b s
  | .kvMap d a => Sys2Proof.Machine.execKvMap d a s
  | .kvAlias d a b => Sys2Proof.Machine.execKvAlias d a b s
  | .kvUnmap d a b => Sys2Proof.Machine.execKvUnmap d a b s
  | .kvRef d a b => Sys2Proof.Machine.execKvRef d a b s
  | .kvPos d a => Sys2Proof.Machine.execKvPos d a s
  | .kvApp d a => Sys2Proof.Machine.execKvApp d a s
  | .kvCommit d a b => Sys2Proof.Machine.execKvCommit d a b s
  | .kvLen d a => Sys2Proof.Machine.execKvLen d a s
  | .cntAdd a v sc => Sys2Proof.Machine.execCntAdd a v sc s
  | .cntWait a v sc => Sys2Proof.Machine.execCntWait a v sc s
  | .cntArm d a => Sys2Proof.Machine.execCntArm d a s
  | .cntRd d a sc => Sys2Proof.Machine.execCntRd d a sc s
  | .tagWaitAny d a => Sys2Proof.Machine.execTagWaitAny d a s
  | .tagWaitAll d a => Sys2Proof.Machine.execTagWaitAll d a s
  | .tagFfr d a => Sys2Proof.Machine.execTagFfr d a s
  | .tagClr a => Sys2Proof.Machine.execTagClr a s
  | .bar d a => Sys2Proof.Machine.execBar d a s
  | .barWait a => Sys2Proof.Machine.execBarWait a s
  | .fence mask sc => Sys2Proof.Machine.execFence mask sc s
  | .fenceX mask sc => Sys2Proof.Machine.execFenceX mask sc s
  | .decl d a => Sys2Proof.Machine.execDecl d a s
  | .ntake d a => Sys2Proof.Machine.execNtake d a s
  | .nfree d a => Sys2Proof.Machine.execNfree d a s
  | .rret d a b => Sys2Proof.Machine.execRret d a b s
  | .rrel d a b => Sys2Proof.Machine.execRrel d a b s
  | .psched d a => Sys2Proof.Machine.execPsched d a s
  | .setvl d a w g => Sys2Proof.Machine.execSetvl d a w g s
  | .setvli d n w g => Sys2Proof.Machine.execSetvli d n w g s
  | .vcfg d a b => Sys2Proof.Machine.execVcfg d a b s
  | .wset w a => Sys2Proof.Machine.execWset w a s
  | .wget d w => Sys2Proof.Machine.execWget d w s
  | .vmvSx v sr => Sys2Proof.Machine.execVmvSx v sr s
  | .vmvXs sr v => Sys2Proof.Machine.execVmvXs sr v s
  | .kpop sr k => Sys2Proof.Machine.execKpop sr k s
  | .kffs sr k => Sys2Proof.Machine.execKffs sr k s
  | .vbmClr n => Sys2Proof.Machine.execVbmClr n s
  | .vbmRd sr n => Sys2Proof.Machine.execVbmRd sr n s
  | .job d a => Sys2Proof.Machine.execJob d a s
  | .deal d => Sys2Proof.Machine.execDeal d s
  | .gbind d a => Sys2Proof.Machine.execGbind d a s
  | .grebind d a b => Sys2Proof.Machine.execGrebind d a b s
  | .fire d a b => Sys2Proof.Machine.execFire d a b s
  | .fireWait a b => Sys2Proof.Machine.execFireWait a b s
  | .gstat d a b => Sys2Proof.Machine.execGstat d a b s
  | .fmtPush a => Sys2Proof.Machine.execFmtPush a s
  | .coll d a => Sys2Proof.Machine.execColl d a s
  | .cwait d a => Sys2Proof.Machine.execCwait d a s
  | .cstat d a b => Sys2Proof.Machine.execCstat d a b s
  | .bcls d => Sys2Proof.Machine.execBcls d s
  | .bwait n => Sys2Proof.Machine.execBwait n s
  | .bstat d a b => Sys2Proof.Machine.execBstat d a b s
  | .path d a b => Sys2Proof.Machine.execPath d a b s
  | .trap a => Sys2Proof.Machine.execTrap a s
  | .sysr d n => Sys2Proof.Machine.execSysr d n s
  | .sysw n a => Sys2Proof.Machine.execSysw n a s
  | .replay d a => Sys2Proof.Machine.execReplay d a s
  | .disc d a b => Sys2Proof.Machine.execDisc d a b s
  | .wfi a => Sys2Proof.Machine.execWfi a s
  | .brk n => Sys2Proof.Machine.execBrk n s
  | .ldBS c d a b imm => Sys2Proof.Machine.execLdBS c d a b imm s
  | .ldHS c d a b imm => Sys2Proof.Machine.execLdHS c d a b imm s
  | .ldWS c d a b imm => Sys2Proof.Machine.execLdWS c d a b imm s
  | .ldDS c d a b imm => Sys2Proof.Machine.execLdDS c d a b imm s
  | .lduBS c d a b imm => Sys2Proof.Machine.execLduBS c d a b imm s
  | .lduHS c d a b imm => Sys2Proof.Machine.execLduHS c d a b imm s
  | .lduWS c d a b imm => Sys2Proof.Machine.execLduWS c d a b imm s
  | .stBS c v a b imm => Sys2Proof.Machine.execStBS c v a b imm s
  | .stHS c v a b imm => Sys2Proof.Machine.execStHS c v a b imm s
  | .stWS c v a b imm => Sys2Proof.Machine.execStWS c v a b imm s
  | .stDS c v a b imm => Sys2Proof.Machine.execStDS c v a b imm s
  | .ldAcq sc c d a b imm => Sys2Proof.Machine.execLdAcq sc c d a b imm s
  | .stRel sc c v a b imm => Sys2Proof.Machine.execStRel sc c v a b imm s
  | .amoAdd u sc c d a b imm => Sys2Proof.Machine.execAmoAdd u sc c d a b imm s
  | .amoOr u sc c d a b imm => Sys2Proof.Machine.execAmoOr u sc c d a b imm s
  | .amoXor u sc c d a b imm => Sys2Proof.Machine.execAmoXor u sc c d a b imm s
  | .amoMin u sc c d a b imm => Sys2Proof.Machine.execAmoMin u sc c d a b imm s
  | .amoMax u sc c d a b imm => Sys2Proof.Machine.execAmoMax u sc c d a b imm s
  | .amoSwap u sc c d a b imm => Sys2Proof.Machine.execAmoSwap u sc c d a b imm s
  | .amoCas u sc c d a b imm => Sys2Proof.Machine.execAmoCas u sc c d a b imm s
  | .amoLd u sc c d a imm => Sys2Proof.Machine.execAmoLd u sc c d a imm s
  | .vld h t v sa => Sys2Proof.Machine.execVld h t v sa s
  | .vlds h t v sa sb => Sys2Proof.Machine.execVlds h t v sa sb s
  | .vldx h t v sa x bm => Sys2Proof.Machine.execVldx h t v sa x bm s
  | .vldff h t v sa n => Sys2Proof.Machine.execVldff h t v sa n s
  | .vst h t v sa => Sys2Proof.Machine.execVst h t v sa s
  | .vsts h t v sa sb => Sys2Proof.Machine.execVsts h t v sa sb s
  | .vstx h t v sa x bm => Sys2Proof.Machine.execVstx h t v sa x bm s
  | .vadd h t d a b => Sys2Proof.Machine.execVadd h t d a b s
  | .vsub h t d a b => Sys2Proof.Machine.execVsub h t d a b s
  | .vmul h t d a b => Sys2Proof.Machine.execVmul h t d a b s
  | .vfma h t d a b => Sys2Proof.Machine.execVfma h t d a b s
  | .vfms h t d a b => Sys2Proof.Machine.execVfms h t d a b s
  | .vfnma h t d a b => Sys2Proof.Machine.execVfnma h t d a b s
  | .vmin h t d a b => Sys2Proof.Machine.execVmin h t d a b s
  | .vmax h t d a b => Sys2Proof.Machine.execVmax h t d a b s
  | .vabs h t d a => Sys2Proof.Machine.execVabs h t d a s
  | .vneg h t d a => Sys2Proof.Machine.execVneg h t d a s
  | .vdiv h t d a b => Sys2Proof.Machine.execVdiv h t d a b s
  | .vsqrt h t d a => Sys2Proof.Machine.execVsqrt h t d a s
  | .vrsqrt h t d a => Sys2Proof.Machine.execVrsqrt h t d a s
  | .vrcp h t d a => Sys2Proof.Machine.execVrcp h t d a s
  | .vexp2 h t d a => Sys2Proof.Machine.execVexp2 h t d a s
  | .vlog2 h t d a => Sys2Proof.Machine.execVlog2 h t d a s
  | .vcvt h t u d a => Sys2Proof.Machine.execVcvt h t u d a s
  | .vand h t d a b => Sys2Proof.Machine.execVand h t d a b s
  | .vor h t d a b => Sys2Proof.Machine.execVor h t d a b s
  | .vxor h t d a b => Sys2Proof.Machine.execVxor h t d a b s
  | .vnot h t d a => Sys2Proof.Machine.execVnot h t d a s
  | .vshl h t d a b => Sys2Proof.Machine.execVshl h t d a b s
  | .vshr h t d a b => Sys2Proof.Machine.execVshr h t d a b s
  | .vsra h t d a b => Sys2Proof.Machine.execVsra h t d a b s
  | .vcmp h cc t d a b => Sys2Proof.Machine.execVcmp h cc t d a b s
  | .vsel h t d a b k => Sys2Proof.Machine.execVsel h t d a b k s
  | .vredsum h t d a b => Sys2Proof.Machine.execVredsum h t d a b s
  | .vredmax h t d a b => Sys2Proof.Machine.execVredmax h t d a b s
  | .vredmin h t d a b => Sys2Proof.Machine.execVredmin h t d a b s
  | .vscan h op t d a => Sys2Proof.Machine.execVscan h op t d a s
  | .vperm h t d a b => Sys2Proof.Machine.execVperm h t d a b s
  | .vslideup h t d a n => Sys2Proof.Machine.execVslideup h t d a n s
  | .vslidedn h t d a n => Sys2Proof.Machine.execVslidedn h t d a n s
  | .vbcast h t d a j => Sys2Proof.Machine.execVbcast h t d a j s
  | .vcomp h t d a k => Sys2Proof.Machine.execVcomp h t d a k s
  | .viota h t d k => Sys2Proof.Machine.execViota h t d k s
  | .vrot h t d a b => Sys2Proof.Machine.execVrot h t d a b s
  | .vdot h t u d a b => Sys2Proof.Machine.execVdot h t u d a b s
  | .vseed h a => Sys2Proof.Machine.execVseed h a s
  | .vmv h t d a => Sys2Proof.Machine.execVmv h t d a s
  | .kand h d a b => Sys2Proof.Machine.execKand h d a b s
  | .kor h d a b => Sys2Proof.Machine.execKor h d a b s
  | .kxor h d a b => Sys2Proof.Machine.execKxor h d a b s
  | .knot h d a => Sys2Proof.Machine.execKnot h d a s
  | .tmov h a b c tag => Sys2Proof.Machine.execTmov h a b c tag s
  | .tmovFp h a b c d tag => Sys2Proof.Machine.execTmovFp h a b c d tag s
  | .tfill h a b c tag => Sys2Proof.Machine.execTfill h a b c tag s
  | .tcmp h a b c d tag => Sys2Proof.Machine.execTcmp h a b c d tag s
  | .pull h d a tag => Sys2Proof.Machine.execPull h d a tag s
  | .pullF h d a b c tag => Sys2Proof.Machine.execPullF h d a b c tag s
  | .pub h a b c => Sys2Proof.Machine.execPub h a b c s
  | .pubMc h a b c d => Sys2Proof.Machine.execPubMc h a b c d s
  | .mcode h va => Sys2Proof.Machine.execMcode h va s
  | .mload h m va => Sys2Proof.Machine.execMload h m va s
  | .mloadVq h m va => Sys2Proof.Machine.execMloadVq h m va s
  | .mmma h cost vd va m cnt lay => Sys2Proof.Machine.execMmma h cost vd va m cnt lay s
  | .mmmaSp h cost vd va m cnt lay => Sys2Proof.Machine.execMmmaSp h cost vd va m cnt lay s
  | .mcomp h vd va => Sys2Proof.Machine.execMcomp h vd va s
  | .outl h va => Sys2Proof.Machine.execOutl h va s
  | .azero h vd e => Sys2Proof.Machine.execAzero h vd e s
  | .aexp h vd sr => Sys2Proof.Machine.execAexp h vd sr s
  | .anorm h vd => Sys2Proof.Machine.execAnorm h vd s
  | .mout h vd va nantrap => Sys2Proof.Machine.execMout h vd va nantrap s
  | .moutRet h vd va nantrap => Sys2Proof.Machine.execMoutRet h vd va nantrap s
  | .attQ h va b c d pb => Sys2Proof.Machine.execAttQ h va b c d pb s
  | .attQF h va => Sys2Proof.Machine.execAttQF h va s
  | .attKv h a b pb st => Sys2Proof.Machine.execAttKv h a b pb st s
  | .attRun h st => Sys2Proof.Machine.execAttRun h st s
  | .attOut h vd => Sys2Proof.Machine.execAttOut h vd s
  | .attMerge h vd va => Sys2Proof.Machine.execAttMerge h vd va s
  | .attPlan h a => Sys2Proof.Machine.execAttPlan h a s
  | .rst h a b c size => Sys2Proof.Machine.execRst h a b c size s
  | .rstMc h a b c size => Sys2Proof.Machine.execRstMc h a b c size s
  | .rld h d a c size => Sys2Proof.Machine.execRld h d a c size s
  | .ramo h op d a b c size => Sys2Proof.Machine.execRamo h op d a b c size s
  | .engineCommandExecute q => Sys2Proof.Machine.execEngineCommandExecute q s
  | .engineCommandRetire q => Sys2Proof.Machine.execEngineCommandRetire q s
  | .trapEntry r => Sys2Proof.Machine.execTrapEntry r s
  | .timer r => Sys2Proof.Machine.execTimer r s
  | .pullRequestRelease take => Sys2Proof.Machine.execPullRequestRelease take s
  | .retentionExpiry slot => Sys2Proof.Machine.execRetentionExpiry slot s
  | .taskStart core => Sys2Proof.Machine.execTaskStart core s
  | .graphEntryStart core => Sys2Proof.Machine.execGraphEntryStart core s
  | .taskFinish core => Sys2Proof.Machine.execTaskFinish core s
  | .jobComplete ctx slot => Sys2Proof.Machine.execJobComplete ctx slot s
  | .rebindDrainComplete slot => Sys2Proof.Machine.execRebindDrainComplete slot s
  | .nop => Sys2Proof.Machine.execNop s
  | .halt => Sys2Proof.Machine.execHalt s
  | .nwait => Sys2Proof.Machine.execNwait s
  | .taskEnd => Sys2Proof.Machine.execTaskEnd s
  | .eret => Sys2Proof.Machine.execEret s
  | .noticeRetry => Sys2Proof.Machine.execNoticeRetry s
  | .combineEntryTimeout => Sys2Proof.Machine.execCombineEntryTimeout s
  | .qntDeferExpiry => Sys2Proof.Machine.execQntDeferExpiry s
  | .sliceBoundary => Sys2Proof.Machine.execSliceBoundary s
  | .bucketRefill => Sys2Proof.Machine.execBucketRefill s
  | .powerThrottle => Sys2Proof.Machine.execPowerThrottle s
  | .thermalTrip => Sys2Proof.Machine.execThermalTrip s
  | .reset => Sys2Proof.Machine.execReset s
  | .faultClear => Sys2Proof.Machine.execFaultClear s
  | .noticeDelivery n => Sys2Proof.Machine.execNoticeDelivery n s
  | .noticeWithdrawal core node seq => Sys2Proof.Machine.execNoticeWithdrawal core node seq s
  | .pullRequestServe req => Sys2Proof.Machine.execPullRequestServe req s
  | .pullLanding take ans => Sys2Proof.Machine.execPullLanding take ans s
  | .retentionDecrement slot seq => Sys2Proof.Machine.execRetentionDecrement slot seq s
  | .krytwayPacketReceive p => Sys2Proof.Machine.execKrytwayPacketReceive p s
  | .ackTimeout node => Sys2Proof.Machine.execAckTimeout node s
  | .nodeDead node => Sys2Proof.Machine.execNodeDead node s
  | .summaryRequest node core tag => Sys2Proof.Machine.execSummaryRequest node core tag s
  | .summaryReply tag node failed => Sys2Proof.Machine.execSummaryReply tag node failed s
  | .collReadyReport id sender => Sys2Proof.Machine.execCollReadyReport id sender s
  | .collDeadline ctx slot => Sys2Proof.Machine.execCollDeadline ctx slot s
  | .collStartReport id report => Sys2Proof.Machine.execCollStartReport id report s
  | .collStep ctx slot ans => Sys2Proof.Machine.execCollStep ctx slot ans s
  | .collStepReport id rank step => Sys2Proof.Machine.execCollStepReport id rank step s
  | .collRoundComplete ctx slot => Sys2Proof.Machine.execCollRoundComplete ctx slot s
  | .collAbortReport id report => Sys2Proof.Machine.execCollAbortReport id report s
  | .collWaitTimeout ctx slot => Sys2Proof.Machine.execCollWaitTimeout ctx slot s
  | .coordinatorStartReportExpiry id => Sys2Proof.Machine.execCoordinatorStartReportExpiry id s
  | .accountingTick meter => Sys2Proof.Machine.execAccountingTick meter s
  | .clusterPreempt cluster => Sys2Proof.Machine.execClusterPreempt cluster s
  | .contextSaveComplete cluster => Sys2Proof.Machine.execContextSaveComplete cluster s
  | .contextRestore die unit => Sys2Proof.Machine.execContextRestore die unit s
  | .hbmScrub unit => Sys2Proof.Machine.execHbmScrub unit s
  | .linkLaneLoss port down => Sys2Proof.Machine.execLinkLaneLoss port down s
  | .ctxcmdCreate ctx => Sys2Proof.Machine.execCtxcmdCreate ctx s
  | .ctxcmdDestroy ctx => Sys2Proof.Machine.execCtxcmdDestroy ctx s
  | .ctxcmdInvalidOp op => Sys2Proof.Machine.execCtxcmdInvalidOp op s
  | .launch ctx => Sys2Proof.Machine.execLaunch ctx s
  | .cancel ctx handle => Sys2Proof.Machine.execCancel ctx handle s
  | .plimitWrite v => Sys2Proof.Machine.execPlimitWrite v s
  | .hostRegisterWrite off v => Sys2Proof.Machine.execHostRegisterWrite off v s
  | .eccError unit fatal => Sys2Proof.Machine.execEccError unit fatal s

end Sys2Proof.Machine
end

