-- ==== Sys2Proof/Machine/Turn.lean ====
section
/-! DEFINITION. What a step does around `exec`: fetching (Table 2-7, steps 1 to 5), the focus, and who moves next. -/

namespace Sys2Proof.Machine

/-- The fetch of the second word of a 64-bit instruction at `a` faults (R20). -/
def Companion.secondMissing (c : Companion) (a : Nat) : Bool := c.word a % 4 = 1 && decide (a + 4 ≥ 0x10000)

/-- The unit's next instruction, through steps 1 to 6 of Table 2-7. With a prefix latched, it is the prefixed one. -/
def State.fetch (s : State) : Except Stop Decoded :=
  let c := s.me
  let a := c.pc.toNat
  let trap := if c.pfx.isSome then Stop.trapPfx else Stop.trap
  if a ≥ 0x10000 then .error (trap .prot (BitVec.ofNat 64 a))
  else if a % 4 ≠ 0 then .error (trap .align (BitVec.ofNat 64 a))
  else if c.entry && !c.landing a then .error (.trapPfx .landing (BitVec.ofNat 64 a))
  else
    let early := if c.word a % 4 = 2 then
        match c.orphan a with
        | some e => some e
        | none => if c.secondMissing (a + 4) then some (.trapPfx .prot (BitVec.ofNat 64 (a + 8))) else none
      else if c.secondMissing a then some (trap .prot (BitVec.ofNat 64 (a + 4))) else none
    match early with
    | some e => .error e
    | none =>
      match decode (c.istore.readN a (min 8 (0x10000 - a))) with
      | .ok d => .ok d
      | .error _ => .error (.trap .illegal 0)

/-- The entry word of the task has passed its landing check (R13). -/
def State.landed (s : State) : State := s.setMe { s.me with entry := false }

/-- The executing companion core ends as `halt` ends it. -/
def State.endMe (s : State) : State := s.setMe { s.me with run := .ended, pfx := none, waiting := false, wfi := none }

/-- One buffered store performs, when nothing earlier must perform before it (R67, R340). -/
def State.drainNth (s : State) (r : Role) (i : Nat) : State :=
  let c := s.core.comp r
  match c.sbuf[i]? with
  | some b =>
    if (c.sbuf.take i).any (fun x => x.before b) then s
    else (s.setComp r { c with sbuf := c.sbuf.eraseIdx i }).perform r b
  | none => s

/-- Another agent writes memory. -/
def State.outsideWrite (s : State) (loc : Nat) (bs : List Byte) : State := s.poke loc bs

/-- A context with no range, no page and unlimited buckets. -/
def Ctx.plain (id : BitVec 16) : Ctx :=
  let b : Bucket := ⟨0x7FFFFFFFFFFFFFFF, 0, none⟩
  ⟨id, 0, 0, 10, 0, 0x1000000, 0, 0, 0, Vector.replicate 64 none, b, b, b, true, false⟩

/-! ### What a cycle brings about (R272, R291, R300, R329, R332, R350, R376) -/

/-- An event that the part brings about of itself, with the operands that the state gives it. -/
inductive Happening
  | tick | refill | slice
  | timer (r : Role)
  | qnt
  | expiry (slot : BitVec 8)
  | combine
  | deadline (ctx : BitVec 16) (slot : BitVec 3)
  | waitOut (ctx : BitVec 16) (slot : BitVec 3)
  | startExpiry (id : RoundId)
  | ack (node : BitVec 12)
  | dead (node : BitVec 12)
  | land (take : BitVec 6)
  | step (ctx : BitVec 16) (slot : BitVec 3)
  | finish (ctx : BitVec 16) (slot : BitVec 3)
  | preempt (cluster : BitVec 7)
  | save (cluster : BitVec 7)
  | restore (cluster : BitVec 7)
  deriving DecidableEq, Repr

/-- The energies that the estimators give (R331, log entry 63). -/
def State.meter (s : State) : List Charge := s.ctxs.map (fun c => ⟨c.id, Config.energy s.tickDone c.id.toNat⟩)

/-- The event comes about at the core in focus. -/
def Happening.run (h : Happening) (s : State) : Host.Outcome State Fault Refusal :=
  match h with
  | .tick => execAccountingTick s.meter s
  | .refill => execBucketRefill s
  | .slice => execSliceBoundary s
  | .timer r => execTimer r s
  | .qnt => execQntDeferExpiry s
  | .expiry slot => execRetentionExpiry slot s
  | .combine => execCombineEntryTimeout s
  | .deadline ctx slot => execCollDeadline ctx slot s
  | .waitOut ctx slot => execCollWaitTimeout ctx slot s
  | .startExpiry id => execCoordinatorStartReportExpiry id s
  | .ack node => execAckTimeout node s
  | .dead node => execNodeDead node s
  | .land take => execPullLanding take .faulted s
  | .step ctx slot => execCollStep ctx slot .faulted s
  | .finish ctx slot => execCollRoundComplete ctx slot s
  | .preempt cluster => execClusterPreempt cluster s
  | .save cluster => execContextSaveComplete cluster s
  | .restore cluster => execContextRestore (BitVec.ofNat 3 (cluster.toNat / 12)) (BitVec.ofNat 4 (cluster.toNat % 12)) s

/-- The event at core `n`, and the focus back. -/
def atCore (n : Nat) (h : Happening) (s : State) : Host.Outcome State Fault Refusal :=
  match h.run (s.focus n) with
  | .next t => .next (t.focus s.coreId)
  | o => o

/-- What must come about at a cycle: the cycle, the core at which it does, and the event. -/
abbrev Due := Nat × Nat × Happening

/-- The accounting tick, its refill and the slice boundary. -/
def State.clockDues (s : State) : List Due :=
  let n := s.coreId
  if s.refillDue then [(0, n, .refill)]
  else if s.tickCycle ≤ s.sliceCycle then [(s.tickCycle, n, .tick)]
  else [(s.sliceCycle, n, .slice)]

/-- The deadlines at the core in focus: `wfi`, `.qnt` atomics, retention slots in ascending order, combining-buffer entries that
can be sent. -/
def State.coreDues (s : State) : List Due :=
  let c := s.core
  let n := s.coreId
  let comps := if s.live then everyRole else []
  let slots := if s.live then List.range 256 else []
  comps.filterMap (fun r => match (c.comp r).wfi with
      | some d => if (c.comp r).waiting ∧ (c.comp r).run = .running ∧ (c.comp r).posted.isEmpty then some (d.toNat, n, .timer r) else none
      | none => none)
    ++ c.deferred.map (fun x => (x.due.toNat, n, .qnt))
    ++ slots.filterMap (fun i => match c.port.slot i with
      | some r => (match r.deadline with
        | some d => if r.expired then none else some (d.toNat, n, .expiry (BitVec.ofNat 8 i))
        | none => none)
      | none => none)
    ++ (c.combine.filter (fun e => s.canSend n e.node)).map (fun e => (e.made.toNat + 64, n, .combine))

/-- The deadlines and waits of the rounds of a storer (R291, R300): a time that is past at the next cycle. -/
def State.roundDues (s : State) (u : CollUnit) : List Due :=
  let t := s.focus u.core
  (List.range 8).flatMap (fun i => match u.slot i with
    | none => []
    | some r =>
      let slot := BitVec.ofNat 3 i
      if r.state ≠ .running then [] else
      (if r.rank = r.root ∧ r.parts.isNone ∧ blkDeadline r.block ≠ 0 then
        [(r.issued.toNat + blkDeadline r.block * 1000 + 1, u.core, .deadline u.ctx slot)] else [])
      ++ (match t.roundWait r with
        | some (d, _) => [(d + 1, u.core, .waitOut u.ctx slot)]
        | none => []))
  ++ u.kept.map (fun x => (x.until_.toNat, u.core, .startExpiry x.id))

/-- The timeouts of a session (R263, R264). -/
def State.sessionDues (s : State) (x : Session) : List Due :=
  if x.dead ∨ x.node = s.node then [] else
  x.unacked.map (fun y => (y.atCycle.toNat + 16384, s.coreId, .ack x.node))
    ++ (x.unacked.take 1).map (fun y => (max x.lastAck.toNat y.first.toNat + s.liveness x.die, s.coreId, .dead x.node))

/-- The cores whose state the package holds. -/
def State.coresHere (s : State) : List Nat := s.coreId :: s.others.map (·.1)

def State.dues (s : State) : List Due :=
  s.clockDues ++ s.coresHere.flatMap (fun n => (s.focus n).coreDues) ++ s.colls.flatMap s.roundDues
    ++ s.sessions.flatMap s.sessionDues

/-- The earliest of what must come about. -/
def State.firstDue (s : State) : Option Due := bestBy (fun x y => x.1 < y.1) s.dues

/-- What must come about before anything else moves: its cycle has come. A reset comes before it, and the agenda's tick in place
of the machine's own, with the energies that it gives (log entry 90). -/
def State.forced (s : State) : Option Due :=
  match s.firstDue, s.agenda.head? with
  | none, _ | _, some (.event .reset) => none
  | some (_, _, .tick), some (.event (.accountingTick _)) => none
  | some d, _ => if d.1 ≤ s.cycle.toNat then some d else none

/-! ### Who moves when nothing is on the agenda (log entry 8) -/

abbrev Mover := Sum Pick Happening

/-- What can move, each with a key of its own. -/
abbrev Movers := List (Nat × Mover)

def moverEvent (key : Nat) (i : Instr) : Nat × Mover := (key, .inl (.event i))

/-- What goes on at a core whether or not its context runs on it: requested pulls land (R378), and rounds go on (R303, R333). -/
def State.standingEvents (s : State) : Movers :=
  (List.range 64).filterMap (fun i => match (s.core.port.takes[i]?).join with
      | some t => (match t.pull with
        | .booked _ true => if noteNode t.note = s.node.toNat then some (40 + i, .inr (.land (BitVec.ofNat 6 i))) else none
        | _ => none)
      | none => none)
    ++ (s.colls.filter (fun u => u.core = s.coreId)).flatMap (fun u => (List.range 8).flatMap (fun i => match u.slot i with
      | some r =>
        let key := 1000 + (u.ctx.toNat * 8 + i) * 2
        let slot := BitVec.ofNat 3 i
        if r.state ≠ .running then []
        else if r.asked then (if s.stepReady r then [(key, .inr (.step u.ctx slot))] else [])
        else [(key, .inr (.step u.ctx slot)), (key + 1, .inr (.finish u.ctx slot))]
      | none => []))

/-- What the port engine of the core in focus can do. -/
def State.portEvents (s : State) : Movers :=
  (List.range 64).filterMap (fun i => match (s.core.port.takes[i]?).join with
      | some t => (match t.pull with
        | .booked b false =>
          if b.toNat ≤ s.cycle.toNat then some (moverEvent (104 + i) (.pullRequestRelease (BitVec.ofNat 6 i))) else none
        | _ => none)
      | none => none)
    ++ (match s.core.port.publishing with
      | some p => if p.slot.isSome && !p.left.isEmpty then [moverEvent 33 .noticeRetry] else []
      | none => [])

/-- What the engines and the front end can do at the core in focus. -/
def State.unitEvents (s : State) : Movers :=
  let c := s.core
  let n := BitVec.ofNat 10 s.coreId
  (QueueId.all.filter (fun q => (c.retirable q).isSome)).map (fun q => moverEvent (6 + q.num.val) (.engineCommandRetire q))
    ++ (QueueId.all.filter c.canExecute).map (fun q => moverEvent (16 + q.num.val) (.engineCommandExecute q))
    ++ (if s.taskOver then [moverEvent 26 (.taskFinish n)] else [])
    ++ (match (if s.taskFree then s.nextJob else none) with
      | some j => [moverEvent 27 (if (s.readyGraph j s.coreId).isSome then .graphEntryStart n else .taskStart n)]
      | none => [])
    ++ (s.graphs.filter (fun g => s.core.ctx = some g.ctx && g.die = dieOf s.coreId && g.rebind.isSome
        && g.running.isEmpty && g.next % g.count = 0)).map (fun g =>
          moverEvent (28 + g.slot) (.rebindDrainComplete (BitVec.ofNat 2 g.slot)))

/-- What the front ends, the context-save engine and the port paths can do. -/
def State.packageEvents (s : State) : Movers :=
  (match s.jobs.find? s.jobOver with
    | some j => [moverEvent 168 (.jobComplete j.ctx (BitVec.ofNat 6 j.slot))]
    | none => [])
  ++ (if s.lag.isEmpty then [] else [(32, .inl (.settle 0))])
  ++ (List.range 96).filterMap (fun i => match s.grants[i]? with
    | some g => (match g.phase with
      | .held => none
      | .preempting _ => some (200 + i, .inr (.preempt (BitVec.ofNat 7 i)))
      | .saving _ => if s.saveReady i then some (300 + i, .inr (.save (BitVec.ofNat 7 i))) else none
      | .restoring => some (400 + i, .inr (.restore (BitVec.ofNat 7 i))))
    | none => none)

/-- What the companion cores of the core in focus can do. -/
def State.compEvents (s : State) : Movers :=
  (everyRole.filter (fun r => (s.core.comp r).run = .running)).map (fun r => (r.num, .inl (.comp r)))
    ++ (everyRole.filter (fun r => !(s.core.comp r).sbuf.isEmpty)).map (fun r => (3 + r.num, .inl (.drain r 0)))

/-- Everything that can move at the core in focus. -/
def State.movers (s : State) : Movers :=
  (if s.live then s.compEvents ++ s.unitEvents ++ s.portEvents else []) ++ s.standingEvents ++ s.packageEvents

/-- The mover of the least key from `k` on, or else of the least. -/
def nextMover (k : Nat) (l : Movers) : Option (Nat × Mover) :=
  bestBy (fun x y => x.1 < y.1) (l.filter (fun x => k ≤ x.1)) <|> bestBy (fun x y => x.1 < y.1) l

/-- Who moves when the agenda is empty: the cores in turn by their numbers, and at each of them its movers in turn by their keys.
What can move at a core and goes on being able to is reached within one round of turns. -/
def State.auto (s : State) : Option (Nat × Nat × Mover) :=
  let l := sortBy id s.coresHere
  (l.filter (fun k => s.turnCore < k) ++ l.filter (fun k => k ≤ s.turnCore)).findSome? (fun k =>
    (nextMover ((lookupKey k s.turns).getD 0) (s.focus k).movers).map (fun m => (k, m)))

/-- The turn of a core has gone to its mover of a key. -/
def State.took (s : State) (core key : Nat) : State := { s with turnCore := core, turns := setKey core (key + 1) s.turns }

end Sys2Proof.Machine

namespace Sys2Proof

/-- A role whose profile has the instruction (Table 2-9). -/
def Instr.role : Instr → Role
  | .kvMap .. | .kvAlias .. | .kvUnmap .. | .kvRef .. | .kvApp .. | .kvCommit .. => .storer
  | .vst .. | .vsts .. | .vstx .. | .pub .. | .pubMc .. | .rret .. | .rrel .. | .rst .. | .rstMc .. | .rld .. | .ramo ..
  | .bcls .. | .bwait .. | .bstat .. | .path .. | .coll .. | .cwait .. | .cstat .. => .storer
  | .kvFind .. | .kvPos .. | .attKv .. | .vld .. | .vlds .. | .vldx .. | .vldff .. | .tmov .. | .tmovFp .. | .tfill ..
  | .tcmp .. | .pull .. | .pullF .. | .decl .. | .ntake .. | .nwait | .nfree .. | .psched .. | .vbmClr .. | .vbmRd .. =>
    .loader
  | .nop => .loader
  | _ => .sequencer

end Sys2Proof
end

