-- ==== Sys2Proof/Machine/Advance.lean ====
section
/-! DEFINITION. What `step` calls: a companion core's turn, every other move, and the clock after them. -/

namespace Sys2Proof.Machine

/-- A decoded instruction executes, or waits for a remote result (R271). -/
def runInstr (i : Instr) (s : State) : Host.Outcome State Fault Refusal :=
  if s.interlocked i then settle s (.error .wait) else
  let s := s.beforeAccess i
  match exec i s with
  | .next t => .next (s.noteOrder t i)
  | o => o

/-- A prefix word, which executes together with the instruction after it (R30). -/
def isPrefix : Instr → Bool
  | .pfx _ => true
  | _ => false

/-- A companion core executes the unit at its program counter: an instruction, or a prefix with its instruction. -/
def runUnit (s : State) : Host.Outcome State Fault Refusal :=
  match s.fetch with
  | .error e => settle s (.error e)
  | .ok d =>
    if isPrefix d.instr && s.me.pfx.isNone then
      match runInstr d.instr s.landed with
      | .next t =>
        if t.me.pfx.isSome then
          match t.fetch with
          | .error e => settle t (.error e)
          | .ok d2 => runInstr d2.instr t
        else .next t
      | o => o
    else runInstr d.instr s.landed

/-- The turn of a companion core: the end of a cancelled task, a trap that it can take, or its next unit. -/
def compTurn (r : Role) (s : State) : Host.Outcome State Fault Refusal :=
  let s := { s with cur := r }
  if s.me.run ≠ .running ∨ !s.live then .next s
  else if s.hereCancelled then .next s.endMe
  else if s.trapReady r then exec (.trapEntry r) s
  else runUnit s

def doPick (p : Pick) (s : State) : Host.Outcome State Fault Refusal :=
  match p with
  | .comp r => compTurn r s
  | .drain r i => .next (s.drainNth r i)
  | .early r va => .next (if s.live then s.readEarly r va else s)
  | .settle i => .next (s.settleLag i)
  | .tear q late bits => .next (if s.live ∧ s.core.canExecute q then s.engineTorn q late bits else s)
  | .element q i => .next (if s.live ∧ s.core.canExecute q then s.engineElement q i else s)
  | .event i => if i.isEvent then exec i s else .next s
  | .focus n => .next (s.focus n)
  | .outside loc bs => .next (s.outsideWrite loc bs)

/-- The clock after a step (R11); how far it goes on is open (R12, log entry 2), but not past what a cycle brings about. -/
def State.clock (s : State) : State :=
  let next := s.cycle.toNat + 1 + Config.extraCycles s.ticks
  let next := match s.firstDue with | some d => max s.cycle.toNat (min next d.1) | none => next
  { s with cycle := BitVec.ofNat 64 next, ticks := s.ticks + 1 }

/-- The end of a step: the arms that it has passed fire (R117), and the clock advances. -/
def clocked (o : Host.Outcome State Fault Refusal) : Host.Outcome State Fault Refusal :=
  match o with
  | .next t => .next t.fireAll.clock
  | o => o

end Sys2Proof.Machine
end

