-- ==== Sys2Proof/Machine/Step.lean ====
section
/-! DEFINITION. One step of the package: whoever moves next moves, and the clock advances. -/

namespace Sys2Proof.Machine

/-- One step. What its cycle brings about comes first; then the agenda says who moves; with nothing on it, the machine's own
order does (`State.auto`). After a thermal trip only a reset is a step (R413). -/
def step (s : State) : Host.Outcome State Fault Refusal :=
  if s.window.tripped ∧ s.agenda.head? ≠ some (.event .reset) then .fault .thermalTrip else
  match s.forced with
  | some (_, n, h) => clocked (atCore n h s)
  | none =>
    match s.agenda with
    | p :: rest => clocked (doPick p { s with agenda := rest })
    | [] =>
      match s.auto with
      | some (n, key, .inl p) => clocked (doPick p ((s.took n key).focus n))
      | some (n, key, .inr h) => clocked (atCore n h (s.took n key))
      | none => .next s.clock

/-- The instruction whose bits are `w`, stored where `step` fetches next: the program memory of a companion core whose role
may run it, in a context that owns the core's cluster (log entry 6). -/
def State.withFetchWord (s : State) (nbits w : Nat) : State :=
  let bytes := leBytes (nbits / 8) w
  let r := match decode (bytes ++ List.replicate 8 0) with | .ok d => d.instr.role | .error _ => .loader
  let id : BitVec 16 := 1
  let s := { s with
    cur := r
    agenda := [.comp r]
    ctxs := if (s.findCtx id).isSome then s.ctxs else s.ctxs ++ [Ctx.plain id]
    grants := s.grants.setIfInBounds (clusterOf s.coreId) { owner := some id }
    core := { s.core with ctx := some id }
    window := { s.window with ready := true, tripped := false }
    tickDone := s.cycle.toNat / 1000 + 1, sliceDone := s.cycle.toNat / 131072 + 1, refillDue := false }
  s.setComp r { s.core.comp r with
    run := .running, pc := 0, pfx := none, entry := false, waiting := false, posted := [], h := false
    istore := Mem.writeN [] 0 bytes }

end Sys2Proof.Machine
end

