-- ==== Sys2Proof/Safety.lean ====
section
/-! DEFINITION. What counts as a safe state, and the terms that the statements use: what an instruction leaves of the state
before it, besides its own effect. -/

namespace Sys2Proof.Machine

/-! ### The canonical memories -/

/-- The canonical form of every memory of a core. -/
def Core.Wf (c : Core) : Prop :=
  c.rs.Wf ∧ c.loader.istore.Wf ∧ c.sequencer.istore.Wf ∧ c.storer.istore.Wf

/-- Every memory of the package is in its canonical form, those of the cores that a save has written among them. -/
def State.MemWf (s : State) : Prop :=
  s.mem.Wf ∧ s.core.Wf ∧ (∀ x ∈ s.others, x.2.Wf) ∧ (∀ v ∈ s.saved, ∀ x ∈ v.cores, x.2.Wf)
  ∧ ∀ x ∈ s.areas, ∀ c, x.2 = Area.core c → c.Wf

/-! ### What an instruction gives -/

/-- The instruction completes: a next state, of which `P` holds. -/
def Gives (i : Instr) (s : State) (P : State → Prop) : Prop := ∃ t, exec i s = .next t ∧ P t

/-- The instruction completes: a next state, made of one of which `P` holds by firing the arms that it has passed (R117). -/
def GivesFired (i : Instr) (s : State) (P : State → Prop) : Prop := ∃ t, exec i s = .next t.fireAll ∧ P t

/-- The instruction raises a synchronous trap from `u`, the state once what comes before it has been done: cause `c`, EADDR
`ea`, EPC `epc`; arms that its frame's writes pass fire. -/
def RaisesFrom (i : Instr) (s u : State) (c : Cause) (ea : Word) (epc : Nat) : Prop :=
  exec i s = .next (u.raise c ea epc true) ∨ exec i s = .next (u.raise c ea epc true).fireAll

/-- The same, from the state before the instruction. -/
def Raises (i : Instr) (s : State) (c : Cause) (ea : Word) (epc : Nat) : Prop := RaisesFrom i s s c ea epc

/-- The instruction waits: nothing of `u`, the state once what comes before it has been done, changes but the mark that it is
waiting; arms already passed fire. -/
def WaitsFrom (i : Instr) (s u : State) : Prop :=
  let t := u.setMe { u.me with waiting := true }
  exec i s = .next t ∨ exec i s = .next t.fireAll

/-- The same, from the state before the instruction. -/
def Waits (i : Instr) (s : State) : Prop := WaitsFrom i s s

/-! ### Frames

`s` is the state before, with whatever else the instruction does already done to it; `t` is the state after. -/

/-- `t` is `s` but for the s, p and b registers of the executing companion core: its program counter is `n` bytes on, its
prefix and its wait are over, every byte of memory and every other field is as it was. -/
def Onward (s : State) (n : Nat) (t : State) : Prop :=
  t.me.pc = s.me.pc + BitVec.ofNat 17 n
  ∧ (∀ a, t.mem.read a = s.mem.read a)
  ∧ t = s.setMe { s.me with
      s := t.me.s, p := t.me.p, b := t.me.b, pc := t.me.pc, pfx := none, waiting := false, wfi := none }

/-- Only the s register `d` changes; a write to s0 is discarded. -/
def WroteReg (s : State) (d : SReg) (v : Word) (n : Nat) (t : State) : Prop :=
  (∀ r, t.rd r = if r = d ∧ d ≠ 0 then v else s.rd r) ∧ (∀ p, t.rdP p = s.rdP p) ∧ (∀ b, t.rdB b = s.rdB b)
  ∧ Onward s n t

/-- Only the p register `d` changes; a write to p0 is discarded. -/
def WrotePred (s : State) (d : PReg) (v : Bool) (n : Nat) (t : State) : Prop :=
  (∀ r, t.rd r = s.rd r) ∧ (∀ p, t.rdP p = if p = d ∧ d ≠ 0 then v else s.rdP p) ∧ (∀ b, t.rdB b = s.rdB b)
  ∧ Onward s n t

/-- Only the b register `d` changes. -/
def WroteTarget (s : State) (d : BReg) (v : Word) (n : Nat) (t : State) : Prop :=
  (∀ r, t.rd r = s.rd r) ∧ (∀ p, t.rdP p = s.rdP p) ∧ (∀ b, t.rdB b = if b = d then v else s.rdB b)
  ∧ Onward s n t

/-- No register changes. -/
def Passed (s : State) (n : Nat) (t : State) : Prop :=
  (∀ r, t.rd r = s.rd r) ∧ (∀ p, t.rdP p = s.rdP p) ∧ (∀ b, t.rdB b = s.rdB b) ∧ Onward s n t

/-- A transfer of control to `a`: no register changes, and no byte of memory. -/
def WentTo (s : State) (a : Word) (t : State) : Prop :=
  (∀ r, t.rd r = s.rd r) ∧ (∀ p, t.rdP p = s.rdP p) ∧ (∀ b, t.rdB b = s.rdB b)
  ∧ (∀ x, t.mem.read x = s.mem.read x)
  ∧ t = s.setMe { s.me with pc := a.setWidth 17, pfx := none, waiting := false, wfi := none }

/-! ### Scalar accesses -/

/-- What a scalar read of `n` bytes at `loc` at address `ea`, of a class or of none, leaves of `u`, in which the stores before it
have performed: the order that it puts on later accesses, DLOST of its companion core, its traffic. -/
def State.readDone (u : State) (cls : Option (BitVec 4)) (ea : Word) (loc n : Nat) : State :=
  (u.afterRead cls loc n).traffic u.cx u.coreId ea [(loc, n)]

/-- A load of class `c` of `n` bytes at `ea`, made from the s registers `rs`, into `d`, widened by `f`, in an instruction of
`len` bytes. Where the address is aligned and resolves with read rights, the earlier stores that its class follows perform
(R341); then, where no byte is in an uncorrectable unit, it completes with the bytes that the companion core reads there; else
it raises the cause. A unit that the core has read ahead, and that the load may return, gives its bytes instead (R340), and those
read ahead before it come before the load (log entry 70). -/
def Loads (i : Instr) (s : State) (c : BitVec 4) (d : SReg) (rs : List SReg) (ea : Word) (n len : Nat) (f : Word → Word) :
    Prop :=
  (ea.toNat % n ≠ 0 → Raises i s .align ea s.me.unitPc)
  ∧ (∀ e a, ea.toNat % n = 0 → s.locate ea n false = .error (e, a) → Raises i s e a s.me.unitPc)
  ∧ ∀ loc, ea.toNat % n = 0 → s.locate ea n false = .ok loc →
    let ahead := s.me.early.find? (Early.loadable c (regBits rs) loc n)
    let u := s.beforeRead (some c) loc n
    let value (bs : List Byte) : Word := f (BitVec.ofNat 64 (leNat bs))
    (ahead = none →
      (∀ k, u.badByte loc n = some k → Raises i s .machine (ea + BitVec.ofNat 64 k) s.me.unitPc)
      ∧ (u.badByte loc n = none →
        Gives i s (WroteReg (u.readDone (some c) ea loc n) d (value (u.peekN u.cur loc n)) len)))
    ∧ ∀ e, ahead = some e →
      (∀ k, s.badByte loc n = some k → Raises i s .machine (ea + BitVec.ofNat 64 k) s.me.unitPc)
      ∧ (s.badByte loc n = none →
        Gives i s (WroteReg ((s.loadEarly (some c) e loc n).traffic s.cx s.coreId ea [(loc, n)]) d (value (e.bytes loc n)) len))

/-- A store of the low `n` bytes of `v` at `ea` in class `c`, in an instruction of `len` bytes. It completes with the store
in its companion core's buffer, as the next of its stores, after those earlier ones, and those writes of the store path, which an
access of its class follows (R340): that core reads the stored bytes at once, memory has them when the store performs; no unit
of them that was read ahead is returned to a later load. -/
def Stores (i : Instr) (s : State) (v ea : Word) (c : BitVec 4) (n len : Nat) : Prop :=
  (ea.toNat % n ≠ 0 → Raises i s .align ea s.me.unitPc)
  ∧ (∀ e a, ea.toNat % n = 0 → s.locate ea n true = .error (e, a) → Raises i s e a s.me.unitPc)
  ∧ ∀ loc, ea.toNat % n = 0 → s.locate ea n true = .ok loc →
    let u := s.ahead loc n
    (∀ k, u.badPart loc n = some k → Raises i s .machine (ea + BitVec.ofNat 64 k) s.me.unitPc)
    ∧ (u.badPart loc n = none → Gives i s (fun t =>
      Passed ((u.setMe { u.me with
        sbuf := u.me.sbuf
          ++ [{ cls := c, va := ea, loc := loc, bytes := leBytes n v.toNat, names := clsBit c, id := u.me.stores
                after := (u.me.sbuf.filter (fun b => b.names.getLsbD c.toNat)).map (·.id), prior := u.orderedBefore u.cur c }]
        stores := u.me.stores + 1
        early := u.me.early.filter (fun e => e.cmd.isSome || decide (e.loc + 8 ≤ loc ∨ loc + n ≤ e.loc)) }).access
          u.cur c false) len t
      ∧ ∀ a, t.peek t.cur a = if loc ≤ a ∧ a < loc + n then BitVec.ofNat 8 (v.toNat / 256 ^ (a - loc))
          else u.peek u.cur a))

/-! ### Engine commands -/

/-- The command has issued (R47, stage 6): it stands at the tail of its queue with its captured operands `ops` and views,
prefix, configuration and format word, and the queue's next number; its pops are taken; the stores that its class follows have
performed, and what its popped tokens acquire is acquired; it follows those stores, and the writes that its class follows or that
an operand depends on (R25, R340, R344); it may use the units that its companion core has read ahead and that an access of its
class made then may return; the tags, the port and the s registers are as `u` has them, what port operations
have seen of writes is as `marks` leaves it, and all else is as it was. -/
def Issued (s u : State) (i : Instr) (h : EHdr) (q : QueueId) (ops views : List Word) (w : Option Word) (marks : State → State)
    (t : State) : Prop :=
  let d := (s.release s.cur .core (BufStore.released h.cls)).acquireTokens (tokPops s.cur h.tok)
  let x := d.core.queue q
  ∃ (c : Cmd) (k : Tokens), c.instr = i ∧ c.ops = ops ∧ c.views = views ∧ c.pfx = s.prefixNow ∧ c.vcfg = s.me.vcfg ∧ c.fmt = w
    ∧ c.popped = !(tokPops s.cur h.tok).isEmpty ∧ c.prog = {} ∧ c.num = x.seq
    ∧ c.stores = (s.me.sbuf.filter (BufStore.released h.cls)).map (·.id)
    ∧ c.prior = s.upTo (fun l => l.covered s.coreId s.cur (clsMask h.cls) || (l.hold s.coreId s.cur).regs.meets i.sources)
    ∧ (∀ j, k.get j = s.core.tokens.get j - (tokPops s.cur h.tok).count j)
    ∧ let lent := d.me.lend q x.seq h.cls i
      let v := State.setMe { d with core := { d.core.setQueue q { x with cmds := x.cmds ++ [c], seq := x.seq + 1 } with
        tokens := k, fmtRes := s.core.fmtRes + boolNat w.isSome } } lent
      t = State.setMe { v with core := { v.core with tags := u.core.tags, port := u.core.port }, lag := (marks v).lag }
        { lent with s := u.me.s, pc := s.me.pc + 8, pfx := none, waiting := false, wfi := none }

/-- How the engine command `i` of role `r` issues to queue `q` (R47, with steps 7 to 10 of Table 2-7). Where the role, its
token actions and its prefix fields are in order, and no operand check fails (`bad`), it waits for a token in every queue
that it pops and for a free entry, traps where a queue that it pushes would pass 63 or where it finds no format word that
it pops, and else issues, with captured operands `ops` and views; `u` and `marks` have its other effects. -/
def Issues (s : State) (i : Instr) (h : EHdr) (r : Role) (q : QueueId) (k : Takes) (pops : Bool)
    (bad : Option (Cause × Word)) (ops views : List Word) (u : State) (marks : State → State := id) : Prop :=
  let legal := s.cur = r ∧ tokLegal r h.tok = true ∧ prefixWithin s.prefixNow k = true
  let ready := s.core.tokensReady (tokPops r h.tok) = true ∧ (s.core.queue q).room = true
  let word := s.core.fmtq[s.core.fmtRes]?
  (¬legal → Raises i s .illegal 0 s.me.unitPc)
  ∧ (legal → (∀ c ea, bad = some (c, ea) → Raises i s c ea s.me.unitPc)
    ∧ (bad = none → (¬ready → Waits i s)
      ∧ (ready → s.core.pushesFit (tokPushes r h.tok) = false → Raises i s .tokenOverflow 0 s.me.unitPc)
      ∧ (ready → s.core.pushesFit (tokPushes r h.tok) = true →
        (pops = true → word = none → Raises i s .fmtUnderflow 0 s.me.unitPc)
        ∧ (pops = false → Gives i s (Issued s u i h q ops views none marks))
        ∧ ∀ w, pops = true → word = some w → Gives i s (Issued s u i h q ops views (some w) marks))))

/-! ### Engine commands as they execute -/

/-- The engine of `q` can take `c`, the head of its queue: the core runs its context, no earlier store of its companion core is
buffered, no write of the core is still seen in part, and every unit of memory is sound. -/
def EngineReady (s : State) (q : QueueId) (c : Cmd) (rest : List Cmd) : Prop :=
  s.live = true ∧ s.core.canExecute q = true ∧ (s.core.queue q).cmds = c :: rest ∧ (s.core.comp q.owner).sbuf = []
  ∧ s.core.torn = [] ∧ s.poison = [] ∧ s.lost = []

/-- The byte of memory that the engine of `q` reads for `c`: of a unit that its companion core has read ahead and which `c` may
return, else what memory holds (R344, log entry 70). -/
def EngineByte (s : State) (q : QueueId) (c : Cmd) (a : Nat) : Byte :=
  match (s.core.comp q.owner).early.find? (fun e => e.cmd = some (q, c.num) && e.meets a 1) with
  | some e => (e.val[a - e.loc]?).getD 0
  | none => s.mem.read a

/-- The execution of the head completes: it waits for its retirement, with `P` of the state. -/
def EngineEnds (s : State) (q : QueueId) (c : Cmd) (rest : List Cmd) (P : State → Prop) : Prop :=
  Gives (.engineCommandExecute q) s (fun u => (u.core.queue q).cmds = rest
    ∧ (∃ x, (u.core.queue q).done = (s.core.queue q).done ++ [x] ∧ x.instr = c.instr ∧ x.ops = c.ops) ∧ P u)

/-- The execution of the head goes on, with its progress at `p` and `P` of the state. -/
def EngineGoesOn (s : State) (q : QueueId) (c : Cmd) (rest : List Cmd) (p : Progress) (P : State → Prop) : Prop :=
  Gives (.engineCommandExecute q) s (fun u => (u.core.queue q).cmds = { c with prog := p } :: rest
    ∧ (u.core.queue q).done = (s.core.queue q).done ∧ P u)

/-- The execution of the head faults (R76): no byte of memory or register space changes, the command with its progress in
units and all after it are captured, the queue stops, and the trap is posted to the companion core that issued it. -/
def EngineFaults (s : State) (q : QueueId) (rest : List Cmd) (c : Cause) (ea : Word) (units : Nat) : Prop :=
  Gives (.engineCommandExecute q) s (fun u => u.mem = s.mem ∧ u.core.rs = s.core.rs
    ∧ (u.core.queue q).cmds = [] ∧ (u.core.queue q).stopped = true
    ∧ (∃ x l, (u.core.queue q).captured = (s.core.queue q).captured ++ x :: l ∧ x.cmd.prog.units = units
      ∧ x.faulted = true ∧ x.state = .pending ∧ l.length = rest.length)
    ∧ ((s.core.comp q.owner).run = .running →
      (u.core.comp q.owner).posted = (s.core.comp q.owner).posted ++ [⟨c, ea, .engine q⟩]))

/-- The roles whose profile has an instruction (Table 2-9). -/
def profile (i : Instr) : List Role :=
  match i with
  | .kvFind .. | .kvPos .. | .attKv .. | .vld .. | .vlds .. | .vldx .. | .vldff .. | .tmov .. | .tmovFp .. | .tfill ..
  | .tcmp .. | .pull .. | .pullF .. | .decl .. | .ntake .. | .nwait | .nfree .. | .psched .. => [.loader]
  | .kvMap .. | .kvAlias .. | .kvUnmap .. | .kvRef .. | .kvApp .. | .kvCommit .. | .vst .. | .vsts .. | .vstx .. | .pub ..
  | .pubMc .. | .rret .. | .rrel .. | .rst .. | .rstMc .. | .rld .. | .ramo .. | .bcls .. | .bwait .. | .bstat ..
  | .path .. | .coll .. | .cwait .. | .cstat .. => [.storer]
  | .vbmClr .. | .vbmRd .. => [.loader, .storer]
  | .vadd .. | .vsub .. | .vmul .. | .vfma .. | .vfms .. | .vfnma .. | .vmin .. | .vmax .. | .vabs .. | .vneg .. | .vdiv ..
  | .vsqrt .. | .vrsqrt .. | .vrcp .. | .vexp2 .. | .vlog2 .. | .vcvt .. | .vand .. | .vor .. | .vxor .. | .vnot ..
  | .vshl .. | .vshr .. | .vsra .. | .vcmp .. | .vsel .. | .vredsum .. | .vredmax .. | .vredmin .. | .vscan .. | .vperm ..
  | .vslideup .. | .vslidedn .. | .vbcast .. | .vcomp .. | .viota .. | .vrot .. | .vdot .. | .vseed .. | .vmv .. | .kand ..
  | .kor .. | .kxor .. | .knot .. | .vmvSx .. | .vmvXs .. | .kpop .. | .kffs .. | .fmtPush .. | .mcode .. | .mload ..
  | .mloadVq .. | .mmma .. | .mmmaSp .. | .mcomp .. | .outl .. | .azero .. | .aexp .. | .anorm .. | .mout .. | .moutRet ..
  | .attQ .. | .attQF .. | .attRun .. | .attOut .. | .attMerge .. | .attPlan .. => [.sequencer]
  | _ => [.loader, .sequencer, .storer]

end Sys2Proof.Machine
end

