-- ==== Sys2Proof/Certificates/Slice0/Obligations.lean ====
section
/-! DEFINITION. The statements for the provers. In a statement about an instruction, `s.prefixNow.bare` says that no prefix
field is set: no prefix word stands before the instruction, or a bare one (R28, R30). -/

open Sys2Proof Sys2Proof.Machine

/-! ### Scalar arithmetic (03_companion_cores) -/

/-- R52, whole: division by zero, the one signed overflow, and every other quotient with its remainder. -/
def Obligations.DivisionNeverTraps : Prop :=
  ∀ (s : State) (d a b : SReg), s.prefixNow.bare = true →
    (s.rd b = 0 →
      Gives (.div d a b) s (WroteReg s d (BitVec.allOnes 64) 4) ∧ Gives (.divu d a b) s (WroteReg s d (BitVec.allOnes 64) 4)
      ∧ Gives (.rem d a b) s (WroteReg s d (s.rd a) 4) ∧ Gives (.remu d a b) s (WroteReg s d (s.rd a) 4))
    ∧ (s.rd a = BitVec.intMin 64 → s.rd b = BitVec.allOnes 64 →
      Gives (.div d a b) s (WroteReg s d (BitVec.intMin 64) 4) ∧ Gives (.rem d a b) s (WroteReg s d 0 4))
    ∧ (s.rd b ≠ 0 → ∃ q r : Word,
      Gives (.divu d a b) s (WroteReg s d q 4) ∧ Gives (.remu d a b) s (WroteReg s d r 4)
      ∧ q.toNat * (s.rd b).toNat + r.toNat = (s.rd a).toNat ∧ r.toNat < (s.rd b).toNat)
    ∧ (s.rd b ≠ 0 → ¬(s.rd a = BitVec.intMin 64 ∧ s.rd b = BitVec.allOnes 64) → ∃ q r : Word,
      Gives (.div d a b) s (WroteReg s d q 4) ∧ Gives (.rem d a b) s (WroteReg s d r 4)
      ∧ q.toInt * (s.rd b).toInt + r.toInt = (s.rd a).toInt ∧ r.toInt.natAbs < (s.rd b).toInt.natAbs
      ∧ (r = 0 ∨ (r.toInt < 0 ↔ (s.rd a).toInt < 0)))

/-- Table 2-8: s0 reads as zero and p0 as true in every state; what is written to them is discarded. Table 3-2, minors
0 to 4: the products through the exact 128-bit product. Table 3-2, minors 9 to 18: shifts by `b[5:0]`, the lesser and
the greater by the signed and the unsigned order. R53: the counts of `clz` and `ctz` by the bits that they count,
`popc` as the sum of the bits. R54, R56 and R57: the immediate forms. `lea` takes window codes 0 to 2; code 3 raises
ILLEGAL. R55: the fields of `bfx` and `bfi`, bit by bit; a field that runs past bit 63 raises ILLEGAL. R58 and R59:
compares, the predicate operations, and `sel` as a conditional move. -/
def Obligations.ScalarResults : Prop :=
  (∀ (s : State) (v : Word) (x : Bool) (r : SReg) (p : PReg),
    s.rd 0 = 0 ∧ s.rdP 0 = true
    ∧ (s.wr r v).rd r = (if r = 0 then 0 else v) ∧ (s.wrP p x).rdP p = (if p = 0 then true else x)
    ∧ (∀ q, q ≠ r → (s.wr r v).rd q = s.rd q) ∧ (∀ q, q ≠ p → (s.wrP p x).rdP q = s.rdP q)
    ∧ s.wr 0 v = s ∧ s.wrP 0 x = s)
  ∧ ((∀ (s : State) (d a b : SReg), s.prefixNow.bare = true →
    Gives (.add d a b) s (WroteReg s d (s.rd a + s.rd b) 4)
    ∧ Gives (.sub d a b) s (WroteReg s d (s.rd a - s.rd b) 4)
    ∧ Gives (.mul d a b) s (WroteReg s d (s.rd a * s.rd b) 4)
    ∧ Gives (.mulh d a b) s
      (WroteReg s d (((s.rd a).setWidth 128 * (s.rd b).setWidth 128).extractLsb' 64 64) 4)
    ∧ Gives (.mulhs d a b) s
      (WroteReg s d (((s.rd a).signExtend 128 * (s.rd b).signExtend 128).extractLsb' 64 64) 4))
  ∧ (∀ (s : State) (d a b : SReg), s.prefixNow.bare = true →
    Gives (.and d a b) s (WroteReg s d (s.rd a &&& s.rd b) 4)
    ∧ Gives (.or d a b) s (WroteReg s d (s.rd a ||| s.rd b) 4)
    ∧ Gives (.xor d a b) s (WroteReg s d (s.rd a ^^^ s.rd b) 4)
    ∧ Gives (.shl d a b) s (WroteReg s d (s.rd a <<< (s.rd b).setWidth 6) 4)
    ∧ Gives (.shr d a b) s (WroteReg s d (s.rd a >>> (s.rd b).setWidth 6) 4)
    ∧ Gives (.sra d a b) s (WroteReg s d ((s.rd a).sshiftRight' ((s.rd b).setWidth 6)) 4)
    ∧ Gives (.min d a b) s (WroteReg s d (if (s.rd a).slt (s.rd b) then s.rd a else s.rd b) 4)
    ∧ Gives (.max d a b) s (WroteReg s d (if (s.rd a).slt (s.rd b) then s.rd b else s.rd a) 4)
    ∧ Gives (.minu d a b) s (WroteReg s d (if s.rd a < s.rd b then s.rd a else s.rd b) 4)
    ∧ Gives (.maxu d a b) s (WroteReg s d (if s.rd a < s.rd b then s.rd b else s.rd a) 4))
  ∧ (∀ (s : State) (d a : SReg), s.prefixNow.bare = true →
    (∃ n ≤ 64, Gives (.clz d a) s (WroteReg s d (BitVec.ofNat 64 n) 4)
      ∧ (∀ i < n, (s.rd a).getLsbD (63 - i) = false) ∧ (n < 64 → (s.rd a).getLsbD (63 - n) = true))
    ∧ (∃ n ≤ 64, Gives (.ctz d a) s (WroteReg s d (BitVec.ofNat 64 n) 4)
      ∧ (∀ i < n, (s.rd a).getLsbD i = false) ∧ (n < 64 → (s.rd a).getLsbD n = true))
    ∧ Gives (.popc d a) s
      (WroteReg s d (BitVec.ofNat 64 ((List.range 64).map (fun i => ((s.rd a).getLsbD i).toNat)).sum) 4)
    ∧ Gives (.mov d a) s (WroteReg s d (s.rd a) 4)
    ∧ Gives (.sext d a .w8) s (WroteReg s d (((s.rd a).setWidth 8).signExtend 64) 4)
    ∧ Gives (.sext d a .w16) s (WroteReg s d (((s.rd a).setWidth 16).signExtend 64) 4)
    ∧ Gives (.sext d a .w32) s (WroteReg s d (((s.rd a).setWidth 32).signExtend 64) 4)
    ∧ Gives (.zext d a .w8) s (WroteReg s d (s.rd a &&& 0xFF) 4)
    ∧ Gives (.zext d a .w16) s (WroteReg s d (s.rd a &&& 0xFFFF) 4)
    ∧ Gives (.zext d a .w32) s (WroteReg s d (s.rd a &&& 0xFFFFFFFF) 4)))
  ∧ ((∀ (s : State) (d a : SReg) (n : BitVec 9) (k : BitVec 6) (w : BitVec 18) (o : BitVec 16), s.prefixNow.bare = true →
    Gives (.addi d a n) s (WroteReg s d (s.rd a + n.signExtend 64) 4)
    ∧ Gives (.andi d a n) s (WroteReg s d (s.rd a &&& n.signExtend 64) 4)
    ∧ Gives (.ori d a n) s (WroteReg s d (s.rd a ||| n.signExtend 64) 4)
    ∧ Gives (.xori d a n) s (WroteReg s d (s.rd a ^^^ n.signExtend 64) 4)
    ∧ Gives (.shli d a k) s (WroteReg s d (s.rd a <<< k) 4)
    ∧ Gives (.shri d a k) s (WroteReg s d (s.rd a >>> k) 4)
    ∧ Gives (.srai d a k) s (WroteReg s d ((s.rd a).sshiftRight' k) 4)
    ∧ Gives (.movi d w) s (WroteReg s d (w.signExtend 64) 4)
    ∧ Gives (.movh d w) s (WroteReg s d ((s.rd d).extractLsb' 0 46 ++ w) 4)
    ∧ Gives (.lea d 0 o) s (WroteReg s d (0xFF00000000000000 + (o.setWidth 64 <<< 3)) 4)
    ∧ Gives (.lea d 1 o) s (WroteReg s d (0xFF00000100000000 + (o.setWidth 64 <<< 3)) 4)
    ∧ Gives (.lea d 2 o) s (WroteReg s d (0xFF00000200000000 + (o.setWidth 64 <<< 3)) 4)
    ∧ Raises (.lea d 3 o) s .illegal 0 s.me.unitPc)
  ∧ (∀ (s : State) (d a : SReg) (pos m : BitVec 6), s.prefixNow.bare = true →
    let w := m.toNat + 1
    (pos.toNat + w ≤ 64 →
      (∃ v : Word, Gives (.bfx d a pos m) s (WroteReg s d v 4)
        ∧ ∀ i, v.getLsbD i = (decide (i < w) && (s.rd a).getLsbD (pos.toNat + i)))
      ∧ ∃ v : Word, Gives (.bfi d a pos m) s (WroteReg s d v 4)
        ∧ ∀ i, v.getLsbD i = if pos.toNat ≤ i ∧ i < pos.toNat + w then (s.rd a).getLsbD (i - pos.toNat)
            else (s.rd d).getLsbD i)
    ∧ (64 < pos.toNat + w →
      Raises (.bfx d a pos m) s .illegal 0 s.me.unitPc ∧ Raises (.bfi d a pos m) s .illegal 0 s.me.unitPc)))
  ∧ (∀ (s : State) (d p q : PReg) (r a b : SReg), s.prefixNow.bare = true →
    Gives (.cmpEq d a b) s (WrotePred s d (decide (s.rd a = s.rd b)) 4)
    ∧ Gives (.cmpNe d a b) s (WrotePred s d (decide (s.rd a ≠ s.rd b)) 4)
    ∧ Gives (.cmpLt d a b) s (WrotePred s d ((s.rd a).slt (s.rd b)) 4)
    ∧ Gives (.cmpLe d a b) s (WrotePred s d ((s.rd a).sle (s.rd b)) 4)
    ∧ Gives (.cmpLtu d a b) s (WrotePred s d ((s.rd a).ult (s.rd b)) 4)
    ∧ Gives (.cmpLeu d a b) s (WrotePred s d ((s.rd a).ule (s.rd b)) 4)
    ∧ Gives (.pand d p q) s (WrotePred s d (s.rdP p && s.rdP q) 4)
    ∧ Gives (.por d p q) s (WrotePred s d (s.rdP p || s.rdP q) 4)
    ∧ Gives (.pxor d p q) s (WrotePred s d (s.rdP p ^^ s.rdP q) 4)
    ∧ Gives (.pnot d p) s (WrotePred s d (!s.rdP p) 4)
    ∧ (s.rdP p = true → Gives (.sel r p b) s (WroteReg s r (s.rd b) 4))
    ∧ (s.rdP p = false → Gives (.sel r p b) s (Passed s 4)))

/-! ### Control flow -/

/-- R33, R60, R61 and R63: what passes on to the next word. `ptb` gives an address of the instruction store. R62: a
branch that is not taken falls through and changes nothing; one that is taken to a landing word goes there, and `brl`
leaves the address after itself in b7, read after its target. R62 with R20 and R17: a taken branch to a bad target
traps with EPC at the branch and the target in EADDR. Where a target is both misaligned and past the store's end, ALIGN
comes before PROT: that order is the model's choice (log entry 76). -/
def Obligations.ControlFlow : Prop :=
  (∀ (s : State) (d : BReg) (a : SReg) (w : BitVec 18), s.prefixNow.bare = true →
    Gives .nop s (Passed s 4)
    ∧ Gives (.ptb d w) s
      (WroteTarget s d (((s.me.pc.setWidth 64 + w.signExtend 64 * 4).extractLsb' 0 16).setWidth 64) 4)
    ∧ Gives (.ptbr d a) s (WroteTarget s d (s.rd a) 4)
    ∧ Gives .halt s (Passed (s.setMe { s.me with run := .ended }) 4))
  ∧ (∀ (s : State) (a : BReg) (p : PReg), s.prefixNow.bare = true →
    (s.rdP p = false →
      Gives (.br a p) s (Passed s 4) ∧ Gives (.brl a p) s (Passed s 4) ∧ Gives (.ret p) s (Passed s 4))
    ∧ (s.rdP p = true → Gives (.brN a p) s (Passed s 4))
    ∧ ∀ t : Word, t.toNat % 4 = 0 → t.toNat < 0x10000 → s.me.landing t.toNat = true →
      (s.rdB a = t → s.rdP p = true → Gives (.br a p) s (WentTo s t))
      ∧ (s.rdB a = t → s.rdP p = false → Gives (.brN a p) s (WentTo s t))
      ∧ (s.rdB 7 = t → s.rdP p = true → Gives (.ret p) s (WentTo s t))
      ∧ (s.rdB a = t → s.rdP p = true →
        Gives (.brl a p) s (WentTo (s.wrB 7 ((s.me.pc + 4).setWidth 64)) t)))
  ∧ (∀ (s : State) (a : BReg) (p : PReg), s.prefixNow.bare = true →
    ∀ c : Cause,
      (let t := (s.rdB a).toNat
       (c = .align ∧ t % 4 ≠ 0) ∨ (c = .prot ∧ t % 4 = 0 ∧ 0x10000 ≤ t)
        ∨ (c = .landing ∧ t % 4 = 0 ∧ t < 0x10000 ∧ s.me.landing t = false)) →
      (s.rdP p = true → Raises (.br a p) s c (s.rdB a) s.me.unitPc ∧ Raises (.brl a p) s c (s.rdB a) s.me.unitPc
        ∧ (a = 7 → Raises (.ret p) s c (s.rdB a) s.me.unitPc))
      ∧ (s.rdP p = false → Raises (.brN a p) s c (s.rdB a) s.me.unitPc))

/-- R47 and R50: `tok` waits for its tokens, traps where a push would pass 63, and else pops, acquiring what the
tokens bring, and pushes once every earlier scalar store of its companion core has performed. What a pushed token
carries of them, and of what its companion core has read, acquired or fenced, is R343 and R347. -/
def Obligations.TokenActions : Prop :=
  ∀ (s : State) (act : BitVec 4), s.prefixNow.bare = true →
    (act = 0 ∨ tokLegal s.cur act = false → Raises (.tok act) s .illegal 0 s.me.unitPc)
    ∧ (act ≠ 0 → tokLegal s.cur act = true →
      (s.core.tokensReady (tokPops s.cur act) = false → Waits (.tok act) s)
      ∧ (s.core.tokensReady (tokPops s.cur act) = true →
        (s.core.pushesFit (tokPushes s.cur act) = false → Raises (.tok act) s .tokenOverflow 0 s.me.unitPc)
        ∧ (s.core.pushesFit (tokPushes s.cur act) = true →
          let u := (s.acquireTokens (tokPops s.cur act)).drainAll s.cur
          let v := State.pushOwn { u with core := { u.core with tokens := u.core.tokens.pop (tokPops s.cur act) } }
            (tokPushes s.cur act)
          u.me.sbuf = []
          ∧ (∀ q, v.core.tokens.get q = s.core.tokens.get q - (tokPops s.cur act).count q + (tokPushes s.cur act).count q)
          ∧ (∃ k l, v = { u with core := { u.core with tokens := k }, lag := l })
          ∧ Gives (.tok act) s (Passed v 4))))

/-! ### Scalar memory access (R64 to R67, R348) -/

/-- The loads of both encodings: each sign-extends or zero-extends what it reads; the 32-bit forms are of class 0.
`ld.acq` is a load in its class's order and an acquire at its scope. That a plain load may return a unit read ahead, and
which one, is how the model makes R340's freedom (log entry 70, DESIGN CHOICE). -/
def Obligations.ScalarLoads : Prop :=
  ∀ (s : State) (d a b : SReg) (n : BitVec 9) (m : BitVec 17) (c : BitVec 4) (sc : Scope), s.prefixNow.bare = true →
    let ea := s.rd a + n.signExtend 64
    let ea64 := s.rd a + s.rd b + m.signExtend 64
    let sx (k : Nat) (x : Word) : Word := (x.setWidth k).signExtend 64
    (Loads (.ldB d a n) s 0 d [a] ea 1 4 (sx 8) ∧ Loads (.ldH d a n) s 0 d [a] ea 2 4 (sx 16)
      ∧ Loads (.ldW d a n) s 0 d [a] ea 4 4 (sx 32) ∧ Loads (.ldD d a n) s 0 d [a] ea 8 4 id
      ∧ Loads (.lduB d a n) s 0 d [a] ea 1 4 id ∧ Loads (.lduH d a n) s 0 d [a] ea 2 4 id
      ∧ Loads (.lduW d a n) s 0 d [a] ea 4 4 id)
    ∧ (Loads (.ldBS c d a b m) s c d [a, b] ea64 1 8 (sx 8) ∧ Loads (.ldHS c d a b m) s c d [a, b] ea64 2 8 (sx 16)
      ∧ Loads (.ldWS c d a b m) s c d [a, b] ea64 4 8 (sx 32) ∧ Loads (.ldDS c d a b m) s c d [a, b] ea64 8 8 id
      ∧ Loads (.lduBS c d a b m) s c d [a, b] ea64 1 8 id ∧ Loads (.lduHS c d a b m) s c d [a, b] ea64 2 8 id
      ∧ Loads (.lduWS c d a b m) s c d [a, b] ea64 4 8 id)
    ∧ (ea64.toNat % 8 ≠ 0 → Raises (.ldAcq sc c d a b m) s .align ea64 s.me.unitPc)
    ∧ (∀ e x, ea64.toNat % 8 = 0 → s.locate ea64 8 false = .error (e, x) → Raises (.ldAcq sc c d a b m) s e x s.me.unitPc)
    ∧ ∀ loc, ea64.toNat % 8 = 0 → s.locate ea64 8 false = .ok loc →
      let u := s.beforeRead (some c) loc 8
      let x := u.readDone (some c) ea64 loc 8
      (∀ k, u.badByte loc 8 = some k → Raises (.ldAcq sc c d a b m) s .machine (ea64 + BitVec.ofNat 64 k) s.me.unitPc)
      ∧ (u.badByte loc 8 = none → GivesFired (.ldAcq sc c d a b m) s
        (WroteReg (x.acquireAt sc (if c = 0 then 0xFFFF else 1 <<< c.toNat) loc) d
          (BitVec.ofNat 64 (leNat (u.peekN u.cur loc 8))) 8))

/-- The stores of both encodings; the 32-bit forms are of class 0. -/
def Obligations.ScalarStores : Prop :=
  ∀ (s : State) (v a b : SReg) (n : BitVec 9) (m : BitVec 17) (c : BitVec 4), s.prefixNow.bare = true →
    let ea := s.rd a + n.signExtend 64
    let ea64 := s.rd a + s.rd b + m.signExtend 64
    Stores (.stB v a n) s (s.rd v) ea 0 1 4 ∧ Stores (.stH v a n) s (s.rd v) ea 0 2 4
    ∧ Stores (.stW v a n) s (s.rd v) ea 0 4 4 ∧ Stores (.stD v a n) s (s.rd v) ea 0 8 4
    ∧ Stores (.stBS c v a b m) s (s.rd v) ea64 c 1 8 ∧ Stores (.stHS c v a b m) s (s.rd v) ea64 c 2 8
    ∧ Stores (.stWS c v a b m) s (s.rd v) ea64 c 4 8 ∧ Stores (.stDS c v a b m) s (s.rd v) ea64 c 8 8

/-- R67: a companion core reads its own latest store. A doubleword stored, then loaded from the same address, is the
value stored, where no unit of ECC is broken or lost. R67: where no unit of ECC is broken, the stores of a companion
core's buffer that perform write their bytes, and nothing else of memory changes; what the core itself reads stays as
it was; none of those chosen is left, and once all have performed memory has what the core reads. -/
def Obligations.OwnStores : Prop :=
  (∀ (s : State) (v a d : SReg) (n : BitVec 9) (loc : Nat), s.prefixNow.bare = true → s.mem.Wf → s.poison = [] → s.lost = [] →
    let ea := s.rd a + n.signExtend 64
    ea.toNat % 8 = 0 → s.locate ea 8 true = .ok loc → s.locate ea 8 false = .ok loc →
    ∃ t, exec (.stD v a n) s = .next t ∧ Gives (.ldD d a n) t (fun w => w.rd d = if d = 0 then 0 else s.rd v))
  ∧ (∀ (s : State) (r : Role) (sel : BufStore → Bool), s.mem.Wf → s.poison = [] →
    let l := (s.core.comp r).sbuf
    let t := s.drain r sel
    t.mem.Wf
    ∧ (∀ b ∈ (t.core.comp r).sbuf, b ∈ l ∧ sel b = false)
    ∧ (∀ a, t.peek r a = s.peek r a)
    ∧ (∀ a, (∀ b ∈ l, ¬(b.loc ≤ a ∧ a < b.loc + b.bytes.length)) → t.mem.read a = s.mem.read a)
    ∧ ((s.drainAll r).core.comp r).sbuf = [] ∧ ∀ a, (s.drainAll r).mem.read a = s.peek r a)

/-- Writing bytes to a canonical memory: they read back, every other address reads as before, the form is kept. Two
canonical memories that read alike at every address are equal data. -/
def Obligations.CanonicalMemory : Prop :=
  (∀ (m : Mem) (a : Nat) (bs : List Byte), m.Wf →
    (m.writeN a bs).Wf ∧ ∀ x, (m.writeN a bs).read x = if h : a ≤ x ∧ x < a + bs.length then bs[x - a] else m.read x)
  ∧ (∀ m n : Mem, m.Wf → n.Wf → (∀ a, m.read a = n.read a) → m = n)

/-- R348 with R342 and R338: a release store, before which the companion core's stores within its scope's extent that
its class follows (all for class 0), or of which an earlier load has returned bytes, have performed. R350: an atomic
that returns the old value. The doubleword that its companion core's stores to those bytes leave is replaced by what
the operation makes of it, as one step; dst takes the old value; with no use suffix it is a release and an acquire at
its scope. R349 and Table 20-6: a use that an operation does not take raises ILLEGAL; a speculative load that cannot
be made gives all ones, and one that can be made gives memory's doubleword or that of a unit read ahead; `.com`
performs without a result, `.qnt` within QUANT microseconds. The unit read ahead that a `.spc` load may return, and
what such a load may return at all, are the model's (log entries 70 and 26). -/
def Obligations.ReleasesAndAtomics : Prop :=
  (∀ (s : State) (sc : Scope) (c : BitVec 4) (v a b : SReg) (m : BitVec 17), s.prefixNow.bare = true →
    let ea := s.rd a + s.rd b + m.signExtend 64
    let r := s.release s.cur sc (fun x => c = 0 || x.names.getLsbD c.toNat || decide (x.names ≠ 1 <<< x.cls.toNat))
    (ea.toNat % 8 ≠ 0 → Raises (.stRel sc c v a b m) s .align ea s.me.unitPc)
    ∧ (∀ e x, ea.toNat % 8 = 0 → r.locate ea 8 true = .error (e, x) → Raises (.stRel sc c v a b m) s e x s.me.unitPc)
    ∧ (∀ x ∈ r.me.sbuf, c = 0 ∨ x.names.getLsbD c.toNat = true → scopeHolds sc s.coreId x.loc = false)
    ∧ ∀ loc, ea.toNat % 8 = 0 → r.locate ea 8 true = .ok loc →
      let u := r.ahead loc 8
      (∀ k, u.badPart loc 8 = some k → Raises (.stRel sc c v a b m) s .machine (ea + BitVec.ofNat 64 k) s.me.unitPc)
      ∧ (u.badPart loc 8 = none → GivesFired (.stRel sc c v a b m) s (Passed (((u.setMe { u.me with
        sbuf := u.me.sbuf ++ [{
          cls := c, va := ea, loc := loc, bytes := leBytes 8 (s.rd v).toNat, names := 1 <<< c.toNat, id := u.me.stores
          rel := some sc, after := (u.me.sbuf.filter (fun b => b.names.getLsbD c.toNat)).map (·.id)
          prior := u.orderedBefore u.cur c }]
        stores := u.me.stores + 1
        early := u.me.early.filter (fun e => e.cmd.isSome || decide (e.loc + 8 ≤ loc ∨ loc + 8 ≤ e.loc)) }).access
          u.cur c false).relMeet sc c r.me.stores) 8)))
  ∧ ((∀ (s : State) (u : AmoUse) (sc : Scope) (c : BitVec 4) (d a b : SReg) (m : BitVec 17) (loc : Nat),
    s.prefixNow.bare = true → u = .plain ∨ u = .unp ∨ u = .nor →
    let ea := s.rd a + m.signExtend 64
    ea.toNat % 8 = 0 → s.locate ea 8 false = .ok loc → (s.ahead loc 8).badByte loc 8 = none →
    let before (op : BitVec 3) : State := (s.ahead loc 8).beforeAtomic u op sc c loc
    let old : Word := BitVec.ofNat 64 ((before 0).mem.num loc 8)
    let reads (op : BitVec 3) : State := (before op).afterRead (if u = .nor then none else some c) loc 8
    let does (i : Instr) (y : State) (k : Nat) : Prop := GivesFired i s (WroteReg
      ((if u = .plain then y.acquireAt sc (if c = 0 then 0xFFFF else 1 <<< c.toNat) loc else y).traffic y.cx y.coreId ea
        [(loc, k)]) d old 8)
    let after := if u = .nor then (reads 0).upTo (fun l => (l.hold s.coreId s.cur).next.getLsbD c.toNat)
      else (reads 0).orderedBefore s.cur c
    let puts (i : Instr) (v : Word) : Prop := does i ((reads 0).pathStep
      { holds := [{ core := s.coreId, role := s.cur, names := 1 <<< c.toNat }], after := after } loc (leBytes 8 v.toNat)) 16
    (∀ op, (before op).mem = (before 0).mem)
    ∧ does (.amoLd u sc c d a m) (reads 7) 8
    ∧ (s.locate ea 8 true = .ok loc →
      puts (.amoSwap u sc c d a b m) (s.rd b)
      ∧ (isHost loc = false →
        puts (.amoOr u sc c d a b m) (old ||| s.rd b) ∧ puts (.amoXor u sc c d a b m) (old ^^^ s.rd b)
        ∧ puts (.amoMin u sc c d a b m) (if old.slt (s.rd b) then old else s.rd b)
        ∧ puts (.amoMax u sc c d a b m) (if old.slt (s.rd b) then s.rd b else old))
      ∧ puts (.amoAdd u sc c d a b m) (old + s.rd b)
      ∧ puts (.amoCas u sc c d a b m) (if old = s.rd d then s.rd b else old)))
  ∧ (∀ (s : State) (sc : Scope) (c : BitVec 4) (d a b : SReg) (m : BitVec 17), s.prefixNow.bare = true →
    Raises (.amoAdd .spc sc c d a b m) s .illegal 0 s.me.unitPc
    ∧ Raises (.amoSwap .com sc c d a b m) s .illegal 0 s.me.unitPc
    ∧ Raises (.amoCas .qnt sc c d a b m) s .illegal 0 s.me.unitPc
    ∧ (d ≠ 0 → Raises (.amoMin .com sc c d a b m) s .illegal 0 s.me.unitPc
      ∧ Raises (.amoOr .qnt sc c d a b m) s .illegal 0 s.me.unitPc)
    ∧ (let ea := s.rd a + m.signExtend 64
       (∀ e x, ea.toNat % 8 = 0 → e = Cause.xlate ∨ e = Cause.prot → s.locate ea 8 false = .error (e, x) →
        GivesFired (.amoLd .spc sc c d a m) s (WroteReg s d (BitVec.allOnes 64) 8))
       ∧ ∀ loc, ea.toNat % 8 = 0 → s.locate ea 8 false = .ok loc → (s.ahead loc 8).badByte loc 8 = none →
        let own := ((s.ahead loc 8).drain s.cur (fun x => decide (x.loc < loc + 8 ∧ loc < x.loc + x.bytes.length)))
        let spc (x : State) (v : Word) : Prop :=
          GivesFired (.amoLd .spc sc c d a m) s (WroteReg (x.traffic x.cx x.coreId ea [(loc, 8)]) d v 8)
        let ahead := own.me.early.find? (fun e => e.cmd.isNone && decide (e.loc = loc) && !e.fenced.getLsbD c.toNat)
        (ahead = none → spc (own.afterRead none loc 8) (BitVec.ofNat 64 (own.mem.num loc 8)))
        ∧ (∀ e, ahead = some e → spc (own.loadEarly none e loc 8) (BitVec.ofNat 64 (leNat e.val)))
        ∧ (s.locate ea 8 true = .ok loc →
          let x := (own.dropEarly s.cur [(loc, 8)]).noteLost s.cur loc 8
          GivesFired (.amoAdd .com sc c 0 a b m) s (Passed
            ((x.pathStep { holds := [{ core := s.coreId, role := s.cur, names := 1 <<< c.toNat }]
                           after := x.upTo (fun l => (l.hold s.coreId s.cur).next.getLsbD c.toNat) } loc
              (leBytes 8 (BitVec.ofNat 64 (own.mem.num loc 8) + s.rd b).toNat)).traffic x.cx x.coreId ea [(loc, 16)]) 8)
          ∧ (s.core.quant ≠ 0 → GivesFired (.amoAdd .qnt sc c 0 a b m) s (Passed
            { own with core := { own.core with deferred := own.core.deferred
              ++ [⟨c, 0, ea, loc, s.rd b, s.cycle + BitVec.ofNat 64 (s.core.quant.toNat * 1000), s.cur⟩] } } 8))))))

/-! ### Counters, tags, the barrier and fences -/

/-- R111, R112 and R114: `cnt.add` releases at its scope (by default the narrowest of Table 6-4 that holds the
counter): its companion core's stores within the scope have performed, and what the release covers waits at the counter
for an acquire. Then it is one saturating step at the counter. A misaligned counter raises ALIGN, in all three
instructions. `v` is a register or the 6-bit field. R114: `cnt.wait` passes once the counter is at or above `v`, unsigned, and waits before; `cnt.rd` reads
it; each acquires at its scope. R112: the default scope of a counter operation of core `n`, over the windows of Table
4-3 and the physical addresses. -/
def Obligations.CounterOperations : Prop :=
  ((∀ (s : State) (a b : SReg) (n : BitVec 6) (sc : Option Scope) (loc : Nat), s.prefixNow.bare = true →
    let va := s.rd a
    let scope := sc.getD (counterScope s.coreId loc)
    (va.toNat % 8 ≠ 0 → Raises (.cntAdd a (.reg b) sc) s .align va s.me.unitPc
      ∧ Raises (.cntAdd a (.imm n) sc) s .align va s.me.unitPc)
    ∧ (va.toNat % 8 = 0 → s.locate va 8 false = .ok loc → s.locate va 8 true = .ok loc →
      (s.ahead loc 8).badByte loc 8 = none →
      let own := (s.ahead loc 8).drain s.cur (fun x => decide (x.loc < loc + 8 ∧ loc < x.loc + x.bytes.length))
      let r := own.releaseAt s.cur scope 0 (.word loc scope s.coreId true)
      let x := (r.dropEarly s.cur [(loc, 8)]).noteLost s.cur loc 8
      let up (v : Nat) : State :=
        (x.pathStep { holds := [{ core := s.coreId, role := s.cur, names := 1, cum := true }], after := r.orderedBefore s.cur 0 }
          loc (leBytes 8 (min (r.mem.num loc 8 + v) 0xFFFFFFFFFFFFFFFF))).traffic x.cx x.coreId va [(loc, 16)]
      (∀ e ∈ r.me.sbuf, scopeHolds scope s.coreId e.loc = false)
      ∧ GivesFired (.cntAdd a (.reg b) sc) s (Passed (up (s.rd b).toNat) 4)
      ∧ GivesFired (.cntAdd a (.imm n) sc) s (Passed (up n.toNat) 4)))
  ∧ (∀ (s : State) (d a b : SReg) (n : BitVec 6) (sc : Option Scope) (loc : Nat), s.prefixNow.bare = true →
    let va := s.rd a
    (va.toNat % 8 ≠ 0 → Raises (.cntRd d a sc) s .align va s.me.unitPc ∧ Raises (.cntWait a (.reg b) sc) s .align va s.me.unitPc
      ∧ Raises (.cntWait a (.imm n) sc) s .align va s.me.unitPc)
    ∧ (va.toNat % 8 = 0 → s.locate va 8 false = .ok loc →
      let u := s.beforeRead none loc 8
      u.badByte loc 8 = none →
      let x := (u.readDone none va loc 8).acquireAt (sc.getD (counterScope s.coreId loc)) 0xFFFF loc
      let ctr := leNat (u.peekN u.cur loc 8)
      Gives (.cntRd d a sc) s (WroteReg x d (BitVec.ofNat 64 ctr) 4)
      ∧ ((s.rd b).toNat ≤ ctr → Gives (.cntWait a (.reg b) sc) s (Passed x 4))
      ∧ (ctr < (s.rd b).toNat → Waits (.cntWait a (.reg b) sc) s)
      ∧ (n.toNat ≤ ctr → Gives (.cntWait a (.imm n) sc) s (Passed x 4))
      ∧ (ctr < n.toNat → Waits (.cntWait a (.imm n) sc) s))))
  ∧ (∀ n m o : Nat, n < 768 → m < 768 →
    (o < 0x200000 → counterScope n (locLocal m o) = if m = n then .core else if m / 8 = n / 8 then .cluster
      else if m / 96 = n / 96 then .die else .package)
    ∧ (o < 0x1000000 → counterScope n (locCluster (m / 8) o) = if m / 8 = n / 8 then .cluster
      else if m / 96 = n / 96 then .die else .package)
    ∧ (o < 0x4000000 → counterScope n (locDie (m / 96) o) = if m / 96 = n / 96 then .die else .package)
    ∧ (o < 16 * 0xC00000000 → counterScope n o = .package)
    ∧ (0x10000000000 ≤ o → o < 0x20000000000 → counterScope n o = .host))

/-- R116: `cnt.arm` on a readable record `r`: an invalid record gives status 3; at a readable counter, status 2
without a free slot, status 1 and the firing where the threshold is already reached, else status 0 with the slot that
it takes. That of several free slots it takes the lowest is the model's choice (log entry 97). -/
def Obligations.CounterArms : Prop :=
  ∀ (s u x : State) (d a : SReg) (bs now : List Byte) (loc : Nat), s.prefixNow.bare = true →
    let va := s.rd a
    (va.toNat % 32 ≠ 0 → Raises (.cntArm d a) s .align va s.me.unitPc)
    ∧ (va.toNat % 32 = 0 → s.load (some 0) va 32 = .ok (u, bs) →
      let r : BitVec 256 := BitVec.ofNat 256 (leNat bs)
      let ctr : Word := r.extractLsb' 0 64
      let thr : Word := r.extractLsb' 64 64
      let opnd : Word := r.extractLsb' 128 64
      let kind : BitVec 8 := r.extractLsb' 192 8
      let valid := (kind = 1 ∨ kind = 2 ∨ kind = 3) ∧ (r.extractLsb' 200 8).toNat ≤ 63 ∧ r.extractLsb' 208 16 = 0
        ∧ ctr.toNat % 8 = 0 ∧ ¬(kind = 2 ∧ opnd ≠ 0)
      let does (y : State) (v : Word) : Prop := GivesFired (.cntArm d a) s (WroteReg y d v 4)
      (¬valid → does u 3)
      ∧ (valid → u.locate ctr 8 false = .ok loc → u.load none ctr 8 = .ok (x, now) →
        ((∀ i < 16, (u.core.arm i).isSome = true) → does u 2)
        ∧ ∀ i < 16, u.core.arm i = none → (∀ j < i, (u.core.arm j).isSome = true) →
          let arm : Arm := { ctr := loc, cva := ctr, record := va, thr := thr, kind := kind, tag := r.extractLsb' 200 6,
                             opnd := opnd, seq := x.armSeq, job := x.jobHere, role := x.cur }
          (thr.toNat ≤ leNat now → does (x.fireArm arm i) 1)
          ∧ (leNat now < thr.toNat →
            does { x with core := x.core.setArm i (some arm), armSeq := x.armSeq + 1 } (BitVec.ofNat 64 (i * 2 ^ 32)))))

/-- Table 6-3 with R110: the tag waits return the bits that they name, or wait; a wait on no bit returns at once;
`tag.ffr` gives the lowest set bit named, or 64, and clears that bit alone; `tag.clr` clears the named bits alone. Each
acquires what the commands whose retirements set the bits that it has observed have written, and no more: where it
observes none, nothing (`acquireTags`; that these writes are acquired wherever they lie is log entry 71). R120: `bar`
with a mask that it does not take gives all ones and changes nothing else; else it returns the generation G, after its
companion core's stores within CLUSTER scope, and the last arrival of the mask clears the arrivals and raises G.
`bar.wait` passes once G is above its operand, with an acquire at CLUSTER scope of what the arrivals up to that phase
released, and waits before. -/
def Obligations.TagsAndBarrier : Prop :=
  (∀ (s : State) (d a : SReg), s.prefixNow.bare = true →
    let got := s.core.tags &&& s.rd a
    let u := s.acquireTags got
    (got = 0 → u = s)
    ∧ (s.rd a = 0 ∨ got ≠ 0 → Gives (.tagWaitAny d a) s (WroteReg u d got 4))
    ∧ (s.rd a ≠ 0 → got = 0 → Waits (.tagWaitAny d a) s)
    ∧ (got = s.rd a → Gives (.tagWaitAll d a) s (WroteReg u d got 4))
    ∧ (got ≠ s.rd a → Waits (.tagWaitAll d a) s)
    ∧ (got = 0 → Gives (.tagFfr d a) s (WroteReg s d 64 4))
    ∧ (∀ i < 64, got.getLsbD i = true → (∀ j < i, got.getLsbD j = false) →
        let v := (s.acquireTags (1 <<< i)).clearTags (1 <<< i)
        (∀ j, v.core.tags.getLsbD j = (s.core.tags.getLsbD j && decide (j ≠ i)))
        ∧ Gives (.tagFfr d a) s (WroteReg v d (BitVec.ofNat 64 i) 4))
    ∧ (∀ j, (s.clearTags (s.rd a)).core.tags.getLsbD j = (s.core.tags.getLsbD j && !(s.rd a).getLsbD j))
    ∧ Gives (.tagClr a) s (Passed (s.clearTags (s.rd a)) 4)
    ∧ ∀ m, ∃ tags l, s.clearTags m = { s with core := { s.core with tags := tags }, lag := l })
  ∧ (∀ (s : State) (d a : SReg), s.prefixNow.bare = true →
    let b := s.barHere
    let i := s.coreId % 8
    let m := (s.rd a).setWidth 8
    let takes := (s.rd a).toNat < 256 ∧ s.rd a ≠ 0
      ∧ (∀ k < 8, m.getLsbD k = true → s.coreGranted (s.core.ctx.getD 0) (clusterOf s.coreId * 8 + k) = true)
      ∧ m.getLsbD i = true ∧ b.arrived.getLsbD i = false ∧ (b.arrived = 0 ∨ b.mask = m)
    let mask := if b.arrived = 0 then m else b.mask
    let here := b.arrived ||| (1 <<< i)
    let after : Bar := if here = mask then ⟨b.g + 1, mask, 0⟩ else ⟨b.g, mask, here⟩
    let u := s.releaseAt s.cur .cluster 0 (.bar (clusterOf s.coreId) b.g.toNat s.coreId)
    (∀ x ∈ u.me.sbuf, scopeHolds .cluster s.coreId x.loc = false)
    ∧ (¬takes → Gives (.bar d a) s (WroteReg s d (BitVec.allOnes 64) 4))
    ∧ (takes → Gives (.bar d a) s (WroteReg (u.setBar after) d b.g 4))
    ∧ ((s.rd a).toNat < b.g.toNat → Gives (.barWait a) s (Passed (s.acquireBar (s.rd a).toNat) 4))
    ∧ (b.g.toNat ≤ (s.rd a).toNat → Waits (.barWait a) s))

/-- R346 and R347: a fence over no class raises ILLEGAL; on the storer it waits while a combining-buffer entry of its
classes cannot be sent; else it completes: the stores that its classes follow within its scope's extent, and the
deferred atomics of its companion core in them, have performed, and its entries have been sent. `fence.x` also orders
what its companion core holds in these classes (has written or read in them, or acquired), and what is ordered before that,
before its port operations at its scope. R342, R345 and R347: a new write of the store path hides from port operations the
bytes that lay there; a port operation reads them until one of its core's fences `sc`, made before it issued, shows it the
write, for core `k` of a node where the extent of `sc` around the fence's core holds both the reader and the location; R146:
it then reads every byte of the write's aligned 8 B unit as the write left the unit. The wait of the storer is the model's
choice (log entry 34), and so is the form in which it keeps what a write may hide and what may be read ahead (log entries 71
and 70). -/
def Obligations.FencesAndPortPath : Prop :=
  (∀ (s : State) (m : BitVec 16) (sc : Scope), s.prefixNow.bare = true →
    let free := s.cur ≠ .storer ∨ s.combinedReady (fun e => m.getLsbD e.cls.toNat) = true
    let t := s.fenced m sc
    (Raises (.fence 0 sc) s .illegal 0 s.me.unitPc ∧ Raises (.fenceX 0 sc) s .illegal 0 s.me.unitPc)
    ∧ (m ≠ 0 → free → (GivesFired (.fence m sc) s (Passed t 4))
      ∧ GivesFired (.fenceX m sc) s (Passed (t.orderPort s.cur m sc) 4))
    ∧ (m ≠ 0 → ¬free → Waits (.fence m sc) s ∧ Waits (.fenceX m sc) s)
    ∧ (∀ b ∈ t.me.sbuf, b.names &&& m = 0 ∨ scopeHolds sc s.coreId b.loc = false)
    ∧ (∀ x ∈ t.core.deferred, x.role ≠ s.cur ∨ m.getLsbD x.cls.toNat = false)
    ∧ ∀ e ∈ t.me.early, ∀ c : BitVec 4, m.getLsbD c.toNat = true →
      e.fenced.getLsbD c.toNat = true ∧ (scopeHolds sc s.coreId e.loc = true → e.past.getLsbD c.toNat = true))
  ∧ (∀ (s : State) (ls : List Lag) (l : Lag) (keys : List PortKey) (k m a : Nat), s.lag = ls ++ [l] →
    let shown := ∃ key sc, (key, sc) ∈ l.ports ∧ key ∈ keys ∧ s.reaches sc key.core k m = true ∧ scopeHolds sc key.core l.loc = true
    (shown → a / 8 = l.loc / 8 → s.portByte keys k m a = s.mem.read a)
    ∧ (¬shown → ls = [] → l.loc ≤ a → a < l.loc + l.old.length → some (s.portByte keys k m a) = l.old[a - l.loc]?))
  ∧ (∀ (s : State) (r : Role) (mask : BitVec 16) (sc : Scope),
    let inB (l : Lag) : Prop := (l.hold s.coreId r).names &&& mask ≠ 0 ∨ (l.hold s.coreId r).acq = true
    let ordered (l : Lag) : Lag := { l with upto := ⟨s.coreId, r, sc, true⟩ :: l.upto }
    ∀ l ∈ s.lag,
      ((inB l ∨ ∃ x ∈ s.lag, inB x ∧ l.num ∈ x.after) → ordered l ∈ (s.orderPort r mask sc).lag)
      ∧ ((∀ x ∈ s.lag, inB x → l.num ≠ x.num ∧ l.num ∉ x.after) → l ∈ (s.orderPort r mask sc).lag))
  ∧ (∀ (s : State) (l : Lag) (r : Role) (sc : Scope) (key : PortKey), s.lag = [l] →
    let ordered := { l with upto := ⟨s.coreId, r, sc, true⟩ :: l.upto }
    (l.upto = [] → l.ports = [] → (s.notePort r key).lag = [l])
    ∧ (l.upto = [] → l.ports = [] → ({ s with lag := [ordered] }.notePort r key).lag = [{ ordered with ports := [(key, sc)] }]))
  ∧ (∀ (s : State) (w : Writer) (loc : Nat) (bs : List Byte) (keys : List PortKey) (k m a : Nat), s.mem.Wf →
    (s.pathStep w loc bs).portByte keys k m a = s.portByte keys k m a)

/-! ### Vector configuration, views and the companion instructions over register space (R154, R156, R160, R171) -/

/-- R156: the new vl is the lesser of the request and VLMAX and goes to dst; `setvl` and `setvli` keep the policies.
R159 and R160: `wset` writes a descriptor that R159 does not refuse to its view alone, and `wget` reads a view; both
after their companion core's stores. A refused descriptor traps and leaves the views as they are. R159: which descriptors are refused, with their cause by the first of the three groups that fails: in group 1 the
required-zero fields, the vector type codes, the base; in group 2 the tile format codes 28 to 31; in group 3 the pitch,
the end of the window and the row unit of Table 10-3, over the row bytes of R158 and R180. -/
def Obligations.ConfigurationAndViews : Prop :=
  (∀ (s : State) (d a b : SReg) (n : BitVec 6) (w : EWidth) (g : BitVec 2), s.prefixNow.bare = true →
    let limit := min 3072 (2 ^ g.toNat * 1536 / w.bytes)
    let new (vl : Nat) : VCfg := { s.me.vcfg with vl := BitVec.ofNat 12 vl, ew := w, grp := g }
    let does (i : Instr) (v : VCfg) : Prop :=
      Gives i s (WroteReg (s.setMe { s.me with vcfg := v }) d (v.vl.setWidth 64) 4)
    does (.setvl d a w g) (new (min (s.rd a).toNat limit))
    ∧ (n ≠ 0 → does (.setvli d n w g) (new (min n.toNat limit)))
    ∧ does (.setvli d 0 w g) (new limit)
    ∧ (s.rd a = BitVec.ofNat 64 (w.code + g.toNat * 4 + 16) →
      does (.vcfg d a b) { new (min (s.rd b).toNat limit) with tail := true, mask := false })
    ∧ (s.rd a = BitVec.ofNat 64 (w.code + g.toNat * 4 + 32) →
      does (.vcfg d a b) { new (min (s.rd b).toNat limit) with tail := false, mask := true })
    ∧ (s.rd a = BitVec.ofNat 64 (w.code + g.toNat * 4 + 48) →
      does (.vcfg d a b) { new (min (s.rd b).toNat limit) with tail := true, mask := true })
    ∧ (s.rd a = BitVec.ofNat 64 (w.code + g.toNat * 4) →
      does (.vcfg d a b) { new (min (s.rd b).toNat limit) with tail := false, mask := false })
    ∧ (64 ≤ (s.rd a).toNat ∨ (s.rd a).toNat % 4 = 3 → Raises (.vcfg d a b) s .illegal 0 s.me.unitPc))
  ∧ ((∀ (s : State) (w : WReg) (a d : SReg), s.prefixNow.bare = true →
    let u := s.drainAll s.cur
    (viewFault (s.rd a) = none → ∃ v : Vector Word 8,
      (∀ x : WReg, v[x.toNat] = if x = w then s.rd a else s.core.views[x.toNat])
      ∧ Gives (.wset w a) s (Passed { u with core := { u.core with views := v } } 4))
    ∧ (∀ c, viewFault (s.rd a) = some c → RaisesFrom (.wset w a) s u c 0 s.me.unitPc)
    ∧ Gives (.wget d w) s (WroteReg u d s.core.views[w.toNat] 4))
  ∧ (∀ w : Word,
    let kind := (w.extractLsb' 62 2).toNat
    let type := (w.extractLsb' 57 5).toNat
    let rows := (w.extractLsb' 48 9).toNat + 1
    let cols := (w.extractLsb' 36 12).toNat + 1
    let pitch := (w.extractLsb' 20 16).toNat
    let base := (w.extractLsb' 0 20).toNat
    let up (n : Nat) : Nat := (n + 7) / 8 * 8
    let unit : Nat := if type ∈ [4, 5, 24, 25, 26] then 4 else if type ∈ [6, 15, 16] then 2
      else if type ∈ [7, 8, 9, 10, 11, 12, 20, 27] then 32 else if type = 17 then 16 else if type ∈ [18, 19, 21, 22] then 64 else 1
    let elements : Nat := if type ≤ 1 then up (2 * cols) else if type ∈ [2, 3, 7, 8, 12, 13, 14, 18, 26] then up cols
      else if type ∈ [4, 5, 9, 10] then up (3 * cols / 4) else if type ∈ [6, 11, 15, 16, 17, 19, 24, 27] then up (cols / 2)
      else if type ∈ [20, 21, 22, 25] then up (cols / 4) else 8 * cols
    let metadata : Nat := if 24 ≤ type then up ((cols + 7) / 8) else 0
    let scales : Nat := if type ∈ [7, 8, 9, 10, 11, 12, 18, 19, 20, 21, 22, 27] then up (cols / 32)
      else if type = 17 then up (cols / 16) else 0
    let width : Nat := if type ∈ [0, 3, 9, 10] then 1 else if type ∈ [1, 4, 6, 7] then 2 else 4
    let row : Nat := if kind = 1 then elements + metadata + scales else if kind = 2 then 8 * cols + 8
      else if kind = 3 then cols * width else 0
    let first := (kind = 0 ∧ w ≠ 0) ∨ (kind = 2 ∧ type ≠ 0) ∨ (kind = 3 ∧ 11 ≤ type) ∨ base % 8 ≠ 0
    let second := kind = 1 ∧ 28 ≤ type
    let third := (1 < rows ∧ pitch * 8 < row) ∨ 786432 < base + (rows - 1) * pitch * 8 + row ∨ (kind = 1 ∧ cols % unit ≠ 0)
    (first → viewFault w = some .illegal) ∧ (¬first → second → viewFault w = some .fmt)
    ∧ (¬first → ¬second → third → viewFault w = some .illegal) ∧ (¬first → ¬second → ¬third → viewFault w = none)
    ∧ viewFault 0 = none))

/-- R171: the instructions of major 0x17 wait until the engine commands that their companion core has issued have
retired; then each acts in one step, and a read acquires what those commands have written. -/
def Obligations.RegisterSpaceInstructions : Prop :=
  ∀ (s : State) (d a : SReg) (v : VReg) (k : KReg) (n : VbmReg), s.prefixNow.bare = true →
    let vl := s.me.vcfg.vl.toNat
    let w := s.me.vcfg.ew.bytes
    let at_ := v.toNat * 1536
    let u := s.acquireOwn
    (s.cur = .sequencer → s.core.quiet .sequencer = true →
      (vl = 0 → Gives (.vmvSx v a) s (Passed s 4))
      ∧ (0 < vl → s.poison = [] →
        Gives (.vmvSx v a) s
          (Passed { s with core := { s.core with rs := s.core.rs.writeN at_ (leBytes w (s.rd a).toNat) } } 4))
      ∧ (s.poison = [] →
        Gives (.vmvXs d v) s (WroteReg u d (BitVec.ofInt 64 (sextInt (8 * w) (s.core.rs.num at_ w))) 4))
      ∧ Gives (.kpop d k) s
        (WroteReg u d (BitVec.ofNat 64 ((List.range vl).map (fun i => (s.core.k[k.toNat].getLsbD i).toNat)).sum) 4)
      ∧ (∀ i < vl, s.core.k[k.toNat].getLsbD i = true → (∀ j < i, s.core.k[k.toNat].getLsbD j = false) →
        Gives (.kffs d k) s (WroteReg u d (BitVec.ofNat 64 i) 4))
      ∧ ((∀ i < vl, s.core.k[k.toNat].getLsbD i = false) →
        Gives (.kffs d k) s (WroteReg u d (BitVec.allOnes 64) 4)))
    ∧ (s.cur ≠ .sequencer → s.core.quiet s.cur = true →
      Gives (.vbmClr n) s (Passed (s.setVbm n 0) 4)
      ∧ ∃ first ≤ vl, (first < vl → s.core.vbm[n.toNat].getLsbD first = false)
        ∧ (∀ j < first, s.core.vbm[n.toNat].getLsbD j = true)
        ∧ Gives (.vbmRd d n) s (WroteReg u d (BitVec.ofNat 64
          (((List.range vl).map (fun i => (s.core.vbm[n.toNat].getLsbD i).toNat)).sum * 2 ^ 32 + first)) 4))
    ∧ (s.cur = .sequencer → s.core.quiet .sequencer = false →
      Waits (.vmvSx v a) s ∧ Waits (.vmvXs d v) s ∧ Waits (.kpop d k) s ∧ Waits (.kffs d k) s)
    ∧ (s.cur ≠ .sequencer → s.core.quiet s.cur = false → Waits (.vbmClr n) s ∧ Waits (.vbmRd d n) s)

/-! ### KV pages (R89 to R98)

Each acts whole, after the earlier stores of its companion core (R98): on the state `u` in which they have performed. -/

/-- R87 and R89: a lookup looks at the eight slots from the key's hash on and then along its chain of the pool. What
it finds is an entry of them that maps the key (valid, not detached, no reserved bit, not both home and alias, with
the sequence, the layer-head and the block); the first such entry is found; where all of them can be read and none
maps the key, nothing is. -/
def Obligations.LookupFindsTheKey : Prop :=
  ∀ (s : State) (t : KvTab) (seq lb : BitVec 32) (lh : BitVec 16),
    let entry (j : Nat) (e : BitVec 256) : Prop := ∃ u, s.kvEntry t j = .ok (u, e)
    let word (a : Word) (n : Nat) : Prop := ∃ u, s.kvGet a 4 = .ok (u, n)
    let maps (e : BitVec 256) : Prop := e.getLsbD 80 = true ∧ e.getLsbD 86 = false ∧ e.extractLsb' 120 8 = 0
      ∧ e.extractLsb' 87 9 = 0 ∧ ¬(e.getLsbD 81 = true ∧ e.getLsbD 82 = true)
      ∧ e.extractLsb' 0 32 = seq ∧ e.extractLsb' 32 32 = lb ∧ e.extractLsb' 64 16 = lh
    let fold (x : Word) : Word := x ^^^ (x >>> 33)
    let x : Word := (seq ++ lb) ^^^ (lh.setWidth 64 * 0x9E3779B97F4A7C15)
    let hash := (fold (fold (fold x * 0xFF51AFD7ED558CCD) * 0xC4CEB9FE1A85EC53)).toNat % 2 ^ t.h
    let slot (i : Nat) : Nat := (hash + i) % 2 ^ t.h
    let finds (o : Option Nat) : Prop := ∃ u, s.kvLookup t seq.toNat lh.toNat lb.toNat = .ok (u, o)
    (∀ j, finds (some j) → (∃ e, entry j e ∧ maps e) ∧ ((∃ i < 8, j = slot i) ∨ t.inPool j = true))
    ∧ (∀ i < 8, (∃ e, entry (slot i) e ∧ maps e) → (∀ k < i, ∃ e, entry (slot k) e ∧ ¬maps e) → finds (some (slot i)))
    ∧ ∀ chain : List Nat, chain.length ≤ 64 → (∀ k < 8, ∃ e, entry (slot k) e ∧ ¬maps e) →
      word (t.heads + BitVec.ofNat 64 (4 * hash)) (chain.headD 0xFFFFFFFF) →
      (∀ (k j : Nat), chain[k]? = some j → t.inPool j = true ∧ j ≠ 0xFFFFFFFF ∧ (∃ e, entry j e)
        ∧ word (t.links + BitVec.ofNat 64 (4 * (j - 2 ^ t.h))) (chain.getD (k + 1) 0xFFFFFFFF)) →
      (∀ (k j : Nat), chain[k]? = some j → (∃ e, entry j e ∧ maps e) → (∀ m < k, ∀ i : Nat, chain[m]? = some i → ∃ e, entry i e ∧ ¬maps e) →
        finds (some j))
      ∧ ((∀ j ∈ chain, ∃ e, entry j e ∧ ¬maps e) → finds none)

/-- R84 and R94 to R96: `kv.find` by its lookup, `kv.pos` by the entry, `kv.len` by the sequence record. Each table
read may note a lost unit and counts as traffic. R100: `kv.len` acquires at PACKAGE scope at the word of the committed
length. PROT of R84 and R91 comes before every other check of the operands: that order is the model's choice (log entry
82). -/
def Obligations.KvReads : Prop :=
  ∀ (s v : State) (d a b : SReg) (t : KvTab), s.prefixNow.bare = true →
    let u := s.drainAll s.cur
    let does (i : Instr) (y : State) (v : Word) : Prop := GivesFired i s (WroteReg y d v 4)
    (s.cur = .loader → s.core.kvtab = 0 →
      RaisesFrom (.kvFind d a b) s u .prot 0 s.me.unitPc ∧ RaisesFrom (.kvPos d a) s u .prot 0 s.me.unitPc)
    ∧ (s.cur = .loader → u.kvTable = .ok (v, t) →
      (65536 ≤ (s.rd b).toNat → does (.kvFind d a b) v (BitVec.allOnes 64))
      ∧ ((s.rd b).toNat < 65536 →
        let found := v.kvLookup t (s.rd a >>> 32).toNat (s.rd b).toNat ((s.rd a).setWidth 32).toNat
        (∀ w, found = .ok (w, none) → does (.kvFind d a b) w (BitVec.allOnes 64))
        ∧ ∀ w x j e, found = .ok (w, some j) → w.kvEntry t j = .ok (x, e) →
          does (.kvFind d a b) x (BitVec.ofNat 64 (j * 2 ^ 32 + (e.extractLsb' 160 32).toNat)))
      ∧ (2 ^ t.h + t.n ≤ (s.rd a).toNat → does (.kvPos d a) v (BitVec.allOnes 64))
      ∧ ∀ w e, (s.rd a).toNat < 2 ^ t.h + t.n → v.kvEntry t (s.rd a).toNat = .ok (w, e) →
        does (.kvPos d a) w (if e.getLsbD 80 then (e.extractLsb' 128 32).setWidth 64 else BitVec.allOnes 64))
    ∧ (s.core.kvseq.toNat < 4096 → RaisesFrom (.kvLen d a) s u .prot 0 s.me.unitPc)
    ∧ (u.seqRecord (s.rd a) = .ok none → does (.kvLen d a) u (BitVec.allOnes 64))
    ∧ (∀ r w n loc, u.seqRecord (s.rd a) = .ok (some r) → u.locate r 4 false = .ok loc → u.kvGet r 4 = .ok (w, n) →
      does (.kvLen d a) (w.acquireLength loc) (BitVec.ofNat 64 n))
    ∧ ∀ loc, u.core.exec = none → u.acquireLength loc = u.acquireAt .package 0xFFFF loc

/-- R34, R84, R93 and R96: `kv.map` and `kv.alias`: PROT without a table and then ALIGN of the request, before any of them
is read (that order is the model's, log entry 82); on a readable request `r`, the statuses that change nothing, and the
entry that they insert, with the alias's home counted once more. -/
def Obligations.KvMapAndAlias : Prop :=
  ∀ (s v u : State) (d a b : SReg) (t : KvTab) (r : KvEntry), s.prefixNow.bare = true → s.cur = .storer →
    let raises (c : Cause) (ea : Word) : Prop := RaisesFrom (.kvMap d a) s (s.drainAll s.cur) c ea s.me.unitPc
      ∧ RaisesFrom (.kvAlias d a b) s (s.drainAll s.cur) c ea s.me.unitPc
    let does (i : Instr) (y : State) (code v : Nat) : Prop :=
      GivesFired i s (WroteReg y d (BitVec.ofNat 64 (v * 2 ^ 32 + code)) 4)
    let found (x : State) := x.kvLookup t (keySeq r) (keyLh r) (keyBlock r)
    (s.core.kvtab = 0 → raises .prot 0)
    ∧ (s.core.kvtab ≠ 0 → (s.rd a).toNat % 32 ≠ 0 → raises .align (s.rd a))
    ∧ ((s.rd a).toNat % 32 = 0 → (s.drainAll s.cur).kvTable = .ok (v, t) → v.kvRequest (s.rd a) = .ok (u, r) →
      (t.blocks ≤ entPhys r → does (.kvMap d a) u 5 0)
      ∧ (entPhys r < t.blocks →
        (∀ x j, found u = .ok (x, some j) → does (.kvMap d a) x 1 j)
        ∧ ∀ x y j, found u = .ok (x, none) →
          x.kvInsert t (setFld (setFld (setFld r 80 16 (3 + entFormat r * 32)) 96 16 1) 112 16 0) = .ok (y, j) →
          does (.kvMap d a) y 0 j)
      ∧ (∀ x, u.kvValidEntry t (s.rd b) = .ok (x, none) → does (.kvAlias d a b) x 2 0)
      ∧ ∀ x y e home, u.kvValidEntry t (s.rd b) = .ok (x, some e) → x.kvEntry t (homeIx (s.rd b).toNat e) = .ok (y, home) →
        (entRefs home = 65535 → does (.kvAlias d a b) y 4 65535)
        ∧ (entRefs home ≠ 65535 →
          (∀ z j, found y = .ok (z, some j) → does (.kvAlias d a b) z 1 j)
          ∧ ∀ z p q j, found y = .ok (z, none) →
            z.kvPushPool t (kvHash t.h (keySeq r) (keyLh r) (keyBlock r))
              (setFld (setFld (setFld (setFld (setFld r 80 16 (5 + entFormat home * 32)) 96 32 0) 160 32 (entPhys home)) 192 64
                (homeIx (s.rd b).toNat e)) 128 32 (entBase r)) = .ok (p, j) →
            p.kvSetEntry t (homeIx (s.rd b).toNat e) (setFld home 96 16 (entRefs home + 1)) = .ok q →
            does (.kvAlias d a b) q 0 j))

/-- R96: `kv.unmap` and `kv.ref`: the count of the home falls by one, or changes by the signed operand, within its
limits; an alias whose key is unmapped is removed; a home whose own key is unmapped while others hold it is detached;
one whose count falls to 0 is removed, with status 3 and its block. A valid entry with the home flag is its own home,
another has the home that it names. R90: an entry of the home table is removed by its valid flag alone. -/
def Obligations.KvCounts : Prop :=
  (∀ (s u : State) (d a b : SReg) (t : KvTab), s.prefixNow.bare = true → s.cur = .storer →
    (s.drainAll s.cur).kvTable = .ok (u, t) →
    let does (i : Instr) (y : State) (code v : Nat) : Prop :=
      GivesFired i s (WroteReg y d (BitVec.ofNat 64 (v * 2 ^ 32 + code)) 4)
    let homeOf (j : Nat) (e : BitVec 256) : Nat := if e.getLsbD 81 then j else (e.extractLsb' 192 32).toNat
    let block (e : BitVec 256) : Nat := (e.extractLsb' 160 32).toNat
    (65536 ≤ (s.rd b).toNat → does (.kvUnmap d a b) u 5 0)
    ∧ ((s.rd b).toNat < 65536 →
      let found := u.kvLookup t (s.rd a >>> 32).toNat (s.rd b).toNat ((s.rd a).setWidth 32).toNat
      (∀ w, found = .ok (w, none) → does (.kvUnmap d a b) w 2 0)
      ∧ ∀ w x r y j e f, found = .ok (w, some j) → w.kvEntry t j = .ok (x, e) →
        (if e.getLsbD 82 then x.kvRemove t j = .ok r else r = x) → r.kvEntry t (homeOf j e) = .ok (y, f) →
        (∀ z, 1 < entRefs f →
          y.kvSetEntry t (homeOf j e) (if homeOf j e = j then setFld (setFld f 96 16 (entRefs f - 1)) 86 1 1
            else setFld f 96 16 (entRefs f - 1)) = .ok z →
          does (.kvUnmap d a b) z 0 (entRefs f - 1))
        ∧ ∀ z q, entRefs f = 1 → y.kvSetEntry t (homeOf j e) (setFld f 96 16 0) = .ok z → z.kvRemove t (homeOf j e) = .ok q →
          does (.kvUnmap d a b) q 3 (block f))
    ∧ (∀ w, u.kvValidEntry t (s.rd a) = .ok (w, none) → does (.kvRef d a b) w 2 0)
    ∧ ∀ w x e home, u.kvValidEntry t (s.rd a) = .ok (w, some e) → w.kvEntry t (homeOf (s.rd a).toNat e) = .ok (x, home) →
      let delta := (s.rd b).toInt
      let n := (entRefs home : Int) + delta
      (delta < -65535 ∨ 65535 < delta → does (.kvRef d a b) w 5 0)
      ∧ (-65535 ≤ delta → delta ≤ 65535 →
        (65535 < n ∨ n < 0 ∨ (n = 0 ∧ entDetached home = false) → does (.kvRef d a b) x 4 (entRefs home))
        ∧ (∀ y, 0 < n → n ≤ 65535 → x.kvSetEntry t (homeOf (s.rd a).toNat e) (setFld home 96 16 n.toNat) = .ok y →
          does (.kvRef d a b) y 0 n.toNat)
        ∧ ∀ y z, n = 0 → entDetached home = true → x.kvSetEntry t (homeOf (s.rd a).toNat e) (setFld home 96 16 0) = .ok y →
          y.kvRemove t (homeOf (s.rd a).toNat e) = .ok z → does (.kvRef d a b) z 3 (block home)))
  ∧ (∀ (s x y : State) (t : KvTab) (j : Nat) (e : BitVec 256), j < 2 ^ t.h → s.kvEntry t j = .ok (x, e) →
    x.kvSetEntry t j (setFld e 80 1 0) = .ok y → s.kvRemove t j = .ok y)

/-- R34 and R96 to R98: `kv.commit` raises the committed length and the generation within the capacity; `kv.app` raises PROT
without a table or records, and ALIGN, before it waits for the commands that its companion core has issued; then it copies the rows into an unshared block in order, and gives a set
predicate and no row for a shared one. A key that maps nothing raises XLATE at the request, a sequence beyond KVSEQ
PROT there, rows outside the block or the committed and reserved length PROT at its first row's field, and a row that
cannot be read or written its own cause, before any row is written. R100: a commit that raises the length releases at PACKAGE scope
at its word. The order of these checks with those of R84 and R91, and of the rows' checks, is the model's (log entry 82). -/
def Obligations.KvLengths : Prop :=
  ∀ (s : State) (d a b : SReg) (p : PReg), s.prefixNow.bare = true → s.cur = .storer →
    let u := s.drainAll s.cur
    let does (y : State) (code v : Nat) : Prop :=
      GivesFired (.kvCommit d a b) s (WroteReg y d (BitVec.ofNat 64 (v * 2 ^ 32 + code)) 4)
    (u.seqRecord (s.rd a) = .ok none → does u 5 0)
    ∧ (∀ va x w, u.seqRecord (s.rd a) = .ok (some va) → u.kvGet va 16 = .ok (x, w) →
      let r := BitVec.ofNat 128 w
      let committed := (r.extractLsb' 0 32).toNat
      let capacity := (r.extractLsb' 32 32).toNat
      let n := (s.rd b).toNat
      (r.extractLsb' 96 32 ≠ 0 → does x 5 0)
      ∧ (r.extractLsb' 96 32 = 0 →
        (2 ^ 32 ≤ n ∨ n < committed ∨ capacity < n → does x 6 committed)
        ∧ (n = committed → n ≤ capacity → does x 0 n)
        ∧ ∀ y loc, committed < n → n ≤ capacity → x.locate va 4 true = .ok loc →
          (x.releaseAt x.cur .package 0 (.word loc .package x.coreId true)).kvPut va 16
            (setFld (setFld r 0 32 n) 64 32 ((r.extractLsb' 64 32).toNat + 1)).toNat = .ok y → does y 0 n))
    ∧ (s.core.kvtab = 0 ∨ s.core.kvseq.toNat < 4096 → RaisesFrom (.kvApp p a) s u .prot 0 s.me.unitPc)
    ∧ (s.core.kvtab ≠ 0 → 4096 ≤ s.core.kvseq.toNat → (s.rd a).toNat % 32 ≠ 0 →
      RaisesFrom (.kvApp p a) s u .align (s.rd a) s.me.unitPc)
    ∧ (s.core.kvtab ≠ 0 → 4096 ≤ s.core.kvseq.toNat → (s.rd a).toNat % 32 = 0 → s.core.quiet .storer = false →
      WaitsFrom (.kvApp p a) s u)
    ∧ (s.core.quiet .storer = true → 4096 ≤ s.core.kvseq.toNat → (s.rd a).toNat % 32 = 0 → ∀ t v, u.kvTable = .ok (v, t) →
      let faults (x : State) (c : Cause) (ea : Word) : Prop := RaisesFrom (.kvApp p a) s { u with used := x.used } c ea s.me.unitPc
      ∀ y r z, v.kvRequest (s.rd a) = .ok (y, r) →
        (y.kvLookup t (keySeq r) (keyLh r) (keyBlock r) = .ok (z, none) → faults z .xlate (s.rd a))
        ∧ ∀ j x1 e x2 home, y.kvLookup t (keySeq r) (keyLh r) (keyBlock r) = .ok (z, some j) → z.kvEntry t j = .ok (x1, e) →
          x1.kvEntry t (homeIx j e) = .ok (x2, home) →
          (x2.seqRecord (BitVec.ofNat 64 (keySeq r)) = .ok none → faults x2 .prot (s.rd a))
          ∧ ∀ va x3 w, x2.seqRecord (BitVec.ofNat 64 (keySeq r)) = .ok (some va) → x2.kvGet va 16 = .ok (x3, w) →
            let q := BitVec.ofNat 128 w
            let rows := if entFormat home = 0 then 16 else 32
            let size := if entFormat home = 0 then 256 else 128
            let first := (r.extractLsb' 96 16).toNat
            let count := (r.extractLsb' 112 16).toNat
            let i0 := keyBlock r * rows + first
            let outside := rows < first + count ∨ i0 < (q.extractLsb' 0 32).toNat ∨ (q.extractLsb' 32 32).toNat < i0 + count
            (outside → faults x3 .prot (s.rd a + 12))
            ∧ ∀ c ea, ¬outside → 0 < count → entRefs home ≤ 1 →
              x3.rowsOk (t.pool + BitVec.ofNat 64 (entPhys home * 4096 + first * size)) (r.extractLsb' 192 64) count size
                = .error (c, ea) → faults x3 c ea)
    ∧ ∀ t v y r z j e home va w x1 x2 x3, s.core.quiet .storer = true → u.kvTable = .ok (v, t) → 4096 ≤ s.core.kvseq.toNat →
      (s.rd a).toNat % 32 = 0 → v.kvRequest (s.rd a) = .ok (y, r) → y.kvLookup t (keySeq r) (keyLh r) (keyBlock r) = .ok (z, some j) →
      z.kvEntry t j = .ok (x1, e) → x1.kvEntry t (homeIx j e) = .ok (x2, home) →
      x2.seqRecord (BitVec.ofNat 64 (keySeq r)) = .ok (some va) → x2.kvGet va 16 = .ok (x3, w) →
      let q := BitVec.ofNat 128 w
      let rows := if entFormat home = 0 then 16 else 32
      let size := if entFormat home = 0 then 256 else 128
      let first := (r.extractLsb' 96 16).toNat
      let count := (r.extractLsb' 112 16).toNat
      let i0 := keyBlock r * rows + first
      let src := r.extractLsb' 192 64
      let dst := t.pool + BitVec.ofNat 64 (entPhys home * 4096 + first * size)
      first + count ≤ rows → (q.extractLsb' 0 32).toNat ≤ i0 → i0 + count ≤ (q.extractLsb' 32 32).toNat →
        (count = 0 → GivesFired (.kvApp p a) s (WrotePred x3 p false 4))
        ∧ (0 < count → 1 < entRefs home → GivesFired (.kvApp p a) s (WrotePred x3 p true 4))
        ∧ ∀ y1 y2, 0 < count → entRefs home ≤ 1 → x3.rowsOk dst src count size = .ok () →
          x3.copyRows dst src size count = .ok y1 → y1.kvSetEntry t (homeIx j e) (setFld home 83 1 1) = .ok y2 →
          GivesFired (.kvApp p a) s (WrotePred y2 p false 4)

/-! ### The port's companion instructions (R138 to R141, R149, R150) -/

/-- R140, R149 and R150 where nothing is to be freed: a handle or slot that names nothing, a pull that has issued.
`nfree` waits
while the pull is queued, booked, or ended and not retired. R149: what `rret` makes of a slot in use, by its added cycles, and the
word that it returns. -/
def Obligations.TakesAndSlots : Prop :=
  (∀ (s : State) (d a b : SReg) (i : Nat) (t : Take), s.prefixNow.bare = true →
    let u := s.drainAll s.cur
    (s.cur = .loader →
      (u.core.port.current (s.rd a) = none →
        Gives (.decl d a) s (WroteReg u d 4 4) ∧ Gives (.nfree d a) s (WroteReg u d 4 4))
      ∧ (u.core.port.current (s.rd a) = some (i, t) →
        (t.pull ≠ .none → Gives (.decl d a) s (WroteReg u d 5 4))
        ∧ (t.pull = .none →
          Gives (.decl d a) s (WroteReg (u.decline i t) d 1 4) ∧ Gives (.nfree d a) s (WroteReg (u.decline i t) d 1 4))
        ∧ (∀ o, t.pull = .retired o → Gives (.nfree d a) s
          (WroteReg ((u.setPort ((u.core.port.release t.place).setTake i none)).refill 256) d (BitVec.ofNat 64 o) 4))
        ∧ ((t.pull = .queued ∨ (∃ c b, t.pull = .booked c b) ∨ ∃ o, t.pull = .ended o) → WaitsFrom (.nfree d a) s u)))
    ∧ (s.cur = .storer →
      (255 < (s.rd a).toNat → Gives (.rret d a b) s (WroteReg u d (BitVec.allOnes 64) 4))
      ∧ ((s.rd a).toNat ≤ 255 →
        let slot := u.core.port.slot (s.rd a).toNat
        let new := slot.map (fun r => r.extend u.cycle (s.rd b))
        Gives (.rret d a b) s (WroteReg (u.setSlot (s.rd a).toNat new) d (slotWord u.cycle new) 4))
      ∧ (255 < (s.rd a).toNat ∨ 1 < (s.rd b).toNat → Gives (.rrel d a b) s (WroteReg u d 5 4))
      ∧ ((s.rd a).toNat ≤ 255 → (s.rd b).toNat ≤ 1 →
        (u.core.port.slot (s.rd a).toNat = none → Gives (.rrel d a b) s (WroteReg u d 2 4))
        ∧ ∀ r, u.core.port.slot (s.rd a).toNat = some r →
          Gives (.rrel d a b) s (WroteReg (u.reclaim (s.rd a).toNat r (s.rd b = 1)) d 0 4))))
  ∧ (∀ (r : Retain) (now b d : Word),
    let k := BitVec.ofNat 64 (min b.toNat (2 ^ 40 - 1))
    r.extend now 0 = r
    ∧ (b ≠ 0 → r.expired = true → r.extend now b = { r with deadline := some (now + k), expired := false })
    ∧ (b ≠ 0 → r.expired = false → r.deadline = none → r.extend now b = { r with deadline := some (now + k) })
    ∧ (b ≠ 0 → r.expired = false → r.deadline = some d →
      r.extend now b = { r with deadline := some ((if d < now then now else d) + k) })
    ∧ slotWord now none = 0
    ∧ (slotWord now (some r)).extractLsb' 48 16 = r.count
    ∧ (slotWord now (some r)).extractLsb' 46 2 = (if r.expired then 2 else 1)
    ∧ (r.expired = true → (slotWord now (some r)).extractLsb' 0 46 = 0)
    ∧ (r.expired = false → r.deadline = none → (slotWord now (some r)).extractLsb' 0 46 = 0xFFFFFFFFFF)
    ∧ (r.expired = false → r.deadline = some d → d.toNat < now.toNat + 2 ^ 40 →
      (slotWord now (some r)).extractLsb' 0 46 = BitVec.ofNat 46 (d.toNat - now.toNat)))

/-- R139: `ntake` with no eligible notice gives all ones and `nwait` waits; with one, `ntake` writes a copy that
describes its next piece (none where the operand is 0), and takes the piece into a free slot under a new generation, the
lowest one by the model's choice (log entry 110); with its last piece the notice leaves the store. R141: a misaligned `psched` record raises ALIGN; on a
readable one, status 2 outside the limits of Table 8-3, status 1 for a change that open takes or spilled notices
forbid, else status 0 with the policy installed. -/
def Obligations.NoticesAndPolicy : Prop :=
  (∀ (s : State) (d a : SReg), s.prefixNow.bare = true → s.cur = .loader →
    let u := s.drainAll s.cur
    ((s.rd a).toNat % 32 ≠ 0 → RaisesFrom (.ntake d a) s u .align (s.rd a) s.me.unitPc)
    ∧ (u.topNotice = none → (s.rd a).toNat % 32 = 0 → Gives (.ntake d a) s (WroteReg u d (BitVec.allOnes 64) 4))
    ∧ (u.topNotice = none → WaitsFrom .nwait s u)
    ∧ ∀ n, u.topNotice = some n →
      Gives .nwait s (Passed u 4)
      ∧ ∀ v : State,
        let size := u.core.port.nextPiece n
        let copy : BitVec 256 := setFld (setFld (setFld n.note 0 64 ((noteAddr n.note).toNat + n.taken)) 64 32 size) 154 1
          (boolNat n.withdrawn)
        s.rd a = 0 ∧ v = u ∨ s.rd a ≠ 0 ∧ (s.rd a).toNat % 32 = 0 ∧ u.store 0 (s.rd a) (leBytes 32 copy.toNat) = .ok v →
        let i := v.core.port.freeTake.getD 0
        let gen := (v.core.port.takeGen[i]?).getD 0 + 1
        let p := (v.core.port.allot size).2
        let q : Port := { p with
          takeGen := p.takeGen.setIfInBounds i gen
          store := if n.taken + size = noteSize n.note then p.store.filter (fun x : Notice => x.seq ≠ n.seq)
            else p.store.map (fun x : Notice => if x.seq = n.seq then { x with taken := x.taken + size } else x)
          takes := p.takes.setIfInBounds i (some
            { note := n.note, copy := n.seq, off := n.taken, size := size, place := (v.core.port.allot size).1
              last := decide (n.taken + size = noteSize n.note), withdrawn := n.withdrawn }) }
        Gives (.ntake d a) s (WroteReg ((v.setPort q).refill 256) d (BitVec.ofNat 64 (gen.toNat * 2 ^ 16 + i)) 4))
  ∧ (∀ r : BitVec 256,
    let f (lo n : Nat) : Nat := (r.extractLsb' lo n).toNat
    policyOk r = true ↔
      (f 100 12 = 0 ∧ f 88 8 = 0 ∧ f 73 7 = 0)
      ∧ (f 128 32 = 0 ∨ 256 ≤ f 128 32 ∧ f 128 32 ≤ 2 ^ 24) ∧ (f 112 16 = 0 ∨ 64 ≤ f 112 16 ∧ f 112 16 ≤ 32768)
      ∧ (f 80 8 = 0 ∨ 12 ≤ f 80 8 ∧ f 80 8 ≤ 21) ∧ f 64 3 ≤ 4 ∧ f 67 3 ≤ 4 ∧ f 70 3 ≤ 4
      ∧ f 32 32 % 4096 = 0 ∧ f 32 32 ≤ 2 ^ 21 ∧ f 0 32 % 4096 = 0 ∧ f 0 32 + f 32 32 ≤ 2 ^ 21 ∧ f 192 64 % 4096 = 0)
  ∧ (∀ (s : State) (d a : SReg), s.prefixNow.bare = true → s.cur = .loader → (s.rd a).toNat % 32 ≠ 0 →
    RaisesFrom (.psched d a) s (s.drainAll s.cur) .align (s.rd a) s.me.unitPc)
  ∧ (∀ (s u : State) (d a : SReg) (bs : List Byte), s.prefixNow.bare = true → s.cur = .loader →
    (s.rd a).toNat % 32 = 0 → (s.drainAll s.cur).load (some 0) (s.rd a) 32 = .ok (u, bs) →
    let r : BitVec 256 := BitVec.ofNat 256 (leNat bs)
    let p := u.core.port
    let q := p.policy
    let held := ((polBase r ≠ polBase q ∨ polSize r ≠ polSize q ∨ r.extractLsb' 80 8 ≠ q.extractLsb' 80 8)
        ∧ (0 < p.ringU ∨ p.takes.toList.any (·.isSome) = true))
      ∨ (r.extractLsb' 160 96 ≠ q.extractLsb' 160 96 ∧ p.spilled ≠ [])
    (policyOk r = false → Gives (.psched d a) s (WroteReg u d 2 4))
    ∧ (policyOk r = true → held → Gives (.psched d a) s (WroteReg u d 1 4))
    ∧ (policyOk r = true → ¬held →
      Gives (.psched d a) s (WroteReg ((u.setPort { p with policy := r }).refill 256) d 0 4)))

/-! ### Prefix words, traps, system registers and translation -/

/-- R30 and R364: a prefix word waits for the next word, with its address and itself kept; a next word that is a
prefix, a branch or marked as a landing makes it an orphan, EPC at the prefix; so does one outside the store, with
PROT. -/
def Obligations.PrefixWords : Prop :=
  ∀ (s : State) (p : Prefix),
    let n := s.me.pc.toNat
    let w := s.me.word (n + 4)
    let orphan := w % 4 = 2 ∨ w.testBit 2 = true ∨ isBranchWord w = true
    (n + 4 < 0x10000 → ¬orphan → exec (.pfx p) s = .next (s.setMe { s.me with
      pfx := some ⟨p, s.me.pc, BitVec.ofNat 32 (s.me.word n)⟩, pc := s.me.pc + 4 }))
    ∧ (n + 4 < 0x10000 → orphan →
      exec (.pfx p) s = .next (s.raise .orphanPrefix (BitVec.ofNat 64 (n + 4)) s.me.unitPc false))
    ∧ (0x10000 ≤ n + 4 → exec (.pfx p) s = .next (s.raise .prot (BitVec.ofNat 64 (n + 4)) s.me.unitPc false))

/-- R361, R362 and R358: what a companion core's entry into its handler leaves: the saved cause, EPC and EADDR,
STATUS.H, the handler's address from its TVEC field, the registers as they were, the frame in memory; and a double
trap. -/
def Obligations.TrapEntry : Prop :=
  ∀ (s : State) (c : Cause) (ea : Word) (epc : Nat) (fetched : Bool), s.mem.Wf → s.coreId < 768 →
    let r := s.cur
    let f := s.core.tvec.toNat / 2 ^ (16 * r.num) % 2 ^ 16
    let h := f / 4 * 4
    let t := s.raise c ea epc fetched
    let frame := locLocal s.coreId (0x1FE800 + 0x800 * r.num)
    (∀ q, q ≠ r → t.core.comp q = s.core.comp q)
    ∧ (s.me.h = false → f % 2 = 1 → s.me.landing h = true →
      (t.me.cause = c.code ∧ t.me.epc = BitVec.ofNat 16 epc ∧ t.me.entryEpc = BitVec.ofNat 16 epc ∧ t.me.eaddr = ea
        ∧ t.me.h = true ∧ t.me.pc = BitVec.ofNat 17 h ∧ t.me.pfx = none ∧ t.me.waiting = false ∧ t.me.run = s.me.run)
      ∧ (∀ x, t.rd x = s.rd x) ∧ (∀ x, t.rdP x = s.rdP x) ∧ (∀ x, t.rdB x = s.rdB x) ∧ t.me.vcfg = s.me.vcfg
      ∧ t.mem.read frame = c.code ∧ t.mem.num (frame + 8) 8 = epc % 65536 ∧ t.mem.num (frame + 16) 8 = ea.toNat
      ∧ (∀ x : SReg, t.mem.num (frame + 64 + 8 * x.toNat) 8 = (s.rd x).toNat)
      ∧ (∀ x : BReg, t.mem.num (frame + 576 + 8 * x.toNat) 8 = (s.rdB x).toNat)
      ∧ (s.poison = [] → ∀ a, a < frame ∨ frame + 2048 ≤ a → t.peek r a = s.peek r a))
    ∧ (s.me.h = true ∨ f % 2 = 0 ∨ s.me.landing h = false →
      t.mem = s.mem ∧ t.me.run = .stopped ∧ (∀ x, t.rd x = s.rd x) ∧ t.me.cause = s.me.cause ∧ t.me.epc = s.me.epc
      ∧ (∀ id, s.jobHere = some id → ∀ j ∈ t.jobs, j.id = id → j.cancelled = true)
      ∧ t.window.fault.getLsbD 63 = true ∧ t.outbox = s.outbox ++ [.msix 0])

/-- R370: `trap` and `brk` raise their causes with EADDR the operand and EPC at the next instruction: in a companion
core that is not in its handler and has an enabled one, the next state is at the handler with those saved. -/
def Obligations.SoftwareTraps : Prop :=
  ∀ (s : State) (a : SReg) (n : BitVec 6), s.prefixNow.bare = true →
    let f := s.core.tvec.toNat / 2 ^ (16 * s.cur.num) % 2 ^ 16
    let enters (i : Instr) (c : BitVec 8) (ea : Word) : Prop := Gives i s (fun t =>
      t.me.cause = c ∧ t.me.eaddr = ea ∧ t.me.epc = BitVec.ofNat 16 (s.me.pc.toNat + 4) ∧ t.me.h = true
        ∧ t.me.pc = BitVec.ofNat 17 (f / 4 * 4) ∧ (∀ x, t.rd x = s.rd x) ∧ (∀ x, t.rdP x = s.rdP x)
        ∧ ∀ x, t.rdB x = s.rdB x)
    (s.me.h = false → f % 2 = 1 → s.me.landing (f / 4 * 4) = true →
      enters (.trap a) 0x1A (s.rd a) ∧ enters (.brk n) 0x19 (n.setWidth 64))
    ∧ exec (.trap a) s = .next (s.raise .trap (s.rd a) (s.me.pc.toNat + 4) false)
    ∧ exec (.brk n) s = .next (s.raise .brk (n.setWidth 64) (s.me.pc.toNat + 4) false)

/-- R372 and R373: outside a handler `eret` raises PROT. In one it reads the frame as it stands, which raises MACHINE
in an uncorrectable unit and ILLEGAL with width code 3; it waits until the queue of the frame has room for the
captured commands that are pending, and then takes the registers from the frame, re-injects those commands and goes to
EPC: where the entry recorded it or just past the unit there, or where a transfer of control may go. To an EPC where
none may go it traps, out of the handler, with the registers and the commands as the return has made them. Its own
companion core's stores to the frame perform first; no other byte of memory changes by a return. Model's choices: it waits
for all of that room at once (log entry 74), and a command that has executed and not retired takes up room (log entry 16). -/
def Obligations.ReturnFromTrap : Prop :=
  ∀ s : State, s.prefixNow.bare = true →
    let frame := locLocal s.coreId (0x1FE800 + 0x800 * s.cur.num)
    let u := s.beforeRead none (frame + 64) 592
    let num (o k : Nat) : Nat := leNat (u.peekN u.cur (frame + o) k)
    let pending (q : QueueId) : List Cmd := ((s.core.queue q).slots.filter (fun x => x.state = .pending)).map (·.cmd)
    let room : Prop := ∀ q, s.me.active = some q → pending q ≠ [] →
      (s.core.queue q).cmds.length + (s.core.queue q).done.length + (pending q).length ≤ 16
    let t₀ := s.me.epc.toNat
    let direct : Prop := t₀ = s.me.entryEpc.toNat ∨ t₀ = s.me.entryEpc.toNat + s.me.unitLen s.me.entryEpc.toNat
    (s.me.h = false → Raises .eret s .prot 0 s.me.unitPc)
    ∧ (s.me.h = true →
      (∀ k, u.badByte (frame + 64) 592 = some k →
        Raises .eret s .machine (0xFF00000000000000 + BitVec.ofNat 64 (0x1FE840 + 0x800 * s.cur.num + k)) s.me.unitPc)
      ∧ (u.badByte (frame + 64) 592 = none →
        (num 648 8 % 4 = 3 → Raises .eret s .illegal 0 s.me.unitPc)
        ∧ (num 648 8 % 4 ≠ 3 → ¬room → Waits .eret s)
        ∧ (num 648 8 % 4 ≠ 3 → room →
          let returned (t : State) : Prop := t.me.h = false ∧ t.me.active = none ∧ t.mem = u.mem
            ∧ (∀ x : SReg, x ≠ 0 → (t.rd x).toNat = num (64 + 8 * x.toNat) 8)
            ∧ (∀ x : PReg, x ≠ 0 → t.rdP x = (num 640 2).testBit x.toNat)
            ∧ (∀ x : BReg, (t.rdB x).toNat = num (576 + 8 * x.toNat) 8)
            ∧ t.me.vcfg.ew.code = num 648 8 % 4 ∧ t.me.vcfg.grp.toNat = num 648 8 / 4 % 4
            ∧ t.me.vcfg.vl.toNat = min (num 648 8 / 2 ^ 32 % 4096) (vlmax t.me.vcfg.ew t.me.vcfg.grp)
            ∧ ∀ q, s.me.active = some q → (t.core.queue q).cmds = (s.core.queue q).cmds ++ pending q
                ∧ (t.core.queue q).slots = []
          (direct ∨ (t₀ % 4 = 0 ∧ s.me.landing t₀ = true) →
            Gives .eret s (fun t => t.me.pc = s.me.epc.setWidth 17 ∧ returned t))
          ∧ ∀ c, ¬direct → (c = .align ∧ t₀ % 4 ≠ 0 ∨ c = .landing ∧ t₀ % 4 = 0 ∧ s.me.landing t₀ = false) →
            Gives .eret s (fun t => ∃ v, returned v
              ∧ let y := v.raise c (BitVec.ofNat 64 t₀) s.me.unitPc true
                t = y.setMe { y.me with pfx := none, waiting := false, wfi := none }))))

/-- R367 and R371: the registers that `sysr` reads, PSPOL and PPACE with the defaults of R133 for the fields that are 0,
CAP_CORES with the usable HBM, the clusters and the cores present of Table 26-3; those that `sysw` writes, after its
companion core's stores; the number of no register raises ILLEGAL, a write to one that is read only PROT. That
CAP_LINKS keeps the widths that the ports had at reset is the model's reading (log entry 86). -/
def Obligations.SystemRegisters : Prop :=
  ∀ (s : State) (d a : SReg) (n : BitVec 6), s.prefixNow.bare = true →
    let reads (k : BitVec 6) (v : Word) : Prop := Gives (.sysr d k) s (WroteReg s d v 4)
    let c := s.me
    let u := s.drainAll s.cur
    let v := s.rd a
    let writes (k : BitVec 6) (x : Core) : Prop := Gives (.sysw k a) s (Passed { u with core := x } 4)
    let level (b : Bucket) : Word := if b.cap.isSome then BitVec.ofInt 64 b.level else 0x7FFFFFFFFFFFFFFF
    let gen (x : Word) : Word := if x = 0 then 0x9E3779B97F4A7C15 else x
    reads 0 (BitVec.ofNat 64 (64 * s.cur.num + (if c.h ∧ c.posted ≠ [] then 4 else 0) + (if c.dlost then 2 else 0)
      + (if c.h then 1 else 0)))
    ∧ reads 1 (c.cause.setWidth 64) ∧ reads 2 (c.epc.setWidth 64) ∧ reads 3 c.eaddr ∧ reads 4 s.core.tvec
    ∧ (∀ x, s.core.ctx = some x → reads 5 (x.setWidth 64)) ∧ reads 6 s.cycle ∧ reads 7 s.core.seed
    ∧ reads 8 (s.core.quant.setWidth 64) ∧ reads 9 s.core.retto ∧ reads 10 s.core.kvtab ∧ reads 11 s.core.kvseq
    ∧ (let p := s.core.port.policy
       let f (lo n dflt : Nat) : Nat := if p.extractLsb' lo n = 0 then dflt else (p.extractLsb' lo n).toNat
       reads 12 (BitVec.ofNat 64 (f 128 32 4096 * 2 ^ 32 + f 80 8 21 * 2 ^ 16 + f 64 9 (1 + 2 * 8)))
       ∧ reads 13 (BitVec.ofNat 64 (f 112 16 2048 * 2 ^ 16 + f 96 4 0)))
    ∧ reads 17 (BitVec.ofNat 64 (((s.fuses.stackSize.toList.map (fun b => b / 2 ^ 30)).sum) * 2 ^ 48
      + (List.range 96).countP s.fuses.clusterPresent * 2 ^ 10 + (List.range 768).countP s.fuses.present))
    ∧ (∀ x, s.cx = some x → reads 14 (level x.time) ∧ reads 15 (level x.bw) ∧ reads 16 (level x.nrg))
    ∧ reads 18 s.fuses.links
    ∧ (18 < n.toNat → Raises (.sysr d n) s .illegal 0 s.me.unitPc ∧ RaisesFrom (.sysw n a) s u .illegal 0 s.me.unitPc)
    ∧ (n ∈ [1, 3, 5, 6, 12, 13, 14, 15, 16, 17, 18] → RaisesFrom (.sysw n a) s u .prot 0 s.me.unitPc)
    ∧ Gives (.sysw 0 a) s (Passed (u.setMe { u.me with dlost := u.me.dlost && !v.getLsbD 1 }) 4)
    ∧ Gives (.sysw 2 a) s (Passed (u.setMe { u.me with epc := v.setWidth 16 }) 4)
    ∧ writes 4 { u.core with tvec := v &&& 0xFFFDFFFDFFFD }
    ∧ writes 7 { u.core with
        seed := v, genVec := gen v, genMat := gen (v ^^^ 0x5555555555555555), genAtt := gen (v ^^^ 0xAAAAAAAAAAAAAAAA) }
    ∧ writes 8 { u.core with quant := v.setWidth 32 } ∧ writes 9 { u.core with retto := v }
    ∧ writes 10 { u.core with kvtab := v &&& 0xFFFFFFFFFFFFFFC0 }
    ∧ writes 11 { u.core with kvseq := v &&& 0xFFFFFFFFFFFFF01F }

/-- R373, R376 and R377: `replay` of an entry of the active frame, the wait of `wfi`, and the regions that `disc`
declares. -/
def Obligations.ReplayWaitAndDiscard : Prop :=
  ∀ (s : State) (d a b : SReg), s.prefixNow.bare = true →
    let x := s.rd a
    let y := s.rd b
    let regions (l : List (Word × Word)) (v : Word) : Prop :=
      Gives (.disc d a b) s (WroteReg { s with core := { s.core with disc := l } } d v 4)
    let ok := x.toNat % 4096 = 0 ∧ y.toNat % 4096 = 0
      ∧ ((0xFF00000000000000 ≤ x.toNat ∧ x.toNat + y.toNat ≤ 0xFF000000001FE800)
        ∨ (0xFF00000100000000 ≤ x.toNat ∧ x.toNat < 0xFF00000101000000 ∧ x.toNat + y.toNat ≤ 0xFF00000101000000))
    (s.me.h = false → Raises (.replay d a) s .prot 0 s.me.unitPc)
    ∧ (s.me.h = true →
      (512 ≤ x.toNat ∨ x.toNat / 16 % 16 ≠ 0 ∨ s.me.active = none → Gives (.replay d a) s (WroteReg s d 5 4))
      ∧ ∀ q, s.me.active = some q → x.toNat < 512 → x.toNat / 16 % 16 = 0 →
        let i := x.toNat % 16
        ((s.core.queue q).slots.length ≤ i → Gives (.replay d a) s (WroteReg s d 5 4))
        ∧ ∀ e, (s.core.queue q).slots[i]? = some e →
          (e.state ≠ .pending → Gives (.replay d a) s (WroteReg s d 2 4))
          ∧ (e.state = .pending →
            (x.getLsbD 8 = true → Gives (.replay d a) s (WroteReg (s.discardSlot q i e) d 0 4))
            ∧ (x.getLsbD 8 = false → (s.core.queue q).room = false → Waits (.replay d a) s)
            ∧ (x.getLsbD 8 = false → (s.core.queue q).room = true → Gives (.replay d a) s (WroteReg
              (s.setQueue q { s.core.queue q with
                cmds := (s.core.queue q).cmds ++ [e.cmd]
                slots := (s.core.queue q).slots.set i { e with state := .reinjected } }) d 0 4))))
    ∧ (s.me.posted ≠ [] → Gives (.wfi a) s (Passed s 4))
    ∧ (s.me.posted = [] → x = 0 ∨ s.cycle.toNat < x.toNat → exec (.wfi a) s =
        .next (s.setMe { s.me with waiting := true, wfi := if x = 0 then none else some x }))
    ∧ (s.me.posted = [] → x ≠ 0 → x.toNat ≤ s.cycle.toNat →
      Gives (.wfi a) s (Passed (s.setMe { s.me with posted := [⟨.timer, x, .async⟩] }) 4))
    ∧ (y = 0 → regions [] 0) ∧ (y ≠ 0 → ¬ok → Gives (.disc d a b) s (WroteReg s d 5 4))
    ∧ (y ≠ 0 → ok → 8 ≤ s.core.disc.length → Gives (.disc d a b) s (WroteReg s d 2 4))
    ∧ (y ≠ 0 → ok → s.core.disc.length < 8 → regions (s.core.disc ++ [(x, y)]) 0)

/-- R77 to R79: `rmap` and `rinv` are privileged by STATUS.H and change range slots of the running context, after
every access of its cores that used them (`State.shootDown`); the status codes are those of Table 4-7, by the first check
that fails; `rprobe` says how an address resolves, and its walk is traffic; each after its companion core's stores. The
MACHINE of a probe whose walk meets an uncorrectable unit is the model's (log entry 75), and so is that a `rinv` of kind 1 has
no more to drop than the shoot-down (log entry 27). -/
def Obligations.TranslationInstructions : Prop :=
  ∀ (s : State) (d a b : SReg), s.prefixNow.bare = true →
    let u := s.drainAll s.cur
    let x := s.rd a
    let k := s.rd b
    let map (z : State) (v : Word) : Prop := GivesFired (.rmap d a b) s (WroteReg z d v 4)
    let inv (z : State) (v : Word) : Prop := GivesFired (.rinv d a b) s (WroteReg z d v 4)
    (s.me.h = false → RaisesFrom (.rmap d a b) s u .prot 0 s.me.unitPc ∧ RaisesFrom (.rinv d a b) s u .prot 0 s.me.unitPc)
    ∧ (s.me.h = true →
      (x.toNat % 32 ≠ 0 → RaisesFrom (.rmap d a b) s u .align x s.me.unitPc)
      ∧ (∀ c ea, x.toNat % 32 = 0 → u.load (some 0) x 32 = .error (c, ea) → RaisesFrom (.rmap d a b) s u c ea s.me.unitPc)
      ∧ (∀ y bs, x.toNat % 32 = 0 → u.load (some 0) x 32 = .ok (y, bs) →
        let r : BitVec 256 := BitVec.ofNat 256 (leNat bs)
        let new : Range := ⟨r.extractLsb' 0 64, r.extractLsb' 64 64, r.extractLsb' 128 64, r.getLsbD 192, r.getLsbD 193⟩
        (63 < k.toNat → map y 5)
        ∧ ∀ c, k.toNat ≤ 63 → y.cx = some c →
          let base := new.base.toNat
          let limit := new.limit.toNat
          let at_ := (new.base + new.offset).toNat
          let end_ := at_ + (limit - base)
          let reserved := r.extractLsb' 194 62 ≠ 0
          let misplaced := base % 4096 ≠ 0 ∨ limit % 4096 ≠ 0 ∨ limit ≤ base ∨ 0xFF00000000000000 ≤ limit - 1
          let overlaps := ∃ i g, i < 64 ∧ i ≠ k.toNat ∧ c.ranges[i]? = some (some g) ∧ base < g.limit.toNat ∧ g.base.toNat < limit
          let unbacked := 2 ^ 56 < end_ ∨ ∃ pa, at_ ≤ pa ∧ pa < end_ ∧ y.fuses.backed pa = false
          (reserved → map y 4) ∧ (¬reserved → misplaced → map y 2) ∧ (¬reserved → ¬misplaced → overlaps → map y 1)
          ∧ (¬reserved → ¬misplaced → ¬overlaps → unbacked → map y 3)
          ∧ (¬reserved → ¬misplaced → ¬overlaps → ¬unbacked →
            map (y.shootDown.setRanges (fun v => v.setIfInBounds k.toNat (some new))) 0))
      ∧ (k = 0 → 63 < x.toNat → inv u 5)
      ∧ (k = 0 → x.toNat ≤ 63 → inv (u.shootDown.setRanges (fun v => v.setIfInBounds x.toNat none)) 0)
      ∧ (k = 1 → inv u.shootDown 0)
      ∧ (k = 2 → inv (u.shootDown.setRanges (fun _ => Vector.replicate 64 none)) 0)
      ∧ (2 < k.toNat → inv u 5))
    ∧ (let found := u.resolve u.cx u.coreId x
       let z := u.spend u.cx (u.walkBytes u.cx u.coreId x)
       let shows (w r : Bool) (size source at_ : Nat) : Prop := Gives (.rprobe d a) s (WroteReg z d
        (BitVec.ofBool true ++ BitVec.ofBool w ++ BitVec.ofBool r ++ BitVec.ofNat 3 size ++ BitVec.ofNat 2 source
          ++ BitVec.ofNat 56 at_) 4)
       (found = .broken → RaisesFrom (.rprobe d a) s u .machine x s.me.unitPc)
       ∧ (found = .nothing ∨ found = .noWindow → Gives (.rprobe d a) s (WroteReg z d 0 4))
       ∧ (∀ loc off left owned, found = .window loc off left owned → shows owned owned 0 3 off)
       ∧ (∀ pa r w, found = .range pa r w → shows w r 0 1 pa)
       ∧ ∀ pa r w size, found = .page pa r w size → shows w r size 2 pa)

/-- R70 to R74, with R102 and R68: where an access of `n` bytes that lies in one 4 KiB block goes. A place address
goes to the scratchpad of its window, PROT where it names none or one of a unit that the context does not own; another
address goes by the range slot that holds it, else by the four levels of the page walk, and XLATE where neither
resolves it; the rights are checked before the target is backed; the rights of a page are those that every entry of
its walk gives. A walk resolves nothing, and XLATE is raised, where a table is misaligned, or where an entry has a nonzero
reserved field, kind 0 or a kind that its level does not allow (R74). That it is raised where an entry is unbacked is the
model's (log entry 27), and so is MACHINE at the accessed address, where an entry lies in an uncorrectable unit (log entry 75). -/
def Obligations.AddressTranslation : Prop :=
  ∀ (s : State) (a : Word) (n : Nat) (w : Bool), 0 < n → a.toNat % 4096 + n ≤ 4096 →
    let at_ := s.locate a n w
    let x := a.toNat % 2 ^ 48
    let ends (ok : Bool) (pa : Nat) : Prop :=
      at_ = if !ok then .error (.prot, a) else if !s.fuses.backed pa then .error (.xlate, a) else .ok pa
    (a.toNat / 2 ^ 48 = 0xFF00 →
      (let own (owned : BitVec 16 → Bool) (loc : Nat) : Prop := at_ = match s.cx with
          | some c => if owned c.id then .ok loc else .error (.prot, a)
          | none => .ok loc
       (x < 0x200000 → own (fun id => s.coreGranted id s.coreId) (locLocal s.coreId x))
       ∧ (∀ o, x = 0x100000000 + o → o < 0x1000000 →
         own (fun id => s.granted id (s.coreId / 8)) (locCluster (s.coreId / 8) o))
       ∧ (∀ o, x = 0x200000000 + o → o < 0x4000000 →
         own (fun id => s.dieGranted id (s.coreId / 96)) (locDie (s.coreId / 96) o)))
      ∧ (∀ k o, x = 0x10000000000 + k * 0x200000 + o → k < 768 → o < 0x200000 →
        at_ = match s.cx with
          | some c => if s.coreGranted c.id k then .ok (locLocal k o) else .error (.prot, a)
          | none => .error (.prot, a))
      ∧ (∀ k o, x = 0x20000000000 + k * 0x1000000 + o → k < 96 → o < 0x1000000 →
        at_ = match s.cx with
          | some c => if s.fuses.clusterPresent k && s.granted c.id k then .ok (locCluster k o) else .error (.prot, a)
          | none => .error (.prot, a))
      ∧ (∀ k o, x = 0x30000000000 + k * 0x4000000 + o → k < 8 → o < 0x4000000 →
        at_ = match s.cx with
          | some c => if s.dieGranted c.id k then .ok (locDie k o) else .error (.prot, a)
          | none => .error (.prot, a))
      ∧ (0x200000 ≤ x → ¬(0x100000000 ≤ x ∧ x < 0x101000000) → ¬(0x200000000 ≤ x ∧ x < 0x204000000) →
        ¬(0x10000000000 ≤ x ∧ x < 0x10000000000 + 768 * 0x200000) →
        ¬(0x20000000000 ≤ x ∧ x < 0x20000000000 + 96 * 0x1000000) →
        ¬(0x30000000000 ≤ x ∧ x < 0x30000000000 + 8 * 0x4000000) → at_ = .error (.prot, a)))
    ∧ (a.toNat / 2 ^ 48 ≠ 0xFF00 →
      (s.cx = none → at_ = .error (.xlate, a))
      ∧ ∀ c, s.cx = some c →
        let covers (g : Range) : Prop := some g ∈ c.ranges.toList ∧ g.base.toNat ≤ a.toNat ∧ a.toNat < g.limit.toNat
        (∀ g, covers g → (∀ h, covers h → h = g) → ends (if w then g.w else g.r) (a + g.offset).toNat)
        ∧ ((¬∃ g, covers g) →
          (a.toNat / 2 ^ 48 ≠ 0 ∨ c.root = 0 → at_ = .error (.xlate, a))
          ∧ (a.toNat / 2 ^ 48 = 0 →
            -- the entry of the table at `t` that the `k` index bits of the address at `sh` choose, and one that is in order
            let index (t sh k : Nat) : Nat := t + 8 * (a.toNat / 2 ^ sh % 2 ^ k)
            let entry (t sh k kind next : Nat) (r w' : Bool) : Prop :=
              t % (8 * 2 ^ k) = 0 ∧ s.fuses.backed (index t sh k) = true
                ∧ s.poison.contains (eccUnit (index t sh k)) = false ∧ next % 4096 = 0 ∧ next < 2 ^ 56
                ∧ s.mem.num (index t sh k) 8 = next + 16 * kind + (if w' then 2 else 0) + (if r then 1 else 0)
            -- no entry there that a walk can use, for the kinds of the level; and one in an uncorrectable unit
            let dead (t sh k : Nat) (kinds : List Nat) : Prop :=
              let e := s.mem.num (index t sh k) 8
              t % (8 * 2 ^ k) ≠ 0 ∨ s.fuses.backed (index t sh k) = false
                ∨ (s.poison.contains (eccUnit (index t sh k)) = false
                  ∧ (e / 2 ^ 56 ≠ 0 ∨ e / 2 ^ 7 % 2 ^ 5 ≠ 0 ∨ e / 2 ^ 2 % 2 ^ 2 ≠ 0 ∨ e / 2 ^ 4 % 2 ^ 3 ∉ kinds))
            let broken (t sh k : Nat) : Prop := t % (8 * 2 ^ k) = 0 ∧ s.fuses.backed (index t sh k) = true
              ∧ s.poison.contains (eccUnit (index t sh k)) = true
            let ended (t sh k : Nat) (kinds : List Nat) : Prop :=
              (dead t sh k kinds → at_ = .error (.xlate, a)) ∧ (broken t sh k → at_ = .error (.machine, a))
            let root := c.root.toNat
            root ≠ 0 →
            ended root 34 14 [1, 3]
            ∧ (∀ p r₃ w₃, entry root 34 14 3 p r₃ w₃ →
              if p % 2 ^ 34 = 0 then ends (if w then w₃ else r₃) (p + a.toNat % 2 ^ 34) else at_ = .error (.xlate, a))
            ∧ ∀ t₂ r₃ w₃, entry root 34 14 1 t₂ r₃ w₃ →
              ended t₂ 28 6 [1, 3]
              ∧ (∀ p r₂ w₂, entry t₂ 28 6 3 p r₂ w₂ →
                if p % 2 ^ 28 = 0 then ends (if w then w₃ && w₂ else r₃ && r₂) (p + a.toNat % 2 ^ 28)
                else at_ = .error (.xlate, a))
              ∧ ∀ t₁ r₂ w₂, entry t₂ 28 6 1 t₁ r₂ w₂ →
                ended t₁ 21 7 [1, 2, 3]
                ∧ (∀ p r₁ w₁, entry t₁ 21 7 3 p r₁ w₁ →
                  if p % 2 ^ 21 = 0 then ends (if w then w₃ && w₂ && w₁ else r₃ && r₂ && r₁) (p + a.toNat % 2 ^ 21)
                  else at_ = .error (.xlate, a))
                ∧ (∀ t₀ r₁ w₁, entry t₁ 21 7 1 t₀ r₁ w₁ → ended t₀ 12 9 [3] ∧ ∀ p r₀ w₀, entry t₀ 12 9 3 p r₀ w₀ →
                  ends (if w then w₃ && w₂ && w₁ && w₀ else r₃ && r₂ && r₁ && r₀) (p + a.toNat % 2 ^ 12))
                ∧ ∀ t₀ r₁ w₁, entry t₁ 21 7 2 t₀ r₁ w₁ → ended t₀ 16 5 [3] ∧ ∀ p r₀ w₀, entry t₀ 16 5 3 p r₀ w₀ →
                  if p % 2 ^ 16 = 0 then
                    ends (if w then w₃ && w₂ && w₁ && w₀ else r₃ && r₂ && r₁ && r₀) (p + a.toNat % 2 ^ 16)
                  else at_ = .error (.xlate, a))))

/-! ### Jobs, tasks and graphs as instructions (R311 to R324, R200) -/

/-- R312 to R316: `job` submits a card that is in order (Table 18-1) to a free slot of its dealing die, over the cores of
R308, and releases at PACKAGE scope to the tasks of the job; `deal` gives the further chunks of the task, one sequence
for its three companion cores; `task.end` waits for its companion core's commands; a full format-word queue makes
`fmt.push` wait. That a graph job launched while the die's engine serves a rebind waits (`launchOrWait`) is the model's
choice (log entry 77). -/
def Obligations.JobsAndChunks : Prop :=
  (∀ (s : State) (card : BitVec 1024),
    let f (lo n : Nat) : Nat := (card.extractLsb' lo n).toNat
    let image (r : Role) : Prop := 1 ≤ f (192 + 16 * r.num) 16 ∧ f (192 + 16 * r.num) 16 ≤ 16384 ∧ f (64 * r.num) 64 % 64 = 0
      ∧ f (256 + 16 * r.num) 16 % 4 = 0 ∧ f (256 + 16 * r.num) 16 < 4 * f (192 + 16 * r.num) 16
    (cardOk card = true ↔
      (f 241 15 = 0 ∧ f 520 8 = 0 ∧ f 540 4 = 0 ∧ f 552 24 = 0 ∧ f 928 96 = 0) ∧ (∀ r, image r)
      ∧ f 304 8 ≤ 15 ∧ f 768 64 % 32 = 0 ∧ f 576 64 % 8 = 0 ∧ 1 ≤ f 480 32 ∧ f 480 32 ≤ 65535
      ∧ (f 240 1 = 1 → 1 ≤ f 896 32 ∧ f 704 64 % 64 = 0 ∧ f 448 32 = 0 ∧ f 416 32 = 0 ∧ f 384 32 = 0 ∧ f 320 64 = 0
        ∧ f 312 8 = 0)
      ∧ (f 240 1 = 0 → f 896 32 = 0 ∧ f 704 64 = 0 ∧ 1 ≤ f 448 32 ∧ 1 ≤ f 416 32 ∧ f 384 32 % 8 = 0 ∧ 8 ≤ f 384 32
        ∧ f 384 32 ≤ 4096 ∧ f 320 64 % 8 = 0 ∧ 1 ≤ f 312 8))
    ∧ (s.coreSet card).Pairwise (· < ·)
    ∧ ∀ n, n ∈ s.coreSet card ↔ n < 768 ∧ s.fuses.present n = true ∧ card.getLsbD (512 + n / 96) = true
        ∧ card.getLsbD (528 + n % 96 / 8) = true ∧ card.getLsbD (544 + n % 8) = true)
  ∧ ∀ (s : State) (d a : SReg), s.prefixNow.bare = true →
    let u := s.drainAll s.cur
    let va := s.rd a
    let dealt (x : State) (v : Word) : Prop :=
      GivesFired (.deal d) s (WroteReg (x.setMe { x.me with deals := x.me.deals + 1 }) d v 4)
    let retired : Prop := ∀ q : QueueId, q.owner = s.cur → (u.core.queue q).cmds = [] ∧ (u.core.queue q).done = []
    (va.toNat % 128 ≠ 0 → RaisesFrom (.job d a) s u .align va s.me.unitPc)
    ∧ (∀ c ea, va.toNat % 128 = 0 → u.load (some 0) va 128 = .error (c, ea) → RaisesFrom (.job d a) s u c ea s.me.unitPc)
    ∧ (∀ y bs, va.toNat % 128 = 0 → u.load (some 0) va 128 = .ok (y, bs) →
      let card : BitVec 1024 := BitVec.ofNat 1024 (leNat bs)
      let ctx := y.core.ctx.getD 0
      let does (x : State) (v : Word) : Prop := GivesFired (.job d a) s (WroteReg x d v 4)
      (cardOk card = false → does y 0xFFFFFFFFFFFFFF01)
      ∧ (cardOk card = true →
        (y.coreSet card = [] → does y 0xFFFFFFFFFFFFFF02)
        ∧ ∀ n rest, y.coreSet card = n :: rest →
          ((∀ i < 64, ∃ j ∈ y.jobs, j.ctx = ctx ∧ j.die = dieOf n ∧ j.slot = i) → does y 0xFFFFFFFFFFFFFF03)
          ∧ ∀ i, y.freeJobSlot ctx (dieOf n) = some i →
            let key := slotKey ctx (dieOf n) 64 i
            let gen := (lookupKey key y.jobGens).getD 0 + 1
            let j : Job := { id := y.jobIds, ctx := ctx, die := dieOf n, slot := i, gen := gen, card := card
                             cores := y.coreSet card, left := (card.extractLsb' 416 32).toNat, next := 0 }
            let x := State.dropPointers { y with
              jobs := y.jobs ++ [j], jobIds := y.jobIds + 1, jobGens := setKey key gen y.jobGens, realloc := true }
            let z := if cardGraph card then x.launchOrWait j else x
            does (z.letGo z.cur 0xFFFF (fun l => scopeHolds .package z.coreId l.loc) (.launch y.jobIds))
              (BitVec.ofNat 64 (gen.toNat * 2 ^ 16 + i))))
    ∧ (u.taskOf u.coreId = none → dealt u 0)
    ∧ (∀ t, u.taskOf u.coreId = some t →
      (u.findJob t.job = none → dealt u 0)
      ∧ ∀ j, u.findJob t.job = some j →
        (cardGraph j.card = true → dealt u 0)
        ∧ (cardGraph j.card = false →
          -- the first chunk of a plain job's own task is the one that it started with
          let i := if t.entry = none then u.me.deals + 1 else u.me.deals
          (∀ first n, t.chunks[i]? = some (first, n) → 0 < n → dealt u (BitVec.ofNat 64 (n * 2 ^ 32 + first)))
          ∧ (t.chunks[i]? = none → j.left = 0 → dealt u 0)
          ∧ (t.chunks[i]? = none → 0 < j.left →
            let size := (j.card.extractLsb' 448 32).toNat
            let ways := max 1 ((j.card.extractLsb' 312 8).toNat * j.cores.length)
            let n := min j.left (max size ((j.left + ways - 1) / ways))
            dealt ((u.putJob { j with left := j.left - n, next := j.next + n }).mapTask u.coreId
              (fun t => { t with chunks := t.chunks ++ [(j.next, n)] })) (BitVec.ofNat 64 (n * 2 ^ 32 + j.next)))))
    ∧ (retired → GivesFired .taskEnd s (Passed (u.setMe { u.me with run := .ended }) 4))
    ∧ (¬retired → WaitsFrom .taskEnd s u)
    ∧ (s.cur = .sequencer → s.core.fmtq.length < 16 →
      Gives (.fmtPush a) s (Passed { s with core := { s.core with fmtq := s.core.fmtq ++ [s.rd a] } } 4))
    ∧ (s.cur = .sequencer → 16 ≤ s.core.fmtq.length → Waits (.fmtPush a) s)

/-- R320 to R324: the graph instructions, each after its companion core's stores. A bind's or rebind's status is what
the balance engine's solution gives; either waits while the die's engine serves a rebind (log entry 77), and `grebind`
that is accepted stays at its own address until its drain has ended, with the outcome of the copy. `fire.wait` acquires
what the ends of the tasks of its periods have released. Status 5 of a `gbind` outside a job is the model's (log entry
25). -/
def Obligations.GraphInstructions : Prop :=
  ∀ (s : State) (d a b : SReg), s.prefixNow.bare = true →
    let u := s.drainAll s.cur
    let x := s.rd a
    let y := s.rd b
    let does (i : Instr) (z : State) (v : Word) : Prop := GivesFired i s (WroteReg z d v 4)
    let status (code v : Nat) : Word := BitVec.ofNat 64 (v * 2 ^ 32 + code)
    (u.jobHere.bind u.findJob = none → does (.gbind d a) u 5)
    ∧ (∀ j, u.jobHere.bind u.findJob = some j →
      let bound := (u.tableRead x).bind u.cx u.coreId (dieOf u.coreId) j x (u.fetchFor u.cx u.coreId)
      (u.rebinding (dieOf u.coreId) = true → WaitsFrom (.gbind d a) s u)
      ∧ (u.rebinding (dieOf u.coreId) = false →
        (∀ c ea, bound = .error (c, ea) → RaisesFrom (.gbind d a) s { u with used := (u.tableRead x).used } c ea s.me.unitPc)
        ∧ ∀ t code v, bound = .ok (t, code, v) → does (.gbind d a) t (status code v)))
    ∧ (u.graphAt x = none →
      does (.grebind d a b) u 8 ∧ does (.fire d a b) u 2 ∧ GivesFired (.fireWait a b) s (Passed u 4)
      ∧ (y ≠ 4 → does (.gstat d a b) u (BitVec.allOnes 64)))
    ∧ (y = 4 → does (.gstat d a b) u (u.jobState x))
    ∧ (∀ g, u.graphAt x = some g →
      (y = 0 ∨ 2 ^ 32 ≤ g.requested + y.toNat → does (.fire d a b) u 5)
      ∧ (y ≠ 0 → g.requested + y.toNat < 2 ^ 32 →
        does (.fire d a b) (u.putGraph { g with requested := g.requested + y.toNat }) (status 0 (g.requested + y.toNat)))
      ∧ (y.toNat % 2 ^ 32 ≤ g.completed → GivesFired (.fireWait a b) s (Passed (u.acquireMet (Meet.endOf g.job (fun e =>
          match e with | some (k, period, _) => k = g.key && period < y.toNat % 2 ^ 32 | none => false))) 4))
      ∧ (g.completed < y.toNat % 2 ^ 32 → WaitsFrom (.fireWait a b) s u)
      ∧ (y = 0 → does (.gstat d a b) u (BitVec.ofNat 64 g.completed))
      ∧ (y = 1 → does (.gstat d a b) u (BitVec.ofNat 64 g.requested))
      ∧ (y = 2 → does (.gstat d a b) u (if g.rebind ≠ none then 3 else if g.completed < g.requested then 2 else 1))
      ∧ (y = 3 → does (.gstat d a b) u (g.plan.hdr.extractLsb' 64 64))
      ∧ (4 < y.toNat → does (.gstat d a b) u (BitVec.allOnes 64))
      ∧ (let mine (r : Rebound) : Bool := r.core = s.coreId && r.role = s.cur && r.pc = s.me.pc
         (g.rebound.find? mine = none →
          (∀ r, g.rebind = some r → ¬(r.core = s.coreId ∧ r.role = s.cur ∧ r.pc = s.me.pc) → does (.grebind d a b) u 8)
          ∧ (∀ r, g.rebind = some r → r.core = s.coreId → r.role = s.cur → r.pc = s.me.pc → WaitsFrom (.grebind d a b) s u)
          ∧ (g.rebind = none → u.rebinding g.die = true → WaitsFrom (.grebind d a b) s u)
          ∧ (g.rebind = none → u.rebinding g.die = false →
            (∀ c ea, u.solveRebind g y = .error (c, ea) →
              RaisesFrom (.grebind d a b) s { u with used := (u.tableRead y).used } c ea s.me.unitPc)
            ∧ (∀ code, u.solveRebind g y = .ok (.error code) → does (.grebind d a b) (u.tableRead y) (status code 0))
            ∧ ∀ plan, u.solveRebind g y = .ok (.ok plan) → GivesFired (.grebind d a b) s
              (Passed ((u.tableRead y).putGraph { g with rebind := some ⟨plan, s.coreId, s.cur, s.me.pc⟩ }) 0)))
         ∧ ∀ r, g.rebound.find? mine = some r →
          (r.fault = none →
            does (.grebind d a b) (u.putGraph { g with rebound := g.rebound.filter (· ≠ r) }) (status 0 x.toNat))
          ∧ ∀ c ea, r.fault = some (c, ea) → RaisesFrom (.grebind d a b) s (u.forgetRebound x) c ea s.me.unitPc))

/-! ### Collective rounds and the fabric as instructions (R278 to R280, R290, R302) -/

/-- R286, R287 and R125: the parameter blocks and the member lists that are sound. R290 and R291: the statuses with which
`coll` refuses, without any release; and the round that it opens otherwise: the group's round number raised in its record,
the release of `fence.x` over every class at GROUP scope, which the round's pulls are ordered behind, a slot taken under a
new generation, the ready report sent where another member coordinates; members that have reported the round's end before
it are known to have ended it. Model's choices: the wait until the combining buffer can be sent (log entry 34), the faults of
the reads of the group record and of the member list, which R290 states for the block alone (log entry 46), the report as a
message of the outbox (log entry 48), that the slot is the lowest of several free ones (log entry 110), and that its
generation rises at each `coll` (log entry 111). -/
def Obligations.CollectiveStart : Prop :=
  (∀ p : BitVec 1024,
    let code (i : Nat) : Nat := (p.extractLsb' i 8).toNat
    let op := code 0
    let algo := code 24
    let word (i : Nat) : Nat := (p.extractLsb' i 64).toNat
    let chunk := (p.extractLsb' 256 32).toNat
    blockOk p = true ↔
      p.extractLsb' 544 480 = 0 ∧ p.extractLsb' 52 12 = 0 ∧ op ≤ 5 ∧ code 8 ≤ 2 ∧ code 16 ≤ 3 ∧ algo ≤ 3
      ∧ (algo = 1 → op ≤ 3) ∧ (algo = 2 → op = 0 ∨ op = 3 ∨ op = 5)
      ∧ (op = 1 ∨ op = 2 ∨ op = 4 → p.extractLsb' 288 32 = 0) ∧ (2 ≤ op → code 8 = 0)
      ∧ (op = 5 → word 64 = 0 ∧ word 128 = 0 ∧ word 192 = 0) ∧ (op ≠ 5 → 1 ≤ word 64 ∧ word 64 ≤ 2 ^ 32)
      ∧ word 128 % 256 = 0 ∧ word 192 % 256 = 0 ∧ word 320 % 8 = 0 ∧ word 448 % 16 = 0
      ∧ chunk % 4096 = 0 ∧ chunk ≤ 2 ^ 24)
  ∧ (∀ (s : State) (l : List (BitVec 32)) (rank : Nat),
    let ctx := s.core.ctx.getD 0
    s.membersOk l rank = true ↔
      (∀ w ∈ l, w.extractLsb' 28 3 = 0 ∧ w.extractLsb' 10 6 = 0 ∧ w.toNat % 1024 ≤ 767
        ∧ (w.getLsbD 31 = false → w.extractLsb' 16 12 = 0 ∧ s.fuses.present (w.toNat % 1024) = true
          ∧ ∃ j ∈ s.jobs, j.ctx = ctx ∧ w.toNat % 1024 ∈ j.cores))
      ∧ ∃ w, l[rank]? = some w ∧ s.wordNode w = s.node.toNat ∧ w.toNat % 1024 = s.coreId)
  ∧ ∀ (s : State) (d a : SReg), s.prefixNow.bare = true → s.cur = .storer →
    let va := s.rd a
    let does (x : State) (v : Word) : Prop := GivesFired (.coll d a) s (WroteReg x d v 4)
    let stopped (used : List (Nat × Nat)) (c : Cause) (ea : Word) : Prop :=
      RaisesFrom (.coll d a) s { s with used := used } c ea s.me.unitPc
    let stops {α : Type} (y : State) (x : Except Flt α) : Prop := ∀ c ea, x = .error (c, ea) → stopped y.used c ea
    let partly {α : Type} (x : Except Stop α) : Prop := ∀ used c ea, x = .error (.trapAfter used c ea) → stopped used c ea
    (va.toNat % 128 ≠ 0 → Raises (.coll d a) s .align va s.me.unitPc)
    ∧ (va.toNat % 128 = 0 → stops s (s.load (some 0) va 128)
      ∧ ∀ y bs, s.load (some 0) va 128 = .ok (y, bs) →
      let p : BitVec 1024 := BitVec.ofNat 1024 (leNat bs)
      let root := (p.extractLsb' 512 32).toNat
      let ga : Word := 0xFF00000200000000 + ((p.extractLsb' 32 20).setWidth 64 <<< 6)
      (blockOk p = false → does y 0xFFFFFFFFFFFFFF01)
      ∧ (blockOk p = true → stops y (y.load (some 0) ga 64)
        ∧ ∀ z gs, y.load (some 0) ga 64 = .ok (z, gs) →
        let g : BitVec 512 := BitVec.ofNat 512 (leNat gs)
        let n := (g.extractLsb' 64 16).toNat
        let rank := (g.extractLsb' 80 16).toNat
        let la : Word := g.extractLsb' 128 64
        let bad := g.extractLsb' 192 320 ≠ 0 ∨ la.toNat % 4 ≠ 0 ∨ n = 0 ∨ 4096 < n ∨ n ≤ rank ∨ n ≤ root
        let list := z.loadParts (some 0) la (cuts la.toNat 6 0 (4 * n))
        (bad → does z 0xFFFFFFFFFFFFFF03)
        ∧ (¬bad → partly list
          ∧ ∀ m ls, list = .ok (m, ls) →
          let l := (List.range (ls.length / 4)).map (fun k => BitVec.ofNat 32 (leNat ((ls.drop (4 * k)).take 4)))
          let sends := m.hbmCheck (p.extractLsb' 128 64) (bufferBytes p n (rank = root)).1 false
          let recvs (b : State) := b.hbmCheck (p.extractLsb' 192 64) (bufferBytes p n (rank = root)).2 true
          let number (b : State) := b.putFor b.cx b.coreId (ga + 12) (leBytes 4 ((g.extractLsb' 96 32).toNat + 1))
          (m.membersOk l rank = false → does m 0xFFFFFFFFFFFFFF03)
          ∧ (m.membersOk l rank = true →
            ((∀ i < 8, m.myColl.slot i ≠ none) → does m 0xFFFFFFFFFFFFFF02)
            ∧ ∀ i < 8, m.myColl.slot i = none → (∀ j < i, m.myColl.slot j ≠ none) →
              partly sends ∧ ∀ b1, sends = .ok b1 → partly (recvs b1) ∧ ∀ b2, recvs b1 = .ok b2 → stops b2 (number b2)
              ∧ ∀ t, number b2 = .ok t →
                (t.combinedReady (fun _ => true) = false → Waits (.coll d a) s)
                ∧ (t.combinedReady (fun _ => true) = true →
                  let grouped : State := { t with groups := if t.groups.contains l then t.groups else t.groups ++ [l] }
                  let f := (grouped.fencedX 0xFFFF .group).notePort .storer (t.portKey (.round i))
                  let mine := f.myColl
                  let gen := (mine.gens[i]?).getD 0 + 1
                  let id : RoundId := ⟨mine.ctx, (g.extractLsb' 0 32), g.extractLsb' 32 32, g.extractLsb' 96 32⟩
                  let r : Round := {
                    got := (mine.ends.filter (fun x => x.1 = id)).map (fun x => (x.2, endStep))
                    block := p, group := g, members := l, n := g.extractLsb' 96 32, algo := resolveAlgo p n, job := f.jobHere
                    task := f.core.taskNo, issued := f.cycle, since := f.cycle, ready := if rank = root then [rank] else [] }
                  let opened (r : Round) : State := f.setCollUnit { mine with
                    ends := mine.ends.filter (fun x => x.1 ≠ id), gens := mine.gens.setIfInBounds i gen
                    rounds := mine.rounds.setIfInBounds i (some r) }
                  let handle : Word := BitVec.ofNat 64 (gen.toNat * 2 ^ 16 + i)
                  (∀ w, l[root]? = some w → rank ≠ root → f.wordNode w = f.node.toNat →
                    does { opened r with outbox := f.outbox ++ [.coll none w (r.id mine.ctx) rank 0 .ready] } handle)
                  ∧ (∀ w die alt, l[root]? = some w → rank ≠ root → f.wordNode w ≠ f.node.toNat →
                    f.choosePath f.coreId (f.wordNode w) = some (die, alt) →
                    let e := f.pathEntry die (f.wordNode w) alt
                    let hdr := packetHeader (f.control mine.ctx 0 10 0xFF 0) e (BitVec.ofNat 12 (f.wordNode w))
                    does { (opened r).spend ((opened r).findCtx mine.ctx) (packetBytes 0) with
                      outbox := f.outbox ++ [.coll (some (portOf die e, hdr)) w (r.id mine.ctx) rank 0 .ready] } handle)
                  ∧ (rank ≠ root → does ((opened r).sendColl mine.ctx r root 0 .ready) handle)
                  ∧ (rank = root → n ≠ 1 → does (opened r) handle)
                  ∧ (rank = root → n = 1 → does (opened { r with parts := some [0] }) handle))))))

/-- R302: `cwait` waits for the end of the round that its handle names, gives its status and frees its slot; `cstat`
reads it; a handle that names no round gives all ones. R278 to R280: the batch of the open tag closes where the next
tag is free; `bwait` passes once no more batches are closed and incomplete than its operand; `bstat` reads a batch and
`path` the routes of the core's die. -/
def Obligations.CollectivesAndPaths : Prop :=
  (∀ (s : State) (d a b : SReg), s.prefixNow.bare = true → s.cur = .storer →
    let u := s.myColl
    let ones := BitVec.allOnes 64
    (u.current (s.rd a) = none →
      Gives (.cwait d a) s (WroteReg s d ones 4) ∧ Gives (.cstat d a b) s (WroteReg s d ones 4))
    ∧ ∀ i r, u.current (s.rd a) = some (i, r) →
      (r.state = .running → Waits (.cwait d a) s)
      ∧ (r.state ≠ .running → Gives (.cwait d a) s
        (WroteReg (s.setCollUnit { u with rounds := u.rounds.setIfInBounds i none }) d (BitVec.ofNat 64 r.status) 4))
      ∧ (s.rd b = 0 →
        let state := match r.state with | .running => 1 | .complete => 2 | .aborted => 3
        let parts := match r.parts with | some l => l.length | none => if r.rank = r.root then r.ready.length else 0
        Gives (.cstat d a b) s
          (WroteReg s d (BitVec.ofNat 64 (state * 2 ^ 62 + r.sent % 2 ^ 16 * 2 ^ 32 + parts)) 4))
      ∧ (s.rd b = 1 → Gives (.cstat d a b) s (WroteReg s d ((r.group.extractLsb' 32 32).setWidth 64) 4))
      ∧ (1 < (s.rd b).toNat → Gives (.cstat d a b) s (WroteReg s d ones 4)))
  ∧ (∀ (s : State) (d a b : SReg) (n : BitVec 2), s.prefixNow.bare = true → s.cur = .storer →
    let tag := s.core.openTag
    let next := s.core.batches[(tag + 1).toNat].state
    let open_ := ((List.range 4).filter (fun t => (s.core.batches[t]?).map (·.state) = some .closed)).length
    let ones := BitVec.allOnes 64
    let x := (s.rd a).toNat
    let y := (s.rd b).toNat
    let seen := s.acquireBatches (fun t => s.rd b = 0 && s.rd a = BitVec.ofNat 64 t)
    let stat (v : Word) : Prop := Gives (.bstat d a b) s (WroteReg seen d v 4)
    let path (v : Word) : Prop := Gives (.path d a b) s (WroteReg s d v 4)
    (next = .empty ∨ next = .complete → GivesFired (.bcls d) s (WroteReg s.closeBatch d (tag.setWidth 64) 4))
    ∧ (next = .opened ∨ next = .closed → Waits (.bcls d) s)
    ∧ (open_ ≤ n.toNat → Gives (.bwait n) s (Passed (s.acquireBatches (fun _ => true)) 4)) ∧ (n.toNat < open_ → Waits (.bwait n) s)
    ∧ (3 < x ∨ 65 < y → stat ones)
    ∧ (∀ c, s.core.batches[x]? = some c →
      (y = 0 → stat (BitVec.ofNat 64 ((match c.state with | .empty => 0 | .opened => 1 | .closed => 2 | .complete => 3) * 2 ^ 62
        + (if c.errors ≠ 0 then 2 ^ 61 else 0) + c.peers.length * 2 ^ 32 + c.count.toNat)))
      ∧ (y = 1 → stat c.errors)
      ∧ (∀ k p, y = k + 2 → y ≤ 65 → c.peers[k]? = some p → stat (p.setWidth 64))
      ∧ ∀ k, y = k + 2 → y ≤ 65 → c.peers[k]? = none → stat ones)
    ∧ (x ≤ 4095 → y ≤ 3 → path (s.pathEntry (dieOf s.coreId) x y))
    ∧ (x ≤ 4095 → y = 4 → ∀ die alt, s.choosePath s.coreId x = some (die, alt) → path (BitVec.ofNat 64 (die * 4 + alt)))
    ∧ (x ≤ 4095 → y = 4 → s.choosePath s.coreId x = none → path ones)
    ∧ (y = 5 → path (BitVec.ofNat 64 (s.liveness (dieOf s.coreId)))) ∧ (y = 6 → path (s.node.setWidth 64))
    ∧ (4095 < x ∧ y ≤ 4 ∨ 6 < y → path ones))

/-! ### Engine commands as they issue (R47 to R49, R161, R165)

An engine command's instruction completes by its entry into its queue; what the engine then does is the step of the event
`engineCommandExecute`. -/

/-- R164 and R165: the vector loads and stores, with their two captured scalar operands. -/
def Obligations.VectorMemoryCommands : Prop :=
  ∀ (s : State) (h : EHdr) (t : ElemType) (v x : VReg) (a b : SReg) (bm : Option VbmReg) (n : VbmReg),
    let g := 2 ^ s.me.vcfg.grp.toNat
    let check (ok : Bool) : Option (Cause × Word) := if ok then none else some (.illegal, 0)
    let fits := t.width = s.me.vcfg.ew.bytes ∧ v.toNat % g = 0 ∧ v.toNat + g ≤ 512
    let index := x.toNat + s.me.vcfg.indexRegs ≤ 512
    let meets := x.toNat < v.toNat + g ∧ v.toNat < x.toNat + s.me.vcfg.indexRegs
    let load (i : Instr) (ok : Bool) (ops : List Word) : Prop :=
      Issues s i h .loader .loaderVec { mask := true, tail := true } false (check ok) ops [] s
    let store (i : Instr) (ok : Bool) (ops : List Word) : Prop :=
      Issues s i h .storer .storerVec { mask := true } false (check ok) ops [] s
    load (.vld h t v a) (decide fits) [s.rd a, 0] ∧ load (.vlds h t v a b) (decide fits) [s.rd a, s.rd b]
    ∧ load (.vldx h t v a x bm) (decide (fits ∧ index ∧ ¬meets)) [s.rd a, 0]
    ∧ load (.vldff h t v a n) (decide fits) [s.rd a, 0]
    ∧ store (.vst h t v a) (decide fits) [s.rd a, 0] ∧ store (.vsts h t v a b) (decide fits) [s.rd a, s.rd b]
    ∧ store (.vstx h t v a x bm) (decide (fits ∧ index)) [s.rd a, 0]

/-- R219 to R232 at issue: which prefix fields each vector command takes, and its operand checks. That the narrower sources of
`vdot` are checked with the group size of its destination is the model's (log entry 105). -/
def Obligations.VectorCommands : Prop :=
  ∀ (s : State) (h : EHdr) (t u : ElemType) (d a b : VReg) (k l m : KReg) (n : BitVec 15) (j : BitVec 12)
    (cc : VCond) (op : ScanOp),
    let g := 2 ^ s.me.vcfg.grp.toNat
    let fits (l : List VReg) : Bool := decide (t.width = s.me.vcfg.ew.bytes)
      && l.all (fun r => decide (r.toNat % g = 0 ∧ r.toNat + g ≤ 512))
    let vec (i : Instr) (k : Takes) (ok : Bool) : Prop :=
      Issues s i h .sequencer .seqVec k false (if ok then none else some (.illegal, 0)) [] [] s
    let all : Takes := ⟨t.isFloat, true, true, true⟩
    let noRound : Takes := ⟨false, true, true, true⟩
    let masked : Takes := ⟨false, false, true, true⟩
    let fn : Takes := ⟨t.isFloat && decide (t ≠ .f32), false, true, true⟩
    let int := !t.isFloat
    let three := fits [d, a, b]
    let two := fits [d, a]
    (vec (.vadd h t d a b) all three ∧ vec (.vsub h t d a b) all three ∧ vec (.vmul h t d a b) all three
      ∧ vec (.vfma h t d a b) all three ∧ vec (.vfms h t d a b) all three ∧ vec (.vfnma h t d a b) all three
      ∧ vec (.vdiv h t d a b) all three ∧ vec (.vredsum h t d a b) all three)
    ∧ (vec (.vmin h t d a b) masked three ∧ vec (.vmax h t d a b) masked three ∧ vec (.vand h t d a b) masked three
      ∧ vec (.vor h t d a b) masked three ∧ vec (.vxor h t d a b) masked three ∧ vec (.vsel h t d a b k) masked three
      ∧ vec (.vredmax h t d a b) masked three ∧ vec (.vredmin h t d a b) masked three
      ∧ vec (.vperm h t d a b) masked three ∧ vec (.vcmp h cc t k a b) masked (fits [a, b]))
    ∧ (vec (.vnot h t d a) masked two ∧ vec (.vslideup h t d a n) masked two ∧ vec (.vslidedn h t d a n) masked two
      ∧ vec (.vbcast h t d a j) masked two ∧ vec (.vmv h t d a) masked two)
    ∧ (vec (.vshl h t d a b) masked (int && three) ∧ vec (.vshr h t d a b) masked (int && three)
      ∧ vec (.vsra h t d a b) masked (int && three) ∧ vec (.viota h t d k) masked (int && fits [d]))
    ∧ (vec (.vabs h t d a) noRound two ∧ vec (.vneg h t d a) noRound two)
    ∧ (vec (.vsqrt h t d a) ⟨t.isFloat, false, true, true⟩ (t.isFloat && two)
      ∧ vec (.vrsqrt h t d a) fn (t.isFloat && two) ∧ vec (.vrcp h t d a) fn (t.isFloat && two)
      ∧ vec (.vexp2 h t d a) fn (t.isFloat && two) ∧ vec (.vlog2 h t d a) fn (t.isFloat && two))
    ∧ vec (.vcvt h t u d a) ⟨t.isFloat || u.isFloat, true, true, true⟩ (s.me.vcfg.fits t d && s.me.vcfg.fits u a)
    ∧ vec (.vscan h op t d a) ⟨t.isFloat && decide (op = .sum), decide (op = .sum), true, true⟩ two
    ∧ vec (.vcomp h t d a k) ⟨false, false, false, true⟩ two
    ∧ vec (.vrot h t d a b) ⟨true, false, true, true⟩ (decide (t = .f32 ∨ t = .f16 ∨ t = .bf16) && three)
    ∧ vec (.vdot h t u d a b) ⟨u.isFloat, true, true, true⟩ (dotPair t u && three)
    ∧ (vec (.vseed h a) {} true ∧ vec (.kand h k l m) {} true ∧ vec (.kor h k l m) {} true
      ∧ vec (.kxor h k l m) {} true ∧ vec (.knot h k l) {} true)

/-- R105, R127 and R143: tile moves, pulls and publications, with their operand checks in order; a tile move or pull
clears its tag bit, and a pull marks its take and gives the address of the take's place. What the fences of the companion core
have ordered before a pull or a publication is noted as it issues (R347, log entry 71). -/
def Obligations.PortCommands : Prop :=
  ∀ (s : State) (h : EHdr) (d a b c : SReg) (tag : BitVec 6) (tags : Word),
    (∀ j < 64, tags.getLsbD j = (s.core.tags.getLsbD j && decide (j ≠ tag.toNat))) →
    let off (n : Nat) (r : SReg) : Option (Cause × Word) := if (s.rd r).toNat % n ≠ 0 then some (.align, s.rd r) else none
    let length (r : SReg) : Option (Cause × Word) :=
      if (s.rd r).toNat % 64 ≠ 0 ∨ 2 ^ 32 ≤ (s.rd r).toNat then some (.align, s.rd r) else none
    let untagged : State := { s with core := { s.core with tags := tags } }
    let clears (v : State) : State := v.clearTags (1#64 <<< tag.toNat)
    let port (i : Instr) (bad : Option (Cause × Word)) (ops : List Word) (u : State) (marks : State → State) : Prop :=
      Issues s i h .loader .loaderPort {} false bad ops [] u marks
    let tile (i : Instr) (bad : Option (Cause × Word)) (ops : List Word) : Prop := port i bad ops untagged clears
    let pub (i : Instr) (bad : Option (Cause × Word)) (ops : List Word) : Prop :=
      Issues s i h .storer .storerPort {} false bad ops [] s
        (fun v => v.notePort .storer (v.portKey (.pub (s.core.queue .storerPort).seq)))
    let x := s.rd a; let y := s.rd b; let z := s.rd c; let w := s.rd d
    (tile (.tmov h a b c tag) ((off 64 a).or ((off 64 b).or (length c))) [x, y, z, 0]
      ∧ tile (.tmovFp h a b c d tag) ((off 64 a).or ((off 64 b).or ((length c).or ((off 4096 c).or (off 8 d)))))
        [x, y, z, w]
      ∧ tile (.tfill h a b c tag) ((off 64 a).or (length c)) [x, y, z, 0]
      ∧ tile (.tcmp h a b c d tag) ((off 64 a).or ((off 64 b).or ((length c).or (off 8 d)))) [x, y, z, w])
    ∧ (s.core.port.current x = none →
      port (.pull h d a tag) (some (.prot, x)) [] s id ∧ port (.pullF h d a b c tag) (some (.prot, x)) [] s id)
    ∧ (∀ i t, s.core.port.current x = some (i, t) →
      let bad : Option (Cause × Word) := if t.pull ≠ .none then some (.prot, x) else none
      let follow : Option (Cause × Word) := if followOn y = none then some (.illegal, 0) else none
      let taken : State := ({ s with core := { s.core with
        tags := tags, port := s.core.port.setTake i (some { t with pull := .queued }) } }).wr d
          (0xFF00000000000000 + BitVec.ofNat 64 ((s.core.port.policy.extractLsb' 0 32).toNat + t.place))
      let ordered (v : State) : State := (clears v).notePort .loader (v.portKey (.take i))
      port (.pull h d a tag) bad [x] taken ordered ∧ port (.pullF h d a b c tag) (bad.or follow) [x, y, z] taken ordered)
    ∧ pub (.pub h a b c) ((off 32 a).or (off 8 c)) [x, y, z, 0]
    ∧ pub (.pubMc h a b c d) ((off 32 a).or ((off 8 c).or
      (if y.toNat % 4 ≠ 0 ∨ w = 0 ∨ 64 < w.toNat then some (.prot, y) else none))) [x, y, z, w]

/-- R200 to R212 at issue: a matrix command whose views have not the kinds, formats and sizes that suit it raises
ILLEGAL; `mload`, `mload.vq`, `mmma` and `mmma.sp` alone take a format word, `mout` and `mout.ret` alone take a
rounding or saturation field. That `mload` of format 23 is refused by its format word, and not at issue, is the
model's reading (log entry 38). -/
def Obligations.MatrixCommands : Prop :=
  ∀ (s : State) (h : EHdr) (vd va : WReg) (m : BitVec 3) (cost : BitVec 4) (cnt : BitVec 2) (lay trap : Bool)
    (e : BitVec 16) (x : SReg),
    let view (w : WReg) : Word := s.core.views[w.toNat]
    let a := View.ofWord (view va)
    let d := View.ofWord (view vd)
    let mat (i : Instr) (pops narrows : Bool) (ok : Bool) (ops views : List Word) : Prop :=
      Issues s i h .sequencer .seqMat { rnd := narrows, sat := narrows } pops
        (if ok then none else some (.illegal, 0)) ops views s
    let tile (v : View) : Prop := v.kind = 1
    let acc (v : View) : Prop := v.kind = 2
    let vector (v : View) : Prop := v.kind = 3
    -- the rows of a B tile run along K or along N; a macro has 64 columns for FP16 and 128 else, and 256 or 512 logical rows
    let alongK := a.fmt ≤ 6 ∨ 13 ≤ a.fmt ∧ a.fmt ≤ 16
    let loads : Bool := decide (tile a ∧ (alongK → a.rows ≤ 256 ∧ a.cols ≤ if a.fmt = 1 then 64 else 128)
      ∧ (¬alongK → a.fmt ≠ 23 → a.rows ≤ 128 ∧ a.cols ≤ if 24 ≤ a.fmt ∧ a.fmt ≤ 27 then 512 else 256))
    let n := 2 ^ cnt.toNat
    let multiplies (k : Nat) : Bool := decide (acc d ∧ tile a ∧ m.toNat % n = 0 ∧ a.cols % 32 = 0 ∧ 32 ≤ a.cols
      ∧ (a.cols ≤ if lay then k * n else k) ∧ a.rows = d.rows ∧ a.rows ≤ 64
      ∧ if lay then d.cols = 64 ∨ d.cols = 128 else d.cols = 64 * n ∨ d.cols = 128 * n)
    let compresses : Bool := decide (tile d ∧ tile a
      ∧ (a.fmt = 7 ∧ d.fmt = 27 ∧ a.rows = d.rows ∧ a.cols = d.cols
        ∨ (a.fmt = 2 ∧ d.fmt = 24 ∨ a.fmt = 6 ∧ d.fmt = 25 ∨ a.fmt = 0 ∧ d.fmt = 26)
          ∧ a.rows % 4 = 0 ∧ a.rows = d.cols ∧ a.cols = d.rows))
    let writes : Bool := decide (vector d ∧ acc a ∧ d.rows = a.rows ∧ d.cols = a.cols)
    (mat (.mload h m va) true false loads [] [view va] ∧ mat (.mloadVq h m va) true false loads [] [view va]
      ∧ mat (.mmma h cost vd va m cnt lay) true false (multiplies 256) [] [view vd, view va]
      ∧ mat (.mmmaSp h cost vd va m cnt lay) true false (multiplies 512) [] [view vd, view va])
    ∧ (mat (.mcode h va) false false (decide (vector a ∧ a.fmt = 4 ∧ a.rows = 1 ∧ a.cols = 256)) [] [view va]
      ∧ mat (.mcomp h vd va) false false compresses [] [view vd, view va]
      ∧ mat (.outl h va) false false (decide (tile a ∧ a.fmt = 23 ∧ a.rows = 1 ∧ a.cols ≤ 512)) [] [view va]
      ∧ mat (.azero h vd e) false false (decide (acc d)) [] [view vd]
      ∧ mat (.aexp h vd x) false false (decide (acc d)) [s.rd x] [view vd]
      ∧ mat (.anorm h vd) false false (decide (acc d)) [] [view vd])
    ∧ (mat (.mout h vd va trap) false true writes [] [view vd, view va]
      ∧ mat (.moutRet h vd va trap) false true writes [] [view vd, view va])

/-- R241, R242, R244 to R254 at issue: the attention commands, `att.kv` of the loader and the others of the sequencer,
with their operand checks. -/
def Obligations.AttentionCommands : Prop :=
  ∀ (s : State) (h : EHdr) (vd va : WReg) (a b c : SReg) (pb : PbReg) (st : Bool),
    let view (w : WReg) : Word := s.core.views[w.toNat]
    let shape (w : WReg) : View := View.ofWord (view w)
    let check (ok : Bool) : Option (Cause × Word) := if ok then none else some (.illegal, 0)
    let align (n : Nat) : Option (Cause × Word) := if (s.rd a).toNat % n ≠ 0 then some (.align, s.rd a) else none
    let att (i : Instr) (narrows : Bool) (bad : Option (Cause × Word)) (ops views : List Word) : Prop :=
      Issues s i h .sequencer .seqAtt { rnd := narrows, sat := narrows } false bad ops views s
    let rows (w : WReg) : Bool := decide ((shape w).kind = 3 ∧ (shape w).rows ≤ 64
      ∧ ((shape w).cols = 128 ∧ (shape w).elemType.isFloat = true ∨ (shape w).cols = 130 ∧ (shape w).elemType = .f32))
    att (.attQ h va a b c pb) false (check (decide ((shape va).kind = 1 ∧ (shape va).fmt = 0 ∧ (shape va).cols = 128
      ∧ (shape va).rows ≤ 64 ∧ (s.rd a).toNat < 2 ^ 33))) [s.rd a, s.rd b, s.rd c] [view va]
    ∧ att (.attQF h va) false (check (decide ((shape va).kind = 3 ∧ (shape va).elemType = .ui32 ∧ (shape va).rows = 1
      ∧ (shape va).cols = 128))) [] [view va]
    ∧ Issues s (.attKv h a b pb st) h .loader .loaderAtt {} false
      ((align 16).or (check (decide ((s.rd b).toNat < 2 ^ 32)))) [s.rd a, s.rd b] [] s
    ∧ att (.attRun h st) false none [] []
    ∧ att (.attOut h vd) true (check (rows vd)) [] [view vd]
    ∧ att (.attMerge h vd va) true (check (rows vd && decide ((shape va).kind = 3 ∧ (shape va).elemType = .f32
      ∧ (shape va).cols = 130 ∧ (shape va).rows % (shape vd).rows = 0))) [] [view vd, view va]
    ∧ att (.attPlan h a) false (align 32) [s.rd a] []

/-- R268 and R269: the remote word commands take the open batch's tag as they issue; a misaligned operand raises
ALIGN, a bad node word or a target in the core's own window PROT. -/
def Obligations.RemoteCommands : Prop :=
  ∀ (s : State) (h : EHdr) (op : RamoOp) (d a b c : SReg) (n : BitVec 3),
    let size := 2 ^ n.toNat
    let off (k : Nat) (r : SReg) : Option (Cause × Word) := if (s.rd r).toNat % k ≠ 0 then some (.align, s.rd r) else none
    let source : Option (Cause × Word) := if 16 ≤ size then off size b else none
    let node : Option (Cause × Word) := if 4096 ≤ (s.rd c).toNat then some (.prot, s.rd c) else none
    let count : Option (Cause × Word) := if s.rd c = 0 ∨ 4 < (s.rd c).toNat then some (.prot, s.rd c) else none
    let own : Option (Cause × Word) := if (s.rd a).toNat / 2 ^ 40 = 0xFF0000 then some (.prot, s.rd a) else none
    let remote (i : Instr) (bad : Option (Cause × Word)) (ops : List Word) : Prop :=
      Issues s i h .storer .storerRemote {} false bad (ops ++ [s.core.openTag.setWidth 64]) [] s
    remote (.rst h a b c n) ((off size a).or (source.or (node.or own))) [s.rd a, s.rd b, s.rd c, 0]
    ∧ remote (.rstMc h a b c n) ((off 32 a).or (source.or (count.or own))) [s.rd a, s.rd b, s.rd c, 0]
    ∧ remote (.rld h d a c n) ((off size a).or (node.or own)) [s.rd a, 0, s.rd c, 0]
    ∧ remote (.ramo h op d a b c n) ((off size a).or (node.or own)) [s.rd a, s.rd b, s.rd c, s.rd d]

/-! ### The steps that the part makes without an instruction (95_what_each_step_holds)

An event whose conditions do not hold changes nothing. -/

/-- R14, R25, R44, R45, R76, R197, R359 to R361 and R376: an engine takes the head of its queue, the stores that it follows
having performed and the writes of its earlier commands being whole, to its end, its fault or its wait; an executed command
retires with its tag and its pushes; a fault captures the queue and posts its trap; a companion core takes a posted trap; a `wfi`
deadline posts TIMER, unless a trap was posted before it. What the engine may use of the units that its companion core read
ahead is its command's for as long as it executes (log entry 70). -/
def Obligations.EngineAndTrapEvents : Prop :=
  ∀ (s t : State) (q : QueueId) (c : Cmd) (rest : List Cmd) (cause : Cause) (ea : Word) (p : Progress) (r : Role),
    let asks (t : State) : State := if q = .storerRemote then t.askBatches else t
    let me := s.core.comp r
    let v := s.readyHead q c
    (s.live = false ∨ s.core.canExecute q = false → exec (.engineCommandExecute q) s = .next s)
    ∧ (s.core.torn = [] → (s.core.comp q.owner).sbuf = [] → v = { s with core := { s.core with exec := some (q, c.num) } })
    ∧ (∀ x ∈ v.core.torn, x.q ≠ q ∧ (q = .seqMat → x.q ≠ .followOn) ∧ (q = .followOn → x.q ≠ .seqMat))
    ∧ (s.live = true → s.core.canExecute q = true → (s.core.queue q).cmds = c :: rest →
      (runCmd c v = .done t → exec (.engineCommandExecute q) s = .next (asks ((t.rest q true).finishHead q)))
      ∧ (runCmd c v = .fault t cause ea p →
        exec (.engineCommandExecute q) s = .next (asks ((t.rest q true).capture q cause ea p)))
      ∧ (runCmd c v = .wait t → exec (.engineCommandExecute q) s = .next (asks (t.rest q false))))
    ∧ (∀ ended : Bool,
      let k := t.core.comp q.owner
      let own (e : Early) : Bool := e.cmd.isSome && e.cmd = t.core.exec
      let y := t.setComp q.owner { k with early := if ended then k.early.filter (fun e => !own e) else k.early }
      t.rest q ended = { y with core := { y.core with exec := none } })
    ∧ ((t.core.queue q).cmds = c :: rest →
      ((t.finishHead q).core.queue q).cmds = rest ∧ ((t.finishHead q).core.queue q).done = (t.core.queue q).done ++ [c]
      ∧ ((t.capture q cause ea p).core.queue q).cmds = [] ∧ ((t.capture q cause ea p).core.queue q).stopped = true
      ∧ ((t.capture q cause ea p).core.queue q).captured.length = (t.core.queue q).captured.length + 1 + rest.length
      ∧ ((t.core.comp q.owner).run = .running → ((t.capture q cause ea p).core.comp q.owner).posted
          = (t.core.comp q.owner).posted ++ [⟨cause, ea, .engine q⟩]))
    ∧ (s.core.retirable q = none → exec (.engineCommandRetire q) s = .next s)
    ∧ (s.core.retirable q = some c → q ≠ .followOn → q ≠ .storerRemote → Gives (.engineCommandRetire q) s (fun u =>
      (u.core.queue q).done = (s.core.queue q).done.drop 1 ∧ (u.core.queue q).cmds = (s.core.queue q).cmds
      ∧ (∀ k, u.core.tokens.get k = s.core.tokens.get k + (c.pushes q).count k)
      ∧ (∀ i < 64, u.core.tags.getLsbD i
        = (s.core.tags.getLsbD i || decide (c.instr.tag = some (BitVec.ofNat 6 i))))
      ∧ u.mem = s.mem ∧ (s.core.torn = [] → u.core.rs = s.core.rs) ∧ ∀ r, u.core.comp r = s.core.comp r))
    ∧ (s.core.retirable q = some c → q = .followOn ∨ q = .storerRemote →
      exec (.engineCommandRetire q) s = .next (s.retire q c))
    ∧ (s.trapReady r = false → exec (.trapEntry r) s = .next s)
    ∧ (∀ x l, s.trapReady r = true → me.posted = x :: l → exec (.trapEntry r) s =
      .next ((s.setComp r { me with posted := l }).takeTrap r x me.unitPc true))
    ∧ (∀ d, me.wfi = some d → me.waiting = true → me.run = .running → me.posted = [] → d.toNat ≤ s.cycle.toNat →
      exec (.timer r) s = .next (s.setComp r { me with
        posted := [⟨.timer, d, .async⟩], waiting := false, wfi := none, pfx := none, pc := me.pc + 4 }))
    ∧ (me.wfi = none ∨ me.posted ≠ [] → exec (.timer r) s = .next s)

/-- R155, R219, R223 and R228: an integer `vadd`, `vsub`, `vmul`, `vand`, `vor` or `vxor` at the head of the
sequencer's vector queue, with no prefix field and an undisturbed tail, writes each element below vl, wrapped to its
width, and no other byte of register space; its command then waits for its retirement. -/
def Obligations.IntegerVectorElements : Prop :=
  ∀ (s : State) (c : Cmd) (rest : List Cmd) (h : EHdr) (t : ElemType) (d a b : VReg),
    EngineReady s .seqVec c rest → s.core.rs.Wf → t.isFloat = false → c.pfx = Prefix.none → c.vcfg.tail = false →
    let w := t.width
    let vl := c.vcfg.vl.toNat
    let elem (k : Core) (r : VReg) (i : Nat) : Nat := k.rs.num (r.toNat * 1536 + i * w) w
    let does (f : Nat → Nat → Nat) : Prop := EngineEnds s .seqVec c rest (fun u =>
      (∀ i < vl, elem u.core d i = f (elem s.core a i) (elem s.core b i) % 2 ^ (8 * w))
      ∧ (∀ x, x < d.toNat * 1536 ∨ d.toNat * 1536 + vl * w ≤ x → u.core.rs.read x = s.core.rs.read x)
      ∧ u.core.rs.Wf ∧ u.mem = s.mem ∧ u.core.k = s.core.k)
    (c.instr = .vadd h t d a b → does (fun x y => x + y))
    ∧ (c.instr = .vsub h t d a b → does (fun x y => x + 2 ^ (8 * w) - y))
    ∧ (c.instr = .vmul h t d a b → does (fun x y => x * y))
    ∧ (c.instr = .vand h t d a b → does (fun x y => x &&& y))
    ∧ (c.instr = .vor h t d a b → does (fun x y => x ||| y))
    ∧ (c.instr = .vxor h t d a b → does (fun x y => x ^^^ y))

/-- R405 to R409, R413, R414, R69 and R103: what the host's writes and the part's own power, error and reset events
do; a reset brings up a part that is up or has tripped from nothing, and ends a bring-up that is on its way; and the context
records that are sound (R331, R408, Table 26-2). The order of the refusals of CTXCMD (a used identifier, 256 contexts, a bad
record) and the launch in a context that is being destroyed are the model's (log entry 59); so are the job that CANCEL takes where
the jobs of two dies share its handle (log entry 51), and the links that a reset sets again from the fuses (log entry 86). -/
def Obligations.HostEvents : Prop :=
  ∀ (s : State) (id : BitVec 16) (handle : BitVec 32) (op : BitVec 4) (off : BitVec 22) (unit : Nat) (v : Word),
    let w := s.window
    let stat (i : Instr) (s : State) (code : Word) : Prop :=
      Gives i s (fun t => t = { s with window := { s.window with ctxStat := code } })
    let host := s.mem.filter (fun c => isHost c.1)
    (w.ready = true ∨ w.tripped = true → exec .reset s = .next { State.reset with
      agenda := s.agenda, outbox := s.outbox, fuses := s.fuses, links := s.fuses.links, ticks := s.ticks, mem := host
      window := { ready := true } })
    ∧ (w.ready = false → w.tripped = false → exec .reset s = .next { s with
      mem := host, poison := s.poison.filter isHost, lost := [], lag := [], window := { w with ready := true } })
    ∧ exec .faultClear s = .next { s with window := { w with fault := 0, faddr := 0 } }
    ∧ exec .thermalTrip s = .next { s with window := { w with tripped := true }, outbox := s.outbox ++ [.msix 0] }
    ∧ exec .powerThrottle s = .next s ∧ exec (.hbmScrub unit) s = .next s
    ∧ exec (.eccError unit false) s = .next s
    ∧ Gives (.eccError unit true) s (fun t => eccUnit unit ∈ t.poison ∧ t.mem = s.mem
      ∧ ∀ x, x ≠ eccUnit unit → (x ∈ t.poison ↔ x ∈ s.poison))
    ∧ Gives (.plimitWrite v) s (fun t => t.window.plimit.toNat = max 1000 (min 4800 (v.toNat % 8192))
      ∧ t = { s with window := { w with plimit := t.window.plimit } })
    ∧ (let writes (o : BitVec 22) (y : Window) : Prop := exec (.hostRegisterWrite o v) s =
        .next ({ s with window := y }).fireAll
       writes 0x10 { w with ctxAddr := v }
       ∧ (v.getLsbD 63 = true → writes 0x30 { w with fault := 0, faddr := 0 })
       ∧ (v.getLsbD 63 = false → writes 0x30 { w with fault := w.fault &&& ~~~v })
       ∧ writes 0x38 { w with plimit := BitVec.ofNat 13 (max 1000 (min 4800 (v.toNat % 8192))) }
       ∧ (∀ k : Fin 16, writes (BitVec.ofNat 22 (0x10000 + 8 * k.val)) { w with
          card := BitVec.ofNat 1024 (w.card.toNat - w.card.toNat / 2 ^ (64 * k.val) % 2 ^ 64 * 2 ^ (64 * k.val)
            + v.toNat * 2 ^ (64 * k.val)) })
       ∧ (∀ k < 8, exec (.hostRegisterWrite (BitVec.ofNat 22 (0x120000 + k * 0x40000)) v) s = .next ({ s with
          pathHead := s.pathHead.setIfInBounds k (v &&& 0xFFFFFFFF00000FFF) }).fireAll)
       ∧ (0x300000 ≤ off.toNat → exec (.hostRegisterWrite off v) s = .next s.fireAll))
    ∧ (w.ready = false → exec (.launch id) s = .next
        ({ s with window := { w with lstat := 0xFFFFFFFFFFFFFF05 } }).fireAll
      ∧ stat (.ctxcmdCreate id) s 4 ∧ stat (.ctxcmdDestroy id) s 4 ∧ (op ≠ 1 → op ≠ 2 → stat (.ctxcmdInvalidOp op) s 4))
    ∧ (w.ready = true → (op ≠ 1 → op ≠ 2 → stat (.ctxcmdInvalidOp op) s 5)
      ∧ (s.findCtx id = none → exec (.launch id) s = .next
          ({ s with window := { w with lstat := 0xFFFFFFFFFFFFFF04 } }).fireAll
        ∧ stat (.ctxcmdDestroy id) s 1 ∧ (256 ≤ s.ctxs.length → stat (.ctxcmdCreate id) s 3)
        ∧ (s.ctxs.length < 256 → w.ctxAddr.toNat % 256 ≠ 0 ∨ s.physical w.ctxAddr.toNat 2176 = none →
          stat (.ctxcmdCreate id) s 2)
        ∧ ∀ bs c, s.ctxs.length < 256 → w.ctxAddr.toNat % 256 = 0 → s.physical w.ctxAddr.toNat 2176 = some bs →
          (ctxOf s.fuses id bs = none → stat (.ctxcmdCreate id) s 2)
          ∧ (ctxOf s.fuses id bs = some c →
            Gives (.ctxcmdCreate id) s (fun t => t = { s with ctxs := s.ctxs ++ [c], window := { w with ctxStat := 0 } })))
      ∧ ∀ c, s.findCtx id = some c →
        stat (.ctxcmdCreate id) s 1
        ∧ (∀ t h, s.submit id w.card = (t, .ok h) →
          exec (.launch id) s = .next ({ t with window := { t.window with lstat := h } }).fireAll)
        ∧ (∀ t code, s.submit id w.card = (t, .error code) → exec (.launch id) s = .next
          ({ t with window := { t.window with lstat := BitVec.ofNat 64 (0xFFFFFFFFFFFFFF00 + code) } }).fireAll)
        ∧ ((∃ j ∈ s.jobs, j.ctx = id) → Gives (.ctxcmdDestroy id) s (fun t =>
          t.ctxs = s.ctxs.map (fun c => if c.id = id then { c with dying := true } else c)
          ∧ t.jobs = s.jobs.map (fun j => if j.ctx = id then { j with cancelled := true } else j)))
        ∧ ((∀ j ∈ s.jobs, j.ctx ≠ id) → Gives (.ctxcmdDestroy id) s (fun t =>
          t.ctxs = s.ctxs.filter (fun c => c.id ≠ id) ∧ t.window.ctxStat = 0)))
    ∧ (∀ bs : List Byte,
      let h : BitVec 1024 := BitVec.ofNat 1024 (leNat (bs.take 128))
      let u (i : Nat) : Nat := (h.extractLsb' i 64).toNat
      -- a bucket's refill is below 2^63, and so is its cap, or it is all ones
      let bucket (i : Nat) : Prop := u (i + 64) < 2 ^ 63 ∧ (u i < 2 ^ 63 ∨ u i = 2 ^ 64 - 1)
      let sound : Prop := h.extractLsb' 240 16 = 0 ∧ h.extractLsb' 198 2 = 0 ∧ h.extractLsb' 176 16 = 0
        ∧ h.extractLsb' 832 6 = 0 ∧ h.extractLsb' 901 7 = 0 ∧ h.extractLsb' 128 16 = id
        ∧ u 0 % 2 ^ 17 = 0 ∧ u 64 % 2 ^ 26 = 0 ∧ bucket 256 ∧ bucket 448 ∧ bucket 640
        ∧ rangesOf s.fuses (bs.drop 128) ≠ none
      (ctxOf s.fuses id bs ≠ none ↔ sound)
      ∧ ∀ c, ctxOf s.fuses id bs = some c → c.id = id ∧ c.root = h.extractLsb' 0 64 ∧ c.save = h.extractLsb' 64 64
        ∧ c.quant = h.extractLsb' 144 32 ∧ c.vector = h.extractLsb' 192 6 ∧ c.retto = h.extractLsb' 200 40
        ∧ c.kvtab = h.extractLsb' 832 64 ∧ c.kvseq = h.extractLsb' 896 64 ∧ c.seed = h.extractLsb' 960 64
        ∧ some c.ranges = rangesOf s.fuses (bs.drop 128))
    ∧ (∀ bs : List Byte,
      let d (i : Nat) : BitVec 256 := BitVec.ofNat 256 (leNat ((bs.drop (32 * i)).take 32))
      -- a slot whose limit is zero is left invalid, and any other is checked as `rmap` checks it, after those before it
      (∀ v, rangesOf s.fuses bs = some v → ∀ i < 64,
        v[i]? = some (if (d i).extractLsb' 64 64 = 0 then none else some (rangeOf (d i))))
      ∧ ∀ i < 64, (d i).extractLsb' 64 64 ≠ 0 → (∀ v, rangeStatus s.fuses v (d i) i ≠ 0) → rangesOf s.fuses bs = none)
    ∧ (∀ j, s.jobs.find? (fun j => j.ctx = id && handle.setWidth 64 = jobHandle j.slot j.gen) = some j →
      exec (.cancel id handle) s = .next { s with
        jobs := s.jobs.map (fun x => if x.id = j.id then { x with cancelled := true } else x) })
    ∧ (s.jobs.find? (fun j => j.ctx = id && handle.setWidth 64 = jobHandle j.slot j.gen) = none →
      exec (.cancel id handle) s = .next s)

/-- R125, R128, R132, R143, R145, R146, R148, R150 and R262: the messages that reach a core's port engine, and its
deadlines. Model's choices: the answers to notices (log entries 21 and 50) and what the headers of messages hold beside Table
16-1 (log entry 50), a pull request with no usable path, which ends its take with outcome 3 (log entry 80), and what the writes
of other parties hide from a pull (log entry 71); a notice of which a piece has been taken, which a withdrawal leaves in the
store with the flag (log entry 79). -/
def Obligations.PortEvents : Prop :=
  ∀ (s : State) (ctx : BitVec 16) (note : BitVec 256) (cls : BitVec 4) (core node : BitVec 16) (seq : BitVec 32) (req : PullReq)
    (i : BitVec 6) (k : BitVec 8) (x : Take) (r : Retain) (ans : PullAnswer),
    let p := s.core.port
    let take := (p.takes[i.toNat]?).join
    let came : Instr := .noticeDelivery ⟨ctx, note, cls⟩
    let answered (t : State) (code : Nat) : State := t.answerNotice ⟨ctx, note, cls⟩ code
    let n : Notice := { note := note, arrival := s.cycle, seq := p.arrivals }
    (noteNode note = s.node.toNat → ∀ code, answered s code = s)
    ∧ (s.findCtx ctx = none → exec came s = .next (answered s 1))
    ∧ (s.findCtx ctx ≠ none →
      (s.core.ctx ≠ some ctx ∨ s.live = false → exec came s = .next (answered s 2))
      ∧ (s.core.ctx = some ctx → s.live = true →
        (p.store.length < 256 → p.spilled = [] →
          exec came s = .next (answered (s.setPort { p with arrivals := p.arrivals + 1, store := p.store ++ [n] }) 0))
        ∧ (256 ≤ p.store.length ∨ p.spilled ≠ [] →
          (p.freeSpill = none → exec came s = .next (answered s 2))
          ∧ ∀ va t, p.freeSpill = some va → s.putFor s.cx s.coreId va (leBytes 32 note.toNat) = .ok t →
            exec came s = .next (answered (t.setPort { p with
              arrivals := p.arrivals + 1, spilled := p.spilled ++ [{ n with spill := some va }] }) 0))))
    ∧ (p.publishing = none ∨ s.live = false → exec .noticeRetry s = .next s)
    ∧ (∀ q w, p.publishing = some q → q.slot ≠ none → q.left = [w] → s.wordNode w = s.node.toNat → s.core.ctx = some ctx →
      s.live = true →
      (∀ u, (s.focus (wordCore w)).deliver ctx q.note = (u, false) → exec .noticeRetry s = .next { s with used := u.used })
      ∧ ∀ u, (s.focus (wordCore w)).deliver ctx q.note = (u, true) → exec .noticeRetry s =
        .next ((u.focus s.coreId).setPort { (u.focus s.coreId).core.port with publishing := some { q with left := [] } }))
    ∧ (s.live = false → exec (.noticeWithdrawal core node seq) s = .next s ∧ exec (.retentionDecrement k seq) s = .next s
      ∧ exec (.retentionExpiry k) s = .next s)
    ∧ (s.live = true → p.spilled = [] → Gives (.noticeWithdrawal core node seq) s (fun t =>
      (let is (n : BitVec 256) : Bool := noteCore n = core.toNat && noteNode n = node.toNat && noteSeq n = seq
       t.core.port.store = (p.store.filter (fun n => !is n.note || 0 < n.taken)).map (fun n =>
          if is n.note then { n with withdrawn := true } else n)
       ∧ t.core.port.takes = p.takes.map (fun x => x.map (fun y =>
          if is y.note = true ∧ y.pull = .none then { y with withdrawn := true } else y)))
      ∧ t.core.port.ringU = p.ringU ∧ t.mem = s.mem))
    ∧ (req.coll = none →
      (s.resident = false → exec (.pullRequestServe req) s = .next s)
      ∧ ∀ d alt, s.resident = true → s.choosePath s.coreId (s.wordNode req.consumer) = some (d, alt) →
        let node := s.wordNode req.consumer
        let e := s.pathEntry d node alt
        let sends (a : PullAnswer) : Prop := Gives (.pullRequestServe req) s (fun t => t.mem = s.mem ∧ t.outbox = s.outbox ++
          [.pullAnswer (portOf d e) (packetHeader (s.control (s.core.ctx.getD 0) req.cls 8 0xFF req.addr) e (BitVec.ofNat 12 node))
            req.consumer req.take 0 a])
        ((∀ y, p.slot req.slot.toNat = some y → y.seq ≠ req.seq) → sends .reclaimed)
        ∧ ∀ y, p.slot req.slot.toNat = some y → y.seq = req.seq →
          let got := s.portFetch s.cx s.coreId [s.portKey (.block req.slot.toNat)] node (wordCore req.consumer)
            req.addr req.len
          (∀ f, got = .error f → sends .faulted)
          ∧ ∀ bs, got = .ok bs → bs.length ≤ 4096 → sends (.data bs))
    ∧ (take = none → exec (.pullRequestRelease i) s = .next s ∧ exec (.pullLanding i ans) s = .next s)
    ∧ (∀ at_, take = some x → x.pull = .booked at_ false → s.live = true → at_.toNat ≤ s.cycle.toNat →
      let asked (u : State) : State := u.setPort (p.setTake i.toNat (some { x with pull := .booked at_ true }))
      (noteNode x.note = s.node.toNat → dieOf (noteCore x.note) = dieOf s.coreId →
        exec (.pullRequestRelease i) s = .next (asked s))
      ∧ (noteNode x.note ≠ s.node.toNat →
        (∀ u, s.emitBy (noteNode x.note) 0 x.cls 7 0xFF (noteAddr x.note + BitVec.ofNat 64 x.off)
            (fun port hdr => .pullRequest port hdr i x.note x.off x.size) = some u →
          exec (.pullRequestRelease i) s = .next (asked u))
        ∧ (s.choosePath s.coreId (noteNode x.note) = none → x.arm = none → exec (.pullRequestRelease i) s =
          .next (s.setPort (p.setTake i.toNat (some { x with pull := .ended 3 }))))))
    ∧ (∀ at_, take = some x → x.pull = .booked at_ true → x.arm = none → noteNode x.note ≠ s.node.toNat →
      exec (.pullLanding i .reclaimed) s = .next (s.setPort (p.setTake i.toNat (some { x with pull := .ended 2 })))
      ∧ exec (.pullLanding i .faulted) s = .next (s.setPort (p.setTake i.toNat (some { x with pull := .ended 3 })))
      ∧ ∀ bs : List Byte, bs.length = min 4096 (x.size - x.got) → s.mem.Wf → Gives (.pullLanding i (.data bs)) s (fun t =>
        (let place := locLocal s.coreId (polBase p.policy + x.place + x.got)
         ∀ a, t.mem.read a = if place ≤ a ∧ a < place + bs.length then bs.getD (a - place) 0 else s.mem.read a)
        ∧ (let new := (t.core.port.takes[i.toNat]?).join
           (x.got + bs.length < x.size → new = some { x with got := x.got + bs.length })
           ∧ (x.size ≤ x.got + bs.length → new.map (·.pull) = some (.ended 0)))))
    ∧ (∀ at_, take = some x → x.pull = .booked at_ true → x.arm = none → noteNode x.note = s.node.toNat → x.bridge = none →
      x.ans = none → x.got = 0 → x.last = false →
      let f := s.focus (noteCore x.note)
      let block := noteSlot x.note
      (f.resident = false ∨ f.core.ctx ≠ s.core.ctx → exec (.pullLanding i ans) s = .next s)
      ∧ (f.resident = true → f.core.ctx = s.core.ctx →
        ((∀ y, f.core.port.slot block = some y → y.seq ≠ noteSeq x.note) → Gives (.pullLanding i ans) s (fun t =>
          ((t.core.port.takes[i.toNat]?).join).map (·.pull) = some (.ended 2) ∧ t.mem = s.mem))
        ∧ ∀ y bs, f.core.port.slot block = some y → y.seq = noteSeq x.note →
          f.portFetch f.cx f.coreId [f.portKey (.block block), ⟨s.coreId, f.core.ctx.getD 0, .take i.toNat⟩] s.node.toNat s.coreId
            (noteAddr x.note + BitVec.ofNat 64 x.off) x.size = .ok bs →
          bs.length = x.size → s.mem.Wf → Gives (.pullLanding i ans) s (fun t =>
            (let place := locLocal s.coreId (polBase p.policy + x.place)
             ∀ a, t.mem.read a = if place ≤ a ∧ a < place + bs.length then bs.getD (a - place) 0 else s.mem.read a)
            ∧ ((t.core.port.takes[i.toNat]?).join).map (·.pull) = some (.ended 0))))
    ∧ (p.slot k.toNat = none → exec (.retentionDecrement k seq) s = .next s ∧ exec (.retentionExpiry k) s = .next s)
    ∧ (p.slot k.toNat = some r → s.live = true →
      (r.seq ≠ seq ∨ r.count = 0 → exec (.retentionDecrement k seq) s = .next s)
      ∧ (r.seq = seq → 1 < r.count.toNat →
        exec (.retentionDecrement k seq) s = .next (s.setSlot k.toNat (some { r with count := r.count - 1 })))
      ∧ (r.seq = seq → r.count = 1 → r.ctr = 0 → Gives (.retentionDecrement k seq) s (fun t =>
        t.core.port.slot k.toNat = none ∧ t.mem = s.mem
        ∧ t.core.storer.posted = s.core.storer.posted.filter (fun x => !(x.cause = .reclaim && x.eaddr = k.setWidth 64))))
      ∧ (∀ d, r.deadline = some d → r.expired = false → d.toNat ≤ s.cycle.toNat → s.core.storer.run = .running →
        exec (.retentionExpiry k) s = .next ((s.setSlot k.toNat (some { r with expired := true })).setComp .storer
          { s.core.storer with posted := s.core.storer.posted ++ [⟨.reclaim, k.setWidth 64, .async⟩] }))
      ∧ (r.deadline = none ∨ r.expired = true → exec (.retentionExpiry k) s = .next s))

/-- R310, R314, R317, R322 and R323: starts and ends of tasks and jobs, and the end of a rebind's drain. A task acquires at its
start: what is read ahead of the tasks before it is gone with the state of its companion cores, and the writes that its job's
launch or the tasks that it waits for have released are known to each of them. The first task of a job on a core finds the
images in the instruction stores and register space as new. Model's choices: the graph jobs that wait while the die's engine
serves a rebind are launched as it ends (log entry 77); what an ended task's own programs held of a write is forgotten at the
core (log entry 71); where an image cannot be read, the stores and the job that they hold stay as they were (log entry 108);
the outlier list stays through the later tasks of a job (log entry 87). -/
def Obligations.SchedulingEvents : Prop :=
  ∀ (s : State) (n : BitVec 10) (ctx : BitVec 16) (slot : BitVec 6) (g4 : BitVec 2),
    let here := n.toNat = s.coreId
    let runs (t : State) (entry : Role → Nat) (x1 x2 x3 x4 : Word) : Prop := ∀ r,
      let c := t.core.comp r
      c.run = .running ∧ c.pc = BitVec.ofNat 17 (entry r) ∧ c.entry = true ∧ c.posted = [] ∧ c.h = false ∧ c.sbuf = []
      ∧ c.reg 1 = x1 ∧ c.reg 2 = x2 ∧ c.reg 3 = x3 ∧ c.reg 4 = x4 ∧ (∀ k : SReg, 4 < k.toNat → c.reg k = 0)
    let acquired (id : Nat) (which : Option (Nat × Nat × Nat) → Bool) : List Lag :=
      (s.lag.map (Lag.forgetCore s.coreId)).map (fun l => if l.meets.any (fun x => x = .launch id || x.endOf id which) then
        everyRole.foldl (fun l r => l.acquiredBy s.coreId r 0xFFFF) l else l)
    (here → s.taskFree = false → exec (.taskStart n) s = .next s ∧ exec (.graphEntryStart n) s = .next s)
    ∧ (∀ j, here → s.taskFree = true → s.nextJob = some j → s.core.lastJob = some j.id →
      (0 < j.left →
        let k := min j.left (max (j.card.extractLsb' 448 32).toNat
          ((j.left + max 1 ((j.card.extractLsb' 312 8).toNat * j.cores.length) - 1)
            / max 1 ((j.card.extractLsb' 312 8).toNat * j.cores.length)))
        let args : Word := j.card.extractLsb' 320 64
        Gives (.taskStart n) s (fun t =>
          runs t (cardEntry j.card) (args + BitVec.ofNat 64 (j.next * (j.card.extractLsb' 384 32).toNat))
            (BitVec.ofNat 64 k) (BitVec.ofNat 64 j.next) args
          ∧ t.tasks = s.tasks ++ [({ core := s.coreId, ctx := j.ctx, job := j.id, chunks := [(j.next, k)] } : Task)]
          ∧ t.core.tokens = {} ∧ t.core.tags = 0 ∧ t.core.tvec = 0 ∧ t.core.rs = s.core.rs
          ∧ t.core.outliers = s.core.outliers ∧ t.mem = s.mem
          ∧ t.lag = acquired j.id (fun _ => true)))
      ∧ ∀ g e, s.readyGraph j s.coreId = some (g, e) → Gives (.graphEntryStart n) s (fun t =>
        runs t (stageEntry ((g.plan.stages[e.stage]?).getD 0)) (g.plan.table + BitVec.ofNat 64 (32 + 32 * e.stage))
          (BitVec.ofNat 64 (g.firing e)) (BitVec.ofNat 64 e.firings) (g.plan.hdr.extractLsb' 128 64)
        ∧ t.core.tokens = {} ∧ t.core.tags = 0 ∧ t.core.tvec = 0 ∧ t.core.rs = s.core.rs
        ∧ t.core.outliers = s.core.outliers ∧ t.mem = s.mem
        ∧ t.lag = acquired j.id (fun x => match x with
          | some (key, _, stage) => key = g.key && g.near e.stage stage
          | none => false)))
    -- at the first task of a job on a core the images are written first; where one cannot be read no task starts (R309)
    ∧ (∀ j, here → s.taskFree = true → s.nextJob = some j → s.core.lastJob ≠ some j.id → 0 < j.left →
      (s.core.port.settled = false → exec (.taskStart n) s = .next s)
      ∧ (s.core.port.settled = true → ((s.putJob j.chunk.2).writeStores j.chunk.2).2 = false → Gives (.taskStart n) s (fun t =>
        t.tasks = s.tasks ∧ t.core.lastJob = s.core.lastJob ∧ (∀ r, (t.core.comp r).istore = (s.core.comp r).istore)
        ∧ ∀ x ∈ t.jobs, x.id = j.id → x.cancelled = true))
      ∧ ∀ image : Role → Mem, s.core.port.settled = true → (∀ i : Nat, (s.core.port.takes[i]?).join = none) →
        (∀ r, s.image s.cx s.coreId j.card r = .ok (image r)) →
        let k := j.chunk.1
        let args : Word := j.card.extractLsb' 320 64
        Gives (.taskStart n) s (fun t =>
          runs t (cardEntry j.card) (args + BitVec.ofNat 64 (k.1 * (j.card.extractLsb' 384 32).toNat)) (BitVec.ofNat 64 k.2)
            (BitVec.ofNat 64 k.1) args
          ∧ (∀ r, (t.core.comp r).istore = image r) ∧ t.core.lastJob = some j.id
          ∧ t.core.rs = [] ∧ (∀ r : KReg, t.core.k[r.toNat] = 0) ∧ (∀ w : WReg, t.core.views[w.toNat] = 0)
          ∧ t.core.outliers = [] ∧ t.core.port.policy = 0 ∧ t.mem = s.mem))
    ∧ exec (.taskFinish n) s = .next
      ((s.onCore n.toNat (fun s => if s.taskOver then s.finishTask else s)).finishSaved n.toNat).fireAll
    ∧ (let ended := s.jobs.find? (fun j => j.ctx = ctx && j.slot = slot.toNat && s.jobOver j)
       (ended = none → exec (.jobComplete ctx slot) s = .next s)
       ∧ ∀ j c, ended = some j → s.findCtx j.ctx = some c → c.dying = false → c.vector = 0 →
        (∀ x ∈ s.jobs, x.unbound = false) →
        j.card.extractLsb' 768 64 = 0 → j.card.extractLsb' 576 64 = 0 → GivesFired (.jobComplete ctx slot) s (fun t =>
          t.jobs = s.jobs.filter (fun x => x.id ≠ j.id) ∧ t.graphs = s.graphs.filter (fun g => g.job ≠ j.id)
          ∧ t.realloc = true ∧ t.mem = s.mem ∧ t.outbox = s.outbox
          ∧ ∀ i < 16, ∀ a, t.core.arm i = some a → a.job ≠ some j.id))
    ∧ (let drained := s.graphs.find? (fun g => s.core.ctx = some g.ctx && g.die = dieOf s.coreId && g.slot = g4.toNat)
       (drained = none → exec (.rebindDrainComplete g4) s = .next s)
       ∧ ∀ g r, drained = some g → g.rebind = some r →
        let gen := (lookupKey g.key s.firingGens).getD 0 + 1
        let copied := s.copyRecords (s.findCtx g.ctx) r.core r.role (g.moves r.plan) (r.plan.writes gen)
        (g.running ≠ [] ∨ g.next % g.count ≠ 0 → exec (.rebindDrainComplete g4) s = .next s)
        ∧ (g.running = [] → g.next % g.count = 0 →
          (∀ t, copied = (t, none) → exec (.rebindDrainComplete g4) s =
            .next (({ t with firingGens := setKey g.key gen t.firingGens }.putGraph { g with
              rebind := none, rebound := g.rebound ++ [(⟨r.core, r.role, r.pc, none⟩ : Rebound)], plan := r.plan, base := g.completed
              next := 0, ended := [] }).launchWaiting g.die).fireAll)
          ∧ ∀ t f, copied = (t, some f) → exec (.rebindDrainComplete g4) s =
            .next ((t.putGraph { g with
              rebind := none, rebound := g.rebound ++ [(⟨r.core, r.role, r.pc, some f⟩ : Rebound)] }).launchWaiting g.die).fireAll))

/-- R327 to R334 and R378 to R381: slices, accounting ticks and refills, each when it is due, by the bucket
arithmetic. A slice boundary (R329), a multiple of 131,072 cycles and after the tick of its cycle, moves the set rotation
pointers of each level of each die to the next context with work, sets the unset ones to the first, and grants each cluster to
the eligible context that wants it of the highest level, from the level's pointer on in turn; a cluster whose owner changes is
pre-empted. The steps of a context switch on a cluster as events of their own are the model's choice (log entry 55), and so is
what a state area that no save has written tells the restore (log entry 88). -/
def Obligations.SliceAndSwitchEvents : Prop :=
  ∀ (s : State) (meter : List Charge) (cluster : BitVec 7) (die : BitVec 3) (unit : BitVec 4),
    (let due := s.sliceDone * 131072 ≤ s.cycle.toNat ∧ s.sliceDone * 131072 < s.tickDone * 1000 ∧ s.refillDue = false
     (¬due → exec .sliceBoundary s = .next s)
     ∧ (due → Gives .sliceBoundary s (fun t => t.sliceDone = s.sliceDone + 1 ∧ t.realloc = false ∧ t.ctxs = s.ctxs
        ∧ t.jobs = s.jobs ∧ t.mem = s.mem
        ∧ ∀ d < 8,
          let set (l : Nat) : Option (BitVec 16) := lookupKey (pointerKey d l) s.pointers
          let next (l : Nat) : Option (BitVec 16) := match set l with
            | some p => ((s.ranked d l).find? (fun x => p.toNat < x.toNat)).or (s.ranked d l).head?
            | none => (s.ranked d l).head?
          (∀ l < 16, lookupKey (pointerKey d l) t.pointers = next l)
          ∧ ∀ k g, k / 12 = d → s.fuses.clusterPresent k = true → s.grants[k]? = some g →
            let fits (x : BitVec 16) : Prop := s.wants x d k = true ∧ ∃ c, s.findCtx x = some c ∧ c.eligible = true
            -- how far from the pointer on, and round, a context stands in its level's turn
            let turn (l : Nat) (x : BitVec 16) : Nat := (x - (next l).getD 0).toNat
            let wins (x : BitVec 16) : Prop := ∃ l < 16, x ∈ s.ranked d l ∧ fits x
              ∧ (∀ l' < 16, l < l' → ∀ y ∈ s.ranked d l', ¬fits y)
              ∧ ∀ y ∈ s.ranked d l, fits y → y = x ∨ turn l x < turn l y
            let given (heir : Option (BitVec 16)) : Prop :=
              (g.owner = heir → g.phase = .held → t.grants[k]? = some g)
              ∧ (g.owner ≠ heir → g.owner = none → g.phase = .held → (t.grants[k]?).map (·.owner) = some heir)
              ∧ (g.owner ≠ heir → g.owner ≠ none → g.phase = .held → t.grants[k]? = some { g with phase := .preempting heir })
              ∧ ((∃ o, g.phase = .preempting o) → t.grants[k]? = some { g with phase := .preempting heir })
              ∧ ((∃ o, g.phase = .saving o) → t.grants[k]? = some { g with phase := .saving heir })
              ∧ (g.phase = .restoring → (t.grants[k]?).map (·.owner) = some heir)
            (∀ x, wins x → given (some x)) ∧ ((∀ x, ¬wins x) → given none))))
    ∧ (let due := s.tickDone * 1000 ≤ s.cycle.toNat ∧ s.tickDone * 1000 ≤ s.sliceDone * 131072 ∧ s.refillDue = false
       let sat (x : Int) : Int := max (-(2 ^ 63)) (min (2 ^ 63 - 1) x)
       let charge (b : Bucket) (k : Nat) : Bucket := if b.cap.isSome then { b with level := sat (b.level - k) } else b
       let charged (c : Ctx) : Ctx :=
        let mine := meter.filter (fun m => m.ctx = c.id)
        let used := lookupKey c.id.toNat s.used
        { c with
          time := charge c.time (s.coresOf c.id), bw := charge c.bw (used.getD 0)
          nrg := charge c.nrg (if s.coresOf c.id = 0 ∧ used = none then 0 else (mine.map (·.nrg)).sum) }
       let fill (b : Bucket) : Bucket := match b.cap with
        | some k => { b with level := min (k : Int) (sat (b.level + b.refill)) }
        | none => b
       let fits (b : Bucket) : Bool := b.cap.isNone || decide (0 < b.level)
       let tested (c : Ctx) : Ctx := { c with eligible := fits c.time && fits c.bw && fits c.nrg }
       (¬due → exec (.accountingTick meter) s = .next s)
       ∧ (due → s.tickDone % 1000 = 0 →
        exec (.accountingTick meter) s = .next { s with ctxs := s.ctxs.map charged, used := [], refillDue := true })
       ∧ (due → s.tickDone % 1000 ≠ 0 → Gives (.accountingTick meter) s (fun t =>
        t.ctxs = (s.ctxs.map charged).map tested ∧ t.used = [] ∧ t.tickDone = s.tickDone + 1 ∧ t.jobs = s.jobs
          ∧ t.mem = s.mem))
       ∧ (s.refillDue = false → exec .bucketRefill s = .next s)
       ∧ (s.refillDue = true → Gives .bucketRefill s (fun t =>
        t.ctxs = (s.ctxs.map (fun c => { c with time := fill c.time, bw := fill c.bw, nrg := fill c.nrg })).map tested
        ∧ t.tickDone = s.tickDone + 1 ∧ t.refillDue = false ∧ t.jobs = s.jobs ∧ t.mem = s.mem)))
    ∧ (12 ≤ unit.toNat → exec (.contextRestore die unit) s = .next s)
    ∧ ∀ g, s.grants[cluster.toNat]? = some g →
      let restore := Instr.contextRestore (BitVec.ofNat 3 (cluster.toNat / 12)) (BitVec.ofNat 4 (cluster.toNat % 12))
      (∀ next, g.phase = .preempting next → exec (.clusterPreempt cluster) s = .next
        ((s.onCluster cluster.toNat State.stopCore).setGrant cluster.toNat { g with phase := .saving next }).fireAll)
      ∧ (g.phase = .held → exec (.clusterPreempt cluster) s = .next s ∧ exec (.contextSaveComplete cluster) s = .next s
        ∧ exec restore s = .next s)
      ∧ (∀ next c, g.phase = .saving next → g.owner.bind s.findCtx = some c →
        (s.saveReady cluster.toNat = false → exec (.contextSaveComplete cluster) s = .next s)
        ∧ (s.saveReady cluster.toNat = true → Gives (.contextSaveComplete cluster) s (fun t =>
          (∃ v ∈ t.saved, v.ctx = c.id ∧ v.cluster = cluster.toNat)
          ∧ (t.grants[cluster.toNat]?).map (·.owner) = some next)))
      ∧ ∀ c v, g.phase = .restoring → g.owner.bind s.findCtx = some c →
        s.saved.find? (fun v => g.owner = some v.ctx && v.cluster = cluster.toNat) = some v →
        -- every state area of the cluster must carry its CRC-64 (R379)
        let whole := (areaStates c.save.toNat cluster.toNat).all (fun a => s.areaOk a.1 a.2)
        let back := s.restoreCluster cluster.toNat c (s.fromAreas c v)
        (whole = true → exec restore s = .next back.fireAll)
        ∧ (whole = false → exec restore s = .next (back.badArea cluster.toNat c.id).fireAll)
        -- a state area as its save has written it gives the core back as it was
        ∧ ∀ i x, i < 8 → v.cores[i]? = some x →
          s.areaHolds (areaRegs c.save.toNat (v.cluster * 8 + i) + 0xC0000) 0x140000 (v.first + i) = true →
          (s.fromAreas c v).cores[i]? = some (x.1, { x.2 with ctx := some c.id })

/-- R260, R263 to R266, R272, R275 and R350: the fabric's packets, timeouts and lane losses; what a dead node's rounds
meet is `abortDead`. A closed batch that could not ask a full session asks when a reply or a death has made room (R275). A lane
loss that leaves a node no usable alternative kills its sessions at once (R264). Model's choices: a packet of kind 4 with
size 5 answers a notice, and an error reply has a payload of one byte (log entry 50); the first packet of a restarted session
says so (log entry 91); a summary request as an event of its own is the next packet of its session; CAP_LINKS keeps what it
held at reset (log entry 86). -/
def Obligations.FabricEvents : Prop :=
  ∀ (s : State) (p : Packet) (node : BitVec 12) (core : BitVec 10) (tag : BitVec 2) (failed down : Bool) (port : BitVec 5),
    let numbered := p.kind = 1 ∨ p.kind = 2 ∨ p.kind = 3 ∨ p.kind = 5
    let s0 := if p.fresh then s.setInSession { node := p.source, die := p.die } else s
    let x := s0.inSession p
    (exec .combineEntryTimeout s = .next (s.sendCombined (fun e => e.made.toNat + 64 ≤ s.cycle.toNat)).askBatches.fireAll
      ∧ exec .qntDeferExpiry s = .next (s.performDeferreds (fun y => y.due.toNat ≤ s.cycle.toNat)).fireAll
      ∧ exec (.ackTimeout node) s = .next ((s.resendAll node).abortDead node).askAll.fireAll
      ∧ (s.node = node → exec (.nodeDead node) s = .next (s.abortDead node).askAll.fireAll))
    ∧ (∀ y die, s.sessions = [y] → y.node = node → y.die = die → die < 8 → y.dead = false → s.sessionDead y = true →
      s.unreachable node.toNat = false → node ≠ s.node → s.colls = [] → exec (.nodeDead node) s = .next ((s.killSession y).abortDead node).askAll.fireAll)
    ∧ (numbered → p.seq.toNat < x.next.toNat →
      (∀ k r, x.replies.find? (fun r => r.1 = p.seq) = some (k, r) →
        exec (.krytwayPacketReceive p) s = .next (s0.reply p r).fireAll)
      ∧ (x.replies.find? (fun r => r.1 = p.seq) = none → exec (.krytwayPacketReceive p) s = .next s0.fireAll))
    ∧ (numbered → p.seq = x.next →
      exec (.krytwayPacketReceive p) s = .next ((s0.takePacket p).takeEarly p.source p.die 4096).fireAll)
    ∧ (numbered → x.next.toNat < p.seq.toNat → x.early.any (fun q => q.seq = p.seq) = false →
      exec (.krytwayPacketReceive p) s = .next (s0.setInSession { x with early := x.early ++ [p] }).fireAll)
    ∧ (let known := (s.findCtx p.context).isSome
       let answer := p.kind = 4 ∧ p.size = 5
       (p.kind = 4 ∨ p.kind = 6 → ¬answer →
        (known = true → exec (.krytwayPacketReceive p) s = .next (s.receiveReply p true).fireAll)
        ∧ (known = false → exec (.krytwayPacketReceive p) s = .next
          ((s.receiveReply p false).reply p (replyTo p (s.receiveReply p false).node 4 true [])).fireAll))
       ∧ (7 ≤ p.kind.toNat → p.kind.toNat ≤ 10 → known = true → exec (.krytwayPacketReceive p) s = .next s.fireAll)
       ∧ (10 < p.kind.toNat ∨ 7 ≤ p.kind.toNat ∧ known = false →
        exec (.krytwayPacketReceive p) s = .next (s.reply p (replyTo p s.node 4 true [])).fireAll)
       ∧ (answer → known = true → exec (.krytwayPacketReceive p) s = .next
        (s.toCoreFor (some p.context) p.core.toNat 
          (.noticeAnswer (BitVec.ofNat 32 (leNat (p.payload.drop 4))) p.seq (leNat (p.payload.take 4)))).fireAll))
    ∧ (let q : Packet := { (s.packet 5 0 0 0 tag 0 []) with
        source := node, die := BitVec.ofNat 3 (dieOf core.toNat), core := core.setWidth 16 }
       let y := s.inSession q
       let asked : Packet := { q with seq := y.next }
       exec (.summaryRequest node core tag) s = .next ((s.takePacket asked).takeEarly node q.die 4096).fireAll
       ∧ (∀ d alt, (s.findCtx q.context).isSome = true → s.choosePath s.coreId node.toNat = some (d, alt) →
        let u := s.takePacket asked
        let mark := (q.context, q.core, tag)
        (u.inSession q).next = y.next + 1 ∧ (u.inSession q).failed = y.failed.filter (· ≠ mark)
        ∧ ∃ (header : BitVec 256) (said : List Byte),
          u.outbox = s.outbox ++ [.krytway (portOf d (s.pathEntry d node.toNat alt)) header said]
          ∧ header.extractLsb' 56 8 = 6 ∧ header.extractLsb' 128 32 = y.next ∧ header.extractLsb' 176 2 = tag
          ∧ (said = [1] ↔ mark ∈ y.failed) ∧ (said = [] ↔ mark ∉ y.failed)))
    ∧ (s.core.batches[tag.toNat].state ≠ .closed → s.core.lateBatches = [] →
      exec (.summaryReply tag node failed) s = .next s)
    ∧ (let b := s.core.batches[tag.toNat]
       b.state = .closed → b.asked = true → node ∈ b.peers → node ∉ b.answered → s.sessions = [] →
      exec (.summaryReply tag node failed) s = .next (s.answered tag node failed).fireAll)
    ∧ (∃ links, (s.links.extractLsb' (2 * port.toNat) 2 = 0 → links = s.links)
      ∧ (s.links.extractLsb' (2 * port.toNat) 2 ≠ 0 →
        links.getLsbD (2 * port.toNat) = !down ∧ links.getLsbD (2 * port.toNat + 1) = false
        ∧ ∀ i, i ≠ 2 * port.toNat → i ≠ 2 * port.toNat + 1 → links.getLsbD i = s.links.getLsbD i)
      ∧ (let lost (x : Nat × Word) : Prop := down = true ∧ portOf (x.1 / 16384) x.2 = port.toNat
         let to_ (x : Nat × Word) : BitVec 12 := BitVec.ofNat 12 (x.1 / 4)
         ∃ paths : List (Nat × Word), paths.length = s.paths.length
          ∧ (∀ (i : Nat) x, s.paths[i]? = some x → ∃ y, paths[i]? = some (x.1, y)
            ∧ ∀ k, y.getLsbD k = (x.2.getLsbD k && !decide (lost x ∧ k = 51)))
          ∧ (let t := { s with links := links, paths := paths }
             ((∀ x ∈ s.paths, lost x → to_ x = s.node ∨ t.unreachable (to_ x).toNat = false) →
              exec (.linkLaneLoss port down) s = .next t.fireAll)
             ∧ ∀ x, s.paths = [x] → lost x → to_ x ≠ s.node → t.unreachable (to_ x).toNat = true →
              exec (.linkLaneLoss port down) s = .next ((t.killNode (to_ x)).abortDead (to_ x)).askAll.fireAll)))

/-- R285 to R303: the reports, steps and ends of a collective round. What a move pulls is booked first, on the timetable of the
member's step pulls (R283), and a pull from another node on that of the port that it comes by too (R265). Model's choices: one
timetable for the rounds of a member (log entry 107), and one move, cut to chunk, at each event (log entry 44); the step
2^32 - 1 that says that a member's round has ended, which is kept where the round has not been issued yet, and reports as
messages of the outbox (log entry 48); the rank that a timeout names, `roundWait` (log entry 47). -/
def Obligations.RoundEvents : Prop :=
  ∀ (s : State) (id : RoundId) (rank step ctx : BitVec 16) (slot : BitVec 3) (ranks : List Nat) (j : Nat) (ans : PullAnswer)
    (cause : BitVec 32),
    let u := s.collUnit id.ctx s.coreId
    let mine := (s.collUnit ctx s.coreId).slot slot.toNat
    (u.running id = none →
      exec (.collStartReport id ⟨⟨rank, step⟩, ranks⟩) s = .next s
      ∧ (j ≠ 2 ^ 32 - 1 → exec (.collStepReport id rank j) s = .next s)
      ∧ (u.abroad = [] →
        let both (t : State) : Prop := exec (.collAbortReport id ⟨⟨rank, step⟩, cause⟩) s = .next t
          ∧ exec (.collStepReport id rank (2 ^ 32 - 1)) s = .next t
        (s.findCtx id.ctx = none ∨ (id, rank.toNat) ∈ u.ends → both s)
        ∧ (s.findCtx id.ctx ≠ none → (id, rank.toNat) ∉ u.ends →
          both (s.setCollUnit { u with ends := u.ends ++ [(id, rank.toNat)] })))
      ∧ (u.kept = [] → exec (.collReadyReport id ⟨rank, step⟩) s = .next s))
    ∧ (∀ i r, u.running id = some (i, r) →
      let inTime := s.overdue id.ctx i r = none
      (r.rank = r.root → rank.toNat < r.p →
        (∀ l, r.parts = some l →
          exec (.collReadyReport id ⟨rank, step⟩) s = .next (s.tell id.ctx r [rank.toNat] r.step (.start l))
          ∧ ∀ w, rank.toNat ≠ r.rank → r.members[rank.toNat]? = some w → s.wordNode w = s.node.toNat →
            s.tell id.ctx r [rank.toNat] r.step (.start l)
              = { s with outbox := s.outbox ++ [.coll none w (r.id id.ctx) r.rank r.step (.start l)] })
        ∧ (r.parts = none → s.deadlineOver r = true →
          exec (.collReadyReport id ⟨rank, step⟩) s = .next (s.startRound id.ctx i r))
        ∧ (r.parts = none → s.deadlineOver r = false → inTime → rank.toNat ∉ r.ready →
          let r' : Round := { r with ready := r.ready ++ [rank.toNat] }
          exec (.collReadyReport id ⟨rank, step⟩) s =
            .next (if r.ready.length + 1 = r.p then s.startRound id.ctx i r' else s.setRound id.ctx i r')))
      ∧ (r.parts = none → r.rank ≠ r.root → rank.toNat = r.root → inTime →
        let l := (List.range r.p).filter (fun k => ranks.contains k)
        let r' : Round := { r with parts := some l, since := s.cycle }
        (r.rank ∈ l → exec (.collStartReport id ⟨⟨rank, step⟩, ranks⟩) s = .next (s.setRound id.ctx i r'))
        ∧ (r.rank ∉ l → exec (.collStartReport id ⟨⟨rank, step⟩, ranks⟩) s = .next (s.finishRound id.ctx i r').fireAll))
      ∧ (rank.toNat ≠ r.root → exec (.collStartReport id ⟨⟨rank, step⟩, ranks⟩) s = .next s)
      ∧ (j ≠ 2 ^ 32 - 1 → (rank.toNat, j) ∈ r.got → exec (.collStepReport id rank j) s = .next s)
      ∧ (j ≠ 2 ^ 32 - 1 → (rank.toNat, j) ∉ r.got → inTime → Gives (.collStepReport id rank j) s (fun t => ∃ since,
        t = s.setRound id.ctx i { r with got := r.got ++ [(rank.toNat, j)], since := since }))
      ∧ (u.abroad = [] → exec (.collAbortReport id ⟨⟨rank, step⟩, cause⟩) s =
        .next (s.abortRound id.ctx i { r with got := r.got ++ [(rank.toNat, 2 ^ 32 - 1)] } cause)))
    ∧ (mine = none → exec (.collDeadline ctx slot) s = .next s ∧ exec (.collStep ctx slot ans) s = .next s
      ∧ exec (.collRoundComplete ctx slot) s = .next s ∧ exec (.collWaitTimeout ctx slot) s = .next s)
    ∧ (∀ r, mine = some r → r.state = .running →
      (r.rank = r.root → r.parts = none → (r.block.extractLsb' 288 32).toNat ≠ 0 →
        r.issued.toNat + (r.block.extractLsb' 288 32).toNat * 1000 < s.cycle.toNat →
        exec (.collDeadline ctx slot) s = .next (s.startRound ctx slot.toNat r))
      ∧ (r.rank ∈ r.ranks → r.step < r.total → r.holds (r.needs r.step) = true →
        let moves := (r.moves r.step).flatMap r.split
        let ended (t : State) (r : Round) : State := (t.setRound ctx slot.toNat { r with
          step := r.step + 1, sent := r.sent + 1, piece := 0, since := t.cycle }).tell ctx r r.ranks r.step .step
        (moves[r.piece]? = none → exec (.collStep ctx slot ans) s = .next (ended s r))
        ∧ ∀ m, moves[r.piece]? = some m →
          (r.pulls m = [] ∧ r.buf = [] ∨ r.pulls m ≠ [] ∧ r.asked = true ∧ r.due = [] ∧ r.buf.length = s.farBytes r m) →
          let moved := doMove ctx r (r.id ctx) (s, r.buf) m
          let r' : Round := { r with piece := r.piece + 1, asked := false, due := [], buf := [] }
          (∀ t l, moved = .ok (t, l) →
            (r.piece + 1 = moves.length → exec (.collStep ctx slot ans) s = .next (ended t r'))
            ∧ (r.piece + 1 ≠ moves.length → exec (.collStep ctx slot ans) s =
              .next (t.setRound ctx slot.toNat { r' with since := s.cycle })))
          ∧ ∀ used c ea, moved = .error (.flt used (c, ea)) → exec (.collStep ctx slot ans) s =
            .next ((({ s with used := used } : State).faultTraffic (s.findCtx ctx) s.coreId c ea).abortRound ctx slot.toNat r
              (BitVec.ofNat 32 r.rank)))
      ∧ (r.rank ∈ r.ranks → r.step < r.total → r.holds (r.needs r.step) = true →
        ∀ m p send off len, ((r.moves r.step).flatMap r.split)[r.piece]? = some m → r.pulls m = [(p, send, off, len)] →
        let far : Prop := s.wordNode (r.word p) ≠ s.node.toNat
        let rank := (r.ranks[p]?).getD 0
        (r.asked = false →
          let (t, there) := if far then s.bookPort (s.wordNode (r.word p)) len else (s, 0)
          let now := s.cycle.toNat
          let v := t.collUnit ctx t.coreId
          let t0 := max v.free.toNat now
          exec (.collStep ctx slot ans) s = .next ((t.setCollUnit { v with free := BitVec.ofNat 64 (t0 + (len + 255) / 256) }).setRound
            ctx slot.toNat { r with
              asked := true, due := [((p, send, off, len), max (max now (t0 - 2048)) there)], since := t.cycle }))
        ∧ ∀ at_, r.asked = true → r.due = [((p, send, off, len), at_)] → at_ ≤ s.cycle.toNat →
          let sent := s.setRound ctx slot.toNat { r with due := [] }
          let dead := s.isDead (dieOf s.coreId) (BitVec.ofNat 12 (s.wordNode (r.word p)))
          (¬far → exec (.collStep ctx slot ans) s = .next sent)
          ∧ (far → dead = false →
            exec (.collStep ctx slot ans) s = .next (sent.sendColl ctx r rank r.step (.pull send off len)))
          ∧ (far → dead = true →
            exec (.collStep ctx slot ans) s = .next (s.abortRound ctx slot.toNat r (BitVec.ofNat 32 rank))))
      ∧ (r.rank ∈ r.ranks → r.step = r.total → r.holds r.finals = true →
        exec (.collRoundComplete ctx slot) s = .next (s.finishRound ctx slot.toNat r).fireAll)
      ∧ ∀ at_ k, s.roundWait r = some (at_, k) →
        (at_ < s.cycle.toNat →
          exec (.collWaitTimeout ctx slot) s = .next (s.abortRound ctx slot.toNat r (BitVec.ofNat 32 k)))
        ∧ (s.cycle.toNat ≤ at_ → exec (.collWaitTimeout ctx slot) s = .next s))
    ∧ Gives (.coordinatorStartReportExpiry id) s (fun t => (t.collUnit id.ctx s.coreId).kept
        = u.kept.filter (fun y => !(y.id = id && y.until_.toNat ≤ s.cycle.toNat)) ∧ t.mem = s.mem)

/-! ### Engine commands as they execute (R105, R165, R197 to R213, R240 to R253, R270) -/

/-- R165, R166, R168 and R76: a vector load or store in its engine, with an undisturbed tail and undisturbed inactive elements:
each execution passes over the elements that the mask leaves out, or whose bit of the bitmap is set, and accesses the next
element below vl at the address that the form gives it, which traps where it is misaligned or does not translate; a load
writes the element alone, a store the element's bytes in memory alone, and an element's bit of the bitmap is set; at vl the
command waits for its retirement. A `vldff` traps so at its first active element alone, and else ends before the element. Model's
choices: one element at each execution event (log entry 4), whose bit of the mask register is read then (log entry 96), and its
index too (log entry 101), and the units read ahead that a load may return (log entry 70). With a bitmap the statement is about a command that has taken no element out of order. -/
def Obligations.VectorElementAccesses : Prop :=
  ∀ (s : State) (c : Cmd) (rest : List Cmd) (h : EHdr) (t : ElemType) (v x : VReg) (a b : SReg) (n : VbmReg)
    (bm : Option VbmReg),
    c.pfx.tail = none → c.pfx.mpol = none → c.vcfg.tail = false → c.vcfg.mask = false → s.mem.Wf → s.core.rs.Wf →
    c.prog.carry = [] ∨ c.prog.carry = [1] ∧ bm = none →
    let w := t.width
    let i := c.prog.units
    let vl := c.vcfg.vl.toNat
    let at_ (j : Nat) : Nat := v.toNat * 1536 + j * w
    let base := c.ops.getD 0 0
    let idle (bits : Option VbmReg) (j : Nat) : Prop := (∃ m, c.pfx.mask = some m ∧ s.core.k[m.toNat].getLsbD j = false)
      ∨ ∃ y, bits = some y ∧ s.core.vbm[y.toNat].getLsbD j = true
    let next (bits : Option VbmReg) (j : Nat) : Prop := i ≤ j ∧ j < vl ∧ (∀ k, i ≤ k → k < j → idle bits k) ∧ ¬idle bits j
    let passed (bits : Option VbmReg) : Prop := i ≤ vl ∧ ∀ k, i ≤ k → k < vl → idle bits k
    let quiet (u : State) : Prop := u.mem = s.mem ∧ u.core.rs = s.core.rs
    let does (q : QueueId) (write : Bool) (bits : Option VbmReg) (ea : Nat → Word) (effect : Nat → Nat → State → Prop) : Prop :=
      EngineReady s q c rest →
      (∀ j, next bits j →
        let stop := if bits = none then j else 0
        ((ea j).toNat % w ≠ 0 → EngineFaults s q rest .align (ea j) stop)
        ∧ (∀ e f, (ea j).toNat % w = 0 → s.locate (ea j) w write = .error (e, f) → EngineFaults s q rest e f stop)
        ∧ ∀ loc, (ea j).toNat % w = 0 → s.locate (ea j) w write = .ok loc →
          EngineGoesOn s q c rest { units := j + 1, carry := if bits = none then [1] else [] } (fun u => effect j loc u
            ∧ ∀ (y : VbmReg) (k : Nat), k < 3072 → u.core.vbm[y.toNat].getLsbD k
              = (s.core.vbm[y.toNat].getLsbD k || decide (bits = some y ∧ k = j))))
      ∧ (passed bits → EngineEnds s q c rest quiet)
    let loaded (q : QueueId) (j loc : Nat) (u : State) : Prop := u.mem = s.mem
      ∧ ∀ y, u.core.rs.read y = if at_ j ≤ y ∧ y < at_ j + w then EngineByte s q c (loc + (y - at_ j)) else s.core.rs.read y
    let stored (j loc : Nat) (u : State) : Prop := u.core.rs = s.core.rs ∧ ∀ y, u.mem.read y =
      if loc ≤ y ∧ y < loc + w then s.core.rs.read (at_ j + (y - loc)) else s.mem.read y
    let unit (j : Nat) : Word := base + BitVec.ofNat 64 (j * w)
    let stride (j : Nat) : Word := base + BitVec.ofNat 64 j * c.ops.getD 1 0
    let index (j : Nat) : Word := base + BitVec.ofNat 64 (s.core.rs.num (x.toNat * 1536 + j * 4) 4)
    (c.instr = .vld h t v a → does .loaderVec false none unit (loaded .loaderVec))
    ∧ (c.instr = .vlds h t v a b → does .loaderVec false none stride (loaded .loaderVec))
    ∧ (c.instr = .vldx h t v a x bm → does .loaderVec false bm index (loaded .loaderVec))
    ∧ (c.instr = .vldff h t v a n → EngineReady s .loaderVec c rest →
      (∀ j, next none j →
        ((unit j).toNat % w ≠ 0 → EngineFaults s .loaderVec rest .align (unit j) j)
        ∧ (∀ e f, (unit j).toNat % w = 0 → s.locate (unit j) w false = .error (e, f) → e = .xlate ∨ e = .prot →
          (c.prog.carry = [] → EngineFaults s .loaderVec rest .firstFault f j)
          ∧ (c.prog.carry = [1] → EngineEnds s .loaderVec c rest quiet))
        ∧ ∀ loc, (unit j).toNat % w = 0 → s.locate (unit j) w false = .ok loc →
          EngineGoesOn s .loaderVec c rest { units := j + 1, carry := [1] } (loaded .loaderVec j loc))
      ∧ (passed none → EngineEnds s .loaderVec c rest quiet))
    ∧ (c.instr = .vst h t v a → does .storerVec true none unit stored)
    ∧ (c.instr = .vsts h t v a b → does .storerVec true none stride stored)
    ∧ (c.instr = .vstx h t v a x bm → does .storerVec true bm index stored)

/-- R105 and R76: `tmov` and `tfill` in the port engine, a 64 B unit at each execution in the order of work,
descending where the destination overlaps the source from above: the unit is read whole and then written, and no other
byte of memory changes; a fault keeps the progress, and a unit that has been read before its write faulted is not read again;
after the last unit the command waits for its retirement. Model's choices: one unit at each execution event (log entry 4), the
order of ranges whose addresses do not overlap but name bytes in common, which `descends` gives (log entry 84), and the units
read ahead that `tmov` may return (log entry 70). -/
def Obligations.TileMoveUnits : Prop :=
  ∀ (s : State) (c : Cmd) (rest : List Cmd) (h : EHdr) (x y z : SReg) (tag : BitVec 6),
    EngineReady s .loaderPort c rest → s.mem.Wf →
    let a := c.ops.getD 0 0
    let b := c.ops.getD 1 0
    let n := (c.ops.getD 2 0).toNat
    let i := c.prog.units
    a.toNat % 64 = 0 →
    let down := c.prog.down.getD (s.descends a b n)
    (a.toNat < b.toNat + n → b.toNat < a.toNat + n → s.descends a b n = decide (b.toNat < a.toNat))
    ∧
    let unit (u : Nat) (wrote : Nat → State → Prop) (k : Nat) (down : Bool) : Prop :=
      let dst := a + BitVec.ofNat 64 (64 * u)
      (∀ e f, s.locate dst 64 true = .error (e, f) → EngineFaults s .loaderPort rest e f i)
      ∧ (∀ loc, s.locate dst 64 true = .ok loc → i + 1 < k →
        EngineGoesOn s .loaderPort c rest { units := i + 1, carry := c.prog.carry, down := some down } (wrote loc))
      ∧ (∀ loc, s.locate dst 64 true = .ok loc → i + 1 = k → EngineEnds s .loaderPort c rest (wrote loc))
    (c.instr = .tmov h x y z tag → b.toNat % 64 = 0 →
      (i < n / 64 →
        let u := if down = true then n / 64 - 1 - i else i
        let src := b + BitVec.ofNat 64 (64 * u)
        let copies (byte : Nat → Byte) : Prop := unit u (fun loc t => t.core.rs = s.core.rs ∧ ∀ p,
          t.mem.read p = if loc ≤ p ∧ p < loc + 64 then byte (p - loc) else s.mem.read p) (n / 64) down
        (c.prog.read = [] →
          (∀ e f, s.locate src 64 false = .error (e, f) → EngineFaults s .loaderPort rest e f i)
          ∧ ∀ from_, s.locate src 64 false = .ok from_ → copies (fun k => EngineByte s .loaderPort c (from_ + k)))
        ∧ (c.prog.read.length = 64 → copies (fun k => (c.prog.read.getD k 0).setWidth 8)))
      ∧ (n / 64 ≤ i → EngineEnds s .loaderPort c rest (fun t => t.mem = s.mem ∧ t.core.rs = s.core.rs)))
    ∧ (c.instr = .tfill h x y z tag →
      (i < n / 64 → c.prog.down ≠ some true → unit i (fun loc t => t.core.rs = s.core.rs ∧ ∀ p,
        t.mem.read p = if loc ≤ p ∧ p < loc + 64 then BitVec.ofNat 8 (b.toNat / 256 ^ ((p - loc) % 8))
          else s.mem.read p) (n / 64) false)
      ∧ (n / 64 ≤ i → EngineEnds s .loaderPort c rest (fun t => t.mem = s.mem ∧ t.core.rs = s.core.rs)))

/-- R200, R203, R204, R208, R209, R211 and R213: matrix commands in their engine, each at once. `azero` sets every row
to zero at its exponent with full headroom; `mcode` and `outl` take their views' bytes; a load or multiply whose
format word does not name its operands' formats raises FMT; a load that succeeds has the word's format and tensor
scale, a multiply takes its cost from each row's headroom and leaves the exponents; a format word that was reserved
leaves the queue. -/
def Obligations.MatrixExecution : Prop :=
  ∀ (s : State) (c : Cmd) (rest : List Cmd) (h : EHdr) (vd va : WReg) (m : BitVec 3) (cost : BitVec 4) (cnt : BitVec 2)
    (lay : Bool) (e : BitVec 16),
    EngineReady s .seqMat c rest → viewFault (c.views.getD 0 0) = none → matrixOk c.instr c.views = true → s.core.rs.Wf →
    let v := View.ofWord (c.views.getD 0 0)
    let a := View.ofWord (c.views.getD 1 0)
    let w := c.fmt.getD 0
    let row (r : Nat) : Nat := v.base + r * v.pitch * 8
    let begun := (s.readyHead .seqMat c).beginMatrix c
    let ends (P : State → Prop) : Prop := EngineEnds s .seqMat c rest (fun u => u.mem = s.mem
      ∧ u.core.fmtq = (if c.held then s.core.fmtq.drop 1 else s.core.fmtq) ∧ u.core.tiles = s.core.tiles + 1 ∧ P u)
    let fmt : Prop := EngineFaults s .seqMat rest .fmt 0 0
    (c.instr = .azero h vd e → ends (fun u => (∀ r < v.rows,
        (∀ j < v.cols, u.core.rs.num (row r + 8 * j) 8 = 0)
        ∧ u.core.rs.num (row r + 8 * v.cols) 2 = e.toNat ∧ u.core.rs.num (row r + 8 * v.cols + 2) 1 = 23)
      ∧ ∀ y, (∀ r < v.rows, y < row r ∨ row r + 8 * v.cols + 8 ≤ y) → u.core.rs.read y = s.core.rs.read y))
    ∧ (c.instr = .mcode h va → ends (fun u => u.core.rs = s.core.rs
      ∧ ∀ i : Fin 256, u.core.codebook[i].toNat = s.core.rs.num (v.base + 2 * i.val) 2))
    ∧ (c.instr = .outl h va → ends (fun u => u.core.rs = s.core.rs
      ∧ u.core.outliers = (List.range v.cols).map (fun j => s.core.rs.num (v.base + 8 * j) 8)))
    ∧ (c.instr = .mload h m va →
      (fwOk w = false ∨ v.fmt ≠ fwB w ∨ fwB w = 20 ∨ fwB w = 21 → fmt)
      ∧ ∀ z, loadMacro begun m.toNat v w false = .ok z → ends (fun u => u.core.rs = s.core.rs
        ∧ (u.core.macros[m.toNat].loaded = true ∧ u.core.macros[m.toNat].fmt = BitVec.ofNat 5 v.fmt
          ∧ u.core.macros[m.toNat].scale = BitVec.ofNat 8 (fwScaleB w)
          ∧ (u.core.macros[m.toNat].sparse = true ↔ 24 ≤ v.fmt ∧ v.fmt ≤ 27))
        ∧ ∀ k : Fin 8, k.val ≠ m.toNat → u.core.macros[k] = s.core.macros[k]))
    ∧ (c.instr = .mmma h cost vd va m cnt lay →
      (fwOk w = false ∨ a.fmt ≠ fwA w ∨ (∃ j < 2 ^ cnt.toNat, ∃ q : Macro, s.core.macros[m.toNat + j]? = some q
        ∧ (q.loaded = false ∨ q.fmt.toNat ≠ fwB w ∨ q.sparse = true)) → fmt)
      ∧ ∀ z, multiply begun v a cost.toNat m.toNat cnt.toNat lay false w (c.outl.getD s.core.outliers) = .ok z →
        ends (fun u => ∀ r < v.rows, (u.core.accRow v r).exp = (s.core.accRow v r).exp
          ∧ (u.core.accRow v r).g = (s.core.accRow v r).g - cost.toNat
          ∧ ((s.core.accRow v r).nan = true → (u.core.accRow v r).nan = true)))

/-- R244 to R246, R252 and R253: attention commands in their engine: `att.q.f` takes the frequencies; `att.run` leaves
a row whose NaN flag is set or that sees no token of the stage, and no memory or register space changes; `att.kv`
reads and stages, and its stage and PB register take their place when it retires. -/
def Obligations.AttentionExecution : Prop :=
  ∀ (s : State) (c : Cmd) (rest : List Cmd) (h : EHdr) (va : WReg) (a b : SReg) (pb : PbReg) (st : Bool),
    let v := View.ofWord (c.views.getD 0 0)
    (EngineReady s .seqAtt c rest →
      (c.instr = .attQF h va → EngineEnds s .seqAtt c rest (fun u => u.core.rs = s.core.rs ∧ u.mem = s.mem
        ∧ u.core.att = { s.core.att with freq := u.core.att.freq }
        ∧ ∀ j : Fin 64, u.core.att.freq[j].toNat = s.core.rs.num (v.base + 8 * j.val) 8))
      ∧ (c.instr = .attRun h st → EngineEnds s .seqAtt c rest (fun u => u.core.rs = s.core.rs ∧ u.mem = s.mem
        ∧ u.core.att = { s.core.att with rows := u.core.att.rows }
        ∧ u.core.att.rows.length = s.core.att.rows.length
        ∧ ∀ (i : Nat) (r : QRow), s.core.att.rows[i]? = some r →
          (r.nan = true ∨ ∀ x ∈ (if st then s.core.att.st1 else s.core.att.st0).toks, r.limit.toNat ≤ x.index.toNat) →
          u.core.att.rows[i]? = some r)))
    ∧ (EngineReady s .loaderAtt c rest → c.instr = .attKv h a b pb st →
      let ready : State := { s.readyHead .loaderAtt c with cur := .loader }
      (∀ used e f, runAttKv (c.ops.getD 0 0) (c.ops.getD 1 0) pb st ready = .error (.trapAfter used e f) →
        EngineFaults s .loaderAtt rest e f 0)
      ∧ ∀ z, runAttKv (c.ops.getD 0 0) (c.ops.getD 1 0) pb st ready = .ok z →
        EngineEnds s .loaderAtt c rest (fun u => u.core.att.st0 = s.core.att.st0 ∧ u.core.att.st1 = s.core.att.st1
          ∧ u.core.att.pb = s.core.att.pb ∧ ∃ g, g.st = st ∧ u.core.att.staged = s.core.att.staged ++ [g]))
    ∧ ∀ g l, s.core.retirable .loaderAtt = some c → c.instr = .attKv h a b pb st → s.core.att.staged = g :: l →
      Gives (.engineCommandRetire .loaderAtt) s (fun u => u.core.att.staged = l
        ∧ u.core.att.st0 = (if g.st then s.core.att.st0 else g.stage)
        ∧ u.core.att.st1 = (if g.st then g.stage else s.core.att.st1)
        ∧ u.core.att.pb = match g.pb with | some (n, y) => s.core.att.pb.set n.toNat y | none => s.core.att.pb)

/-- R270, R272 and R275: remote word operations in their engine, where the combining buffer is empty and no session is
open: `rst` of up to 8 bytes enters the buffer as one line's entry and joins its batch; `rld` and `ramo` (here the
exchange) of this node act on the context's memory at once and write the zero-extended value to their register. -/
def Obligations.RemoteExecution : Prop :=
  ∀ (s : State) (c : Cmd) (rest : List Cmd) (h : EHdr) (d x y z : SReg) (k : BitVec 3) (cx : Ctx),
    EngineReady s .storerRemote c rest → s.core.combine = [] → s.sessions = [] → s.mem.Wf →
    s.cx = some cx → c.prog.carry ≠ [2] →
    (∀ t < 4, (s.core.batches[t]?).map (·.state) ≠ some .closed) →
    let n := 2 ^ k.toNat
    let a := c.ops.getD 0 0
    let node := BitVec.ofNat 12 (c.ops.getD 2 0).toNat
    let tag := BitVec.ofNat 2 (c.ops.getD 4 0).toNat
    let old := s.core.batches[tag.toNat]
    let joined (u : State) : Prop := u.core.batches[tag.toNat] = { old with
      peers := if node ∈ old.peers then old.peers else old.peers ++ [node], count := old.count + 1 }
    n ≤ 8 → a.toNat % n = 0 →
    (node ∉ old.peers → 64 ≤ old.peers.length → c.instr = .rst h x y z k ∨ c.instr = .rld h d x y k →
      EngineFaults s .storerRemote rest .prot (node.setWidth 64) 0)
    ∧ (node ∈ old.peers ∨ old.peers.length < 64 →
      (c.instr = .rst h x y z k → EngineEnds s .storerRemote c rest (fun u => u.mem = s.mem ∧ joined u
        ∧ ∃ e, u.core.combine = [e] ∧ e.node = node ∧ e.cls = h.cls ∧ e.tag = tag ∧ e.line = a &&& 0xFFFFFFFFFFFFFFC0
          ∧ ∀ j < 64, lookupKey j e.bytes = if a.toNat % 64 ≤ j ∧ j < a.toNat % 64 + n
            then some (BitVec.ofNat 8 ((c.ops.getD 1 0).toNat / 256 ^ (j - a.toNat % 64))) else none))
      ∧ (node = s.node → ∀ loc, s.locate a n false = .ok loc →
        (c.instr = .rld h d x y k → EngineEnds s .storerRemote c rest (fun u => u.mem = s.mem ∧ joined u
          ∧ u.core.storer.reg d = if d = 0 then 0 else BitVec.ofNat 64 (s.mem.num loc n)))
        ∧ (c.instr = .ramo h .swap d x y z k → s.locate a n true = .ok loc → isHost loc = false →
          EngineEnds s .storerRemote c rest (fun u => joined u
            ∧ u.core.storer.reg d = (if d = 0 then 0 else BitVec.ofNat 64 (s.mem.num loc n))
            ∧ ∀ p, u.mem.read p = if loc ≤ p ∧ p < loc + n then BitVec.ofNat 8 ((c.ops.getD 1 0).toNat / 256 ^ (p - loc))
              else s.mem.read p))))

/-! ### Decoding, the step, and the invariant -/

/-- Every well-formed instruction, with every operand at every value that its encoding admits, reads back from its
encoding, whatever follows it. -/
def Obligations.DecodeEncode : Prop :=
  ∀ (i : Instr) (rest : List Byte), i.WellFormed = true →
    decode (encode i ++ rest) = .ok { landing := false, instr := i, size := (encode i).length }

/-- What the decoder accepts is a well-formed instruction, and the bytes that it has read are that instruction's
encoding with or without the landing mark: no word outside the encodings is accepted, and no two words but those that
differ in the landing mark stand for one instruction. -/
def Obligations.AcceptedWords : Prop :=
  ∀ (bs : List Byte) (d : Decoded), decode bs = .ok d →
    d.instr.WellFormed = true ∧ d.size = (encodeNat d.instr).1 ∧ d.size ≤ bs.length
    ∧ leNat (bs.take d.size) = (encodeNat d.instr).2 + (if d.landing then 4 else 0)

/-- Words written out from the encodings of the spec, each with the instruction that it stands for. -/
def Obligations.DecodedWords : Prop :=
  let is (n w : Nat) (i : Instr) : Prop := (decode (leBytes n w)).toOption.map (·.instr) = some i
  is 4 0x00000008 .nop ∧ is 4 0x0000000C .nop ∧ (decode (leBytes 4 0)).toOption = none
  ∧ is 4 0x000080C8 (.fmtPush 2) ∧ is 4 0x00000168 (.tok 1) ∧ is 4 0x0400C098 (.tagWaitAll 0 3)
  ∧ is 4 0x0800C598 (.tagFfr 5 3) ∧ is 4 0x10004498 (.bar 4 1) ∧ is 4 0x14010098 (.barWait 4)
  ∧ is 4 0x000602A0 (.fence 6 .core) ∧ is 4 0xFFFF13A0 (.fenceX 0xFFFF .cluster)
  ∧ is 4 0x042201B0 (.setvli 1 8 .e32 0) ∧ is 4 0x0C0141B0 (.wset 1 5) ∧ is 4 0x000405B8 (.vmvSx 5 2)
  ∧ is 4 0x000043A8 (.decl 3 1) ∧ is 4 0x00204588 (.kvFind 5 1 2)
  ∧ is 8 0x0000014300000051 (.mcode ⟨0, 0⟩ 5) ∧ is 8 0x0020004302030029 (.vfma ⟨0, 0⟩ .f32 8 0 1)
  ∧ is 8 0x0830000300000049 (.pub ⟨0, 0⟩ 2 3 0) ∧ is 8 0x0400050300800041 (.pull ⟨0, 0⟩ 2 1 5)

/-- Table 2-7 with R30, R34 and R271, R11 and R12: nothing that the cycle brings about being due (log entry 90), a
step whose turn is a live companion core's executes the instruction that the bytes at its program counter decode to, or waits
where its result is awaited (R271); the stores that its operands are computed from perform before its accesses, and what it
leaves of the stores and of the units read ahead is brought up to date (R340, R344, log entry 70); then the passed arms fire and
the clock goes on, to no later than what is due first. A prefix word executes with the instruction after it in the same step. -/
def Obligations.StepRunsDecoded : Prop :=
  let ran (i : Instr) (u : State) : Host.Outcome State Fault Refusal :=
    let v := u.beforeAccess i
    clocked (match exec i v with | .next t => .next (v.noteOrder t i) | o => o)
  ∀ (s : State) (r : Role) (rest : List Pick) (d e : Decoded) (p : Prefix),
    s.window.tripped = false → s.forced = none → s.agenda = .comp r :: rest →
    let u : State := { s with agenda := rest, cur := r }
    let c := u.me
    let n := c.pc.toNat
    c.run = .running → u.live = true → u.hereCancelled = false → u.trapReady r = false → c.pfx = none →
    n < 0x10000 → n % 4 = 0 → (c.entry = true → c.landing n = true) →
    (c.word n % 4 = 1 → n + 4 < 0x10000) →
    decode (c.istore.readN n (min 8 (0x10000 - n))) = .ok d →
      let v := u.setMe { c with entry := false }
      (c.word n % 4 ≠ 2 → isPrefix d.instr = false → v.interlocked d.instr = false → step s = ran d.instr v)
      ∧ (c.word n % 4 ≠ 2 → isPrefix d.instr = false → v.interlocked d.instr = true →
        step s = clocked (.next (v.setMe { v.me with waiting := true })))
      ∧ (c.word n % 4 = 2 → d.instr = .pfx p → n + 4 < 0x10000 → c.word (n + 4) % 4 ≠ 2 → c.landing (n + 4) = false →
        isBranchWord (c.word (n + 4)) = false → (c.word (n + 4) % 4 = 1 → n + 8 < 0x10000) →
        decode (c.istore.readN (n + 4) (min 8 (0x10000 - (n + 4)))) = .ok e →
        let w := v.noteOrder (v.setMe { v.me with pfx := some ⟨p, c.pc, BitVec.ofNat 32 (c.word n)⟩, pc := c.pc + 4 })
          (.pfx p)
        w.interlocked e.instr = false → step s = ran e.instr w)
      ∧ ∀ t : State,
        let f := t.fireAll
        ∃ k : Nat, clocked (.next t) = .next { f with cycle := BitVec.ofNat 64 k, ticks := f.ticks + 1 }
          ∧ f.cycle.toNat ≤ k
          ∧ (f.firstDue = none → f.cycle.toNat < k)
          ∧ ∀ x, f.firstDue = some x → k ≤ max f.cycle.toNat x.1 ∧ (f.cycle.toNat < x.1 → f.cycle.toNat < k)

/-- R39, whole, with Table 2-9, and R32 for what a companion core executes: an instruction outside the executing
core's role profile raises ILLEGAL, and so does one that is no engine command and no prefix word under a set prefix
field. -/
def Obligations.RoleProfiles : Prop :=
  ∀ (s : State) (i : Instr), i.isEvent = false →
    (s.cur ∉ profile i → Raises i s .illegal 0 s.me.unitPc)
    ∧ (i.hdr = none → isPrefix i = false → s.prefixNow.bare = false → Raises i s .illegal 0 s.me.unitPc)

/-- Right after reset every memory of the package is in its canonical form. -/
def Obligations.ResetMemoriesAreCanonical : Prop := State.reset.MemWf

/-- Every step of the package keeps every memory, of every core, of every saved core and of every core that a state area holds, in
its canonical form. -/
def Obligations.StepKeepsMemories : Prop := ∀ s t : State, s.MemWf → step s = .next t → t.MemWf
end

