-- ==== Sys2Proof/Laws/State.lean ====
section
/-! SUPPORT. One lemma per field per update of the state, so that no proof unfolds a record update, and the reads of each
register after its write. -/

namespace Sys2Proof.Machine

/-! ### Cores and companion cores -/

@[simp] theorem Core.comp_setComp (c : Core) (r : Role) (x : Companion) : (c.setComp r x).comp r = x := by
  cases r <;> rfl

theorem Core.comp_setComp_ne (c : Core) {r q : Role} (x : Companion) (h : q ≠ r) : (c.setComp r x).comp q = c.comp q := by
  cases r <;> cases q <;> first | rfl | exact absurd rfl h

@[simp] theorem Core.setComp_setComp (c : Core) (r : Role) (x y : Companion) :
    (c.setComp r x).setComp r y = c.setComp r y := by cases r <;> rfl

@[simp] theorem Core.setComp_comp (c : Core) (r : Role) : c.setComp r (c.comp r) = c := by cases r <;> rfl

@[simp] theorem Core.setComp_queues (c : Core) (r : Role) (x : Companion) :
    (c.setComp r x).queues = c.queues := by cases r <;> rfl
@[simp] theorem Core.setComp_tokens (c : Core) (r : Role) (x : Companion) :
    (c.setComp r x).tokens = c.tokens := by cases r <;> rfl
@[simp] theorem Core.setComp_tags (c : Core) (r : Role) (x : Companion) :
    (c.setComp r x).tags = c.tags := by cases r <;> rfl
@[simp] theorem Core.setComp_arms (c : Core) (r : Role) (x : Companion) :
    (c.setComp r x).arms = c.arms := by cases r <;> rfl
@[simp] theorem Core.setComp_rs (c : Core) (r : Role) (x : Companion) :
    (c.setComp r x).rs = c.rs := by cases r <;> rfl
@[simp] theorem Core.setComp_torn (c : Core) (r : Role) (x : Companion) :
    (c.setComp r x).torn = c.torn := by cases r <;> rfl
@[simp] theorem Core.setComp_k (c : Core) (r : Role) (x : Companion) :
    (c.setComp r x).k = c.k := by cases r <;> rfl
@[simp] theorem Core.setComp_vbm (c : Core) (r : Role) (x : Companion) :
    (c.setComp r x).vbm = c.vbm := by cases r <;> rfl
@[simp] theorem Core.setComp_views (c : Core) (r : Role) (x : Companion) :
    (c.setComp r x).views = c.views := by cases r <;> rfl
@[simp] theorem Core.setComp_macros (c : Core) (r : Role) (x : Companion) :
    (c.setComp r x).macros = c.macros := by cases r <;> rfl
@[simp] theorem Core.setComp_codebook (c : Core) (r : Role) (x : Companion) :
    (c.setComp r x).codebook = c.codebook := by cases r <;> rfl
@[simp] theorem Core.setComp_outliers (c : Core) (r : Role) (x : Companion) :
    (c.setComp r x).outliers = c.outliers := by cases r <;> rfl
@[simp] theorem Core.setComp_fmtq (c : Core) (r : Role) (x : Companion) :
    (c.setComp r x).fmtq = c.fmtq := by cases r <;> rfl
@[simp] theorem Core.setComp_fmtRes (c : Core) (r : Role) (x : Companion) :
    (c.setComp r x).fmtRes = c.fmtRes := by cases r <;> rfl
@[simp] theorem Core.setComp_tiles (c : Core) (r : Role) (x : Companion) :
    (c.setComp r x).tiles = c.tiles := by cases r <;> rfl
@[simp] theorem Core.setComp_att (c : Core) (r : Role) (x : Companion) :
    (c.setComp r x).att = c.att := by cases r <;> rfl
@[simp] theorem Core.setComp_seed (c : Core) (r : Role) (x : Companion) :
    (c.setComp r x).seed = c.seed := by cases r <;> rfl
@[simp] theorem Core.setComp_genVec (c : Core) (r : Role) (x : Companion) :
    (c.setComp r x).genVec = c.genVec := by cases r <;> rfl
@[simp] theorem Core.setComp_genMat (c : Core) (r : Role) (x : Companion) :
    (c.setComp r x).genMat = c.genMat := by cases r <;> rfl
@[simp] theorem Core.setComp_genAtt (c : Core) (r : Role) (x : Companion) :
    (c.setComp r x).genAtt = c.genAtt := by cases r <;> rfl
@[simp] theorem Core.setComp_tvec (c : Core) (r : Role) (x : Companion) :
    (c.setComp r x).tvec = c.tvec := by cases r <;> rfl
@[simp] theorem Core.setComp_kvtab (c : Core) (r : Role) (x : Companion) :
    (c.setComp r x).kvtab = c.kvtab := by cases r <;> rfl
@[simp] theorem Core.setComp_kvseq (c : Core) (r : Role) (x : Companion) :
    (c.setComp r x).kvseq = c.kvseq := by cases r <;> rfl
@[simp] theorem Core.setComp_quant (c : Core) (r : Role) (x : Companion) :
    (c.setComp r x).quant = c.quant := by cases r <;> rfl
@[simp] theorem Core.setComp_retto (c : Core) (r : Role) (x : Companion) :
    (c.setComp r x).retto = c.retto := by cases r <;> rfl
@[simp] theorem Core.setComp_disc (c : Core) (r : Role) (x : Companion) :
    (c.setComp r x).disc = c.disc := by cases r <;> rfl
@[simp] theorem Core.setComp_deferred (c : Core) (r : Role) (x : Companion) :
    (c.setComp r x).deferred = c.deferred := by cases r <;> rfl
@[simp] theorem Core.setComp_port (c : Core) (r : Role) (x : Companion) :
    (c.setComp r x).port = c.port := by cases r <;> rfl
@[simp] theorem Core.setComp_batches (c : Core) (r : Role) (x : Companion) :
    (c.setComp r x).batches = c.batches := by cases r <;> rfl
@[simp] theorem Core.setComp_openTag (c : Core) (r : Role) (x : Companion) :
    (c.setComp r x).openTag = c.openTag := by cases r <;> rfl
@[simp] theorem Core.setComp_lateBatches (c : Core) (r : Role) (x : Companion) :
    (c.setComp r x).lateBatches = c.lateBatches := by cases r <;> rfl
@[simp] theorem Core.setComp_combine (c : Core) (r : Role) (x : Companion) :
    (c.setComp r x).combine = c.combine := by cases r <;> rfl
@[simp] theorem Core.setComp_remote (c : Core) (r : Role) (x : Companion) :
    (c.setComp r x).remote = c.remote := by cases r <;> rfl
@[simp] theorem Core.setComp_ctx (c : Core) (r : Role) (x : Companion) :
    (c.setComp r x).ctx = c.ctx := by cases r <;> rfl
@[simp] theorem Core.setComp_lastJob (c : Core) (r : Role) (x : Companion) :
    (c.setComp r x).lastJob = c.lastJob := by cases r <;> rfl
@[simp] theorem Core.setComp_exec (c : Core) (r : Role) (x : Companion) :
    (c.setComp r x).exec = c.exec := by cases r <;> rfl
@[simp] theorem Core.setComp_taskNo (c : Core) (r : Role) (x : Companion) :
    (c.setComp r x).taskNo = c.taskNo := by cases r <;> rfl

@[simp] theorem Core.queue_setComp (c : Core) (r : Role) (x : Companion) (q : QueueId) :
    (c.setComp r x).queue q = c.queue q := by cases r <;> rfl

@[simp] theorem Core.queue_setQueue (c : Core) (q : QueueId) (x : Queue) : (c.setQueue q x).queue q = x := by
  simp [Core.setQueue, Core.queue]

theorem QueueId.num_inj {p q : QueueId} (h : p.num = q.num) : p = q := by
  cases p <;> cases q <;> first | rfl | (exact absurd h (by decide))

theorem Core.queue_setQueue_ne (c : Core) {p q : QueueId} (x : Queue) (h : p ≠ q) :
    (c.setQueue q x).queue p = c.queue p := by
  have hn : q.num.val ≠ p.num.val := fun e => h (QueueId.num_inj (Fin.ext e.symm))
  simp [Core.setQueue, Core.queue, hn]

@[simp] theorem Core.comp_setQueue (c : Core) (q : QueueId) (x : Queue) (r : Role) :
    (c.setQueue q x).comp r = c.comp r := by cases r <;> rfl

/-! ### The executing companion core -/

@[simp] theorem State.me_setMe (s : State) (x : Companion) : (s.setMe x).me = x := Core.comp_setComp _ _ _
@[simp] theorem State.setMe_setMe (s : State) (x y : Companion) : (s.setMe x).setMe y = s.setMe y := by
  simp [State.setMe, State.setComp]
@[simp] theorem State.setMe_me (s : State) : s.setMe s.me = s := by simp [State.setMe, State.setComp, State.me]

@[simp] theorem State.setMe_core (s : State) (x : Companion) : (s.setMe x).core = s.core.setComp s.cur x := rfl
@[simp] theorem State.setMe_cur (s : State) (x : Companion) : (s.setMe x).cur = s.cur := rfl
@[simp] theorem State.setMe_coreId (s : State) (x : Companion) : (s.setMe x).coreId = s.coreId := rfl
@[simp] theorem State.setMe_others (s : State) (x : Companion) : (s.setMe x).others = s.others := rfl
@[simp] theorem State.setMe_mem (s : State) (x : Companion) : (s.setMe x).mem = s.mem := rfl
@[simp] theorem State.setMe_poison (s : State) (x : Companion) : (s.setMe x).poison = s.poison := rfl
@[simp] theorem State.setMe_lost (s : State) (x : Companion) : (s.setMe x).lost = s.lost := rfl
@[simp] theorem State.setMe_lag (s : State) (x : Companion) : (s.setMe x).lag = s.lag := rfl
@[simp] theorem State.setMe_lagSeq (s : State) (x : Companion) : (s.setMe x).lagSeq = s.lagSeq := rfl
@[simp] theorem State.setMe_used (s : State) (x : Companion) : (s.setMe x).used = s.used := rfl
@[simp] theorem State.setMe_ctxs (s : State) (x : Companion) : (s.setMe x).ctxs = s.ctxs := rfl
@[simp] theorem State.setMe_jobs (s : State) (x : Companion) : (s.setMe x).jobs = s.jobs := rfl
@[simp] theorem State.setMe_jobIds (s : State) (x : Companion) : (s.setMe x).jobIds = s.jobIds := rfl
@[simp] theorem State.setMe_jobGens (s : State) (x : Companion) : (s.setMe x).jobGens = s.jobGens := rfl
@[simp] theorem State.setMe_graphs (s : State) (x : Companion) : (s.setMe x).graphs = s.graphs := rfl
@[simp] theorem State.setMe_graphGens (s : State) (x : Companion) : (s.setMe x).graphGens = s.graphGens := rfl
@[simp] theorem State.setMe_firingGens (s : State) (x : Companion) : (s.setMe x).firingGens = s.firingGens := rfl
@[simp] theorem State.setMe_tasks (s : State) (x : Companion) : (s.setMe x).tasks = s.tasks := rfl
@[simp] theorem State.setMe_grants (s : State) (x : Companion) : (s.setMe x).grants = s.grants := rfl
@[simp] theorem State.setMe_pointers (s : State) (x : Companion) : (s.setMe x).pointers = s.pointers := rfl
@[simp] theorem State.setMe_bars (s : State) (x : Companion) : (s.setMe x).bars = s.bars := rfl
@[simp] theorem State.setMe_saved (s : State) (x : Companion) : (s.setMe x).saved = s.saved := rfl
@[simp] theorem State.setMe_savedDies (s : State) (x : Companion) : (s.setMe x).savedDies = s.savedDies := rfl
@[simp] theorem State.setMe_held (s : State) (x : Companion) : (s.setMe x).held = s.held := rfl
@[simp] theorem State.setMe_colls (s : State) (x : Companion) : (s.setMe x).colls = s.colls := rfl
@[simp] theorem State.setMe_armSeq (s : State) (x : Companion) : (s.setMe x).armSeq = s.armSeq := rfl
@[simp] theorem State.setMe_paths (s : State) (x : Companion) : (s.setMe x).paths = s.paths := rfl
@[simp] theorem State.setMe_pathHead (s : State) (x : Companion) : (s.setMe x).pathHead = s.pathHead := rfl
@[simp] theorem State.setMe_sessions (s : State) (x : Companion) : (s.setMe x).sessions = s.sessions := rfl
@[simp] theorem State.setMe_portFree (s : State) (x : Companion) : (s.setMe x).portFree = s.portFree := rfl
@[simp] theorem State.setMe_bridges (s : State) (x : Companion) : (s.setMe x).bridges = s.bridges := rfl
@[simp] theorem State.setMe_bridgeSeq (s : State) (x : Companion) : (s.setMe x).bridgeSeq = s.bridgeSeq := rfl
@[simp] theorem State.setMe_inbound (s : State) (x : Companion) : (s.setMe x).inbound = s.inbound := rfl
@[simp] theorem State.setMe_window (s : State) (x : Companion) : (s.setMe x).window = s.window := rfl
@[simp] theorem State.setMe_fuses (s : State) (x : Companion) : (s.setMe x).fuses = s.fuses := rfl
@[simp] theorem State.setMe_cycle (s : State) (x : Companion) : (s.setMe x).cycle = s.cycle := rfl
@[simp] theorem State.setMe_ticks (s : State) (x : Companion) : (s.setMe x).ticks = s.ticks := rfl
@[simp] theorem State.setMe_firing (s : State) (x : Companion) : (s.setMe x).firing = s.firing := rfl
@[simp] theorem State.setMe_realloc (s : State) (x : Companion) : (s.setMe x).realloc = s.realloc := rfl
@[simp] theorem State.setMe_tickDone (s : State) (x : Companion) : (s.setMe x).tickDone = s.tickDone := rfl
@[simp] theorem State.setMe_sliceDone (s : State) (x : Companion) : (s.setMe x).sliceDone = s.sliceDone := rfl
@[simp] theorem State.setMe_refillDue (s : State) (x : Companion) : (s.setMe x).refillDue = s.refillDue := rfl
@[simp] theorem State.setMe_agenda (s : State) (x : Companion) : (s.setMe x).agenda = s.agenda := rfl
@[simp] theorem State.setMe_areas (s : State) (x : Companion) : (s.setMe x).areas = s.areas := rfl
@[simp] theorem State.setMe_areaSeq (s : State) (x : Companion) : (s.setMe x).areaSeq = s.areaSeq := rfl
@[simp] theorem State.setMe_groups (s : State) (x : Companion) : (s.setMe x).groups = s.groups := rfl
@[simp] theorem State.setMe_links (s : State) (x : Companion) : (s.setMe x).links = s.links := rfl
@[simp] theorem State.setMe_turnCore (s : State) (x : Companion) : (s.setMe x).turnCore = s.turnCore := rfl
@[simp] theorem State.setMe_turns (s : State) (x : Companion) : (s.setMe x).turns = s.turns := rfl
@[simp] theorem State.setMe_outbox (s : State) (x : Companion) : (s.setMe x).outbox = s.outbox := rfl

@[simp] theorem State.setComp_core (s : State) (r : Role) (x : Companion) :
    (s.setComp r x).core = s.core.setComp r x := rfl
@[simp] theorem State.setComp_cur (s : State) (r : Role) (x : Companion) : (s.setComp r x).cur = s.cur := rfl
@[simp] theorem State.setComp_coreId (s : State) (r : Role) (x : Companion) : (s.setComp r x).coreId = s.coreId := rfl
@[simp] theorem State.setComp_others (s : State) (r : Role) (x : Companion) : (s.setComp r x).others = s.others := rfl
@[simp] theorem State.setComp_mem (s : State) (r : Role) (x : Companion) : (s.setComp r x).mem = s.mem := rfl
@[simp] theorem State.setComp_poison (s : State) (r : Role) (x : Companion) : (s.setComp r x).poison = s.poison := rfl
@[simp] theorem State.setComp_lost (s : State) (r : Role) (x : Companion) : (s.setComp r x).lost = s.lost := rfl
@[simp] theorem State.setComp_lag (s : State) (r : Role) (x : Companion) : (s.setComp r x).lag = s.lag := rfl
@[simp] theorem State.setComp_lagSeq (s : State) (r : Role) (x : Companion) : (s.setComp r x).lagSeq = s.lagSeq := rfl
@[simp] theorem State.setComp_used (s : State) (r : Role) (x : Companion) : (s.setComp r x).used = s.used := rfl
@[simp] theorem State.setComp_ctxs (s : State) (r : Role) (x : Companion) : (s.setComp r x).ctxs = s.ctxs := rfl
@[simp] theorem State.setComp_jobs (s : State) (r : Role) (x : Companion) : (s.setComp r x).jobs = s.jobs := rfl
@[simp] theorem State.setComp_jobIds (s : State) (r : Role) (x : Companion) : (s.setComp r x).jobIds = s.jobIds := rfl
@[simp] theorem State.setComp_jobGens (s : State) (r : Role) (x : Companion) : (s.setComp r x).jobGens = s.jobGens := rfl
@[simp] theorem State.setComp_graphs (s : State) (r : Role) (x : Companion) : (s.setComp r x).graphs = s.graphs := rfl
@[simp] theorem State.setComp_graphGens (s : State) (r : Role) (x : Companion) : (s.setComp r x).graphGens = s.graphGens := rfl
@[simp] theorem State.setComp_firingGens (s : State) (r : Role) (x : Companion) : (s.setComp r x).firingGens = s.firingGens := rfl
@[simp] theorem State.setComp_tasks (s : State) (r : Role) (x : Companion) : (s.setComp r x).tasks = s.tasks := rfl
@[simp] theorem State.setComp_grants (s : State) (r : Role) (x : Companion) : (s.setComp r x).grants = s.grants := rfl
@[simp] theorem State.setComp_pointers (s : State) (r : Role) (x : Companion) : (s.setComp r x).pointers = s.pointers := rfl
@[simp] theorem State.setComp_bars (s : State) (r : Role) (x : Companion) : (s.setComp r x).bars = s.bars := rfl
@[simp] theorem State.setComp_saved (s : State) (r : Role) (x : Companion) : (s.setComp r x).saved = s.saved := rfl
@[simp] theorem State.setComp_savedDies (s : State) (r : Role) (x : Companion) : (s.setComp r x).savedDies = s.savedDies := rfl
@[simp] theorem State.setComp_held (s : State) (r : Role) (x : Companion) : (s.setComp r x).held = s.held := rfl
@[simp] theorem State.setComp_colls (s : State) (r : Role) (x : Companion) : (s.setComp r x).colls = s.colls := rfl
@[simp] theorem State.setComp_armSeq (s : State) (r : Role) (x : Companion) : (s.setComp r x).armSeq = s.armSeq := rfl
@[simp] theorem State.setComp_paths (s : State) (r : Role) (x : Companion) : (s.setComp r x).paths = s.paths := rfl
@[simp] theorem State.setComp_pathHead (s : State) (r : Role) (x : Companion) : (s.setComp r x).pathHead = s.pathHead := rfl
@[simp] theorem State.setComp_sessions (s : State) (r : Role) (x : Companion) : (s.setComp r x).sessions = s.sessions := rfl
@[simp] theorem State.setComp_portFree (s : State) (r : Role) (x : Companion) : (s.setComp r x).portFree = s.portFree := rfl
@[simp] theorem State.setComp_bridges (s : State) (r : Role) (x : Companion) : (s.setComp r x).bridges = s.bridges := rfl
@[simp] theorem State.setComp_bridgeSeq (s : State) (r : Role) (x : Companion) : (s.setComp r x).bridgeSeq = s.bridgeSeq := rfl
@[simp] theorem State.setComp_inbound (s : State) (r : Role) (x : Companion) : (s.setComp r x).inbound = s.inbound := rfl
@[simp] theorem State.setComp_window (s : State) (r : Role) (x : Companion) : (s.setComp r x).window = s.window := rfl
@[simp] theorem State.setComp_fuses (s : State) (r : Role) (x : Companion) : (s.setComp r x).fuses = s.fuses := rfl
@[simp] theorem State.setComp_cycle (s : State) (r : Role) (x : Companion) : (s.setComp r x).cycle = s.cycle := rfl
@[simp] theorem State.setComp_ticks (s : State) (r : Role) (x : Companion) : (s.setComp r x).ticks = s.ticks := rfl
@[simp] theorem State.setComp_firing (s : State) (r : Role) (x : Companion) : (s.setComp r x).firing = s.firing := rfl
@[simp] theorem State.setComp_realloc (s : State) (r : Role) (x : Companion) : (s.setComp r x).realloc = s.realloc := rfl
@[simp] theorem State.setComp_tickDone (s : State) (r : Role) (x : Companion) : (s.setComp r x).tickDone = s.tickDone := rfl
@[simp] theorem State.setComp_sliceDone (s : State) (r : Role) (x : Companion) : (s.setComp r x).sliceDone = s.sliceDone := rfl
@[simp] theorem State.setComp_refillDue (s : State) (r : Role) (x : Companion) : (s.setComp r x).refillDue = s.refillDue := rfl
@[simp] theorem State.setComp_agenda (s : State) (r : Role) (x : Companion) : (s.setComp r x).agenda = s.agenda := rfl
@[simp] theorem State.setComp_areas (s : State) (r : Role) (x : Companion) : (s.setComp r x).areas = s.areas := rfl
@[simp] theorem State.setComp_areaSeq (s : State) (r : Role) (x : Companion) : (s.setComp r x).areaSeq = s.areaSeq := rfl
@[simp] theorem State.setComp_groups (s : State) (r : Role) (x : Companion) : (s.setComp r x).groups = s.groups := rfl
@[simp] theorem State.setComp_links (s : State) (r : Role) (x : Companion) : (s.setComp r x).links = s.links := rfl
@[simp] theorem State.setComp_turnCore (s : State) (r : Role) (x : Companion) : (s.setComp r x).turnCore = s.turnCore := rfl
@[simp] theorem State.setComp_turns (s : State) (r : Role) (x : Companion) : (s.setComp r x).turns = s.turns := rfl
@[simp] theorem State.setComp_outbox (s : State) (r : Role) (x : Companion) : (s.setComp r x).outbox = s.outbox := rfl

@[simp] theorem State.setQueue_core (s : State) (q : QueueId) (x : Queue) :
    (s.setQueue q x).core = s.core.setQueue q x := rfl
@[simp] theorem State.setQueue_cur (s : State) (q : QueueId) (x : Queue) : (s.setQueue q x).cur = s.cur := rfl
@[simp] theorem State.setQueue_coreId (s : State) (q : QueueId) (x : Queue) : (s.setQueue q x).coreId = s.coreId := rfl
@[simp] theorem State.setQueue_others (s : State) (q : QueueId) (x : Queue) : (s.setQueue q x).others = s.others := rfl
@[simp] theorem State.setQueue_mem (s : State) (q : QueueId) (x : Queue) : (s.setQueue q x).mem = s.mem := rfl
@[simp] theorem State.setQueue_poison (s : State) (q : QueueId) (x : Queue) : (s.setQueue q x).poison = s.poison := rfl
@[simp] theorem State.setQueue_lost (s : State) (q : QueueId) (x : Queue) : (s.setQueue q x).lost = s.lost := rfl
@[simp] theorem State.setQueue_lag (s : State) (q : QueueId) (x : Queue) : (s.setQueue q x).lag = s.lag := rfl
@[simp] theorem State.setQueue_lagSeq (s : State) (q : QueueId) (x : Queue) : (s.setQueue q x).lagSeq = s.lagSeq := rfl
@[simp] theorem State.setQueue_used (s : State) (q : QueueId) (x : Queue) : (s.setQueue q x).used = s.used := rfl
@[simp] theorem State.setQueue_ctxs (s : State) (q : QueueId) (x : Queue) : (s.setQueue q x).ctxs = s.ctxs := rfl
@[simp] theorem State.setQueue_jobs (s : State) (q : QueueId) (x : Queue) : (s.setQueue q x).jobs = s.jobs := rfl
@[simp] theorem State.setQueue_jobIds (s : State) (q : QueueId) (x : Queue) : (s.setQueue q x).jobIds = s.jobIds := rfl
@[simp] theorem State.setQueue_jobGens (s : State) (q : QueueId) (x : Queue) : (s.setQueue q x).jobGens = s.jobGens := rfl
@[simp] theorem State.setQueue_graphs (s : State) (q : QueueId) (x : Queue) : (s.setQueue q x).graphs = s.graphs := rfl
@[simp] theorem State.setQueue_graphGens (s : State) (q : QueueId) (x : Queue) : (s.setQueue q x).graphGens = s.graphGens := rfl
@[simp] theorem State.setQueue_firingGens (s : State) (q : QueueId) (x : Queue) : (s.setQueue q x).firingGens = s.firingGens := rfl
@[simp] theorem State.setQueue_tasks (s : State) (q : QueueId) (x : Queue) : (s.setQueue q x).tasks = s.tasks := rfl
@[simp] theorem State.setQueue_grants (s : State) (q : QueueId) (x : Queue) : (s.setQueue q x).grants = s.grants := rfl
@[simp] theorem State.setQueue_pointers (s : State) (q : QueueId) (x : Queue) : (s.setQueue q x).pointers = s.pointers := rfl
@[simp] theorem State.setQueue_bars (s : State) (q : QueueId) (x : Queue) : (s.setQueue q x).bars = s.bars := rfl
@[simp] theorem State.setQueue_saved (s : State) (q : QueueId) (x : Queue) : (s.setQueue q x).saved = s.saved := rfl
@[simp] theorem State.setQueue_savedDies (s : State) (q : QueueId) (x : Queue) : (s.setQueue q x).savedDies = s.savedDies := rfl
@[simp] theorem State.setQueue_held (s : State) (q : QueueId) (x : Queue) : (s.setQueue q x).held = s.held := rfl
@[simp] theorem State.setQueue_colls (s : State) (q : QueueId) (x : Queue) : (s.setQueue q x).colls = s.colls := rfl
@[simp] theorem State.setQueue_armSeq (s : State) (q : QueueId) (x : Queue) : (s.setQueue q x).armSeq = s.armSeq := rfl
@[simp] theorem State.setQueue_paths (s : State) (q : QueueId) (x : Queue) : (s.setQueue q x).paths = s.paths := rfl
@[simp] theorem State.setQueue_pathHead (s : State) (q : QueueId) (x : Queue) : (s.setQueue q x).pathHead = s.pathHead := rfl
@[simp] theorem State.setQueue_sessions (s : State) (q : QueueId) (x : Queue) : (s.setQueue q x).sessions = s.sessions := rfl
@[simp] theorem State.setQueue_portFree (s : State) (q : QueueId) (x : Queue) : (s.setQueue q x).portFree = s.portFree := rfl
@[simp] theorem State.setQueue_bridges (s : State) (q : QueueId) (x : Queue) : (s.setQueue q x).bridges = s.bridges := rfl
@[simp] theorem State.setQueue_bridgeSeq (s : State) (q : QueueId) (x : Queue) : (s.setQueue q x).bridgeSeq = s.bridgeSeq := rfl
@[simp] theorem State.setQueue_inbound (s : State) (q : QueueId) (x : Queue) : (s.setQueue q x).inbound = s.inbound := rfl
@[simp] theorem State.setQueue_window (s : State) (q : QueueId) (x : Queue) : (s.setQueue q x).window = s.window := rfl
@[simp] theorem State.setQueue_fuses (s : State) (q : QueueId) (x : Queue) : (s.setQueue q x).fuses = s.fuses := rfl
@[simp] theorem State.setQueue_cycle (s : State) (q : QueueId) (x : Queue) : (s.setQueue q x).cycle = s.cycle := rfl
@[simp] theorem State.setQueue_ticks (s : State) (q : QueueId) (x : Queue) : (s.setQueue q x).ticks = s.ticks := rfl
@[simp] theorem State.setQueue_firing (s : State) (q : QueueId) (x : Queue) : (s.setQueue q x).firing = s.firing := rfl
@[simp] theorem State.setQueue_realloc (s : State) (q : QueueId) (x : Queue) : (s.setQueue q x).realloc = s.realloc := rfl
@[simp] theorem State.setQueue_tickDone (s : State) (q : QueueId) (x : Queue) : (s.setQueue q x).tickDone = s.tickDone := rfl
@[simp] theorem State.setQueue_sliceDone (s : State) (q : QueueId) (x : Queue) : (s.setQueue q x).sliceDone = s.sliceDone := rfl
@[simp] theorem State.setQueue_refillDue (s : State) (q : QueueId) (x : Queue) : (s.setQueue q x).refillDue = s.refillDue := rfl
@[simp] theorem State.setQueue_agenda (s : State) (q : QueueId) (x : Queue) : (s.setQueue q x).agenda = s.agenda := rfl
@[simp] theorem State.setQueue_areas (s : State) (q : QueueId) (x : Queue) : (s.setQueue q x).areas = s.areas := rfl
@[simp] theorem State.setQueue_areaSeq (s : State) (q : QueueId) (x : Queue) : (s.setQueue q x).areaSeq = s.areaSeq := rfl
@[simp] theorem State.setQueue_groups (s : State) (q : QueueId) (x : Queue) : (s.setQueue q x).groups = s.groups := rfl
@[simp] theorem State.setQueue_links (s : State) (q : QueueId) (x : Queue) : (s.setQueue q x).links = s.links := rfl
@[simp] theorem State.setQueue_turnCore (s : State) (q : QueueId) (x : Queue) : (s.setQueue q x).turnCore = s.turnCore := rfl
@[simp] theorem State.setQueue_turns (s : State) (q : QueueId) (x : Queue) : (s.setQueue q x).turns = s.turns := rfl
@[simp] theorem State.setQueue_outbox (s : State) (q : QueueId) (x : Queue) : (s.setQueue q x).outbox = s.outbox := rfl
@[simp] theorem State.me_setQueue (s : State) (q : QueueId) (x : Queue) : (s.setQueue q x).me = s.me := by
  simp [State.me]

/-! ### Bits -/

theorem getLsbD_setBit {n : Nat} (x : BitVec n) (i j : Nat) (v : Bool) (hi : i < n) :
    (setBit x i v).getLsbD j = if j = i then v else x.getLsbD j := by
  unfold setBit
  by_cases h : j = i
  · subst h; cases v <;> simp [hi]
  · have h' : ¬(j - i = 0 ∧ i ≤ j) := by omega
    by_cases hl : j < i
    · cases v
      · simpa [h, hl] using fun hx => BitVec.lt_of_getLsbD hx
      · simp [h, hl]
    · have : j - i ≠ 0 := by omega
      cases v
      · simpa [h, hl, this] using fun hx => BitVec.lt_of_getLsbD hx
      · simp [h, hl, this]

/-! ### Registers of a companion core -/

theorem Companion.reg_zero (c : Companion) : c.reg 0 = 0 := rfl
theorem Companion.reg_ne (c : Companion) {r : SReg} (h : r ≠ 0) : c.reg r = c.s[r.toNat] := if_neg h
theorem Companion.pred_zero (c : Companion) : c.pred 0 = true := rfl
theorem Companion.pred_ne (c : Companion) {r : PReg} (h : r ≠ 0) : c.pred r = c.p.getLsbD r.toNat := if_neg h
theorem Companion.setReg_zero (c : Companion) (v : Word) : c.setReg 0 v = c := rfl
theorem Companion.setReg_ne (c : Companion) {d : SReg} (v : Word) (h : d ≠ 0) :
    c.setReg d v = { c with s := c.s.set d.toNat v } := if_neg h
theorem Companion.setPred_zero (c : Companion) (v : Bool) : c.setPred 0 v = c := rfl
theorem Companion.setPred_ne (c : Companion) {d : PReg} (v : Bool) (h : d ≠ 0) :
    c.setPred d v = { c with p := setBit c.p d.toNat v } := if_neg h

theorem Companion.reg_setReg (c : Companion) (d r : SReg) (v : Word) :
    (c.setReg d v).reg r = if r = d ∧ d ≠ 0 then v else c.reg r := by
  by_cases hd : d = 0
  · subst hd; rw [setReg_zero, if_neg (fun h => h.2 rfl)]
  rw [setReg_ne c v hd]
  by_cases hr : r = d
  · subst hr; rw [if_pos ⟨rfl, hd⟩, reg_ne _ hd]; simp
  rw [if_neg (fun h : r = d ∧ d ≠ 0 => hr h.1)]
  by_cases h0 : r = 0
  · subst h0; rfl
  have hn : ¬ d.toNat = r.toNat := fun h => hr (BitVec.eq_of_toNat_eq h.symm)
  rw [reg_ne _ h0, reg_ne _ h0]; simp [hn]

theorem Companion.pred_setPred (c : Companion) (d r : PReg) (v : Bool) :
    (c.setPred d v).pred r = if r = d ∧ d ≠ 0 then v else c.pred r := by
  by_cases hd : d = 0
  · subst hd; rw [setPred_zero, if_neg (fun h => h.2 rfl)]
  rw [setPred_ne c v hd]
  by_cases hr : r = d
  · subst hr; rw [if_pos ⟨rfl, hd⟩, pred_ne _ hd, getLsbD_setBit _ _ _ _ r.isLt, if_pos rfl]
  rw [if_neg (fun h : r = d ∧ d ≠ 0 => hr h.1)]
  by_cases h0 : r = 0
  · subst h0; rfl
  have hn : ¬ r.toNat = d.toNat := fun h => hr (BitVec.eq_of_toNat_eq h)
  rw [pred_ne _ h0, pred_ne _ h0, getLsbD_setBit _ _ _ _ d.isLt, if_neg hn]

@[simp] theorem Companion.setReg_p (c : Companion) (d : SReg) (v : Word) : (c.setReg d v).p = c.p := by
  unfold Companion.setReg; split <;> rfl
@[simp] theorem Companion.setReg_b (c : Companion) (d : SReg) (v : Word) : (c.setReg d v).b = c.b := by
  unfold Companion.setReg; split <;> rfl
@[simp] theorem Companion.setReg_pc (c : Companion) (d : SReg) (v : Word) : (c.setReg d v).pc = c.pc := by
  unfold Companion.setReg; split <;> rfl
@[simp] theorem Companion.setReg_vcfg (c : Companion) (d : SReg) (v : Word) : (c.setReg d v).vcfg = c.vcfg := by
  unfold Companion.setReg; split <;> rfl
@[simp] theorem Companion.setReg_sbuf (c : Companion) (d : SReg) (v : Word) : (c.setReg d v).sbuf = c.sbuf := by
  unfold Companion.setReg; split <;> rfl
@[simp] theorem Companion.setReg_istore (c : Companion) (d : SReg) (v : Word) : (c.setReg d v).istore = c.istore := by
  unfold Companion.setReg; split <;> rfl
@[simp] theorem Companion.setPred_s (c : Companion) (d : PReg) (v : Bool) : (c.setPred d v).s = c.s := by
  unfold Companion.setPred; split <;> rfl
@[simp] theorem Companion.setPred_b (c : Companion) (d : PReg) (v : Bool) : (c.setPred d v).b = c.b := by
  unfold Companion.setPred; split <;> rfl
@[simp] theorem Companion.setPred_pc (c : Companion) (d : PReg) (v : Bool) : (c.setPred d v).pc = c.pc := by
  unfold Companion.setPred; split <;> rfl
@[simp] theorem Companion.setPred_istore (c : Companion) (d : PReg) (v : Bool) : (c.setPred d v).istore = c.istore := by
  unfold Companion.setPred; split <;> rfl

/-- A write of an s register changes the s registers alone. -/
theorem Companion.setReg_eq (c : Companion) (d : SReg) (v : Word) : c.setReg d v = { c with s := (c.setReg d v).s } := by
  unfold Companion.setReg; split <;> rfl

/-- A write of a p register changes the p registers alone. -/
theorem Companion.setPred_eq (c : Companion) (d : PReg) (v : Bool) : c.setPred d v = { c with p := (c.setPred d v).p } := by
  unfold Companion.setPred; split <;> rfl

theorem State.rd_setMe (s : State) (x : Companion) (r : SReg) : (s.setMe x).rd r = x.reg r := by simp [State.rd]
theorem State.rdP_setMe (s : State) (x : Companion) (p : PReg) : (s.setMe x).rdP p = x.pred p := by simp [State.rdP]
theorem State.rdB_setMe (s : State) (x : Companion) (b : BReg) : (s.setMe x).rdB b = x.b[b.toNat] := by
  simp [State.rdB]

@[simp] theorem State.wr_mem (s : State) (d : SReg) (v : Word) : (s.wr d v).mem = s.mem := rfl
@[simp] theorem State.wrP_mem (s : State) (d : PReg) (v : Bool) : (s.wrP d v).mem = s.mem := rfl
@[simp] theorem State.wrB_mem (s : State) (d : BReg) (v : Word) : (s.wrB d v).mem = s.mem := rfl
@[simp] theorem State.advance_mem (s : State) (n : Nat) : (s.advance n).mem = s.mem := rfl
@[simp] theorem State.advance_me (s : State) (n : Nat) :
    (s.advance n).me = { s.me with pc := s.me.pc + BitVec.ofNat 17 n } := State.me_setMe _ _

end Sys2Proof.Machine
end

