-- ==== Sys2Proof/Laws/Memory.lean ====
section
/-! SUPPORT. The canonical memory under each of its operations, and what a store that performs leaves of the rest of the
state. -/

namespace Sys2Proof.Machine

/-! ### The canonical form -/

theorem Mem.wf_nil : Mem.Wf [] := ⟨List.Pairwise.nil, by simp⟩

theorem Mem.Wf.tail {x : Nat × Byte} {m : Mem} (h : Mem.Wf (x :: m)) : Mem.Wf m :=
  ⟨h.1.of_cons, fun c hc => h.2 c (List.mem_cons_of_mem _ hc)⟩

theorem Mem.Wf.filter {m : Mem} (h : m.Wf) (f : Nat × Byte → Bool) : Mem.Wf (m.filter f) :=
  ⟨h.1.filter f, fun c hc => h.2 c (List.mem_filter.mp hc).1⟩

/-- The addresses of a memory that one byte has been written to are its own and that byte's. -/
theorem Mem.mem_write {m : Mem} {a : Nat} {v : Byte} {c : Nat × Byte} (h : c ∈ m.write a v) :
    c ∈ m ∨ c = (a, v) ∧ v ≠ 0 := by
  induction m with
  | nil =>
    simp only [Mem.write] at h
    split at h
    · exact absurd h (by simp)
    · exact .inr ⟨by simpa using h, ‹_›⟩
  | cons x m ih =>
    obtain ⟨k, w⟩ := x
    simp only [Mem.write] at h
    split at h
    · split at h
      · exact .inl h
      · rcases List.mem_cons.mp h with h | h
        · exact .inr ⟨h, ‹_›⟩
        · exact .inl h
    · split at h
      · split at h
        · exact .inl (List.mem_cons_of_mem _ h)
        · rcases List.mem_cons.mp h with h | h
          · exact .inr ⟨h, ‹_›⟩
          · exact .inl (List.mem_cons_of_mem _ h)
      · rcases List.mem_cons.mp h with h | h
        · exact .inl (h ▸ List.mem_cons_self ..)
        · rcases ih h with h | h
          · exact .inl (List.mem_cons_of_mem _ h)
          · exact .inr h

/-- A write of one byte keeps the canonical form. -/
theorem Mem.Wf.write {m : Mem} (h : m.Wf) (a : Nat) (v : Byte) : (m.write a v).Wf := by
  induction m with
  | nil =>
    simp only [Mem.write]
    split
    · exact Mem.wf_nil
    · exact ⟨List.pairwise_singleton .., by simpa⟩
  | cons x m ih =>
    obtain ⟨k, w⟩ := x
    have hk := List.pairwise_cons.mp h.1
    simp only [Mem.write]
    split
    · rename_i hlt
      split
      · exact h
      · refine ⟨List.pairwise_cons.mpr ⟨fun c hc => ?_, h.1⟩, fun c hc => ?_⟩
        · rcases List.mem_cons.mp hc with rfl | hc
          · exact hlt
          · exact Nat.lt_trans hlt (hk.1 c hc)
        · rcases List.mem_cons.mp hc with rfl | hc
          · assumption
          · exact h.2 c hc
    · split
      · rename_i ha
        split
        · exact h.tail
        · refine ⟨List.pairwise_cons.mpr ⟨fun c hc => ha ▸ hk.1 c hc, hk.2⟩, fun c hc => ?_⟩
          rcases List.mem_cons.mp hc with rfl | hc
          · assumption
          · exact h.2 c (List.mem_cons_of_mem _ hc)
      · refine ⟨List.pairwise_cons.mpr ⟨fun c hc => ?_, (ih h.tail).1⟩, fun c hc => ?_⟩
        · rcases Mem.mem_write hc with hc | ⟨rfl, -⟩
          · exact hk.1 c hc
          · show k < a; omega
        · rcases List.mem_cons.mp hc with rfl | hc
          · exact h.2 _ (List.mem_cons_self ..)
          · exact (ih h.tail).2 c hc

theorem Mem.Wf.writeN {m : Mem} (h : m.Wf) (a : Nat) (bs : List Byte) : (m.writeN a bs).Wf := by
  induction bs generalizing m a with
  | nil => exact h
  | cons b bs ih => exact ih (h.write a b) (a + 1)

theorem Mem.Wf.image {m : Mem} (h : m.Wf) (b : Nat) (src : Mem) (a n : Nat) (skip : Nat → Bool) :
    (m.image b src a n skip).Wf := by
  unfold Mem.image
  generalize List.filter _ src = l
  have h := h.filter (fun c => !(b ≤ c.1 && c.1 < b + n) || skip (c.1 - b + a))
  generalize List.filter _ m = d at h
  induction l generalizing d with
  | nil => exact h
  | cons c l ih => exact ih _ (h.write _ _)

/-! ### Reads after one write -/

/-- In a canonical memory whose addresses lie above `a`, nothing is listed at `a`. -/
theorem Mem.read_below {m : Mem} {a : Nat} (h : ∀ c ∈ m, a < c.1) : m.read a = 0 := by
  induction m with
  | nil => rfl
  | cons x m ih =>
    obtain ⟨k, w⟩ := x
    have : k ≠ a := fun e => Nat.lt_irrefl a (e ▸ h (k, w) (List.mem_cons_self ..))
    rw [Mem.read, if_neg this]
    exact ih fun c hc => h c (List.mem_cons_of_mem _ hc)

/-- A byte written reads back, and every other byte is as it was. -/
theorem Mem.read_write {m : Mem} (h : m.Wf) (a : Nat) (v : Byte) (x : Nat) :
    (m.write a v).read x = if x = a then v else m.read x := by
  induction m with
  | nil =>
    have h1 : Mem.write [] a v = if v = 0 then [] else [(a, v)] := rfl
    have h2 : Mem.read [(a, v)] x = if a = x then v else 0 := rfl
    have h3 : Mem.read [] x = 0 := rfl
    by_cases hv : v = 0
    · rw [h1, if_pos hv, h3, hv, ite_self]
    · rw [h1, if_neg hv, h2, h3]
      by_cases hx : x = a
      · rw [if_pos hx.symm, if_pos hx]
      · rw [if_neg (Ne.symm hx), if_neg hx]
  | cons y m ih =>
    obtain ⟨k, w⟩ := y
    have hk := (List.pairwise_cons.mp h.1).1
    rw [Mem.write]
    split
    · rename_i hlt
      have hb : ∀ c ∈ ((k, w) :: m : Mem), a < c.1 := by
        intro c hc
        rcases List.mem_cons.mp hc with rfl | hc
        · exact hlt
        · exact Nat.lt_trans hlt (hk c hc)
      split
      · rename_i hv
        by_cases hx : x = a
        · rw [if_pos hx, hx, Mem.read_below hb, hv]
        · rw [if_neg hx]
      · by_cases hx : x = a
        · rw [if_pos hx, Mem.read, if_pos hx.symm]
        · rw [if_neg hx]; conv => lhs; rw [Mem.read]
          rw [if_neg (Ne.symm hx)]
    · split
      · rename_i ha
        have hb : ∀ c ∈ m, a < c.1 := fun c hc => ha ▸ hk c hc
        split
        · rename_i hv
          by_cases hx : x = a
          · rw [if_pos hx, hx, Mem.read_below hb, hv]
          · rw [if_neg hx]; conv => rhs; rw [Mem.read]
            rw [if_neg (fun e => hx (ha ▸ e.symm))]
        · by_cases hx : x = a
          · rw [if_pos hx, Mem.read, if_pos hx.symm]
          · rw [if_neg hx, Mem.read, if_neg (Ne.symm hx), Mem.read, if_neg (fun e => hx (ha ▸ e.symm))]
      · rename_i hlt hne
        by_cases hx : k = x
        · rw [Mem.read, if_pos hx, Mem.read, if_pos hx, if_neg (fun e : x = a => hne (e.symm.trans hx.symm))]
        · rw [Mem.read, if_neg hx, Mem.read, if_neg hx]; exact ih h.tail

/-! ### Stores that perform -/

@[simp] theorem State.put_core (s : State) (loc : Nat) (bs : List Byte) : (s.put loc bs).core = s.core := rfl
@[simp] theorem State.put_mem (s : State) (loc : Nat) (bs : List Byte) : (s.put loc bs).mem = s.mem.writeN loc bs := rfl
@[simp] theorem State.put_lag (s : State) (loc : Nat) (bs : List Byte) : (s.put loc bs).lag = s.lag := rfl
@[simp] theorem State.poke_core (s : State) (loc : Nat) (bs : List Byte) : (s.poke loc bs).core = s.core := rfl
@[simp] theorem State.poke_mem (s : State) (loc : Nat) (bs : List Byte) : (s.poke loc bs).mem = s.mem.writeN loc bs := rfl
@[simp] theorem State.poke_cur (s : State) (loc : Nat) (bs : List Byte) : (s.poke loc bs).cur = s.cur := rfl
@[simp] theorem State.poke_coreId (s : State) (loc : Nat) (bs : List Byte) : (s.poke loc bs).coreId = s.coreId := rfl
@[simp] theorem State.poke_others (s : State) (loc : Nat) (bs : List Byte) : (s.poke loc bs).others = s.others := rfl
@[simp] theorem State.poke_saved (s : State) (loc : Nat) (bs : List Byte) : (s.poke loc bs).saved = s.saved := rfl

/-- A write keeps memory canonical, whichever path it takes. -/
theorem State.put_wf {s : State} (h : s.mem.Wf) (loc : Nat) (bs : List Byte) : (s.put loc bs).mem.Wf := h.writeN loc bs
theorem State.poke_wf {s : State} (h : s.mem.Wf) (loc : Nat) (bs : List Byte) : (s.poke loc bs).mem.Wf := h.writeN loc bs

/-- What traffic leaves of a state: the count of its context alone changes. -/
theorem State.traffic_frame (s : State) (cx : Option Ctx) (core : Nat) (a : Word) (sp : List (Nat × Nat)) :
    ∃ u, s.traffic cx core a sp = { s with used := u } := by
  unfold State.traffic State.spend
  split
  · exact ⟨s.used, rfl⟩
  · split
    · exact ⟨s.used, rfl⟩
    · exact ⟨_, rfl⟩

/-- An `st.rel` that performs changes what the port path has not seen alone. -/
theorem State.sendRel_frame (s : State) (r : Role) (b : BufStore) : ∃ l, s.sendRel r b = { s with lag := l } := by
  unfold State.sendRel
  split
  · exact ⟨s.lag, rfl⟩
  · exact ⟨_, rfl⟩

/-- A trap posted to a companion core changes that core's posted traps alone. -/
theorem State.post_frame (s : State) (r : Role) (p : Posted) :
    ∃ l, s.post r p = s.setComp r { s.core.comp r with posted := l } := by
  unfold State.post
  simp only
  split
  · exact ⟨_, rfl⟩
  · refine ⟨(s.core.comp r).posted, ?_⟩
    have : s.setComp r (s.core.comp r) = s := by rw [State.setComp, Core.setComp_comp]
    exact this.symm

/-- Fields of a state that a buffered store changes when it performs: memory, its broken and its lost units, what the port
path need not see yet and the number of the next write, the traffic, the passed arms, and the posted traps of its companion core. -/
structure Performed (s : State) (r : Role) (t : State) : Prop where
  eq : ∃ m p q l n u f x, t = { s.setComp r { s.core.comp r with posted := x } with
    mem := m, poison := p, lost := q, lag := l, lagSeq := n, used := u, firing := f }
  wf : s.mem.Wf → t.mem.Wf

theorem Performed.refl (s : State) (r : Role) : Performed s r s :=
  ⟨⟨s.mem, s.poison, s.lost, s.lag, s.lagSeq, s.used, s.firing, (s.core.comp r).posted, by
    have : s.setComp r (s.core.comp r) = s := by rw [State.setComp, Core.setComp_comp]
    exact this.symm⟩, id⟩

theorem Performed.trans {s t u : State} {r : Role} (h : Performed s r t) (g : Performed t r u) : Performed s r u := by
  obtain ⟨⟨m, p, q, l, n, v, f, x, rfl⟩, hw⟩ := h
  obtain ⟨⟨m', p', q', l', n', v', f', x', rfl⟩, gw⟩ := g
  refine ⟨⟨m', p', q', l', n', v', f', x', ?_⟩, gw ∘ hw⟩
  simp [State.setComp]

/-- A buffered store that performs. -/
theorem State.perform_frame (s : State) (r : Role) (b : BufStore) : Performed s r (s.perform r b) := by
  unfold State.perform
  split
  · obtain ⟨l, h⟩ := s.post_frame r _
    rw [h]
    exact ⟨⟨_, _, _, _, _, _, _, l, rfl⟩, id⟩
  · obtain ⟨l, hl⟩ := (s.pathWrite (s.writer r b) b.loc b.bytes).sendRel_frame r b
    rw [hl]
    obtain ⟨u, h⟩ := ({ s.pathWrite (s.writer r b) b.loc b.bytes with lag := l } : State).traffic_frame
      s.cx s.coreId b.va [(b.loc, b.bytes.length)]
    rw [h]
    let w := s.pathWrite (s.writer r b) b.loc b.bytes
    refine ⟨⟨w.mem, w.poison, w.lost, l, w.lagSeq, u, w.firing, (s.core.comp r).posted, ?_⟩, fun hw => hw.writeN ..⟩
    show _ = ({ s with
      core := s.core.setComp r (s.core.comp r), mem := w.mem, poison := w.poison, lost := w.lost, lag := l
      lagSeq := w.lagSeq, used := u, firing := w.firing } : State)
    rw [Core.setComp_comp]; rfl

theorem State.performs_frame (l : List BufStore) (s : State) (r : Role) :
    Performed s r (l.foldl (fun s b => s.perform r b) s) := by
  induction l generalizing s with
  | nil => exact Performed.refl s r
  | cons b l ih => exact (s.perform_frame r b).trans (ih _)

/-- What performing buffered stores leaves of a state: besides those fields, the buffer of that companion core alone changes. -/
theorem State.drain_frame (s : State) (r : Role) (sel : BufStore → Bool) : Performed
    (s.setComp r { s.core.comp r with sbuf := (pickDrain sel (s.core.comp r).sbuf).2 }) r (s.drain r sel) :=
  State.performs_frame _ _ _

theorem State.drain_wf {s : State} (h : s.mem.Wf) (r : Role) (sel : BufStore → Bool) : (s.drain r sel).mem.Wf :=
  (s.drain_frame r sel).wf h

end Sys2Proof.Machine
end

