-- ==== Sys2Proof/Laws/Outcome.lean ====
section
/-! SUPPORT. How an instruction's body becomes its outcome, and the frames that the shared forms of a result have: one
lemma for each shared operation, which says all that it can do. -/

namespace Sys2Proof.Machine

/-- The state once an instruction's own effect has made `t`: its prefix and its wait are over. -/
def State.settled (t : State) : State := t.setMe { t.me with pfx := none, waiting := false, wfi := none }

@[simp] theorem settle_ok (s t : State) : settle s (.ok t) = .next t.settled := rfl
@[simp] theorem settle_trap (s : State) (c : Cause) (ea : Word) :
    settle s (.error (.trap c ea)) = .next (s.raise c ea s.me.unitPc true) := rfl
@[simp] theorem settle_trapPfx (s : State) (c : Cause) (ea : Word) :
    settle s (.error (.trapPfx c ea)) = .next (s.raise c ea s.me.unitPc false) := rfl
@[simp] theorem settle_trapNext (s : State) (c : Cause) (ea : Word) (n : Nat) :
    settle s (.error (.trapNext c ea n)) = .next (s.raise c ea (s.me.pc.toNat + n) false) := rfl
@[simp] theorem settle_wait (s : State) : settle s (.error .wait) = .next (s.setMe { s.me with waiting := true }) := rfl

theorem settle_next (s : State) (r : Except Stop State) : ∃ t, settle s r = .next t := by
  unfold settle; split <;> exact ⟨_, rfl⟩

theorem mem_everyRole (r : Role) : everyRole.contains r = true := by cases r <;> rfl

/-- An instruction of a role profile, executed by that role without a set prefix field, is its body. -/
theorem companionOp_in {s : State} {l : List Role} (b : Except Stop State) (hr : l.contains s.cur = true)
    (hp : s.prefixNow.bare = true) : companionOp s l b = settle s b := by
  unfold companionOp State.admits; rw [hr, hp]; rfl

theorem companionOp_every {s : State} (b : Except Stop State) (hp : s.prefixNow.bare = true) :
    companionOp s everyRole b = settle s b := companionOp_in b (mem_everyRole _) hp

/-- Outside its profile, or with a set prefix field, it raises ILLEGAL. -/
theorem companionOp_illegal {s : State} {l : List Role} (b : Except Stop State)
    (h : l.contains s.cur = false ∨ s.prefixNow.bare = false) :
    companionOp s l b = .next (s.raise .illegal 0 s.me.unitPc true) := by
  have : s.admits l = false := by
    unfold State.admits
    rcases h with h | h
    · rw [h, Bool.false_and]
    · rw [h, Bool.and_false]
  unfold companionOp; rw [this]; rfl

/-- An instruction that its companion core's earlier stores perform before, executed in its profile without a set prefix
field, is its body from the state in which they have. -/
theorem drainedOp_in {s : State} {l : List Role} (b : State → Except Stop State) (hr : l.contains s.cur = true)
    (hp : s.prefixNow.bare = true) : drainedOp s l b = settle (s.drainAll s.cur) (b (s.drainAll s.cur)) := by
  unfold drainedOp State.admits; rw [hr, hp]; rfl

theorem drainedOp_next (s : State) (l : List Role) (b : State → Except Stop State) : ∃ t, drainedOp s l b = .next t := by
  unfold drainedOp; split <;> exact settle_next _ _

theorem companionOp_next (s : State) (l : List Role) (b : Except Stop State) : ∃ t, companionOp s l b = .next t :=
  settle_next _ _

/-! ### Frames -/

theorem settled_advance (s : State) (x : Companion) (n : Nat) : ((s.setMe x).advance n).settled
    = s.setMe { x with pc := x.pc + BitVec.ofNat 17 n, pfx := none, waiting := false, wfi := none } := by
  simp [State.settled, State.advance]

theorem Onward.mk {s : State} {x : Companion} (n : Nat) (hx : x = { s.me with s := x.s, p := x.p, b := x.b }) :
    Onward s n ((s.setMe x).advance n).settled := by
  rw [settled_advance]
  refine ⟨?_, fun _ => rfl, ?_⟩
  · rw [State.me_setMe, hx]
  · rw [State.me_setMe]; congr 1; rw [hx]

theorem WroteReg.mk (s : State) (d : SReg) (v : Word) (n : Nat) : WroteReg s d v n ((s.wr d v).advance n).settled := by
  refine ⟨fun r => ?_, fun p => ?_, fun b => ?_, Onward.mk n ?_⟩
  · rw [State.wr, settled_advance, State.rd_setMe]; exact Companion.reg_setReg _ _ _ _
  · rw [State.wr, settled_advance, State.rdP_setMe, Companion.setReg_eq]; rfl
  · rw [State.wr, settled_advance, State.rdB_setMe, Companion.setReg_eq]; rfl
  · rw [Companion.setReg_eq]

theorem WrotePred.mk (s : State) (d : PReg) (v : Bool) (n : Nat) :
    WrotePred s d v n ((s.wrP d v).advance n).settled := by
  refine ⟨fun r => ?_, fun p => ?_, fun b => ?_, Onward.mk n ?_⟩
  · rw [State.wrP, settled_advance, State.rd_setMe, Companion.setPred_eq]; rfl
  · rw [State.wrP, settled_advance, State.rdP_setMe]; exact Companion.pred_setPred _ _ _ _
  · rw [State.wrP, settled_advance, State.rdB_setMe, Companion.setPred_eq]; rfl
  · rw [Companion.setPred_eq]

theorem WroteTarget.mk (s : State) (d : BReg) (v : Word) (n : Nat) :
    WroteTarget s d v n ((s.wrB d v).advance n).settled := by
  refine ⟨fun r => ?_, fun p => ?_, fun b => ?_, Onward.mk n rfl⟩
  · rw [State.wrB, settled_advance, State.rd_setMe]; rfl
  · rw [State.wrB, settled_advance, State.rdP_setMe]; rfl
  · rw [State.wrB, settled_advance, State.rdB_setMe]
    by_cases h : b = d
    · subst h; simp
    · have hn : ¬ d.toNat = b.toNat := fun e => h (BitVec.eq_of_toNat_eq e.symm)
      rw [if_neg h]; simp [hn]; rfl

theorem Passed.mk (s : State) (n : Nat) : Passed s n (s.advance n).settled := by
  have h : s.advance n = (s.setMe s.me).advance n := by rw [State.setMe_me]
  rw [h]
  refine ⟨fun r => ?_, fun p => ?_, fun b => ?_, Onward.mk n rfl⟩ <;> rw [settled_advance]
  · rw [State.rd_setMe]; rfl
  · rw [State.rdP_setMe]; rfl
  · rw [State.rdB_setMe]; rfl

theorem WentTo.mk (s : State) (a : Word) : WentTo s a (s.setMe { s.me with pc := a.setWidth 17 }).settled := by
  have h : (s.setMe { s.me with pc := a.setWidth 17 }).settled
      = s.setMe { s.me with pc := a.setWidth 17, pfx := none, waiting := false, wfi := none } := by
    simp [State.settled]
  rw [h]
  refine ⟨fun r => ?_, fun p => ?_, fun b => ?_, fun _ => rfl, rfl⟩
  · rw [State.rd_setMe]; rfl
  · rw [State.rdP_setMe]; rfl
  · rw [State.rdB_setMe]; rfl

/-! ### Completion -/

theorem Gives.of_ok {i : Instr} {s t : State} {l : List Role} {P : State → Prop} (h : exec i s = companionOp s l (.ok t))
    (hr : l.contains s.cur = true) (hp : s.prefixNow.bare = true) (hP : P t.settled) : Gives i s P :=
  ⟨_, by rw [h, companionOp_in _ hr hp]; rfl, hP⟩

theorem Gives.every {i : Instr} {s t : State} {P : State → Prop} (h : exec i s = companionOp s everyRole (.ok t))
    (hp : s.prefixNow.bare = true) (hP : P t.settled) : Gives i s P := Gives.of_ok h (mem_everyRole _) hp hP

theorem Raises.of_error {i : Instr} {s : State} {l : List Role} {c : Cause} {ea : Word}
    (h : exec i s = companionOp s l (.error (.trap c ea))) (hr : l.contains s.cur = true)
    (hp : s.prefixNow.bare = true) : Raises i s c ea s.me.unitPc := .inl (by rw [h, companionOp_in _ hr hp]; rfl)

theorem Raises.every {i : Instr} {s : State} {c : Cause} {ea : Word}
    (h : exec i s = companionOp s everyRole (.error (.trap c ea))) (hp : s.prefixNow.bare = true) :
    Raises i s c ea s.me.unitPc := Raises.of_error h (mem_everyRole _) hp

/-- An instruction whose result goes to an s register. -/
theorem Gives.reg {i : Instr} {s : State} {d : SReg} {v : Word} (h : exec i s = setOp s d v)
    (hp : s.prefixNow.bare = true) : Gives i s (WroteReg s d v 4) := Gives.every h hp (WroteReg.mk s d v 4)

/-- An instruction whose result goes to a p register. -/
theorem Gives.pred {i : Instr} {s : State} {d : PReg} {v : Bool} (h : exec i s = setPredOp s d v)
    (hp : s.prefixNow.bare = true) : Gives i s (WrotePred s d v 4) := Gives.every h hp (WrotePred.mk s d v 4)

end Sys2Proof.Machine
end

