-- ==== Sys2Proof/Laws/Issue.lean ====
section
/-! SUPPORT. What the issue of an engine command can do, said once (R47). -/

namespace Sys2Proof.Machine

theorem Tokens.get_put (t : Tokens) (q k : TokQ) (n : Nat) : (t.put q n).get k = if k = q then n else t.get k := by
  cases q <;> cases k <;> rfl

theorem Tokens.get_pop (t : Tokens) (l : List TokQ) (k : TokQ) : (t.pop l).get k = t.get k - l.count k := by
  induction l generalizing t with
  | nil => rfl
  | cons q l ih =>
    show ((t.put q (t.get q - 1)).pop l).get k = _
    rw [ih, Tokens.get_put, List.count_cons]
    by_cases h : k = q
    · subst h; simp; omega
    · simp [h, Ne.symm h]

theorem Tokens.get_push (t : Tokens) (l : List TokQ) (k : TokQ) : (t.push l).get k = t.get k + l.count k := by
  induction l generalizing t with
  | nil => rfl
  | cons q l ih =>
    show ((t.put q (t.get q + 1)).push l).get k = _
    rw [ih, Tokens.get_put, List.count_cons]
    by_cases h : k = q
    · subst h; simp; omega
    · simp [h, Ne.symm h]

/-- The issue-time effect of a command besides those of R47: the tags, the port and the s registers become these, and what
port operations have seen of writes is as `marks` leaves it. -/
def Captured.Sets (cap : Captured) (s : State) (tags : Word) (port : Port) (regs : Vector Word 64) (marks : State → State) :
    Prop :=
  ∀ v : State, v.core.tags = s.core.tags → v.core.port = s.core.port → v.me.s = s.me.s → v.cur = s.cur →
    cap.also v = ({ v with core := { v.core with tags := tags, port := port }, lag := (marks v).lag } : State).setMe
      { v.me with s := regs }

theorem Captured.sets_id {cap : Captured} (s : State) (h : cap.also = id) :
    cap.Sets s s.core.tags s.core.port s.me.s id := by
  intro v h1 h2 h3 _
  have e : ({ v with core := { v.core with tags := s.core.tags, port := s.core.port }, lag := (id v).lag } : State) = v := by
    rw [← h1, ← h2]; rfl
  rw [h, e, ← h3]; exact (State.setMe_me v).symm

/-- Popped tokens change what their companion core has acquired, and what it may return of the units read ahead, alone. -/
theorem State.acquireTokens_frame (s : State) (pops : List TokQ) :
    ∃ e l, s.acquireTokens pops = { s.setMe { s.me with early := e } with lag := l } := by
  have fold (l : List TokQ) (u : State) : ∃ x, l.foldl (fun s q => s.popToken s.cur q) u = { u with lag := x } := by
    induction l generalizing u with
    | nil => exact ⟨u.lag, rfl⟩
    | cons q l ih => obtain ⟨x, h⟩ := ih (u.popToken u.cur q); exact ⟨x, by rw [List.foldl_cons, h]; rfl⟩
  unfold State.acquireTokens
  split
  · exact ⟨s.me.early, s.lag, (State.setMe_me s).symm⟩
  · obtain ⟨x, h⟩ := fold pops (s.setMe (s.me.follow (BitVec.allOnes 16) (fun _ => true)))
    exact ⟨_, x, h⟩

/-- What a release at issue and the pops' acquisition leave: everything but memory and its broken and lost units, what the
port path has not seen, the traffic, the passed arms, and the buffer, the units read ahead and the posted traps of the companion
core. -/
theorem State.issue_frame (s : State) (sc : Scope) (which : BufStore → Bool) (pops : List TokQ) :
    let d := (s.release s.cur sc which).acquireTokens pops
    d.cur = s.cur ∧ ∃ b x e, d.core = s.core.setComp s.cur { s.me with sbuf := b, posted := x, early := e } := by
  intro d
  obtain ⟨m, p, q, l, n, u, f, x, he⟩ := (s.drain_frame s.cur (fun b => which b && scopeHolds sc s.coreId b.loc)).eq
  have he : s.release s.cur sc which = _ := he
  obtain ⟨e, l, hd⟩ := (s.release s.cur sc which).acquireTokens_frame pops
  have hd : d = _ := hd
  have h1 : (s.release s.cur sc which).cur = s.cur := by rw [he]; rfl
  have h2 : (s.release s.cur sc which).core = s.core.setComp s.cur { s.me with
      sbuf := (pickDrain (fun b => which b && scopeHolds sc s.coreId b.loc) s.me.sbuf).2, posted := x } := by
    rw [he]; simp [State.setComp, State.me]
  rw [hd]
  refine ⟨h1, (pickDrain (fun b => which b && scopeHolds sc s.coreId b.loc) s.me.sbuf).2, x, e, ?_⟩
  show ((s.release s.cur sc which).core.setComp (s.release s.cur sc which).cur _) = _
  rw [State.me, h1, h2, Core.setComp_setComp, Core.comp_setComp]

theorem Core.setComp_issued (c : Core) (r : Role) (x : Companion) (q : QueueId) (y : Queue) (k : Tokens) (n : Nat) :
    (({ c with tokens := k, fmtRes := n } : Core).setComp r x).setQueue q y
      = ({ c.setQueue q y with tokens := k, fmtRes := n } : Core).setComp r x := by cases r <;> rfl

/-- The state that an issue makes is as R47 has it. -/
theorem Issued.mk {s u : State} {i : Instr} {h : EHdr} {q : QueueId} {cap : Captured} {w : Option Word} {marks : State → State}
    (hc : cap.carry = []) (hs : cap.Sets s u.core.tags u.core.port u.me.s marks) :
    let d := (s.release s.cur .core (BufStore.released h.cls)).acquireTokens (tokPops s.cur h.tok)
    let e : State := { d with core := { d.core with
        tokens := d.core.tokens.pop (tokPops d.cur h.tok)
        fmtRes := d.core.fmtRes + boolNat w.isSome } }
    let e := e.setMe (e.me.lend q (e.core.queue q).seq h.cls i)
    Issued s u i h q cap.ops cap.views w marks ((cap.also (e.enqueue q (s.command i h cap w))).advance 8).settled := by
  intro d e0 e1
  obtain ⟨h1, b, x, e, h2⟩ := s.issue_frame .core (BufStore.released h.cls) (tokPops s.cur h.tok)
  have h1 : d.cur = s.cur := h1
  have h2 : d.core = s.core.setComp s.cur { s.me with sbuf := b, posted := x, early := e } := h2
  have hm : d.me = { s.me with sbuf := b, posted := x, early := e } := by rw [State.me, h2, h1, Core.comp_setComp]
  let lent := d.me.lend q (d.core.queue q).seq h.cls i
  let v : State := e1.enqueue q (s.command i h cap w)
  have hv : v.me = lent := by
    show (State.setQueue _ _ _).me = _
    rw [State.me_setQueue]; exact State.me_setMe _ _
  have hal := hs v
    (by show (Core.setComp _ _ _).tags = _; rw [Core.setComp_tags]; show d.core.tags = _; rw [h2, Core.setComp_tags])
    (by show (Core.setComp _ _ _).port = _; rw [Core.setComp_port]; show d.core.port = _; rw [h2, Core.setComp_port])
    (by rw [hv]; show d.me.s = _; rw [hm]) h1
  have hf : d.core.fmtRes = s.core.fmtRes := by rw [h2, Core.setComp_fmtRes]
  have hq : e1.core.queue q = d.core.queue q := Core.queue_setComp _ _ _ _
  refine ⟨{ s.command i h cap w with num := (d.core.queue q).seq }, d.core.tokens.pop (tokPops s.cur h.tok),
    rfl, rfl, rfl, rfl, rfl, rfl, rfl, ?_, rfl, rfl, rfl, fun j => ?_, ?_⟩
  · show ({ carry := cap.carry } : Progress) = {}; rw [hc]
  · rw [Tokens.get_pop, h2, Core.setComp_tokens]
  · show ((cap.also v).advance 8).settled = _
    rw [hal]
    have hve : v = State.setMe { d with core := { d.core.setQueue q { d.core.queue q with
        cmds := (d.core.queue q).cmds ++ [{ s.command i h cap w with num := (d.core.queue q).seq }]
        seq := (d.core.queue q).seq + 1 } with
        tokens := d.core.tokens.pop (tokPops s.cur h.tok), fmtRes := s.core.fmtRes + boolNat w.isSome } } lent := by
      rw [← hf, ← h1]
      show ({ e1 with core := e1.core.setQueue q _ } : State) = _
      rw [hq]
      show ({ d with core := _ } : State) = { d with core := _ }
      congr 1
      exact Core.setComp_issued d.core d.cur lent q _ _ _
    rw [← hve]
    simp only [State.settled, State.advance, State.me_setMe, State.setMe_setMe, hv]
    have hp : lent.pc = s.me.pc := by show d.me.pc = _; rw [hm]
    rw [← hp]; rfl

/-- An instruction that is an issue with operand check `check` issues as R47 says. -/
theorem Issues.mk {s u : State} {i : Instr} {h : EHdr} {r : Role} {q : QueueId} {k : Takes} {pops : Bool}
    {check : Except Stop Captured} {bad : Option (Cause × Word)} {cap : Captured} {marks : State → State}
    (he : exec i s = issue s i h r q k pops check)
    (hbad : ∀ c ea, bad = some (c, ea) → check = .error (.trap c ea)) (hok : bad = none → check = .ok cap)
    (hc : cap.carry = []) (hs : cap.Sets s u.core.tags u.core.port u.me.s marks) :
    Issues s i h r q k pops bad cap.ops cap.views u marks := by
  unfold Issues
  refine ⟨fun hl => .inl ?_, fun ⟨hr, ht, hp⟩ => ⟨fun c ea hb => .inl ?_, fun hb => ⟨fun hn => .inl ?_, fun hy hf => .inl ?_,
    fun ⟨hy, hm⟩ hf => ⟨fun hw hn => .inl ?_, fun hw => ⟨_, ?_, Issued.mk hc hs⟩,
      fun w hw hn => ⟨_, ?_, Issued.mk hc hs⟩⟩⟩⟩⟩
  · rw [he, issue, if_pos]
    · rfl
    · rcases Decidable.not_and_iff_or_not.mp hl with h1 | h1
      · exact .inl h1
      · by_cases h0 : s.cur = r
        · subst h0
          rcases Decidable.not_and_iff_or_not.mp h1 with h1 | h1
          · exact .inr (.inl (by simpa using h1))
          · exact .inr (.inr (by simpa using h1))
        · exact .inl h0
  all_goals subst hr
  · rw [he, issue, if_neg (by simp [ht, hp]), hbad c ea hb]; rfl
  · rw [he, issue, if_neg (by simp [ht, hp]), hok hb]
    by_cases h1 : s.core.tokensReady (tokPops s.cur h.tok) = true
    · have h2 : (s.core.queue q).room = false := by
        cases h3 : (s.core.queue q).room
        · rfl
        · exact absurd ⟨h1, h3⟩ hn
      simp [h1, h2, bind, Except.bind]
    · simp [h1, bind, Except.bind]
  · rw [he, issue, if_neg (by simp [ht, hp]), hok hb]
    simp [hy.1, hy.2, hf, bind, Except.bind]
  · rw [he, issue, if_neg (by simp [ht, hp]), hok hb]
    simp [hy, hm, hf, hw, hn, bind, Except.bind, State.formatWord]
  · rw [he, issue, if_neg (by simp [ht, hp]), hok hb]
    simp [hy, hm, hf, hw, bind, Except.bind, State.formatWord]
  · rw [he, issue, if_neg (by simp [ht, hp]), hok hb]
    simp [hy, hm, hf, hw, hn, bind, Except.bind, State.formatWord]

end Sys2Proof.Machine
end

