-- ==== Sys2Proof/Tests/Slice0.lean ====
section
/-! SUPPORT. Tests: terms that the well-formedness checks refuse, words written out from the encodings of the spec, single
steps, and for each statement with hypotheses a state and operands that meet them, clause by clause. -/

namespace Sys2Proof.Tests

open Sys2Proof Sys2Proof.Machine

set_option maxRecDepth 20000
set_option exponentiation.threshold 4096

/-! ### Well-formedness -/

theorem test_ill_formed_tok : (Instr.tok 0).WellFormed = false := by decide
theorem test_ill_formed_fence : (Instr.fence 0 .core).WellFormed = false ∧ (Instr.fenceX 0 .die).WellFormed = false := by
  decide
theorem test_ill_formed_amo : (Instr.amoAdd .spc .die 0 1 2 3 0).WellFormed = false
    ∧ (Instr.amoMin .com .die 0 1 2 3 0).WellFormed = false ∧ (Instr.amoOr .com .die 0 0 2 3 0).WellFormed = true
    ∧ (Instr.amoSwap .com .die 0 0 2 3 0).WellFormed = false ∧ (Instr.amoCas .qnt .die 0 0 2 3 0).WellFormed = false
    ∧ (Instr.amoLd .com .die 0 0 2 0).WellFormed = false ∧ (Instr.amoLd .qnt .die 0 0 2 0).WellFormed = false
    ∧ (Instr.amoLd .spc .die 0 4 1 0).WellFormed = true := by decide
theorem test_ill_formed_mmma : (Instr.mmma ⟨0, 0⟩ 0 1 2 0 0 false).WellFormed = false
    ∧ (Instr.mmmaSp ⟨0, 0⟩ 0 1 2 0 0 false).WellFormed = false := by decide
theorem test_ill_formed_remote : (Instr.rst ⟨0, 0⟩ 1 2 3 7).WellFormed = false
    ∧ (Instr.rstMc ⟨0, 0⟩ 1 2 3 7).WellFormed = false ∧ (Instr.rst ⟨0, 0⟩ 1 2 3 6).WellFormed = true
    ∧ (Instr.rld ⟨0, 0⟩ 1 2 3 4).WellFormed = false ∧ (Instr.rld ⟨0, 0⟩ 1 2 3 3).WellFormed = true
    ∧ (Instr.ramo ⟨0, 0⟩ .add 1 2 3 4 1).WellFormed = false ∧ (Instr.ramo ⟨0, 0⟩ .add 1 2 3 4 4).WellFormed = false
    ∧ (Instr.ramo ⟨0, 0⟩ .add 1 2 3 4 2).WellFormed = true := by decide
theorem test_ill_formed_event : Instr.reset.WellFormed = false ∧ (Instr.trapEntry .storer).WellFormed = false := by decide

/-! ### Words of the spec

The number of bytes, the word and the instruction; the words are those of the encoding tables and of their examples. -/

abbrev reads (n w : Nat) (i : Instr) : Prop := (decode (leBytes n w)).toOption.map (·.instr) = some i

theorem test_decode_arithmetic :
    reads 4 0x03E84110 (.add 1 33 62) ∧ reads 4 0x07D84210 (.sub 2 33 61) ∧ reads 4 0x0BC84310 (.mul 3 33 60)
    ∧ reads 4 0x0FB84410 (.mulh 4 33 59) ∧ reads 4 0x13A84510 (.mulhs 5 33 58) ∧ reads 4 0x17984610 (.div 6 33 57)
    ∧ reads 4 0x1B884710 (.divu 7 33 56) ∧ reads 4 0x1F784810 (.rem 8 33 55) ∧ reads 4 0x23684910 (.remu 9 33 54)
    ∧ reads 4 0x27584A10 (.and 10 33 53) ∧ reads 4 0x2B484B10 (.or 11 33 52) ∧ reads 4 0x2F384C10 (.xor 12 33 51)
    ∧ reads 4 0x33284D10 (.shl 13 33 50) ∧ reads 4 0x37184E10 (.shr 14 33 49) ∧ reads 4 0x3B084F10 (.sra 15 33 48)
    ∧ reads 4 0x3EF85010 (.min 16 33 47) ∧ reads 4 0x42E85110 (.max 17 33 46) ∧ reads 4 0x46D85210 (.minu 18 33 45)
    ∧ reads 4 0x4AC85310 (.maxu 19 33 44) ∧ reads 4 0x4C0A0910 (.clz 9 40) ∧ reads 4 0x500A0910 (.ctz 9 40)
    ∧ reads 4 0x540A0910 (.popc 9 40) ∧ reads 4 0x580A0910 (.mov 9 40) ∧ reads 4 0x5C118510 (.sext 5 6 .w16)
    ∧ reads 4 0x60218510 (.zext 5 6 .w32) := by decide

theorem test_decode_immediates :
    reads 4 0x8008C718 (.addi 7 35 256) ∧ reads 4 0x8098C718 (.andi 7 35 257) ∧ reads 4 0x8128C718 (.ori 7 35 258)
    ∧ reads 4 0x81B8C718 (.xori 7 35 259) ∧ reads 4 0x1448C718 (.shli 7 35 40) ∧ reads 4 0x14D8C718 (.shri 7 35 41)
    ∧ reads 4 0x1568C718 (.srai 7 35 42) ∧ reads 4 0x4CC88320 (.bfx 3 34 12 19)
    ∧ reads 4 0xFCC88328 (.bfi 3 34 12 63) ∧ reads 4 0x00154130 (.movi 1 0x55) ∧ reads 4 0x10000338 (.movh 3 0x4000)
    ∧ reads 4 0x60004240 (.lea 2 1 0x8001) := by decide

theorem test_decode_predicates_and_flow :
    reads 4 0x01284948 (.cmpEq 9 33 18) ∧ reads 4 0x05284948 (.cmpNe 9 33 18) ∧ reads 4 0x09284948 (.cmpLt 9 33 18)
    ∧ reads 4 0x0D284948 (.cmpLe 9 33 18) ∧ reads 4 0x11284948 (.cmpLtu 9 33 18)
    ∧ reads 4 0x15284948 (.cmpLeu 9 33 18) ∧ reads 4 0x00720950 (.pand 9 8 7) ∧ reads 4 0x04720950 (.por 9 8 7)
    ∧ reads 4 0x08720950 (.pxor 9 8 7) ∧ reads 4 0x0C020950 (.pnot 9 8) ∧ reads 4 0x12222150 (.sel 33 8 34)
    ∧ reads 4 0x00008158 (.ptb 1 2) ∧ reads 4 0x00084560 (.ptbr 5 33) ∧ reads 4 0x04004060 (.br 1 0)
    ∧ reads 4 0x08918060 (.brN 6 9) ∧ reads 4 0x0C918060 (.brl 6 9) ∧ reads 4 0x10900060 (.ret 9)
    ∧ reads 4 0x14000060 .halt ∧ reads 4 0x00000008 .nop ∧ reads 4 0x00000868 (.tok 8)
    ∧ reads 4 0x00007A02 (.pfx ⟨some .rtz, true, some 3, none, none⟩) := by decide

theorem test_decode_scalar_memory :
    reads 4 0xC0088370 (.ldB 3 34 384) ∧ reads 4 0xC0988370 (.ldH 3 34 385) ∧ reads 4 0xC1288370 (.ldW 3 34 386)
    ∧ reads 4 0xC1B88370 (.ldD 3 34 387) ∧ reads 4 0xC2488370 (.lduB 3 34 388) ∧ reads 4 0xC2D88370 (.lduH 3 34 389)
    ∧ reads 4 0xC3688370 (.lduW 3 34 390) ∧ reads 4 0x40088378 (.stB 3 34 128) ∧ reads 4 0x40988378 (.stH 3 34 129)
    ∧ reads 4 0x41288378 (.stW 3 34 130) ∧ reads 4 0x41B88378 (.stD 3 34 131)
    ∧ reads 8 0x8000231300C09009 (.ldBS 9 3 34 17 65536) ∧ reads 8 0x8000A31300C19009 (.ldHS 9 3 34 17 65537)
    ∧ reads 8 0x8001231300C29009 (.ldWS 9 3 34 17 65538) ∧ reads 8 0x8001A31300C39009 (.ldDS 9 3 34 17 65539)
    ∧ reads 8 0x8002231300C49009 (.lduBS 9 3 34 17 65540) ∧ reads 8 0x8002A31300C59009 (.lduHS 9 3 34 17 65541)
    ∧ reads 8 0x8003231300C69009 (.lduWS 9 3 34 17 65542) ∧ reads 8 0x8003A31300C79009 (.stBS 9 3 34 17 65543)
    ∧ reads 8 0x8004231300C89009 (.stHS 9 3 34 17 65544) ∧ reads 8 0x8004A31300C99009 (.stWS 9 3 34 17 65545)
    ∧ reads 8 0x8005231300CA9009 (.stDS 9 3 34 17 65546) ∧ reads 8 0x0000000B50C00011 (.ldAcq .package 0 3 1 0 0)
    ∧ reads 8 0x0000000B50810011 (.stRel .package 0 2 1 0 0)
    ∧ reads 8 0x4000A31390C05011 (.ldAcq .system 5 3 34 17 0x8001) := by decide

theorem test_decode_atomics :
    reads 8 0x00000A0B51800019 (.amoAdd .plain .package 0 6 1 5 0)
    ∧ reads 8 0x0000040B40100019 (.amoAdd .com .die 0 0 1 2 0)
    ∧ reads 8 0x0000040B92460019 (.amoCas .plain .system 0 9 1 2 0)
    ∧ reads 8 0x0000000B412F0019 (.amoLd .spc .die 0 4 1 0)
    ∧ reads 8 0xFFF8450B31C96019 (.amoOr .unp .cluster 6 7 33 34 0x1FFF0)
    ∧ reads 8 0xFFF8450B31DA6019 (.amoXor .nor .cluster 6 7 33 34 0x1FFF0)
    ∧ reads 8 0xFFF8450B30236019 (.amoMin .qnt .cluster 6 0 33 34 0x1FFF0)
    ∧ reads 8 0xFFF8450B30146019 (.amoMax .com .cluster 6 0 33 34 0x1FFF0)
    ∧ reads 8 0xFFF8450B31DD6019 (.amoSwap .nor .cluster 6 7 33 34 0x1FFF0) := by decide

theorem test_decode_translation_and_kv :
    reads 4 0x02284380 (.rmap 3 33 34) ∧ reads 4 0x06284380 (.rinv 3 33 34) ∧ reads 4 0x08084380 (.rprobe 3 33)
    ∧ reads 4 0x00204588 (.kvFind 5 1 2) ∧ reads 4 0x04084388 (.kvMap 3 33) ∧ reads 4 0x0A284388 (.kvAlias 3 33 34)
    ∧ reads 4 0x0E284388 (.kvUnmap 3 33 34) ∧ reads 4 0x12284388 (.kvRef 3 33 34) ∧ reads 4 0x14084388 (.kvPos 3 33)
    ∧ reads 4 0x18010188 (.kvApp 1 4) ∧ reads 4 0x1C308688 (.kvCommit 6 2 3) ∧ reads 4 0x20084388 (.kvLen 3 33) := by decide

theorem test_decode_synchronisation :
    reads 4 0x0010E090 (.cntAdd 3 (.imm 1) none) ∧ reads 4 0x04306090 (.cntWait 1 (.imm 3) none)
    ∧ reads 4 0x0020C490 (.cntAdd 3 (.reg 2) (some .die)) ∧ reads 4 0x08008690 (.cntArm 6 2)
    ∧ reads 4 0x0C00C790 (.cntRd 7 3 none) ∧ reads 4 0x0C80C790 (.cntRd 7 3 (some .host))
    ∧ reads 4 0x00084598 (.tagWaitAny 5 33) ∧ reads 4 0x0400C098 (.tagWaitAll 0 3) ∧ reads 4 0x0800C598 (.tagFfr 5 3)
    ∧ reads 4 0x0C084098 (.tagClr 33) ∧ reads 4 0x10004498 (.bar 4 1) ∧ reads 4 0x14010098 (.barWait 4)
    ∧ reads 4 0x000602A0 (.fence 6 .core) ∧ reads 4 0xFFFF05A0 (.fence 0xFFFF .package)
    ∧ reads 4 0xFFFF14A0 (.fenceX 0xFFFF .die) := by decide

theorem test_decode_port_and_space :
    reads 4 0x000043A8 (.decl 3 1) ∧ reads 4 0x040001A8 (.ntake 1 0) ∧ reads 4 0x080000A8 .nwait
    ∧ reads 4 0x0C0043A8 (.nfree 3 1) ∧ reads 4 0x102045A8 (.rret 5 1 2) ∧ reads 4 0x142045A8 (.rrel 5 1 2)
    ∧ reads 4 0x180044A8 (.psched 4 1) ∧ reads 4 0x042201B0 (.setvli 1 8 .e32 0)
    ∧ reads 4 0x042001B0 (.setvli 1 0 .e32 0) ∧ reads 4 0x002083B0 (.setvl 3 2 .e32 0)
    ∧ reads 4 0x0A2843B0 (.vcfg 3 33 34) ∧ reads 4 0x0C0141B0 (.wset 1 5) ∧ reads 4 0x100161B0 (.wget 33 5)
    ∧ reads 4 0x000405B8 (.vmvSx 5 2) ∧ reads 4 0x04080AB8 (.vmvXs 4 10) ∧ reads 4 0x080403B8 (.kpop 2 3)
    ∧ reads 4 0x0C0403B8 (.kffs 2 3) ∧ reads 4 0x100001B8 (.vbmClr 1) ∧ reads 4 0x140800B8 (.vbmRd 4 0) := by decide

theorem test_decode_tasks_and_rounds :
    reads 4 0x000045C0 (.job 5 1) ∧ reads 4 0x040001C0 (.deal 1) ∧ reads 4 0x080000C0 .taskEnd
    ∧ reads 4 0x0C0086C0 (.gbind 6 2) ∧ reads 4 0x103187C0 (.grebind 7 6 3) ∧ reads 4 0x143188C0 (.fire 8 6 3)
    ∧ reads 4 0x183180C0 (.fireWait 6 3) ∧ reads 4 0x1C2189C0 (.gstat 9 6 2) ∧ reads 4 0x000080C8 (.fmtPush 2)
    ∧ reads 4 0x0008A1D0 (.coll 33 34) ∧ reads 4 0x0408A1D0 (.cwait 33 34) ∧ reads 4 0x0A38A1D0 (.cstat 33 34 35)
    ∧ reads 4 0x000007D8 (.bcls 7) ∧ reads 4 0x040000D8 (.bwait 0) ∧ reads 4 0x0801C8D8 (.bstat 8 7 0)
    ∧ reads 4 0x0C2046D8 (.path 6 1 2) := by decide

theorem test_decode_system :
    reads 4 0x000040E0 (.trap 1) ∧ reads 4 0x040000E0 .eret ∧ reads 4 0x082005E0 (.sysr 5 2)
    ∧ reads 4 0x0C40C0E0 (.sysw 4 3) ∧ reads 4 0x100086E0 (.replay 6 2) ∧ reads 4 0x142047E0 (.disc 7 1 2)
    ∧ reads 4 0x180100E0 (.wfi 4) ∧ reads 4 0x1C3000E0 (.brk 3) := by decide

theorem test_decode_vector_memory :
    reads 8 0x0000300B01400421 (.vld ⟨4, 0⟩ .ui32 1 3) ∧ reads 8 0x008A196301810021 (.vlds ⟨0, 0⟩ .f16 300 33 34)
    ∧ reads 8 0x2202196304020021 (.vldx ⟨0, 0⟩ .i8 300 33 290 none)
    ∧ reads 8 0x2202196330020021 (.vldx ⟨0, 0⟩ .i8 300 33 34 (some 2))
    ∧ reads 8 0x000219630CC37C21 (.vldff ⟨12, 7⟩ .ui8 300 33 3)
    ∧ reads 8 0x0002196302842321 (.vst ⟨3, 2⟩ .e5m2 300 33)
    ∧ reads 8 0x008A196301C50021 (.vsts ⟨0, 0⟩ .bf16 300 33 34)
    ∧ reads 8 0x220219633C460021 (.vstx ⟨0, 0⟩ .i16 300 33 290 (some 3)) := by decide

theorem test_decode_vector :
    reads 8 0x0000004302000F29 (.vadd ⟨15, 0⟩ .f32 8 0 0)
    ∧ reads 8 0x25D2D96300419F29 (.vsub ⟨15, 9⟩ .i16 300 301 302)
    ∧ reads 8 0x25D2D96300429F29 (.vmul ⟨15, 9⟩ .i16 300 301 302)
    ∧ reads 8 0x0020004302030029 (.vfma ⟨0, 0⟩ .f32 8 0 1)
    ∧ reads 8 0x25D2D96300449F29 (.vfms ⟨15, 9⟩ .i16 300 301 302)
    ∧ reads 8 0x25D2D96300459F29 (.vfnma ⟨15, 9⟩ .i16 300 301 302)
    ∧ reads 8 0x25D2D96300469F29 (.vmin ⟨15, 9⟩ .i16 300 301 302)
    ∧ reads 8 0x25D2D96300479F29 (.vmax ⟨15, 9⟩ .i16 300 301 302)
    ∧ reads 8 0x0012D96301889F29 (.vabs ⟨15, 9⟩ .f16 300 301)
    ∧ reads 8 0x0012D96301899F29 (.vneg ⟨15, 9⟩ .f16 300 301)
    ∧ reads 8 0x25D2D963004A9F29 (.vdiv ⟨15, 9⟩ .i16 300 301 302)
    ∧ reads 8 0x0012D963018B9F29 (.vsqrt ⟨15, 9⟩ .f16 300 301)
    ∧ reads 8 0x0012D963018C9F29 (.vrsqrt ⟨15, 9⟩ .f16 300 301)
    ∧ reads 8 0x0012D963018D9F29 (.vrcp ⟨15, 9⟩ .f16 300 301)
    ∧ reads 8 0x0012D963018E9F29 (.vexp2 ⟨15, 9⟩ .f16 300 301)
    ∧ reads 8 0x0012D963018F9F29 (.vlog2 ⟨15, 9⟩ .f16 300 301)
    ∧ reads 8 0x0000001321D00029 (.vcvt ⟨0, 0⟩ .bf16 .f32 2 0)
    ∧ reads 8 0x0000001B22500029 (.vcvt ⟨0, 0⟩ .e4m3 .f32 3 0)
    ∧ reads 8 0x25D2D96300519F29 (.vand ⟨15, 9⟩ .i16 300 301 302)
    ∧ reads 8 0x25D2D96300529F29 (.vor ⟨15, 9⟩ .i16 300 301 302)
    ∧ reads 8 0x25D2D96300539F29 (.vxor ⟨15, 9⟩ .i16 300 301 302)
    ∧ reads 8 0x0012D96301949F29 (.vnot ⟨15, 9⟩ .f16 300 301)
    ∧ reads 8 0x25D2D96300559F29 (.vshl ⟨15, 9⟩ .i16 300 301 302)
    ∧ reads 8 0x25D2D96300569F29 (.vshr ⟨15, 9⟩ .i16 300 301 302)
    ∧ reads 8 0x25D2D96300579F29 (.vsra ⟨15, 9⟩ .i16 300 301 302)
    ∧ reads 8 0x00A040130A180029 (.vcmp ⟨0, 0⟩ .lt .f32 2 4 5)
    ∧ reads 8 0x25D2D96314D90029 (.vsel ⟨0, 0⟩ .ui8 300 301 302 5)
    ∧ reads 8 0x0060004B021A0029 (.vredsum ⟨0, 0⟩ .f32 9 0 3)
    ∧ reads 8 0x25D2D963005B9F29 (.vredmax ⟨15, 9⟩ .i16 300 301 302)
    ∧ reads 8 0x25D2D963005C9F29 (.vredmin ⟨15, 9⟩ .i16 300 301 302) := by decide

theorem test_decode_vector_moves :
    reads 8 0x0012D963089D0029 (.vscan ⟨0, 0⟩ .min .i32 300 301)
    ∧ reads 8 0x25D2D963005E9F29 (.vperm ⟨15, 9⟩ .i16 300 301 302)
    ∧ reads 8 0x3132D963CD1F0029 (.vslideup ⟨0, 0⟩ .ui16 300 301 0x6789)
    ∧ reads 8 0x0692D96325200029 (.vslidedn ⟨0, 0⟩ .ui16 300 301 0x1234)
    ∧ reads 8 0x0B92D96316610029 (.vbcast ⟨0, 0⟩ .e4m3 300 301 0xA5C)
    ∧ reads 8 0x0012D96318220029 (.vcomp ⟨0, 0⟩ .i8 300 301 6)
    ∧ reads 8 0x0000696301630029 (.viota ⟨0, 0⟩ .ui32 300 6)
    ∧ reads 8 0x25D2D96301E40029 (.vrot ⟨0, 0⟩ .bf16 300 301 302)
    ∧ reads 8 0x25D2D9630CA50029 (.vdot ⟨0, 0⟩ .i32 .ui8 300 301 302) ∧ reads 8 0x0000700300260029 (.vseed ⟨0, 0⟩ 7)
    ∧ reads 8 0x0012D96302000031 (.vmv ⟨0, 0⟩ .f32 300 301) ∧ reads 8 0x00E0602B00010031 (.kand ⟨0, 0⟩ 5 6 7)
    ∧ reads 8 0x00E0602B00020031 (.kor ⟨0, 0⟩ 5 6 7) ∧ reads 8 0x00E0602B00030031 (.kxor ⟨0, 0⟩ 5 6 7)
    ∧ reads 8 0x0000602B00040031 (.knot ⟨0, 0⟩ 5 6) := by decide

theorem test_decode_port_commands :
    reads 8 0x0420C50300000039 (.tmov ⟨0, 0⟩ 1 2 3 5) ∧ reads 8 0x8628E50309012439 (.tmovFp ⟨4, 2⟩ 33 34 35 36 37)
    ∧ reads 8 0x8628E50300020039 (.tfill ⟨0, 0⟩ 33 34 35 37)
    ∧ reads 8 0x8628E50309031839 (.tcmp ⟨8, 1⟩ 33 34 35 36 37) ∧ reads 8 0x0400050300800041 (.pull ⟨0, 0⟩ 2 1 5)
    ∧ reads 8 0x0461C90300810041 (.pullF ⟨0, 0⟩ 2 1 6 7 9) ∧ reads 8 0x0830000300000049 (.pub ⟨0, 0⟩ 2 3 0)
    ∧ reads 8 0x8628E40300013149 (.pubMc ⟨1, 3⟩ 33 34 35 36) := by decide

theorem test_decode_matrix :
    reads 8 0x0000014300000051 (.mcode ⟨0, 0⟩ 5) ∧ reads 8 0x0000008300010051 (.mload ⟨0, 0⟩ 0 2)
    ∧ reads 8 0x0000019300020051 (.mloadVq ⟨0, 0⟩ 2 6) ∧ reads 8 0x0000364300030051 (.mmma ⟨0, 0⟩ 3 3 1 0 0 false)
    ∧ reads 8 0x00002643E0040051 (.mmmaSp ⟨0, 0⟩ 2 3 1 0 3 true) ∧ reads 8 0x0000054300050051 (.mcomp ⟨0, 0⟩ 2 5)
    ∧ reads 8 0x000001C300060051 (.outl ⟨0, 0⟩ 7) ∧ reads 8 0xFFEC060300070051 (.azero ⟨0, 0⟩ 3 0xFFEC)
    ∧ reads 8 0x0000060302480051 (.aexp ⟨0, 0⟩ 3 9) ∧ reads 8 0x0000060300090051 (.anorm ⟨0, 0⟩ 3)
    ∧ reads 8 0x000008C3000A0051 (.mout ⟨0, 0⟩ 4 3 false) ∧ reads 8 0x000008C3100B0051 (.moutRet ⟨0, 0⟩ 4 3 true) := by decide

theorem test_decode_attention_and_remote :
    reads 8 0x0020C10301000059 (.attQ ⟨0, 0⟩ 1 2 3 4 0) ∧ reads 8 0x0000060380000059 (.attQF ⟨0, 0⟩ 6)
    ∧ reads 8 0x0420003300010059 (.attKv ⟨0, 0⟩ 1 2 3 false) ∧ reads 8 0x0000000B00020059 (.attRun ⟨0, 0⟩ true)
    ∧ reads 8 0x0000200300030059 (.attOut ⟨0, 0⟩ 4) ∧ reads 8 0x00002A0300040059 (.attMerge ⟨0, 0⟩ 5 2)
    ∧ reads 8 0x0400000300050059 (.attPlan ⟨0, 0⟩ 1) ∧ reads 8 0x0420D80300000061 (.rst ⟨0, 0⟩ 1 2 3 3)
    ∧ reads 8 0x1021580300010061 (.rstMc ⟨0, 0⟩ 4 2 5 3) ∧ reads 8 0x0400D80301020061 (.rld ⟨0, 0⟩ 4 1 3 3)
    ∧ reads 8 0x0450D80301830061 (.ramo ⟨0, 0⟩ .add 6 1 5 3 3)
    ∧ reads 8 0x0420DE0302430061 (.ramo ⟨0, 0⟩ .cas 9 1 2 3 3) := by decide

/-! ### States and operands that meet the hypotheses of the statements, clause by clause -/

/-- Right after reset, for the companion core `r`, with values in s1, s2, …. -/
def st (r : Role) (l : List Word) : State :=
  let s : State := { State.reset with cur := r }
  s.setMe { s.me with s := Vector.ofFn (fun i : Fin 64 => if i.val = 0 then 0 else l.getD (i.val - 1) 0) }

/-- That state with a change of its core, and with bytes in memory: location, length and value. -/
def stc (r : Role) (l : List Word) (f : Core → Core) : State := { st r l with core := f (st r l).core }
def putAll (l : List (Nat × Nat × Nat)) : Mem := l.foldl (fun m x => m.writeN x.1 (leBytes x.2.1 x.2.2)) []
def stm (r : Role) (l : List Word) (m : List (Nat × Nat × Nat)) : State := { st r l with mem := putAll m }

/-- The local-store window, and the location of its first byte for core 0. -/
def win : Word := 0xFF00000000000000
def home : Nat := 2 ^ 57

theorem test_witness_DivisionNeverTraps : (st .loader [7, 0]).prefixNow.bare = true ∧ (st .loader [7, 0]).rd 2 = 0
    ∧ (st .loader [BitVec.intMin 64, BitVec.allOnes 64]).rd 1 = BitVec.intMin 64
    ∧ (st .loader [BitVec.intMin 64, BitVec.allOnes 64]).rd 2 = BitVec.allOnes 64
    ∧ (st .loader [BitVec.intMin 64, 1]).rd 2 ≠ 0 ∧ (st .loader [BitVec.intMin 64, 1]).rd 2 ≠ BitVec.allOnes 64 := by decide
theorem test_witness_ScalarResults : (st .sequencer [3, 64]).prefixNow.bare = true
    ∧ (0 : BitVec 6).toNat + ((63 : BitVec 6).toNat + 1) ≤ 64 ∧ 64 < (1 : BitVec 6).toNat + ((63 : BitVec 6).toNat + 1)
    ∧ (st .loader []).rdP 0 = true ∧ (st .loader []).rdP 1 = false ∧ (1 : SReg) ≠ 0 ∧ (1 : PReg) ≠ 0 := by decide

/-- A landing mark at 0xFFFC, and targets there, at no landing mark, beyond the store and misaligned. -/
def jumps : State :=
  let s := st .loader []
  s.setMe { s.me with istore := putAll [(0xFFFC, 1, 4)], b := #v[0xFFFC, 0, 0x10000, 0xFFFF, 1, 0, 0, 0xFFFC] }

theorem test_witness_ControlFlow : jumps.prefixNow.bare = true ∧ jumps.rdP 1 = false ∧ jumps.rdP 0 = true
    ∧ jumps.rdB 0 = 0xFFFC ∧ jumps.rdB 7 = 0xFFFC ∧ (0xFFFC : Word).toNat % 4 = 0 ∧ (0xFFFC : Word).toNat < 0x10000
    ∧ jumps.me.landing 0xFFFC = true ∧ jumps.me.landing 0 = false ∧ (jumps.rdB 1).toNat = 0
    ∧ (jumps.rdB 2).toNat % 4 = 0 ∧ 0x10000 ≤ (jumps.rdB 2).toNat ∧ (jumps.rdB 3).toNat % 4 ≠ 0
    ∧ (jumps.rdB 4).toNat % 4 ≠ 0 ∧ (jumps.rdB 1).toNat % 4 = 0 ∧ (jumps.rdB 1).toNat < 0x10000
    ∧ jumps.me.landing (jumps.rdB 1).toNat = false := by decide

theorem test_witness_TokenActions : (st .loader []).prefixNow.bare = true ∧ tokLegal (st .loader []).cur 4 = true
    ∧ tokLegal (st .loader []).cur 1 = false ∧ (4 : BitVec 4) ≠ 0
    ∧ (st .loader []).core.tokensReady (tokPops .loader 8) = false ∧ tokLegal .loader 8 = true
    ∧ (st .loader []).core.tokensReady (tokPops .loader 4) = true ∧ (st .loader []).core.pushesFit (tokPushes .loader 4) = true
    ∧ (stc .loader [] (fun c => { c with tokens := c.tokens.push (List.replicate 62 .ls) })).core.pushesFit (tokPushes .loader 4)
      = true
    ∧ (stc .loader [] (fun c => { c with tokens := c.tokens.push (List.replicate 63 .ls) })).core.pushesFit (tokPushes .loader 4)
      = false := by decide

/-- s1 is the last doubleword of the local store, s2 the byte after it, s3 an odd address there, s4 an address of nothing. -/
def ends : State := st .storer [win + 0x1FFFF8, win + 0x200000, win + 0x1FFFF9, 0x1000, 0x55]

/-- The same, where the last doubleword has been read ahead. -/
def aheadOf (s : State) : State := s.setMe { s.me with early := [{ loc := home + 0x1FFFF8, val := leBytes 8 9, past := 0 }] }

theorem test_witness_ScalarLoads : ends.prefixNow.bare = true ∧ (ends.rd 3).toNat % 8 ≠ 0 ∧ (ends.rd 1).toNat % 8 = 0
    ∧ ends.locate (ends.rd 2) 8 false = .error (.prot, ends.rd 2) ∧ ends.locate (ends.rd 4) 8 false = .error (.xlate, 0x1000)
    ∧ ends.locate (ends.rd 1) 8 false = .ok (home + 0x1FFFF8)
    ∧ ends.me.early.find? (Early.loadable 0 (regBits [1]) (home + 0x1FFFF8) 8) = none
    ∧ (ends.beforeRead (some 0) (home + 0x1FFFF8) 8).badByte (home + 0x1FFFF8) 8 = none
    ∧ ({ ends with poison := [home + 0x1FFFF8] }.beforeRead (some 0) (home + 0x1FFFF8) 8).badByte (home + 0x1FFFF8) 8 = some 0
    ∧ ((aheadOf ends).me.early.find? (Early.loadable 0 (regBits [1]) (home + 0x1FFFF8) 8)).isSome = true
    ∧ (aheadOf ends).badByte (home + 0x1FFFF8) 8 = none
    ∧ (aheadOf { ends with poison := [home + 0x1FFFF8] }).badByte (home + 0x1FFFF8) 8 = some 0 := by
  and_intros <;> first | rfl | decide
theorem test_witness_ScalarStores : ends.prefixNow.bare = true ∧ (ends.rd 3).toNat % 4 ≠ 0 ∧ (ends.rd 1).toNat % 4 = 0
    ∧ ends.locate (ends.rd 2) 4 true = .error (.prot, ends.rd 2) ∧ ends.locate (ends.rd 1) 4 true = .ok (home + 0x1FFFF8)
    ∧ (ends.ahead (home + 0x1FFFF8) 4).badPart (home + 0x1FFFF8) 4 = none
    ∧ ({ ends with poison := [home + 0x1FFFF8] }.ahead (home + 0x1FFFF8) 4).badPart (home + 0x1FFFF8) 4 = some 0 := by
  and_intros <;> first | rfl | decide
theorem test_witness_OwnStores : ends.prefixNow.bare = true ∧ ends.poison = [] ∧ ends.lost = [] ∧ (ends.rd 1).toNat % 8 = 0
    ∧ ends.locate (ends.rd 1) 8 true = .ok (home + 0x1FFFF8) ∧ ends.locate (ends.rd 1) 8 false = .ok (home + 0x1FFFF8)
    ∧ ends.mem = [] ∧ Mem.Wf [] := by
  and_intros <;> first | rfl | simp
theorem test_witness_CanonicalMemory : (∀ a, Mem.read [] a = Mem.read [] a) ∧ Mem.Wf [] ∧ Mem.Wf [(3, 1), (4, 2)] := by
  refine ⟨fun _ => rfl, ?_, ?_⟩ <;> simp [Mem.Wf]
theorem test_witness_ReleasesAndAtomics : ends.prefixNow.bare = true
    ∧ (ends.rd 3 + ends.rd 0 + BitVec.signExtend 64 (0 : BitVec 17)).toNat % 8 ≠ 0 ∧ (ends.rd 1).toNat % 8 = 0
    ∧ (let r := ends.release ends.cur .die (fun x => (0 : BitVec 4) = 0 || x.names.getLsbD 0 || decide (x.names ≠ 1 <<< x.cls.toNat))
       r.locate (ends.rd 2) 8 true = .error (.prot, ends.rd 2) ∧ (ends.rd 2).toNat % 8 = 0
       ∧ r.locate (ends.rd 1) 8 true = .ok (home + 0x1FFFF8)
       ∧ (r.ahead (home + 0x1FFFF8) 8).badPart (home + 0x1FFFF8) 8 = none)
    ∧ (ends.rd 1 + BitVec.signExtend 64 (0 : BitVec 17)).toNat % 8 = 0
    ∧ ends.locate (ends.rd 1) 8 false = .ok (home + 0x1FFFF8) ∧ ends.locate (ends.rd 1) 8 true = .ok (home + 0x1FFFF8)
    ∧ (ends.ahead (home + 0x1FFFF8) 8).badByte (home + 0x1FFFF8) 8 = none ∧ isHost (home + 0x1FFFF8) = false
    ∧ ends.locate (ends.rd 4) 8 false = .error (.xlate, 0x1000) ∧ (ends.rd 4).toNat % 8 = 0
    ∧ ends.locate (ends.rd 2) 8 false = .error (.prot, ends.rd 2)
    ∧ ends.me.early.find? (fun e => e.cmd.isNone && decide (e.loc = home + 0x1FFFF8) && !e.fenced.getLsbD 0) = none
    ∧ ((aheadOf ends).me.early.find? (fun e => e.cmd.isNone && decide (e.loc = home + 0x1FFFF8) && !e.fenced.getLsbD 0)).isSome
      = true
    ∧ ends.core.quant ≠ 0 := by
  and_intros <;> first | rfl | decide

/-- A counter at 5 whose address is in s1; s2 is 5 and s3 is 6. -/
def counting : State := stm .loader [win + 8, 5, 6] [(home + 8, 8, 5)]
theorem test_witness_CounterOperations : counting.prefixNow.bare = true ∧ (counting.rd 1).toNat % 8 = 0
    ∧ (counting.rd 2).toNat % 8 ≠ 0 ∧ counting.locate (counting.rd 1) 8 false = .ok (home + 8)
    ∧ counting.locate (counting.rd 1) 8 true = .ok (home + 8) ∧ (counting.ahead (home + 8) 8).badByte (home + 8) 8 = none
    ∧ (counting.beforeRead none (home + 8) 8).badByte (home + 8) 8 = none
    ∧ leNat ((counting.beforeRead none (home + 8) 8).peekN .loader (home + 8) 8) = 5 ∧ (counting.rd 2).toNat ≤ 5
    ∧ 5 < (counting.rd 3).toNat
    ∧ counterScope 0 (locLocal 767 0x1FFFFF) = .package ∧ counterScope 767 (locCluster 95 0xFFFFFF) = .cluster
    ∧ counterScope 95 (locDie 0 0) = .die ∧ counterScope 0 (16 * 0xC00000000 - 1) = .package
    ∧ counterScope 0 0x10000000000 = .host := by
  and_intros <;> first | rfl | decide

/-- An arm record in s1 for the counter at 5, with threshold `thr` and kind `kind`. -/
def arming (thr kind : Nat) : State :=
  stm .loader [win + 32] [(home + 8, 8, 5), (home + 32, 8, (win + 8).toNat), (home + 40, 8, thr), (home + 56, 1, kind)]
theorem test_witness_CounterArms : (arming 6 2).prefixNow.bare = true ∧ ((arming 6 2).rd 1).toNat % 32 = 0
    ∧ ((st .loader [win + 8]).rd 1).toNat % 32 ≠ 0
    ∧ (∃ u bs x now, (arming 6 2).load (some 0) ((arming 6 2).rd 1) 32 = .ok (u, bs) ∧
      (BitVec.ofNat 256 (leNat bs)).extractLsb' 0 64 = win + 8 ∧ (BitVec.ofNat 256 (leNat bs)).extractLsb' 64 64 = (6 : Word)
      ∧ (BitVec.ofNat 256 (leNat bs)).extractLsb' 192 8 = (2 : BitVec 8)
      ∧ u.locate (win + 8) 8 false = .ok (home + 8) ∧ u.load none (win + 8) 8 = .ok (x, now) ∧ u.core.arm 0 = none
      ∧ leNat now < 6)
    ∧ (∃ u bs x now, (arming 5 2).load (some 0) ((arming 5 2).rd 1) 32 = .ok (u, bs)
      ∧ u.load none (win + 8) 8 = .ok (x, now) ∧ 5 ≤ leNat now)
    ∧ (∃ u bs, (arming 5 4).load (some 0) ((arming 5 4).rd 1) 32 = .ok (u, bs) ∧
      (BitVec.ofNat 256 (leNat bs)).extractLsb' 192 8 = (4 : BitVec 8))
    ∧ (∀ i < 16, ((stc .loader [] (fun c => { c with arms := Vector.replicate 16 (some ⟨0, 0, 0, 0, 2, 0, 0, 0, none, .loader, false⟩) })).core.arm
      i).isSome = true) := by
  refine ⟨by decide, by decide, by decide, ⟨_, _, _, _, rfl, by decide, by decide, by decide, rfl, rfl, by decide, by decide⟩,
    ⟨_, _, _, _, rfl, rfl, by decide⟩, ⟨_, _, rfl, by decide⟩, by decide⟩
def tagged (a : Word) : State := stc .storer [a] (fun c => { c with tags := 0x8000000000000001 })
def owner : Ctx :=
  { id := 7, root := 0, save := 0, quant := 0, vector := 0, retto := 0, kvtab := 0, kvseq := 0, seed := 0
    ranges := Vector.replicate 64 none, time := ⟨0, 0, none⟩, bw := ⟨0, 0, none⟩, nrg := ⟨0, 0, none⟩ }
/-- Core 0 of cluster 0, granted to a context and running it. -/
def owned (r : Role) (l : List Word) : State :=
  { stc r l (fun c => { c with ctx := some 7 }) with
    ctxs := [owner], grants := (Vector.replicate 96 ({} : Grant)).set 0 { owner := some 7 } }
theorem test_witness_TagsAndBarrier : (tagged 0).prefixNow.bare = true ∧ (tagged 0).rd 1 = 0
    ∧ (tagged 3).core.tags &&& (tagged 3).rd 1 ≠ 0 ∧ (tagged 3).core.tags &&& (tagged 3).rd 1 ≠ (tagged 3).rd 1
    ∧ (tagged 2).rd 1 ≠ 0 ∧ (tagged 2).core.tags &&& (tagged 2).rd 1 = 0
    ∧ (tagged 0x8000000000000000).core.tags &&& (tagged 0x8000000000000000).rd 1 = (tagged 0x8000000000000000).rd 1
    ∧ ((tagged 0x8000000000000000).core.tags &&& (tagged 0x8000000000000000).rd 1).getLsbD 63 = true
    ∧ (∀ j < 63, ((tagged 0x8000000000000000).core.tags &&& (tagged 0x8000000000000000).rd 1).getLsbD j = false)
    ∧ (owned .loader [1]).prefixNow.bare = true ∧ ((owned .loader [1]).rd 1).toNat < 256
    ∧ (owned .loader [1]).rd 1 ≠ 0
    ∧ (∀ k < 8, ((owned .loader [1]).rd 1).getLsbD k = true → (owned .loader [1]).coreGranted 7 k = true)
    ∧ ((owned .loader [1]).rd 1).getLsbD 0 = true ∧ (owned .loader [1]).barHere.arrived = 0
    ∧ ¬((owned .loader [256]).rd 1).toNat < 256
    ∧ (owned .loader []).barHere.g.toNat ≤ ((owned .loader []).rd 1).toNat
    ∧ ((owned .loader []).rd 1).toNat < ({ owned .loader [] with bars := [(0, ⟨1, 1, 0⟩)] } : State).barHere.g.toNat := by decide
/-- An entry of class 3 for node 5 in the combining buffer, towards which a packet is open, or 4,096 are. -/
def combined (full : Bool) : State :=
  let p : Packet := ⟨1, 0, 0, 0, 0, 0, 0, 0, 0, 0, 0, [], false⟩
  { stc .storer [] (fun c => { c with combine := [⟨5, 3, 0, 0, [(0, 1)], 0, []⟩] }) with
    paths := [(pathKey 0 5 0, 0x9000000000000)]
    sessions := [⟨0, 5, 0, List.replicate (if full then 4096 else 1) ⟨p, 0, 0, 0, 0, 0⟩, 0, false⟩] }
/-- A write of class 3 to the first byte of the local store that the loader of core 0 holds, ordered before the pull of take 63
by fences of these scopes. -/
def lagged (ports : List Scope) : Lag :=
  { core := 0, loc := home, old := [1], num := 1, holds := [{ core := 0, role := .loader, names := 8 }], ports := ports.map (⟨⟨0, 7, .take 63⟩, ·⟩) }
def lagging (ports : List Scope) : State := { st .loader [] with lag := [lagged ports] }
theorem test_witness_FencesAndPortPath : (st .loader []).prefixNow.bare = true ∧ (st .loader []).cur ≠ .storer
    ∧ (combined false).combinedReady (fun e => (8 : BitVec 16).getLsbD e.cls.toNat) = true ∧ (8 : BitVec 16) ≠ 0
    ∧ (combined true).cur = .storer ∧ (combined true).combinedReady (fun e => (8 : BitVec 16).getLsbD e.cls.toNat) ≠ true
    ∧ (lagged []).ports = [] ∧ (lagged []).upto = [] ∧ (lagged [.cluster]).ports = [(⟨0, 7, .take 63⟩, .cluster)]
    -- a write that a read of its own class follows orders the one before it
    ∧ ((lagged []).hold 0 .loader).names &&& 8 ≠ 0 ∧ ({ lagged [] with num := 0 } : Lag).num ∈ ({ lagged [] with after := [0] } : Lag).after
    ∧ (lagging []).reaches .cluster 0 0 7 = true ∧ (lagging []).reaches .cluster 0 0 8 = false
    ∧ scopeHolds .cluster 0 home = true ∧ ((lagged []).hold (lagging []).coreId .loader).names &&& 8 ≠ 0
    ∧ ((lagged []).hold (lagging []).coreId .loader).names &&& 7 = 0 ∧ Mem.Wf (lagging []).mem := by
  refine ⟨by decide, by decide, by decide, by decide, by decide, by decide, rfl, rfl, rfl, by decide, by decide, by decide, by decide,
    by decide, by decide, by decide, Mem.wf_nil⟩
theorem test_witness_ConfigurationAndViews : (st .loader [11, 5000]).prefixNow.bare = true ∧ (1 : BitVec 6) ≠ 0
    ∧ (st .loader [10, 5000]).rd 1 = BitVec.ofNat 64 (EWidth.e32.code + (2 : BitVec 2).toNat * 4)
    ∧ (st .loader [26, 5000]).rd 1 = BitVec.ofNat 64 (EWidth.e32.code + (2 : BitVec 2).toNat * 4 + 16)
    ∧ (st .loader [42, 5000]).rd 1 = BitVec.ofNat 64 (EWidth.e32.code + (2 : BitVec 2).toNat * 4 + 32)
    ∧ (st .loader [58, 5000]).rd 1 = BitVec.ofNat 64 (EWidth.e32.code + (2 : BitVec 2).toNat * 4 + 48)
    ∧ 64 ≤ ((st .loader [64]).rd 1).toNat ∧ ((st .loader [63]).rd 1).toNat % 4 = 3
    ∧ (st .loader [0]).prefixNow.bare = true ∧ viewFault ((st .loader [0]).rd 1) = none
    ∧ viewFault ((st .loader [1]).rd 1) = some .illegal ∧ viewFault 0x7800000000000000 = some .fmt
    ∧ (let w : Word := 0x7800000000000000
       (w.extractLsb' 62 2).toNat = 1 ∧ (w.extractLsb' 57 5).toNat = 28 ∧ (w.extractLsb' 0 20).toNat % 8 = 0)
    ∧ (let w : Word := 0xD600000000000000
       (w.extractLsb' 62 2).toNat = 3 ∧ (w.extractLsb' 57 5).toNat = 11)
    -- group 3 alone: a pitch below the row, an end one doubleword past the window, a row of f3e2 that is no whole unit of 4
    ∧ viewFault 0x4000007000000000 = none ∧ viewFault 0x4001007000000000 = some .illegal
    ∧ viewFault 0x40000030000BFFF8 = none ∧ viewFault 0x40000070000BFFF8 = some .illegal
    ∧ viewFault 0x4800006000000000 = some .illegal ∧ viewFault 0x8200000000000000 = some .illegal := by decide
def seqAt (vl : BitVec 12) : State :=
  let s := st .sequencer [5]
  s.setMe { s.me with vcfg := { s.me.vcfg with vl := vl } }
def withK (s : State) : State := { s with core := { s.core with k := Vector.replicate 8 4 } }
theorem test_witness_RegisterSpaceInstructions : (seqAt 0).prefixNow.bare = true ∧ (seqAt 0).cur = .sequencer
    ∧ (seqAt 0).core.quiet .sequencer = true ∧ (seqAt 0).me.vcfg.vl.toNat = 0 ∧ 0 < (seqAt 3).me.vcfg.vl.toNat
    ∧ (seqAt 3).poison = [] ∧ 2 < (seqAt 3).me.vcfg.vl.toNat ∧ (withK (seqAt 3)).core.k[(1 : KReg).toNat].getLsbD 2 = true
    ∧ (∀ j < 2, (withK (seqAt 3)).core.k[(1 : KReg).toNat].getLsbD j = false)
    ∧ (∀ i < 3, (seqAt 3).core.k[(1 : KReg).toNat].getLsbD i = false)
    ∧ (st .loader []).cur ≠ .sequencer ∧ (st .loader []).core.quiet .loader = true
    ∧ ((seqAt 0).setQueue .seqVec { cmds := [{ instr := .nop }] }).core.quiet .sequencer = false
    ∧ ((st .loader []).setQueue .loaderVec { cmds := [{ instr := .nop }] }).core.quiet .loader = false := by decide

/-- A KV table of 256 home entries, one pool entry and four blocks; entry 0 has the zero key, which hashes to 0. The request at
0x40 has the zero key too, and a row to append; the sequence record of sequence 0 has the lengths given. -/
def kv (r : Role) (l : List Word) (entry request seq : Nat) : State :=
  { stm r l [(home + 0x40, 32, request), (home + 0x1000, 8, (win + 0x10000).toNat), (home + 0x1008, 1, 8), (home + 0x100C, 4, 1),
      (home + 0x1010, 8, (win + 0x20000).toNat), (home + 0x1018, 8, (win + 0x21000).toNat), (home + 0x1020, 4, 256),
      (home + 0x1024, 4, 1), (home + 0x1028, 8, (win + 0x22000).toNat), (home + 0x1030, 4, 4), (home + 0x10000, 32, entry),
      (home + 0x20000, 4, 0xFFFFFFFF), (home + 0x200B0, 4, 0xFFFFFFFF), (home + 0x21000, 4, 0xFFFFFFFF), (home + 0x30000, 16, seq)] with
    core := { (st r l).core with kvtab := win + 0x1000, kvseq := win + 0x30001 } }
/-- A home entry of the zero key that `n` entries hold. -/
def held (n : Nat) : Nat := 3 * 2 ^ 80 + n * 2 ^ 96
/-- An alias of the zero key, whose home is entry 1. -/
def aliased : Nat := 5 * 2 ^ 80 + 2 ^ 192

theorem test_witness_LookupFindsTheKey :
    (∃ v t w, (kv .loader [] (held 1) 0 0).kvTable = .ok (v, t) ∧ v.kvLookup t 0 0 0 = .ok (w, some 0)
      ∧ (∃ u e, v.kvEntry t 0 = .ok (u, e) ∧ e.getLsbD 80 = true))
    ∧ (∃ v t, (kv .loader [] 0 0 0).kvTable = .ok (v, t)
      ∧ (∀ i < 8, ∃ u e, v.kvEntry t i = .ok (u, e) ∧ e.getLsbD 80 = false)
      ∧ ∃ u, v.kvGet t.heads 4 = .ok (u, 0xFFFFFFFF)) := by
  refine ⟨⟨_, _, _, rfl, rfl, _, _, rfl, by decide⟩, _, _, rfl, fun i h => ?_, _, rfl⟩
  match i, h with
  | 0, _ | 1, _ | 2, _ | 3, _ | 4, _ | 5, _ | 6, _ | 7, _ => exact ⟨_, _, rfl, by decide⟩
theorem test_witness_KvReads : (kv .loader [0, 65536, 257] (held 1) 0 5).prefixNow.bare = true
    ∧ (st .loader []).core.kvtab = 0 ∧ (st .loader []).core.kvseq.toNat < 4096
    ∧ (∃ v t, ((kv .loader [0, 65536, 257] (held 1) 0 5).drainAll .loader).kvTable = .ok (v, t)
      ∧ (∃ w, v.kvLookup t 0 0 0 = .ok (w, some 0) ∧ ∃ x e, w.kvEntry t 0 = .ok (x, e) ∧ e.getLsbD 80 = true)
      ∧ 2 ^ t.h + t.n = 257)
    ∧ (∃ v t w, ((kv .loader [0, 65536, 257] 0 0 5).drainAll .loader).kvTable = .ok (v, t)
      ∧ v.kvLookup t 0 0 0 = .ok (w, none))
    ∧ 65536 ≤ ((kv .loader [0, 65536, 257] (held 1) 0 5).rd 2).toNat
    ∧ ((kv .loader [] (held 1) 0 5).drainAll .loader).seqRecord 2 = .ok none
    ∧ (∃ r u, ((kv .loader [] (held 1) 0 5).drainAll .loader).seqRecord 0 = .ok (some r)
      ∧ ((kv .loader [] (held 1) 0 5).drainAll .loader).locate r 4 false = .ok (home + 0x30000)
      ∧ ((kv .loader [] (held 1) 0 5).drainAll .loader).kvGet r 4 = .ok (u, 5)
      ∧ ((kv .loader [] (held 1) 0 5).drainAll .loader).core.exec = none) := by
  refine ⟨by decide, by decide, by decide, ⟨_, _, rfl, ⟨_, rfl, _, _, rfl, by decide⟩, by decide⟩, ⟨_, _, _, rfl, rfl⟩, by decide,
    by rfl, ⟨_, _, rfl, rfl, rfl, rfl⟩⟩
/-- A run of reads and writes of the table that meets no fault and ends in `true`. -/
abbrev goes {ε : Type} (x : Except ε Bool) : Prop := x.toOption = some true
/-- That it meets no fault, whatever it meets where it does. -/
abbrev fine {ε α : Type} (x : Except ε α) : Except Unit α := match x with | .ok a => .ok a | .error _ => .error ()

theorem test_witness_KvMapAndAlias : (st .storer [1]).core.kvtab = 0 ∧ ((kv .storer [1] 0 0 0).rd 1).toNat % 32 ≠ 0
    ∧ (kv .storer [1] 0 0 0).core.kvtab ≠ 0
    ∧ goes (do
      let (v, t) ← ((kv .storer [win + 0x40, 257] 0 0 0).drainAll .storer).kvTable
      let (u, r) ← v.kvRequest (win + 0x40)
      let (x, j) ← u.kvLookup t (keySeq r) (keyLh r) (keyBlock r)
      let (_, k) ← x.kvInsert t (setFld (setFld (setFld r 80 16 (3 + entFormat r * 32)) 96 16 1) 112 16 0)
      let (_, e) ← u.kvValidEntry t 257
      pure (decide (entPhys r < t.blocks ∧ j = none ∧ k = 0 ∧ e = none)))
    ∧ goes (do
      let (v, t) ← ((kv .storer [] (held 1) (4 * 2 ^ 160) 0).drainAll .storer).kvTable
      let (_, r) ← v.kvRequest (win + 0x40)
      pure (decide (t.blocks ≤ entPhys r)))
    ∧ goes (do
      let (v, t) ← ((kv .storer [] (held 65535) 0 0).drainAll .storer).kvTable
      let (u, r) ← v.kvRequest (win + 0x40)
      let (_, j) ← u.kvLookup t (keySeq r) (keyLh r) (keyBlock r)
      let (x, e) ← u.kvValidEntry t 0
      let (_, home) ← x.kvEntry t (homeIx 0 (e.getD 0))
      pure (decide (j = some 0 ∧ e.isSome = true ∧ entRefs home = 65535)))
    ∧ goes (do
      let (v, t) ← ((kv .storer [] (held 65534) (2 ^ 32) 0).drainAll .storer).kvTable
      let (u, r) ← v.kvRequest (win + 0x40)
      let (x, e) ← u.kvValidEntry t 0
      let (y, home) ← x.kvEntry t (homeIx 0 (e.getD 0))
      let (z, j) ← y.kvLookup t (keySeq r) (keyLh r) (keyBlock r)
      let (p, _) ← z.kvPushPool t (kvHash t.h (keySeq r) (keyLh r) (keyBlock r))
        (setFld (setFld (setFld (setFld (setFld r 80 16 (5 + entFormat home * 32)) 96 32 0) 160 32 (entPhys home)) 192 64
          (homeIx 0 (e.getD 0))) 128 32 (entBase r))
      let _ ← p.kvSetEntry t (homeIx 0 (e.getD 0)) (setFld home 96 16 (entRefs home + 1))
      pure (decide (e.isSome = true ∧ entRefs home ≠ 65535 ∧ j = none))) := by
  and_intros <;> decide +kernel

theorem test_witness_KvCounts :
    goes (do
      let (u, t) ← ((kv .storer [] (held 2) 0 0).drainAll .storer).kvTable
      let (w, j) ← u.kvLookup t 0 0 0
      let (x, e) ← w.kvEntry t (j.getD 1)
      let (y, f) ← x.kvEntry t (j.getD 1)
      let _ ← y.kvSetEntry t 0 (setFld (setFld f 96 16 (entRefs f - 1)) 86 1 1)
      pure (decide (j = some 0 ∧ e.getLsbD 81 = true ∧ e.getLsbD 82 = false ∧ 1 < entRefs f)))
    -- the last reference of a home, and of a detached one
    ∧ (∀ f ∈ [held 1, held 1 + 2 ^ 86], goes (do
      let (u, t) ← ((kv .storer [] f 0 0).drainAll .storer).kvTable
      let (w, j) ← u.kvLookup t 0 0 0
      let (x, e) ← w.kvEntry t 0
      let (y, f) ← x.kvEntry t 0
      let z ← y.kvSetEntry t 0 (setFld f 96 16 0)
      let _ ← z.kvRemove t 0
      let (_, e') ← u.kvValidEntry t 0
      pure (decide (j = (if entDetached f then none else some 0) ∧ e.getLsbD 81 = true ∧ entRefs f = 1 ∧ e' = some e))))
    -- an alias in entry 0, whose home is entry 1 with two references, or one
    ∧ (∀ n ∈ [1, 2], goes (do
      let s := kv .storer [] aliased 0 0
      let (u, t) ← ((({ s with mem := s.mem.writeN (home + 0x10020) (leBytes 32 (held n + 2 ^ 32)) } : State)).drainAll
        .storer).kvTable
      let (w, j) ← u.kvLookup t 0 0 0
      let (x, e) ← w.kvEntry t 0
      let r ← x.kvRemove t 0
      let (y, f) ← r.kvEntry t 1
      let z ← y.kvSetEntry t 1 (setFld f 96 16 (n - 1))
      let _ ← if n = 1 then z.kvRemove t 1 else pure z
      pure (decide (j = some 0 ∧ e.getLsbD 82 = true ∧ e.getLsbD 81 = false ∧ (e.extractLsb' 192 32).toNat = 1 ∧ entRefs f = n))))
    ∧ goes (do
      let (u, t) ← ((kv .storer [] 0 0 0).drainAll .storer).kvTable
      let (_, j) ← u.kvLookup t 0 0 0
      let (_, e) ← u.kvValidEntry t 0
      pure (decide (j = none ∧ e = none)))
    ∧ goes (do
      let (u, t) ← ((kv .storer [] (held 2) 0 0).drainAll .storer).kvTable
      let (w, e) ← u.kvValidEntry t 0
      let (x, home) ← w.kvEntry t 0
      let _ ← x.kvSetEntry t 0 (setFld home 96 16 65535)
      pure (decide ((e.getD 0).getLsbD 81 = true ∧ entRefs home = 2 ∧ entDetached home = false)))
    ∧ 65536 ≤ ((kv .storer [0, 0, 65536] 0 0 0).rd 3).toNat ∧ 65535 < ((kv .storer [0, 0, 65536] 0 0 0).rd 3).toInt
    ∧ (BitVec.ofInt 64 (-65536)).toInt < -65535 ∧ (2 : Int) + (BitVec.ofInt 64 (-2)).toInt = 0
    ∧ (2 : Int) + (BitVec.ofInt 64 65533).toInt = 65535 ∧ (2 : Int) + (BitVec.ofInt 64 (-3)).toInt < 0 := by
  and_intros <;> decide +kernel
/-- A sequence of which 16 rows of 32 are committed, and a request for one row of block 0. -/
theorem test_witness_KvLengths :
    (∃ va, ((kv .storer [] 0 0 0).drainAll .storer).seqRecord 0 = .ok (some va))
    ∧ goes (do
      let (x, w) ← ((kv .storer [] (held 1) 0 (16 + 32 * 2 ^ 32)).drainAll .storer).kvGet (win + 0x30000) 16
      let loc ← liftFlt (x.locate (win + 0x30000) 4 true)
      let _ ← (x.releaseAt x.cur .package 0 (.word loc .package x.coreId true)).kvPut (win + 0x30000) 16 (32 + 32 * 2 ^ 32 + 2 ^ 64)
      pure (decide (((BitVec.ofNat 128 w).extractLsb' 0 32).toNat = 16 ∧ ((BitVec.ofNat 128 w).extractLsb' 32 32).toNat = 32
        ∧ (BitVec.ofNat 128 w).extractLsb' 96 32 = 0)))
    ∧ goes (do
      let (_, w) ← ((kv .storer [] (held 1) 0 (2 ^ 96)).drainAll .storer).kvGet (win + 0x30000) 16
      pure (decide ((BitVec.ofNat 128 w).extractLsb' 96 32 ≠ 0)))
    ∧ ((kv .storer [] 0 0 0).drainAll .storer).seqRecord 2 = .ok none
    ∧ (kv .storer [] 0 0 0).core.quiet .storer = true ∧ 4096 ≤ (kv .storer [] 0 0 0).core.kvseq.toNat
    ∧ ((st .storer []).setQueue .storerVec { cmds := [{ instr := .nop }] }).core.quiet .storer = false
    -- what `kv.app` meets: no sequence table, a misaligned request, no entry, no sequence, rows outside, rows not to be read
    ∧ (st .storer []).core.kvseq.toNat < 4096
    ∧ (let s := kv .storer [win + 0x41] 0 0 0
       s.core.kvtab ≠ 0 ∧ 4096 ≤ s.core.kvseq.toNat ∧ (s.rd 1).toNat % 32 ≠ 0)
    ∧ (∀ entry ∈ [0, held 1], goes (do
      let (v, t) ← ((kv .storer [win + 0x40] entry 0 0).drainAll .storer).kvTable
      let (y, r) ← v.kvRequest (win + 0x40)
      let (_, j) ← y.kvLookup t (keySeq r) (keyLh r) (keyBlock r)
      pure (decide (j = if entry = 0 then none else some 0))))
    ∧ goes (do
      let k := kvHash 8 2 0 0
      let s := kv .storer [win + 0x40] 0 (2 + 2 ^ 112) 0
      let s := { s with mem := s.mem.writeN (home + 0x10000 + 32 * k) (leBytes 32 (held 1 + 2)) }
      let (v, t) ← (s.drainAll .storer).kvTable
      let (y, r) ← v.kvRequest (win + 0x40)
      let (z, j) ← y.kvLookup t (keySeq r) (keyLh r) (keyBlock r)
      let (x1, e) ← z.kvEntry t k
      let (x2, _) ← x1.kvEntry t (homeIx k e)
      let va ← liftFlt (x2.seqRecord 2)
      pure (decide (keySeq r = 2 ∧ j = some k ∧ va = none)))
    ∧ (∀ n ∈ [0, 1], goes (do
      let (v, t) ← ((kv .storer [win + 0x40] (held 1) (2 ^ 112 + 0x1000 * 2 ^ 192) (n * 2 ^ 32)).drainAll .storer).kvTable
      let (y, r) ← v.kvRequest (win + 0x40)
      let (z, j) ← y.kvLookup t 0 0 0
      let (x1, e) ← z.kvEntry t 0
      let (x2, home) ← x1.kvEntry t (homeIx 0 e)
      let va ← liftFlt (x2.seqRecord 0)
      let (x3, w) ← x2.kvGet (va.getD 0) 16
      let bad := (x3.rowsOk (t.pool + BitVec.ofNat 64 (entPhys home * 4096)) (r.extractLsb' 192 64) 1 256).toOption.isNone
      pure (decide (j = some 0 ∧ entRefs home = 1 ∧ ((BitVec.ofNat 128 w).extractLsb' 32 32).toNat = n ∧ bad = true))))
    ∧ goes (do
      let (v, t) ← ((kv .storer [win + 0x40] (held 1) (2 ^ 112 + (win + 0x2000).toNat * 2 ^ 192) (16 * 2 ^ 32)).drainAll
        .storer).kvTable
      let (y, r) ← v.kvRequest (win + 0x40)
      let (z, j) ← y.kvLookup t (keySeq r) (keyLh r) (keyBlock r)
      let (x1, e) ← z.kvEntry t (j.getD 1)
      let (x2, home) ← x1.kvEntry t (homeIx 0 e)
      let va ← liftFlt (x2.seqRecord (BitVec.ofNat 64 (keySeq r)))
      let (x3, w) ← x2.kvGet (va.getD 0) 16
      let dst := t.pool + BitVec.ofNat 64 (entPhys home * 4096)
      let _ ← liftFlt (x3.rowsOk dst (r.extractLsb' 192 64) 1 256)
      let y1 ← x3.copyRows dst (r.extractLsb' 192 64) 256 1
      let _ ← y1.kvSetEntry t 0 (setFld home 83 1 1)
      pure (decide (j = some 0 ∧ entFormat home = 0 ∧ (r.extractLsb' 96 16).toNat = 0 ∧ (r.extractLsb' 112 16).toNat = 1
        ∧ entRefs home ≤ 1 ∧ va.isSome = true ∧ ((BitVec.ofNat 128 w).extractLsb' 0 32).toNat ≤ 0
        ∧ 1 ≤ ((BitVec.ofNat 128 w).extractLsb' 32 32).toNat))) := by
  refine ⟨⟨_, rfl⟩, ?_⟩
  and_intros <;> first | rfl | decide +kernel

/-- A take in slot 0 under generation 1 with that pull, and retention slot 255 in use. -/
def taking (r : Role) (l : List Word) (pull : PullState) : State :=
  stc r l (fun c => { c with port := { c.port with
    takeGen := c.port.takeGen.set 0 1
    takes := c.port.takes.set 0 (some { note := 0, copy := 0, off := 0, size := 64, place := 0, last := true, pull := pull })
    retain := c.port.retain.set 255 (some ⟨1, 0, 0, none, 0, none, false, none⟩) } })
theorem test_witness_TakesAndSlots : (taking .loader [0x10000, 5] .none).core.port.current 5 = none
    ∧ (∃ t, (taking .loader [0x10000] .none).core.port.current 0x10000 = some (0, t) ∧ t.pull = .none)
    ∧ (∃ t, (taking .loader [0x10000] .queued).core.port.current 0x10000 = some (0, t) ∧ t.pull = .queued)
    ∧ (∃ t, (taking .loader [0x10000] (.booked 0 true)).core.port.current 0x10000 = some (0, t) ∧ t.pull = .booked 0 true)
    ∧ (∃ t, (taking .loader [0x10000] (.ended 0)).core.port.current 0x10000 = some (0, t) ∧ t.pull = .ended 0)
    ∧ (∃ t, (taking .loader [0x10000] (.retired 0)).core.port.current 0x10000 = some (0, t) ∧ t.pull = .retired 0)
    ∧ (taking .storer [255, 1, 256, 2] .none).cur = .storer ∧ 255 < ((taking .storer [255, 1, 256, 2] .none).rd 3).toNat
    ∧ ((taking .storer [255, 1, 256, 2] .none).rd 1).toNat ≤ 255 ∧ ((taking .storer [255, 1, 256, 2] .none).rd 2).toNat ≤ 1
    ∧ 1 < ((taking .storer [255, 1, 256, 2] .none).rd 4).toNat
    ∧ (∃ r, (taking .storer [] .none).core.port.slot 255 = some r ∧ r.expired = false ∧ r.deadline = none)
    ∧ (taking .storer [] .none).core.port.slot 254 = none ∧ ((1 : Word) < 1 ∨ (1 : Word).toNat < (1 : Word).toNat + 2 ^ 40) := by
  refine ⟨by decide, ⟨_, rfl, rfl⟩, ⟨_, rfl, rfl⟩, ⟨_, rfl, rfl⟩, ⟨_, rfl, rfl⟩, ⟨_, rfl, rfl⟩, by decide, by decide, by decide,
    by decide, by decide, ⟨_, rfl, by decide, by decide⟩, by decide, by decide⟩
/-- A receive region of 4 KiB, and a notice of 64 B in the store. -/
def noticed (l : List Word) (n : List Notice) : State :=
  stc .loader l (fun c => { c with port := { c.port with policy := 4096 * 2 ^ 32, store := n } })
theorem test_witness_NoticesAndPolicy : (noticed [1] []).topNotice = none ∧ ((noticed [1] []).rd 1).toNat % 32 ≠ 0
    ∧ ((noticed [] []).rd 1).toNat % 32 = 0
    ∧ (∃ n, (noticed [] [{ note := 64 * 2 ^ 64, arrival := 0, seq := 0 }]).topNotice = some n
      ∧ (noticed [] [{ note := 64 * 2 ^ 64, arrival := 0, seq := 0 }]).rd 1 = 0
      ∧ n.taken + (noticed [] [{ note := 64 * 2 ^ 64, arrival := 0, seq := 0 }]).core.port.nextPiece n = noteSize n.note)
    ∧ (∃ v, ((noticed [win] []).drainAll .loader).store 0 ((noticed [win] []).rd 1) (leBytes 32 0) = .ok v)
    ∧ (∃ u bs, ((stm .loader [win] [(home + 4, 4, 4096)]).drainAll .loader).load (some 0) win 32 = .ok (u, bs)
      ∧ policyOk (BitVec.ofNat 256 (leNat bs)) = true ∧ u.core.port.spilled = [] ∧ u.core.port.ringU = 0)
    ∧ (∃ u bs, ((stm .loader [win] [(home + 4, 4, 4095)]).drainAll .loader).load (some 0) win 32 = .ok (u, bs)
      ∧ policyOk (BitVec.ofNat 256 (leNat bs)) = false)
    ∧ (∃ u bs, (({ taking .loader [] .none with mem := putAll [(home + 4, 4, 4096)] } : State).drainAll .loader).load (some 0) win
        32 = .ok (u, bs)
      ∧ policyOk (BitVec.ofNat 256 (leNat bs)) = true ∧ polSize (BitVec.ofNat 256 (leNat bs)) ≠ polSize u.core.port.policy
      ∧ u.core.port.takes.toList.any (·.isSome) = true) := by
  refine ⟨by decide, by decide, by decide, ⟨_, rfl, by decide, by decide⟩, ⟨_, rfl⟩, ⟨_, _, rfl, by decide, by decide, by decide⟩,
    ⟨_, _, rfl, by decide⟩, ⟨_, _, rfl, by decide, by decide, by decide⟩⟩

/-- The word `w` after a prefix word at `pc`. -/
def prefixed (pc : BitVec 17) (w : Nat) : State :=
  let s := st .loader []
  s.setMe { s.me with pc := pc, istore := putAll [(pc.toNat, 4, 2), (pc.toNat + 4, 4, w)] }
theorem test_witness_PrefixWords : (prefixed 0xFFF8 8).me.pc.toNat + 4 < 0x10000 ∧ (prefixed 0xFFF8 8).me.word 0xFFFC % 4 ≠ 2
    ∧ ((prefixed 0xFFF8 8).me.word 0xFFFC).testBit 2 = false ∧ isBranchWord ((prefixed 0xFFF8 8).me.word 0xFFFC) = false
    ∧ (prefixed 0 2).me.word 4 % 4 = 2 ∧ ((prefixed 0 0xC).me.word 4).testBit 2 = true
    ∧ isBranchWord ((prefixed 0 0x04004060).me.word 4) = true ∧ 0x10000 ≤ (prefixed 0xFFFC 0).me.pc.toNat + 4 := by decide
/-- The storer's handler is at 0x54, where a landing mark stands. -/
def handling (h : Bool) (tvec : Word) : State :=
  let s := stc .storer [9] (fun c => { c with tvec := tvec })
  s.setMe { s.me with h := h, istore := putAll [(0x54, 1, 4)] }
theorem test_witness_TrapEntry : Mem.Wf (handling false 0x5500000000).mem ∧ (handling false 0x5500000000).poison = [] ∧ (handling false 0x5500000000).coreId < 768
    ∧ (handling false 0x5500000000).me.h = false ∧ (handling false 0x5500000000).core.tvec.toNat / 2 ^ 32 % 2 ^ 16 % 2 = 1
    ∧ (handling false 0x5500000000).me.landing 0x54 = true ∧ (handling true 0).me.h = true
    ∧ (handling false 0x5400000000).core.tvec.toNat / 2 ^ 32 % 2 ^ 16 % 2 = 0 ∧ (handling false 0x5900000000).me.landing 0x58 = false
    ∧ { handling true 0 with tasks := [⟨0, 7, 3, [], none⟩], core := { (handling true 0).core with ctx := some 7 } }.jobHere = some 3 := by
  refine ⟨?_, by decide⟩
  simp [Mem.Wf, handling, stc, st, State.setMe, State.setComp, State.reset]
theorem test_witness_SoftwareTraps : (handling false 0x5500000000).prefixNow.bare = true
    ∧ (handling false 0x5500000000).me.h = false
    ∧ (handling false 0x5500000000).core.tvec.toNat / 2 ^ (16 * (handling false 0x5500000000).cur.num) % 2 ^ 16 % 2 = 1
    ∧ (handling false 0x5500000000).me.landing (0x55 / 4 * 4) = true := by decide
/-- In a handler whose frame is that of the storer's vector queue, with `n` commands in it and one pending; the
frame has the configuration word `v`. -/
def returning (n v : Nat) : State :=
  let s := { stm .storer [] [(locLocal 0 (0x1FE800 + 0x800 * 2) + 648, 8, v)] with poison := [] }
  let s := s.setMe { s.me with h := true, active := some .storerVec }
  s.setQueue .storerVec { cmds := List.replicate n { instr := .nop }, slots := [⟨{ instr := .nop }, true, .pending⟩] }
theorem test_witness_ReturnFromTrap : (returning 15 0).prefixNow.bare = true ∧ (st .storer []).me.h = false
    ∧ (returning 15 0).me.h = true ∧ (returning 15 0).me.epc.toNat = (returning 15 0).me.entryEpc.toNat
    ∧ ((returning 15 0).ahead (locLocal 0 0x1FF800 + 64) 592).badByte (locLocal 0 0x1FF800 + 64) 592 = none
    ∧ (let s := { returning 15 0 with poison := [locLocal 0 0x1FF800 + 64] }
       (s.ahead (locLocal 0 0x1FF800 + 64) 592).badByte (locLocal 0 0x1FF800 + 64) 592 = some 0)
    ∧ leNat ((returning 15 2).peekN .storer (locLocal 0 0x1FF800 + 648) 8) % 4 = 2
    ∧ leNat ((returning 15 3).peekN .storer (locLocal 0 0x1FF800 + 648) 8) % 4 = 3
    ∧ ((returning 15 0).core.queue .storerVec).cmds.length = 15 ∧ ((returning 16 0).core.queue .storerVec).cmds.length = 16
    ∧ ((returning 16 0).core.queue .storerVec).slots.length = 1
    -- an EPC that the handler has changed: to a word without a landing mark, and to none
    ∧ (let s := (returning 15 0).setMe { (returning 15 0).me with epc := 0x100 }
       ¬(s.me.epc.toNat = s.me.entryEpc.toNat ∨ s.me.epc.toNat = s.me.entryEpc.toNat + s.me.unitLen s.me.entryEpc.toNat)
       ∧ s.me.epc.toNat % 4 = 0 ∧ s.me.landing s.me.epc.toNat = false)
    ∧ (let s := (returning 15 0).setMe { (returning 15 0).me with epc := 0xFFFF }
       ¬(s.me.epc.toNat = s.me.entryEpc.toNat ∨ s.me.epc.toNat = s.me.entryEpc.toNat + s.me.unitLen s.me.entryEpc.toNat)
       ∧ s.me.epc.toNat % 4 ≠ 0) := by
  and_intros <;> decide +kernel
theorem test_witness_SystemRegisters : (owned .loader [1]).prefixNow.bare = true ∧ (owned .loader [1]).core.ctx = some 7
    ∧ (owned .loader [1]).cx = some owner ∧ 18 < (19 : BitVec 6).toNat ∧ (18 : BitVec 6) ∈ ([1, 3, 18] : List (BitVec 6)) := by decide
/-- In a handler of the loader, with a pending and a discarded command in the frame's replay list, and `n` in the queue. -/
def replaying (l : List Word) (n : Nat) : State :=
  let s := st .loader l
  let s := s.setMe { s.me with h := true, active := some .loaderVec }
  s.setQueue .loaderVec { cmds := List.replicate n { instr := .nop }
                          slots := [⟨{ instr := .nop }, true, .pending⟩, ⟨{ instr := .nop }, false, .discarded⟩] }
theorem test_witness_ReplayWaitAndDiscard : (st .loader [5]).me.h = false ∧ (replaying [512] 0).me.h = true
    ∧ 512 ≤ ((replaying [512] 0).rd 1).toNat ∧ ((replaying [16] 0).rd 1).toNat / 16 % 16 ≠ 0
    ∧ (replaying [2] 0).me.active = some .loaderVec ∧ ((replaying [2] 0).core.queue .loaderVec).slots.length ≤ 2
    ∧ (∃ e, ((replaying [1] 0).core.queue .loaderVec).slots[1]? = some e ∧ e.state ≠ .pending)
    ∧ (∃ e, ((replaying [256] 0).core.queue .loaderVec).slots[0]? = some e ∧ e.state = .pending)
    ∧ ((replaying [256] 0).rd 1).getLsbD 8 = true ∧ ((replaying [0] 0).rd 1).getLsbD 8 = false
    ∧ ((replaying [0] 16).core.queue .loaderVec).room = false ∧ ((replaying [0] 15).core.queue .loaderVec).room = true
    ∧ ((st .loader [5]).setMe { (st .loader [5]).me with posted := [⟨.timer, 0, .async⟩] }).me.posted ≠ []
    ∧ (st .loader [5]).me.posted = [] ∧ (st .loader [5]).cycle.toNat < ((st .loader [5]).rd 1).toNat
    ∧ ((st .loader [5]).rd 1).toNat ≤ ({ st .loader [5] with cycle := 5 } : State).cycle.toNat
    ∧ (let s := st .loader [win + 0x1FD000, 4096, 4097]
       (s.rd 1).toNat % 4096 = 0 ∧ (s.rd 2).toNat % 4096 = 0 ∧ (s.rd 1).toNat + (s.rd 2).toNat ≤ 0xFF000000001FE800
       ∧ (s.rd 3).toNat % 4096 ≠ 0 ∧ s.core.disc.length < 8)
    ∧ 8 ≤ (stc .loader [] (fun c => { c with disc := List.replicate 8 (win, 4096) })).core.disc.length := by
  and_intros <;> decide
/-- The running context's core in a handler, with a range descriptor in the local store. -/
def mapping (l : List Word) (h : Bool) (base limit offset : Nat) : State :=
  let s := { owned .storer l with mem := putAll [(home, 8, base), (home + 8, 8, limit), (home + 16, 8, offset), (home + 24, 1, 3)] }
  s.setMe { s.me with h := h }
/-- A range descriptor with rights to read, and a reserved bit. -/
def descriptor (base limit offset bit : Nat) : BitVec 256 :=
  BitVec.ofNat 256 (base + limit * 2 ^ 64 + offset * 2 ^ 128 + 2 ^ 192 + bit * 2 ^ 255)
theorem test_witness_TranslationInstructions : (mapping [] false 0 0 0).me.h = false
    ∧ (mapping [win + 16] true 0 0 0).me.h = true ∧ ((mapping [win + 16] true 0 0 0).rd 1).toNat % 32 ≠ 0
    ∧ (∃ y bs c, (mapping [win, 63] true 0xF000000000 0xF000001000 0).load (some 0) win 32 = .ok (y, bs) ∧ y.cx = some c
      ∧ rangeStatus y.fuses c.ranges (BitVec.ofNat 256 (leNat bs)) 63 = 3)
    ∧ (∃ y bs c, (mapping [win, 63] true 0x4000000000 0x4000001000 (2 ^ 64 - 0x4000000000)).load (some 0) win 32 = .ok (y, bs)
      ∧ y.cx = some c ∧ rangeStatus y.fuses c.ranges (BitVec.ofNat 256 (leNat bs)) 63 = 0)
    -- the checks of a descriptor: a reserved bit, limits, an overlap, the end of HBM, and none of them
    ∧ ((descriptor 0x1000 0x2000 0 1).extractLsb' 194 62 ≠ 0 ∧ (descriptor 0x1000 0x2000 0 0).extractLsb' 194 62 = 0)
    ∧ (rangeOf (descriptor 0x1000 0x1000 0 0)).limit.toNat ≤ (rangeOf (descriptor 0x1000 0x1000 0 0)).base.toNat
    ∧ 0xFF00000000000000 ≤ (rangeOf (descriptor 0x1000 0xFF00000000001000 0 0)).limit.toNat - 1
    ∧ (∃ i g, i < 64 ∧ i ≠ 63 ∧ (owner.ranges.set 0 (some ⟨0x1000, 0x2000, 0, true, true⟩))[i]? = some (some g)
      ∧ (0x1000 : Nat) < g.limit.toNat ∧ g.base.toNat < 0x2000)
    ∧ (∃ pa, 0xF000000000 ≤ pa ∧ pa < 0xF000001000 ∧ (st .storer []).fuses.backed pa = false)
    ∧ (¬∃ pa, 0x1000 ≤ pa ∧ pa < 0x2000 ∧ (st .storer []).fuses.backed pa = false)
    ∧ 63 < ((mapping [64, 3] true 0 0 0).rd 1).toNat ∧ 2 < ((mapping [64, 3] true 0 0 0).rd 2).toNat
    ∧ (mapping [] true 0 0 0).resolve (mapping [] true 0 0 0).cx 0 0x1000 = .nothing
    ∧ (mapping [] true 0 0 0).resolve (mapping [] true 0 0 0).cx 0 (win + 0x200000) = .noWindow
    ∧ (mapping [] true 0 0 0).resolve (mapping [] true 0 0 0).cx 0 (win + 0x1FFFFF) = .window (home + 0x1FFFFF) 0x1FFFFF 1 true
    ∧ (let c := { owner with ranges := owner.ranges.set 0 (some ⟨0x4000000000, 0x4000001000, 0, true, false⟩) }
       (mapping [] true 0 0 0).resolve (some c) 0 0x4000000FFF = .range 0x4000000FFF true false)
    ∧ (let s := { mapping [] true 0 0 0 with mem := putAll [(0x20000, 8, 0x31)] }
       s.resolve (some { owner with root := 0x20000 }) 0 5 = .page 5 true false 5)
    ∧ (let s := { mapping [] true 0 0 0 with poison := [0x20000] }
       s.resolve (some { owner with root := 0x20000 }) 0 5 = .broken) := by
  refine ⟨by decide, by decide, by decide, ⟨_, _, _, rfl, rfl, by decide⟩, ⟨_, _, _, rfl, rfl, by decide⟩, by decide, by decide,
    by decide, ⟨0, _, by decide, by decide, rfl, by decide, by decide⟩, ⟨0xF000000000, by decide, by decide, by decide⟩, ?_, ?_⟩
  · rintro ⟨pa, _, h, hb⟩
    have h0 : pa / 0xC00000000 = 0 := by omega
    have h1 : pa % 0xC00000000 < 0xC00000000 := Nat.mod_lt _ (by decide)
    simp [Fuses.backed, h0, st, State.setMe, State.setComp, State.reset] at hb
    omega
  · decide

/-- A page walk for address 0x10200005000: four tables in HBM, of which the lowest gives the 4 KiB page at 0x30000, to be read
alone; for address 0x400000000 the highest gives a 16 GiB page that is not aligned. -/
def paged (a : Nat) : State × Ctx :=
  let c := { owner with root := 0x20000, ranges := owner.ranges.set 63 (some ⟨0x4000000000, 0x4000001000, 0, true, false⟩) }
  ({ owned .loader [] with
      ctxs := [c]
      mem := putAll [(0x20000 + 8 * (a / 2 ^ 34), 8, 0x40013), (0x20008, 8, 0x40031), (0x40000 + 8 * (a / 2 ^ 28 % 64), 8, 0x50013),
        (0x50000 + 8 * (a / 2 ^ 21 % 128), 8, 0x60013), (0x60000 + 8 * (a / 2 ^ 12 % 512), 8, 0x30031)] }, c)
/-- The cause with which a load at address 0 traps. -/
def causeAt0 (s : State) : Option Cause := match s.locate 0 8 false with | .error (c, _) => some c | .ok _ => none
theorem test_witness_AddressTranslation :
    (let (s, c) := paged 0x10200005000
     s.cx = some c ∧ (0x10200005000 : Nat) / 2 ^ 48 = 0 ∧ c.root.toNat % (8 * 2 ^ 14) = 0
     ∧ s.fuses.backed (0x20000 + 8 * (0x10200005000 / 2 ^ 34)) = true ∧ s.fuses.backed 0x30000 = true
     ∧ s.mem.num (0x20000 + 8 * (0x10200005000 / 2 ^ 34)) 8 = 0x40013 ∧ s.mem.num 0x20008 8 = 0x40031
     ∧ s.mem.num (0x40000 + 8 * (0x10200005000 / 2 ^ 28 % 64)) 8 = 0x50013 ∧ 0x40000 % 2 ^ 34 ≠ 0
     ∧ s.mem.num (0x50000 + 8 * (0x10200005000 / 2 ^ 21 % 128)) 8 = 0x60013
     ∧ s.mem.num (0x60000 + 8 * (0x10200005000 / 2 ^ 12 % 512)) 8 = 0x30031
     ∧ s.locate 0x10200005000 8 false = .ok 0x30000 ∧ s.locate 0x10200005000 8 true = .error (.prot, 0x10200005000)
     ∧ s.locate 0x400000000 8 false = .error (.xlate, 0x400000000)
     ∧ s.locate 0x4000000FF8 8 false = .ok 0x4000000FF8 ∧ s.locate 0x4000000FF8 8 true = .error (.prot, 0x4000000FF8)
     ∧ s.locate 0x4000001000 8 false = .error (.xlate, 0x4000001000))
    ∧ ((0xFF00000000200000 : Word).toNat / 2 ^ 48 = 0xFF00 ∧ (0xFF00000000200000 : Word).toNat % 2 ^ 48 = 0x200000)
    ∧ (0xFF0001005FFFFFFF : Word).toNat % 2 ^ 48 = 0x10000000000 + 767 * 0x200000 + 0x1FFFFF
    ∧ (st .loader []).cx = none ∧ (owned .loader []).cx = some owner ∧ (owned .loader []).coreGranted 7 0 = true
    ∧ (owned .loader []).coreGranted 7 8 = false ∧ (owned .loader []).dieGranted 7 0 = true
    -- an entry of kind 0, one of a kind that its level does not allow, one with a reserved bit, one in an uncorrectable unit, and
    -- tables that are misaligned or not backed
    ∧ (∀ e ∈ [0x40003, 0x40023, 0x40033 + 2 ^ 2, 0x40013 + 2 ^ 56], let s : State := { owned .loader [] with
        ctxs := [{ owner with root := 0x20000 }], mem := putAll [(0x20000, 8, e)] }
       s.mem.num 0x20000 8 = e ∧ s.poison = [] ∧ s.fuses.backed 0x20000 = true ∧ causeAt0 s = some .xlate)
    ∧ (let s : State := { owned .loader [] with ctxs := [{ owner with root := 0x20000 }], poison := [0x20000] }
       s.poison.contains (eccUnit 0x20000) = true ∧ causeAt0 s = some .machine)
    ∧ (∀ t ∈ [0x20008, 2 ^ 60], let s : State := { owned .loader [] with ctxs := [{ owner with root := BitVec.ofNat 64 t }] }
       (t % (8 * 2 ^ 14) ≠ 0 ∨ s.fuses.backed t = false) ∧ causeAt0 s = some .xlate) := by
  refine ⟨?_, by decide, by decide, by decide, by rfl, by decide, by decide, by decide, ?_⟩
  · dsimp only [paged]
    and_intros <;> first | rfl | decide +kernel
  · and_intros <;> decide +kernel

/-- A plain job's card: 100 records of 8 B, two chunks per core, minimum chunk 3, images of one word, core 0. -/
def card : BitVec 1024 := BitVec.ofNat 1024 (2 ^ 192 + 2 ^ 208 + 2 ^ 224 + 2 * 2 ^ 312 + 8 * 2 ^ 384 + 100 * 2 ^ 416 + 3 * 2 ^ 448
  + 2 ^ 480 + 2 ^ 512 + 2 ^ 528 + 2 ^ 544)
def work (slot : Nat) (left : Nat) : Job :=
  { id := 3, ctx := 7, die := 0, slot := slot, gen := 1, card := card, cores := [0], left := left, next := 100 - left }
/-- Core 0 runs a task of that job. The card stands at 0x80, a graph table of one stage at 0x400. -/
def busy (l : List Word) (left : Nat) (chunks : List (Nat × Nat)) : State :=
  { owned .sequencer l with
    jobs := [work 0 left], tasks := [⟨0, 7, 3, chunks, none⟩]
    mem := putAll [(home + 0x80, 128, card.toNat), (home + 0x400, 2, 1), (home + 0x404, 4, 1),
      (home + 0x408, 8, (win + 0x800).toNat), (home + 0x420 + 10, 2, 1)] }
def fullDie (s : State) : State := { s with jobs := (List.range 64).map (fun i => work i 0) }
theorem test_witness_JobsAndChunks : (busy [win + 0x80, 4] 87 [(0, 13)]).prefixNow.bare = true
    ∧ ((busy [win + 0x80, 4] 87 [(0, 13)]).rd 2).toNat % 128 ≠ 0
    ∧ (∃ y bs, ((busy [win + 0x80] 87 []).drainAll .sequencer).load (some 0) (win + 0x80) 128 = .ok (y, bs)
      ∧ cardOk (BitVec.ofNat 1024 (leNat bs)) = true ∧ y.coreSet (BitVec.ofNat 1024 (leNat bs)) = [0]
      ∧ y.freeJobSlot 7 0 = some 1
      ∧ ({ y with fuses := { y.fuses with cores := [0] } } : State).coreSet (BitVec.ofNat 1024 (leNat bs)) = [])
    ∧ (∃ y bs, ((busy [win + 0x400] 87 []).drainAll .sequencer).load (some 0) (win + 0x400) 128 = .ok (y, bs)
      ∧ cardOk (BitVec.ofNat 1024 (leNat bs)) = false)
    ∧ (∀ i < 64, ∃ j ∈ (fullDie (busy [] 0 [])).jobs, j.ctx = 7 ∧ j.die = 0 ∧ j.slot = i)
    ∧ (st .loader []).taskOf 0 = none ∧ (∃ t, (busy [] 87 [(0, 13)]).taskOf 0 = some t ∧ t.entry = none ∧ t.chunks[1]? = none)
    ∧ (∃ t, (busy [] 76 [(0, 13), (13, 11)]).taskOf 0 = some t ∧ t.chunks[1]? = some (13, 11))
    ∧ (∃ c ea, ((busy [] 87 []).drainAll .sequencer).load (some 0) 0x1000 128 = .error (c, ea))
    ∧ (∀ q : QueueId, q.owner = (seqAt 0).cur → ((seqAt 0).core.queue q).cmds = [] ∧ ((seqAt 0).core.queue q).done = [])
    ∧ (∃ j, (busy [] 87 []).findJob 3 = some j ∧ 0 < j.left) ∧ (∃ j, (busy [] 0 []).findJob 3 = some j ∧ j.left = 0)
    ∧ (∃ t, ({ busy [] 0 [] with tasks := [⟨0, 7, 3, [], some (0, 1)⟩] } : State).taskOf 0 = some t ∧ t.entry ≠ none)
    ∧ (seqAt 0).core.quiet .sequencer = true ∧ (seqAt 0).core.fmtq.length < 16
    ∧ 16 ≤ (stc .sequencer [] (fun c => { c with fmtq := List.replicate 16 0 })).core.fmtq.length := by
  refine ⟨by decide, by decide, ⟨_, _, rfl, by decide, by decide, by decide, by decide⟩, ⟨_, _, rfl, by decide⟩, by decide,
    by decide, ⟨_, rfl, by decide, by decide⟩, ⟨_, rfl, by decide⟩, ⟨_, _, rfl⟩, ?_, ⟨_, rfl, by decide⟩,
    ⟨_, rfl, by decide⟩, ⟨_, rfl, by decide⟩, ?_⟩
  · intro q _; cases q <;> exact ⟨rfl, rfl⟩
  · decide
/-- A graph of one stage, with so many periods asked for and completed, which a rebind may be draining. -/
def graphed (l : List Word) (asked done : Nat) (rebind : Option Rebind) (rebound : List Rebound) : State :=
  { busy l 87 [] with
    graphs := [{ ctx := 7, die := 0, slot := 1, gen := 1, job := 3, requested := asked, completed := done, rebind := rebind
                 plan := ⟨0, 0, [0], [], [1], [], [], [], 0⟩, rebound := rebound }] }
def noPlan : Solved := ⟨0, 0, [0], [], [1], [], [], [], 0⟩
theorem test_witness_GraphInstructions : (graphed [0x10001] 3 2 none []).prefixNow.bare = true
    ∧ (graphed [0x10001] 3 2 none []).drainAll .sequencer = graphed [0x10001] 3 2 none []
    ∧ (busy [win + 0x400] 87 []).drainAll .sequencer = busy [win + 0x400] 87 []
    ∧ (st .loader []).jobHere.bind (st .loader []).findJob = none
    ∧ (∃ j t v, (busy [win + 0x400] 87 []).jobHere.bind (busy [win + 0x400] 87 []).findJob = some j
      ∧ ((busy [win + 0x400] 87 []).tableRead (win + 0x400)).bind (busy [win + 0x400] 87 []).cx 0 0 j (win + 0x400)
        ((busy [win + 0x400] 87 []).fetchFor (busy [win + 0x400] 87 []).cx 0) = .ok (t, 0, v))
    ∧ (busy [win + 0x400] 87 []).rebinding 0 = false ∧ (graphed [] 3 2 (some ⟨noPlan, 5, .loader, 0⟩) []).rebinding 0 = true
    ∧ (graphed [0x10001] 3 2 none []).graphAt 0x10002 = none
    ∧ (∃ g, (graphed [0x10001, 1] 3 2 none []).graphAt 0x10001 = some g ∧ g.requested + 1 < 2 ^ 32 ∧ 2 ≤ g.completed ∧ g.completed < 3
      ∧ g.rebound = [] ∧ g.rebind = none
      ∧ (∃ code, (graphed [0x10001, 1] 3 2 none []).solveRebind g 1 = .ok (.error code))
      ∧ ∃ plan, (graphed [0x10001, 1] 3 2 none []).solveRebind g (win + 0x400) = .ok (.ok plan))
    ∧ (∃ g, (graphed [] (2 ^ 32 - 1) 2 none []).graphAt 0x10001 = some g ∧ 2 ^ 32 ≤ g.requested + (1 : Word).toNat)
    ∧ (∃ g, (graphed [] 3 2 (some ⟨noPlan, 5, .loader, 0⟩) []).graphAt 0x10001 = some g
      ∧ g.rebind = some ⟨noPlan, 5, .loader, 0⟩)
    ∧ (∃ g, (graphed [] 3 2 (some ⟨noPlan, 0, .sequencer, 0⟩) []).graphAt 0x10001 = some g
      ∧ g.rebind = some ⟨noPlan, (graphed [] 3 2 none []).coreId, (graphed [] 3 2 none []).cur, (graphed [] 3 2 none []).me.pc⟩)
    ∧ (∃ g, (graphed [] 3 2 none [⟨0, .sequencer, 0, none⟩]).graphAt 0x10001 = some g
      ∧ g.rebound = [⟨0, .sequencer, 0, none⟩]) ∧ 4 < (5 : Word).toNat := by
  refine ⟨by decide, rfl, rfl, by decide, ⟨_, _, _, rfl, by rfl⟩, by decide, by decide, by decide, ⟨_, rfl, by decide, by decide, by decide, rfl, rfl,
    ⟨_, rfl⟩, ⟨_, by rfl⟩⟩, ⟨_, rfl, by decide⟩, ⟨_, rfl, rfl⟩, ⟨_, rfl, rfl⟩, ⟨_, rfl, rfl⟩, by decide⟩

/-- A storer's core of that job, with a block for a barrier at 0x100 (or an ill-formed one), a group record of `p` members in the
die store in which this core has rank `rank`, and a list of consumer words that name core 0. -/
def rounding (op p rank : Nat) : State :=
  { busy [win + 0x100] 87 [] with
    cur := .storer
    core := { (owned .storer [win + 0x100]).core with ctx := some 7 }
    mem := putAll [(home + 0x100, 8, op + 2 ^ 32), (locDie 0 64 + 8, 2, p), (locDie 0 64 + 10, 2, rank),
      (locDie 0 64 + 16, 8, (win + 0x200).toNat)] }
def aRound (state : RoundState) (rank : Nat) : Round :=
  { block := 5, group := BitVec.ofNat 512 (2 * 2 ^ 64 + rank * 2 ^ 80), members := [0, 0], n := 0, algo := 2, job := some 3, task := 0
    issued := 0, since := 0, state := state }
def unit (state : RoundState) (rank : Nat) (parts : Option (List Nat)) : CollUnit :=
  { ctx := 7, core := 0, rounds := Vector.replicate 8 (some { aRound state rank with parts := parts }) }
theorem test_witness_CollectiveStart : (rounding 5 1 0).cur = .storer
    ∧ (combined true).combinedReady (fun _ => true) = false ∧ ((st .storer [64]).rd 1).toNat % 128 ≠ 0
    ∧ (∃ c ea, (rounding 5 1 0).load (some 0) 0x1000 128 = .error (c, ea))
    -- a member list and a buffer that cannot be read
    ∧ (∃ used c ea, (rounding 5 1 0).loadParts (some 0) 0x1000 (cuts 0x1000 6 0 4) = .error (.trapAfter used c ea))
    ∧ (∃ used c ea, (rounding 5 1 0).hbmCheck 0x1000 8 false = .error (.trapAfter used c ea))
    ∧ goes (do
      let (y, bs) ← fine ((rounding 5 1 0).load (some 0) (win + 0x100) 128)
      let (z, gs) ← fine (y.load (some 0) 0xFF00000200000040 64)
      let (m, ls) ← fine (z.loadParts (some 0) (win + 0x200) (cuts (win + 0x200).toNat 6 0 4))
      let m ← fine (m.hbmCheck 0 0 false)
      let m ← fine (m.hbmCheck 0 0 true)
      let t ← fine (m.putFor m.cx m.coreId 0xFF0000020000004C (leBytes 4 1))
      pure (decide (blockOk (BitVec.ofNat 1024 (leNat bs)) = true ∧ ((BitVec.ofNat 512 (leNat gs)).extractLsb' 64 16).toNat = 1
        ∧ m.membersOk [BitVec.ofNat 32 (leNat ls)] 0 = true ∧ m.myColl.slot 0 = none
        ∧ t.combinedReady (fun _ => true) = true)))
    ∧ goes (do
      let (_, bs) ← (rounding 6 1 0).load (some 0) (win + 0x100) 128
      pure (decide (blockOk (BitVec.ofNat 1024 (leNat bs)) = false)))
    ∧ goes (do
      let (z, gs) ← (rounding 5 2 1).load (some 0) 0xFF00000200000040 64
      pure (decide (((BitVec.ofNat 512 (leNat gs)).extractLsb' 80 16).toNat = 1 ∧ z.membersOk [0, 0] 1 = true
        ∧ z.membersOk [0, 0xFFFF] 1 = false ∧ z.wordNode 0 = z.node.toNat)))
    -- a member whose coordinator is on another node, to which there is a path
    ∧ goes (do
      let s := { rounding 5 2 1 with paths := [(pathKey 0 5 0, 0x9000000000000)] }
      let l : List (BitVec 32) := [0x80050000, 0]
      let (z, _) ← s.load (some 0) 0xFF00000200000040 64
      let f := ({ z with groups := [l] }.fencedX 0xFFFF .group).notePort .storer (z.portKey (.round 0))
      pure (decide (z.membersOk l 1 = true ∧ f.wordNode 0x80050000 ≠ f.node.toNat
        ∧ f.choosePath f.coreId (f.wordNode 0x80050000) = some (0, 0))))
    ∧ goes (do
      let (_, gs) ← (rounding 5 0 0).load (some 0) 0xFF00000200000040 64
      pure (decide (((BitVec.ofNat 512 (leNat gs)).extractLsb' 64 16).toNat = 0)))
    ∧ (∀ i < 8, ({ rounding 5 1 0 with colls := [unit .running 0 none] } : State).myColl.slot i ≠ none) := by
  refine ⟨by decide, by decide, by decide, ⟨_, _, rfl⟩, ⟨_, _, _, rfl⟩, ⟨_, _, _, rfl⟩, ?_⟩
  and_intros <;> decide +kernel
def withRounds (l : List Word) (state : RoundState) (rank : Nat) (parts : Option (List Nat)) : State :=
  { owned .storer l with colls := [unit state rank parts] }
def batched (l : List Word) (states : Vector Batch 4) : State := stc .storer l (fun c => { c with batches := states })
theorem test_witness_CollectivesAndPaths : (withRounds [8] .running 0 none).myColl.current 8 = none
    ∧ (∃ r, (withRounds [7, 0, 1, 2] .running 0 none).myColl.current 7 = some (7, r) ∧ r.state = .running)
    ∧ (∃ r, (withRounds [7, 0, 1, 2] .aborted 1 (some [0, 1])).myColl.current 7 = some (7, r) ∧ r.state ≠ .running)
    ∧ (withRounds [7, 0, 1, 2] .running 0 none).rd 2 = 0 ∧ (withRounds [7, 0, 1, 2] .running 0 none).rd 3 = 1
    ∧ 1 < ((withRounds [7, 0, 1, 2] .running 0 none).rd 4).toNat
    ∧ (st .storer []).core.batches[((st .storer []).core.openTag + 1).toNat].state = .empty
    ∧ (batched [] (Vector.replicate 4 { state := .closed })).core.batches[(0 + 1 : BitVec 2).toNat].state = .closed
    ∧ ((List.range 4).filter (fun t => ((batched [] (Vector.replicate 4 { state := .closed })).core.batches[t]?).map (·.state)
      = some .closed)).length = 4 ∧ (3 : BitVec 2).toNat < 4 ∧ 3 < (4 : Word).toNat ∧ 65 < (66 : Word).toNat
    ∧ (∃ c, (batched [3] (Vector.replicate 4 { state := .closed, peers := [5] })).core.batches[3]? = some c
      ∧ c.peers[0]? = some 5 ∧ c.peers[63]? = none) ∧ 63 + 2 ≤ 65
    ∧ (st .storer []).choosePath 0 4095 = none
    ∧ ({ st .storer [] with paths := [(pathKey 0 5 0, 0x9000000000000)] } : State).choosePath 0 5 = some (0, 0) := by
  refine ⟨by decide, ⟨_, rfl, by decide⟩, ⟨_, rfl, by decide⟩, by decide, by decide, by decide, by decide, by decide, by decide,
    by decide, by decide, by decide, ⟨_, rfl, by decide, by decide⟩, by decide, by decide, by decide⟩

/-- What admits a command with token actions `act` for queue `q`: legal, its tokens there, room, and no queue at 63. -/
def admits (s : State) (act : BitVec 4) (q : QueueId) (k : Takes) : Bool :=
  tokLegal s.cur act && prefixWithin s.prefixNow k && s.core.tokensReady (tokPops s.cur act) && (s.core.queue q).room
  && s.core.pushesFit (tokPushes s.cur act)
def fullQueue (s : State) (q : QueueId) : State := s.setQueue q { cmds := List.replicate 16 { instr := .nop } }

theorem test_witness_VectorMemoryCommands : admits (st .loader [0x1000]) 4 .loaderVec { mask := true, tail := true } = true
    ∧ admits (st .storer [0x1000]) 1 .storerVec { mask := true } = true ∧ tokLegal .loader 1 = false
    ∧ ((fullQueue (st .loader []) .loaderVec).core.queue .loaderVec).room = false
    ∧ (st .loader []).core.tokensReady (tokPops .loader 8) = false ∧ (st .loader []).core.fmtq[0]? = none
    ∧ (let s := st .loader []
       ElemType.ui8.width = s.me.vcfg.ew.bytes ∧ (511 : VReg).toNat % 2 ^ s.me.vcfg.grp.toNat = 0
       ∧ (511 : VReg).toNat + 2 ^ s.me.vcfg.grp.toNat ≤ 512 ∧ (300 : VReg).toNat + s.me.vcfg.indexRegs ≤ 512
       ∧ ¬((511 : VReg).toNat < (300 : VReg).toNat + 1 ∧ (300 : VReg).toNat < (511 : VReg).toNat + s.me.vcfg.indexRegs)
       ∧ 512 < (511 : VReg).toNat + s.me.vcfg.indexRegs) := by decide
theorem test_witness_VectorCommands : admits (st .sequencer []) 5 .seqVec ⟨true, false, true, true⟩ = true
    ∧ prefixWithin ⟨some .rtz, false, none, none, none⟩ ⟨true, true, true, true⟩ = true
    ∧ prefixWithin ⟨some .rtz, false, none, none, none⟩ ⟨false, true, true, true⟩ = false
    ∧ ElemType.i8.width = (st .sequencer []).me.vcfg.ew.bytes ∧ ElemType.f32.width ≠ (st .sequencer []).me.vcfg.ew.bytes
    ∧ dotPair .f32 .f16 = true ∧ dotPair .f32 .i8 = false ∧ (st .sequencer []).me.vcfg.fits .i16 2 = true := by decide
theorem test_witness_PortCommands : admits (st .loader [64, 128, 192]) 4 .loaderPort {} = true
    ∧ ((st .loader [64, 128, 192]).rd 3).toNat % 64 = 0 ∧ ((st .loader [64, 128, 192]).rd 3).toNat < 2 ^ 32
    ∧ ((st .loader [64, 128, 193]).rd 3).toNat % 64 ≠ 0 ∧ 2 ^ 32 ≤ ((st .loader [2 ^ 32]).rd 1).toNat
    ∧ (st .loader [5]).core.port.current 5 = none
    ∧ (∃ t, (taking .loader [0x10000] .none).core.port.current 0x10000 = some (0, t) ∧ t.pull = .none)
    ∧ (∃ t, (taking .loader [0x10000] .queued).core.port.current 0x10000 = some (0, t) ∧ t.pull ≠ .none)
    ∧ followOn 0x0000008300010051 = some (.mload ⟨0, 0⟩ 0 2) ∧ followOn 8 = none
    ∧ admits (st .storer [64, 0, 8, 64]) 2 .storerPort {} = false ∧ admits (st .storer [64, 0, 8, 64]) 1 .storerPort {} = true
    ∧ ((st .storer [64, 0, 8, 64]).rd 4).toNat ≤ 64 ∧ (st .storer [64, 0, 8, 64]).rd 4 ≠ 0
    ∧ (∀ j < 64, (0 : Word).getLsbD j = ((st .loader []).core.tags.getLsbD j && decide (j ≠ (5 : BitVec 6).toNat))) := by
  refine ⟨by decide, by decide, by decide, by decide, by decide, by decide, ⟨_, rfl, rfl⟩, ⟨_, rfl, by decide⟩, ?_⟩
  decide
/-- A view of kind 1, type code 0, of 64 rows of 128 columns and pitch 32, and one of kind 3 and f32. -/
def viewed (w : Word) (n : Nat) : State := stc .sequencer [5] (fun c => { c with views := Vector.replicate 8 w, fmtq := List.replicate n 1 })
theorem test_witness_MatrixCommands : admits (viewed 0 1) 5 .seqMat {} = true ∧ (viewed 0 1).core.fmtq[0]? = some 1
    ∧ (viewed 0 0).core.fmtq[0]? = none ∧ (View.ofWord 0).kind ≠ 3
    ∧ (let a := View.ofWord 0x407F07F002000000
       a.kind = 1 ∧ a.fmt = 0 ∧ a.rows = 128 ∧ a.cols = 128)
    ∧ prefixWithin ⟨some .rtz, true, none, none, none⟩ { rnd := true, sat := true } = true := by decide
theorem test_witness_AttentionCommands : admits (viewed 0x403F07F002000000 0) 5 .seqAtt {} = true
    ∧ (let v := View.ofWord 0x403F07F002000000
       v.kind = 1 ∧ v.fmt = 0 ∧ v.cols = 128 ∧ v.rows = 64)
    ∧ (let v := View.ofWord 0xD000081000000000
       v.kind = 3 ∧ v.elemType = .f32 ∧ v.cols = 130 ∧ v.rows = 1)
    ∧ ((st .loader [16, 0xFFFFFFFF]).rd 1).toNat % 16 = 0 ∧ ((st .loader [16, 0xFFFFFFFF]).rd 2).toNat < 2 ^ 32
    ∧ ((st .loader [17]).rd 1).toNat % 16 ≠ 0 ∧ admits (st .loader []) 4 .loaderAtt {} = true
    ∧ ((st .sequencer [32]).rd 1).toNat % 32 = 0 ∧ ((st .sequencer [33]).rd 1).toNat % 32 ≠ 0 := by decide
theorem test_witness_RemoteCommands : admits (st .storer [64, 64, 4095]) 1 .storerRemote {} = true
    ∧ ((st .storer [64, 64, 4095]).rd 3).toNat < 4096 ∧ 4096 ≤ ((st .storer [64, 64, 4096]).rd 3).toNat
    ∧ ((st .storer [64, 64, 4]).rd 3).toNat ≤ 4 ∧ (st .storer [64, 64, 4]).rd 3 ≠ 0
    ∧ ((st .storer [win]).rd 1).toNat / 2 ^ 40 = 0xFF0000 ∧ ((st .storer [64]).rd 1).toNat / 2 ^ 40 ≠ 0xFF0000
    ∧ 2 ^ (6 : BitVec 3).toNat = 64 ∧ ((st .storer [64, 64]).rd 2).toNat % 64 = 0 ∧ ((st .storer [32]).rd 1).toNat % 64 ≠ 0 := by
  decide

/-- A command of the sequencer's vector queue at its head or retired from its head, in a core that its context runs. -/
def queued (i : Instr) (d : Bool) : State :=
  let s := owned .sequencer []
  let c : Cmd := { instr := i }
  s.setQueue .seqVec (if d then { done := [c] } else { cmds := [c] })
def timed (d : Option Word) (l : List Posted) : State :=
  let s := owned .loader []
  s.setMe { s.me with wfi := d, waiting := d.isSome, posted := l, run := .running }
theorem test_witness_EngineAndTrapEvents : (queued .nop false).live = true ∧ (queued .nop false).core.canExecute .seqVec = true
    ∧ (queued .nop true).core.canExecute .seqVec = false
    ∧ ((queued .nop false).core.queue .seqVec).cmds = [{ instr := .nop }]
    ∧ (queued .nop false).core.torn = [] ∧ ((queued .nop false).core.comp .sequencer).sbuf = []
    ∧ ((queued (.vadd ⟨0, 0⟩ .i8 511 0 1) false).readyHead .seqVec { instr := .vadd ⟨0, 0⟩ .i8 511 0 1 }).core.torn = []
    ∧ (∃ t, runCmd { instr := .vadd ⟨0, 0⟩ .i8 511 0 1 } (queued .nop false) = .done t)
    ∧ (∃ t cause ea p, runCmd { instr := .vld ⟨0, 0⟩ .ui32 0 1, ops := [0], vcfg := ⟨1, .e32, 0, false, false⟩ } (queued .nop false)
      = .fault t cause ea p)
    ∧ (∃ t, runCmd { instr := .rld ⟨0, 0⟩ 1 2 3 3, prog := { carry := [2] } } (queued .nop false) = .wait t)
    ∧ (queued .nop false).core.retirable .seqVec = none ∧ (queued .nop true).core.retirable .seqVec = some { instr := .nop }
    ∧ (timed none []).trapReady .loader = false ∧ (timed none [⟨.timer, 0, .async⟩]).trapReady .loader = true
    ∧ ((timed (some 0) []).core.comp .loader).wfi = some 0 ∧ ((timed (some 0) []).core.comp .loader).waiting = true
    ∧ ((timed (some 0) []).core.comp .loader).run = .running ∧ (0 : Word).toNat ≤ (timed (some 0) []).cycle.toNat
    ∧ ((timed (some 0) []).core.comp .loader).posted = [] ∧ ((timed none []).core.comp .loader).wfi = none
    ∧ ((timed (some 0) [⟨.reclaim, 0, .async⟩]).core.comp .loader).posted ≠ [] := by
  refine ⟨by decide, by decide, by decide, by decide, rfl, rfl, rfl, ⟨_, rfl⟩, ⟨_, _, _, _, rfl⟩, ⟨_, rfl⟩, ?_⟩
  decide
theorem test_witness_IntegerVectorElements :
    EngineReady (queued (.vadd ⟨0, 0⟩ .i8 511 0 1) false) .seqVec { instr := .vadd ⟨0, 0⟩ .i8 511 0 1 } []
    ∧ (queued (.vadd ⟨0, 0⟩ .i8 511 0 1) false).core.rs = [] ∧ Mem.Wf [] ∧ ElemType.i8.isFloat = false
    ∧ ({ instr := .vadd ⟨0, 0⟩ .i8 511 0 1 } : Cmd).pfx = Prefix.none
    ∧ ({ instr := .vadd ⟨0, 0⟩ .i8 511 0 1 } : Cmd).vcfg.tail = false := by
  refine ⟨⟨by decide, by decide, rfl, rfl, rfl, rfl, rfl⟩, rfl, by simp [Mem.Wf], rfl, rfl, rfl⟩

/-- A window ready or not, and a context record at 0x100 that is valid for context 5, or nothing but zeros. -/
def windowed (ready : Bool) : State :=
  { busy [] 87 [] with
    window := { ready := ready, ctxAddr := 0x100 }
    mem := putAll [(0x100 + 16, 2, 5)] }
theorem test_witness_HostEvents : (windowed false).window.ready = false ∧ (windowed true).window.ready = true
    ∧ (windowed false).window.tripped = false
    ∧ ({ windowed false with window := { tripped := true } } : State).window.tripped = true
    ∧ (∃ v, rangesOf (windowed true).fuses [] = some v)
    ∧ (let d := BitVec.ofNat 256 (leNat (((leBytes 9 (2 ^ 64)).drop (32 * 0)).take 32))
       d.extractLsb' 64 64 ≠ 0 ∧ ∀ v, rangeStatus (windowed true).fuses v d 0 ≠ 0)
    ∧ (3 : BitVec 4) ≠ 1 ∧ (3 : BitVec 4) ≠ 2 ∧ (0x8000000000000000 : Word).getLsbD 63 = true ∧ (0 : Word).getLsbD 63 = false
    ∧ 0x300000 ≤ (0x300000 : BitVec 22).toNat ∧ (windowed true).findCtx 5 = none
    ∧ 256 ≤ ({ windowed true with ctxs := List.replicate 256 owner } : State).ctxs.length ∧ (windowed true).ctxs.length < 256
    ∧ ({ windowed true with window := { ctxAddr := 0x180 } } : State).window.ctxAddr.toNat % 256 ≠ 0
    ∧ (windowed true).window.ctxAddr.toNat % 256 = 0
    ∧ (∃ bs, (windowed true).physical (windowed true).window.ctxAddr.toNat 2176 = some bs
      ∧ (∃ c, ctxOf (windowed true).fuses 5 bs = some c) ∧ ctxOf (windowed true).fuses 6 bs = none)
    ∧ (windowed true).physical (2 ^ 60) 2176 = none
    ∧ (windowed true).findCtx 7 = some owner ∧ (∃ t h, (windowed true).submit 7 card = (t, .ok h))
    ∧ (∃ t code, (windowed true).submit 7 0 = (t, .error code)) ∧ (∃ j ∈ (windowed true).jobs, j.ctx = 7)
    ∧ (∀ j ∈ (st .loader []).jobs, j.ctx ≠ 7)
    ∧ (∃ j, (windowed true).jobs.find? (fun j => j.ctx = 7 && (0x10000 : BitVec 32).setWidth 64 = jobHandle j.slot j.gen) = some j)
    ∧ (windowed true).jobs.find? (fun j => j.ctx = 7 && (0x20000 : BitVec 32).setWidth 64 = jobHandle j.slot j.gen) = none := by
  refine ⟨by decide, by decide, by decide, by decide, ⟨_, by rfl⟩, ⟨by decide, fun v h => ?_⟩, by decide, by decide, by decide, by decide,
    by decide, by decide, by decide, by decide, by decide, by decide, ⟨_, rfl, ⟨_, by rfl⟩, by rfl⟩, by decide, by decide, ⟨_, _, rfl⟩, ⟨_, _, rfl⟩, by decide, by decide, ⟨_, by rfl⟩, by decide⟩
  exact absurd ((show rangeStatus (windowed true).fuses v _ 0 = 2 from rfl).symm.trans h) (by decide)
/-- A core of the context with `n` notices, a `pub` on its way to one consumer, and retention slot 255 in use. -/
def porting (n : Nat) (left : List (BitVec 32)) (r : Retain) (take : Option Take) : State :=
  let s := owned .storer []
  { s with core := { s.core with port := { s.core.port with
      store := List.replicate n { note := 64 * 2 ^ 64, arrival := 0, seq := 0 }
      publishing := some { slot := some 255, note := 64 * 2 ^ 64, left := left, back := [] }
      retain := s.core.port.retain.set 255 (some r), takes := s.core.port.takes.set 63 take
      policy := 4096 * 2 ^ 32 + 1 } } }
def kept (count : BitVec 16) (ctr : Word) (deadline : Option Word) : Retain := ⟨count, 4, ctr, none, 0, deadline, false, none⟩
def pulling (note : BitVec 256) (sent : Bool) : Take :=
  { note := note, copy := 0, off := 0, size := 64, place := 0, last := true, pull := .booked 0 sent }
/-- The same with a path to node 5. -/
def pathTo5 (s : State) : State := { s with paths := [(pathKey 0 5 0, 0x9000000000000)] }
theorem test_witness_PortEvents : noteNode (5 * 2 ^ 176) ≠ (st .loader []).node.toNat ∧ noteNode 0 = (st .loader []).node.toNat
    ∧ (owned .loader []).findCtx 7 = some owner ∧ (owned .loader []).findCtx 8 = none ∧ (st .loader []).live = false
    ∧ (st .loader []).resident = false ∧ (owned .loader []).resident = true
    ∧ (pathTo5 (owned .loader [])).choosePath 0 ((owned .loader []).wordNode 0x80050000) = some (0, 0)
    ∧ (owned .loader []).choosePath 0 5 = none
    ∧ (∃ u, (pathTo5 (owned .loader [])).emitBy 5 0 0 7 0xFF (noteAddr (5 * 2 ^ 176) + BitVec.ofNat 64 0)
        (fun port hdr => .pullRequest port hdr 63 (5 * 2 ^ 176) 0 64) = some u)
    ∧ (∃ bs, (porting 0 [] (kept 1 0 none) none).portFetch (porting 0 [] (kept 1 0 none) none).cx 0
        [(porting 0 [] (kept 1 0 none) none).portKey (.block 255)] 5 0 win 64 = .ok bs ∧ bs.length = 64)
    ∧ (∃ f, (porting 0 [] (kept 1 0 none) none).portFetch (porting 0 [] (kept 1 0 none) none).cx 0
        [(porting 0 [] (kept 1 0 none) none).portKey (.block 255)] 5 0 0x1000 64 = .error f)
    ∧ (porting 0 [0] (kept 1 0 none) none).wordNode 0 = (porting 0 [0] (kept 1 0 none) none).node.toNat
    ∧ dieOf (noteCore 0) = dieOf 0 ∧ (st .loader []).core.ctx = none ∧ (owned .loader []).core.ctx ≠ none ∧ (owned .loader []).live = true
    ∧ (owned .loader []).core.port.store.length < 256 ∧ (owned .loader []).core.port.spilled = []
    ∧ (owned .loader []).core.port.publishing = none
    ∧ (∃ q, (porting 0 [0] (kept 1 0 none) none).core.port.publishing = some q ∧ q.left = [0] ∧ (0 : BitVec 32).getLsbD 31 = false
      ∧ ∃ u, ((porting 0 [0] (kept 1 0 none) none).focus 0).deliver 7 q.note = (u, true))
    ∧ (∃ q, (porting 256 [0] (kept 1 0 none) none).core.port.publishing = some q
      ∧ ∃ u, ((porting 256 [0] (kept 1 0 none) none).focus 0).deliver 7 q.note = (u, false))
    -- a full store, with a spill area and without
    ∧ (let s := porting 256 [] (kept 1 0 none) none
       256 ≤ s.core.port.store.length ∧ s.core.port.freeSpill = none
       ∧ let p := { s.core.port with policy := 2 ^ 160 + win.toNat * 2 ^ 192 }
         p.freeSpill = some win ∧ ∃ t, (s.setPort p).putFor (s.setPort p).cx s.coreId win (leBytes 32 0) = .ok t)
    -- a pull of this node, which has been asked for
    ∧ (let note : BitVec 256 := BitVec.ofNat 256 (win.toNat + 4 * 2 ^ 96 + 255 * 2 ^ 192)
       let x : Take := { pulling note true with last := false }
       let s := porting 0 [] (kept 1 0 none) (some x)
       let f := s.focus (noteCore note)
       noteNode note = s.node.toNat ∧ x.bridge = none ∧ x.ans = none ∧ x.got = 0 ∧ f.resident = true ∧ f.core.ctx = s.core.ctx
       ∧ ({ f with core := { f.core with ctx := none } } : State).resident = false
       ∧ (f.core.port.slot (noteSlot note)).map (·.seq) = some (noteSeq note) ∧ f.core.port.slot 254 = none
       ∧ ∃ bs, f.portFetch f.cx f.coreId [f.portKey (.block (noteSlot note)), ⟨s.coreId, f.core.ctx.getD 0, .take 63⟩] s.node.toNat s.coreId
         (noteAddr note + BitVec.ofNat 64 x.off) x.size = .ok bs ∧ bs.length = x.size)
    ∧ ((porting 0 [] (kept 1 0 none) none).core.port.takes[(63 : BitVec 6).toNat]?).join = none
    ∧ (∃ x, ((porting 0 [] (kept 1 0 none) (some (pulling 0 false))).core.port.takes[(63 : BitVec 6).toNat]?).join = some x
      ∧ x.pull = .booked 0 false ∧ (0 : Word).toNat ≤ (porting 0 [] (kept 1 0 none) none).cycle.toNat)
    ∧ (∃ x, ((porting 0 [] (kept 1 0 none) (some (pulling (5 * 2 ^ 176) true))).core.port.takes[(63 : BitVec 6).toNat]?).join = some x
      ∧ x.pull = .booked 0 true ∧ x.arm = none ∧ noteNode x.note ≠ (porting 0 [] (kept 1 0 none) none).node.toNat
      ∧ (List.replicate 64 (1 : Byte)).length = x.size)
    ∧ (porting 0 [] (kept 1 0 none) none).mem = [] ∧ (porting 0 [] (kept 1 0 none) none).core.port.slot 254 = none
    ∧ (∃ r, (porting 0 [] (kept 1 0 none) none).core.port.slot (255 : BitVec 8).toNat = some r ∧ r.seq = 4 ∧ r.count = 1 ∧ r.ctr = 0
      ∧ r.deadline = none)
    ∧ (∃ r, (porting 0 [] (kept 2 0 none) none).core.port.slot (255 : BitVec 8).toNat = some r ∧ r.seq = 4 ∧ 1 < r.count.toNat ∧ r.seq ≠ 5)
    ∧ (∃ r, (porting 0 [] (kept 1 0 (some 0)) none).core.port.slot (255 : BitVec 8).toNat = some r ∧ r.deadline = some 0
      ∧ r.expired = false ∧ (0 : Word).toNat ≤ (porting 0 [] (kept 1 0 none) none).cycle.toNat)
    ∧ ((owned .loader []).setComp .storer { (owned .loader []).core.storer with run := .running }).core.storer.run = .running := by
  refine ⟨by decide, by decide, rfl, by decide, by decide, by decide, by decide, by decide, by decide, ⟨_, rfl⟩, ⟨_, rfl, rfl⟩, ⟨_, rfl⟩,
    by decide, by decide, by decide, by decide, by decide, by decide, by decide, by decide, ⟨_, rfl, by decide, by decide, ⟨_, rfl⟩⟩,
    ⟨_, rfl, _, by rfl⟩, ⟨by decide, by decide, by decide, ⟨_, by rfl⟩⟩,
    ⟨by decide, by decide, by decide, by decide, by decide, by decide, by decide, by decide, by decide, ⟨_, by rfl, by rfl⟩⟩, by decide,
    ⟨_, rfl, by decide, by decide⟩, ⟨_, rfl, by decide, by decide, by decide, by decide⟩, by decide,
    by decide, ⟨_, rfl, by decide⟩, ⟨_, rfl, by decide⟩, ⟨_, rfl, by decide⟩, by decide⟩

/-- A job of 87 records left, or of none with a graph of one entry, and no task. -/
def dealing (left : Nat) (asked : Nat) (rebind : Option Rebind) (running : List Nat) : State :=
  let s := busy [] left []
  { s with
    tasks := [], core := { s.core with lastJob := some 3 }
    graphs := [{ ctx := 7, die := 0, slot := 1, gen := 1, job := 3, requested := asked, completed := 0, rebind := rebind
                 running := running
                 plan := ⟨0, 0, [0], [], [1], [], [], [⟨0, 0, 1, 0⟩], 0⟩ }] }
theorem test_witness_SchedulingEvents : (0 : BitVec 10).toNat = (dealing 87 0 none []).coreId ∧ (busy [] 87 []).taskFree = false
    ∧ (dealing 87 0 none []).taskFree = true
    ∧ (∃ j, (dealing 87 0 none []).nextJob = some j ∧ (dealing 87 0 none []).core.lastJob = some j.id ∧ 0 < j.left)
    -- at a first task: a pull under way, and images that cannot be read
    ∧ (let s := { dealing 87 0 none [] with core := { (dealing 87 0 none []).core with lastJob := none } }
       let t := { s with core := { s.core with port := (taking .loader [] .queued).core.port } }
       s.core.lastJob ≠ some 3 ∧ s.core.port.settled = true ∧ t.core.port.settled = false
       ∧ ∃ j, s.nextJob = some j ∧ j.id = 3 ∧ 0 < j.left ∧ ((s.putJob j.chunk.2).writeStores j.chunk.2).2 = false)
    -- and images of one word that can be read
    ∧ (let s := dealing 87 0 none []
       let j := { work 0 87 with card := card + BitVec.ofNat 1024 ((win.toNat + 0x8000) * (1 + 2 ^ 64 + 2 ^ 128)) }
       let s := { s with jobs := [j], core := { s.core with lastJob := none } }
       s.nextJob = some j ∧ (∀ i : Nat, (s.core.port.takes[i]?).join = none)
       ∧ ∀ r, s.image s.cx s.coreId j.card r = .ok [])
    ∧ (∃ j g e, (dealing 0 1 none []).nextJob = some j ∧ (dealing 0 1 none []).core.lastJob = some j.id
      ∧ (dealing 0 1 none []).readyGraph j (dealing 0 1 none []).coreId = some (g, e))
    ∧ (dealing 87 0 none []).jobs.find? (fun j => j.ctx = 7 && j.slot = (0 : BitVec 6).toNat && (dealing 87 0 none []).jobOver j) = none
    ∧ (∃ j c, (dealing 0 0 none []).jobs.find? (fun j => j.ctx = 7 && j.slot = (0 : BitVec 6).toNat && (dealing 0 0 none []).jobOver j)
        = some j
      ∧ (dealing 0 0 none []).findCtx j.ctx = some c ∧ c.dying = false ∧ c.vector = 0
      ∧ (∀ x ∈ (dealing 0 0 none []).jobs, x.unbound = false)
      ∧ j.card.extractLsb' 768 64 = 0 ∧ j.card.extractLsb' 576 64 = 0)
    ∧ (st .loader []).graphs.find? (fun g => (st .loader []).core.ctx = some g.ctx && g.die = dieOf (st .loader []).coreId && g.slot = 1)
      = none
    ∧ (∃ g r, (dealing 0 0 (some ⟨noPlan, 0, .loader, 0⟩) []).graphs.find? (fun g =>
        (dealing 0 0 none []).core.ctx = some g.ctx && g.die = dieOf (dealing 0 0 none []).coreId && g.slot = (1 : BitVec 2).toNat) = some g
      ∧ g.rebind = some r ∧ g.running = [] ∧ g.next % g.count = 0
      ∧ (∃ t, (dealing 0 0 (some ⟨noPlan, 0, .loader, 0⟩) []).copyRecords
          ((dealing 0 0 (some ⟨noPlan, 0, .loader, 0⟩) []).findCtx g.ctx) r.core r.role [] [] = (t, none))
      ∧ (∃ t f, (dealing 0 0 (some ⟨noPlan, 0, .loader, 0⟩) []).copyRecords
          ((dealing 0 0 (some ⟨noPlan, 0, .loader, 0⟩) []).findCtx g.ctx) r.core r.role (g.moves r.plan) (r.plan.writes 1) = (t, some f)))
    ∧ (∃ g, (dealing 0 0 (some ⟨noPlan, 0, .loader, 0⟩) [0]).graphs[0]? = some g ∧ g.running ≠ []) := by
  refine ⟨by decide, by decide, by decide, ⟨_, by rfl, by decide, by decide⟩,
    ⟨by decide, by decide, by decide, _, by rfl, by decide, by decide, by rfl⟩,
    ⟨by decide, fun i => (show ((Vector.replicate 64 (none : Option Take))[i]?).join = none by
      by_cases h : i < 64 <;> simp [h]), fun r => by cases r <;> rfl⟩, ⟨_, _, _, by rfl, by decide, by rfl⟩, by decide,
    ⟨_, _, by rfl, by rfl, by decide⟩, by decide, ⟨_, _, by rfl, by rfl, by decide, by decide, ⟨_, by rfl⟩, ⟨_, _, by rfl⟩⟩,
    ⟨_, rfl, by decide⟩⟩
/-- Cluster 0 in a phase of a switch, with or without what context 7 saved there. -/
def aCore : Core := ({} : State).core
def switching (p : Phase) (saved : List Saved) : State :=
  let s := owned .loader []
  { s with grants := s.grants.set 0 { owner := some 7, phase := p }, saved := saved }
/-- A state area of zeros carries its CRC-64, which is 0 (R106); one with a broken unit is not whole. -/
theorem test_area_of_zeros (s : State) (at_ n : Nat) (hm : s.mem = []) (hp : s.poison = []) : s.areaOk at_ n = true := by
  have hr : ∀ k a, Mem.readN [] a k = List.replicate k 0 := by
    intro k
    induction k with
    | zero => intro a; rfl
    | succ k ih => intro a; rw [Mem.readN, ih]; rfl
  have hc : ∀ k, crc64 (List.replicate k 0#8) = 0 := by
    intro k
    induction k with
    | zero => rfl
    | succ k ih => rw [crc64, List.replicate_succ, List.foldl_cons]; exact ih
  simp [State.areaOk, State.badByte, hm, hp, hr, hc, Mem.num, leNat]
theorem test_area_broken (s : State) (at_ n : Nat) (hn : 0 < n) (hp : s.poison = [eccUnit at_]) : s.areaOk at_ n = false := by
  have : (s.badByte at_ n).isSome = true := by
    simp only [State.badByte, hp, List.isEmpty_cons, Bool.false_eq_true, if_false, List.find?_isSome]
    exact ⟨0, List.mem_range.mpr hn, by simp⟩
  cases h : s.badByte at_ n with
  | none => simp [h] at this
  | some k => simp [State.areaOk, h]
theorem test_writeN_head {m : Mem} (h : m.Wf) (bs : List Byte) (a x : Nat) (hx : x < a) : (m.writeN a bs).read x = m.read x := by
  induction bs generalizing m a with
  | nil => rfl
  | cons b bs ih => rw [Mem.writeN, ih (h.write a b) (a + 1) (by omega), Mem.read_write h, if_neg (by omega)]
theorem test_readN_writeN {m : Mem} (h : m.Wf) (bs : List Byte) (a n : Nat) (hn : bs.length = n) : (m.writeN a bs).readN a n = bs := by
  induction bs generalizing m a n with
  | nil => subst hn; rfl
  | cons b bs ih =>
    obtain ⟨k, rfl⟩ : ∃ k, n = k + 1 := ⟨n - 1, by simp at hn; omega⟩
    rw [Mem.writeN, Mem.readN, ih (h.write a b) (a + 1) k (by simpa using hn), test_writeN_head (h.write a b) bs (a + 1) a (by omega),
      Mem.read_write h, if_pos rfl]
theorem test_readN_length (m : Mem) (a n : Nat) : (m.readN a n).length = n := by
  induction n generalizing a with
  | zero => rfl
  | succ n ih => rw [Mem.readN, List.length_cons, ih]
/-- A memory into which a save has written a state area holds it. -/
theorem test_area_written (s : State) (h : s.mem.Wf) (at_ n k : Nat) :
    ({ s with mem := s.mem.writeN at_ ((areaImage k n).readN 0 n) } : State).areaHolds at_ n k = true :=
  decide_eq_true (test_readN_writeN h _ _ _ (test_readN_length _ _ _))
theorem test_witness_SliceAndSwitchEvents_areas :
    (areaStates owner.save.toNat 0).all (fun a => (switching .restoring [⟨7, 0, [], {}, [], [], 0⟩]).areaOk a.1 a.2) = true
    ∧ (let u := eccUnit (areaRegs 0 0 + 0xC0000)
       (areaStates owner.save.toNat 0).all
        (fun a => ({ switching .restoring [⟨7, 0, [], {}, [], [], 0⟩] with poison := [u] } : State).areaOk a.1 a.2) = false) := by
  refine ⟨List.all_eq_true.mpr fun a _ => test_area_of_zeros _ _ _ rfl rfl, List.all_eq_false.mpr ?_⟩
  exact ⟨(areaRegs 0 0 + 0xC0000, 0x140000), by decide, by rw [test_area_broken _ _ _ (by decide) rfl]; decide⟩
theorem test_witness_SliceAndSwitchEvents : (let due (s : State) : Prop :=
      s.sliceDone * 131072 ≤ s.cycle.toNat ∧ s.sliceDone * 131072 < s.tickDone * 1000 ∧ s.refillDue = false
    due { st .loader [] with tickDone := 1 } ∧ ¬due (st .loader []))
    ∧ (let due (s : State) : Prop := s.tickDone * 1000 ≤ s.cycle.toNat ∧ s.tickDone * 1000 ≤ s.sliceDone * 131072 ∧ s.refillDue = false
      due (st .loader []) ∧ (st .loader []).tickDone % 1000 = 0 ∧ ¬due { st .loader [] with tickDone := 1 }
      ∧ due { st .loader [] with tickDone := 1, sliceDone := 1, cycle := 1000 } ∧ (1 : Nat) % 1000 ≠ 0)
    ∧ (st .loader []).refillDue = false ∧ ({ st .loader [] with refillDue := true } : State).refillDue = true
    ∧ (∃ g, (switching (.preempting none) []).grants[(0 : BitVec 7).toNat]? = some g ∧ g.phase = .preempting none)
    ∧ (∃ g, (switching .held []).grants[(95 : BitVec 7).toNat]? = some g ∧ g.phase = .held)
    ∧ (∃ g, (switching (.saving none) []).grants[(0 : BitVec 7).toNat]? = some g ∧ g.phase = .saving none
      ∧ g.owner.bind (switching (.saving none) []).findCtx = some owner)
    ∧ (switching (.saving none) []).saveReady 0 = true
    ∧ ({ switching (.saving none) [] with core := { (owned .storer []).core with combine := [⟨5, 3, 0, 0, [(0, 1)], 0, []⟩] }, paths := [(pathKey 0 5 0, 0x9000000000000)] } : State).saveReady 0 = false
    ∧ (∃ g v x, (switching .restoring [⟨7, 0, [(0, aCore)], {}, [], [], 0⟩]).grants[(0 : BitVec 7).toNat]? = some g ∧ g.phase = .restoring
      ∧ g.owner.bind (switching .restoring [⟨7, 0, [(0, aCore)], {}, [], [], 0⟩]).findCtx = some owner
      ∧ (switching .restoring [⟨7, 0, [(0, aCore)], {}, [], [], 0⟩]).saved.find? (fun v => g.owner = some v.ctx && v.cluster = (0 : BitVec 7).toNat)
        = some v ∧ v.cores[0]? = some x) := by
  refine ⟨by decide, by decide, by decide, by decide, ⟨_, rfl, rfl⟩, ⟨_, rfl, rfl⟩, ⟨_, rfl, rfl, by rfl⟩, by decide, by decide,
    ⟨_, _, _, rfl, rfl, by rfl, by rfl, by rfl⟩⟩
/-- A slice is due, and context 7 (and 9, if it is there) has work on cluster 0, which stands so; cluster 1 has no work. -/
def slicing (g : Grant) (two : Bool) : State :=
  { busy [] 87 [] with
    tickDone := 1, grants := Vector.replicate 96 g, pointers := if two then [(0, 7)] else []
    ctxs := if two then [owner, { owner with id := 9 }] else [owner]
    jobs := if two then [work 0 87, { work 1 87 with ctx := 9 }] else [work 0 87] }
theorem test_witness_SliceAndSwitchEvents_grants :
    (∀ two, let s := slicing {} two
      s.sliceDone * 131072 ≤ s.cycle.toNat ∧ s.sliceDone * 131072 < s.tickDone * 1000 ∧ s.refillDue = false
      ∧ s.fuses.clusterPresent 0 = true ∧ s.fuses.clusterPresent 1 = true ∧ s.ranked 0 0 = (if two then [7, 9] else [7])
      ∧ (∀ l < 16, 0 < l → s.ranked 0 l = []) ∧ lookupKey (pointerKey 0 0) s.pointers = (if two then some 7 else none)
      ∧ (s.ranked 0 0).all (fun x => s.wants x 0 0 && !s.wants x 0 1 && (s.findCtx x).map (·.eligible) = some true) = true
      -- from the pointer, which moves to 9, 9 comes before 7
      ∧ (9 - 9 : BitVec 16).toNat < (7 - 9 : BitVec 16).toNat)
    ∧ (∀ g ∈ [({} : Grant), { owner := some 5 }, { owner := some 9 }, { phase := .preempting none }, { phase := .saving none },
        { phase := .restoring }], (slicing g true).grants[0]? = some g) := by
  and_intros <;> decide +kernel
def packet (kind : BitVec 8) (seq : BitVec 32) : Packet := ⟨kind, 5, 0, 7, 0, seq, 0, 3, 0, 0, 0x80, [], false⟩
/-- The receiving side of the session of node 5 has performed sequences 0 and 1, and keeps its reply to the first. -/
def receiving : State :=
  { owned .storer [] with inbound := [⟨5, 0, 2, [(0, packet 4 0)], [], [(7, 0, 3)]⟩] }
def outgoing (cycle : Word) : State :=
  { owned .storer [] with cycle := cycle, sessions := [⟨0, 5, 1, [⟨packet 1 0, 0, 0, 0, 0, 0⟩], 0, false⟩] }
def batch (b : Batch) : State := stc .storer [] (fun c => { c with batches := c.batches.set 3 b })
theorem test_witness_FabricEvents : (st .storer []).node = 0
    ∧ ({ packet 4 0 with size := 5 } : Packet).size = 5 ∧ (packet 4 0).size ≠ 5 ∧ (st .storer []).findCtx (packet 4 0).context = none
    ∧ (pathTo5 (owned .storer [])).choosePath 0 5 = some (0, 0) ∧ (owned .storer []).choosePath 0 5 = none
    ∧ (∃ y, (outgoing (2 ^ 40)).sessions = [y] ∧ y.node = 5 ∧ y.die = 0 ∧ y.dead = false ∧ (outgoing (2 ^ 40)).sessionDead y = true)
    ∧ (5 : BitVec 12) ≠ (outgoing (2 ^ 40)).node ∧ (outgoing 0).colls = []
    ∧ (packet 1 0).kind = 1 ∧ (packet 1 0).seq.toNat < (receiving.inSession (packet 1 0)).next.toNat
    ∧ (∃ k r, (receiving.inSession (packet 1 0)).replies.find? (fun r => r.1 = (packet 1 0).seq) = some (k, r))
    ∧ (packet 1 1).seq.toNat < (receiving.inSession (packet 1 1)).next.toNat
    ∧ (receiving.inSession (packet 1 1)).replies.find? (fun r => r.1 = (packet 1 1).seq) = none
    ∧ (packet 2 2).kind = 2 ∧ (packet 2 2).seq = (receiving.inSession (packet 2 2)).next
    ∧ (receiving.inSession (packet 3 3)).next.toNat < (packet 3 3).seq.toNat
    ∧ (receiving.inSession (packet 3 3)).early.any (fun q => q.seq = (packet 3 3).seq) = false
    ∧ (packet 4 0).kind = 4 ∧ 7 ≤ (packet 10 0).kind.toNat ∧ (packet 10 0).kind.toNat ≤ 10 ∧ receiving.findCtx (packet 10 0).context ≠ none
    ∧ (st .storer []).core.batches[(3 : BitVec 2).toNat].state ≠ .closed ∧ (st .storer []).core.lateBatches = []
    ∧ (let b := (batch { state := .closed, peers := [5], asked := true }).core.batches[(3 : BitVec 2).toNat]
       b.state = .closed ∧ b.asked = true ∧ (5 : BitVec 12) ∈ b.peers ∧ (5 : BitVec 12) ∉ b.answered) ∧ (batch {}).sessions = []
    ∧ (st .storer []).links.extractLsb' (2 * (31 : BitVec 5).toNat) 2 ≠ 0
    ∧ ({ st .storer [] with links := 0 } : State).links.extractLsb' (2 * (31 : BitVec 5).toNat) 2 = 0
    -- the first packet that a restarted session has numbered
    ∧ (let p : Packet := { packet 1 0 with fresh := true }
       p.fresh = true ∧ (receiving.inSession p).next = 2
       ∧ ((receiving.setInSession { node := p.source, die := p.die }).inSession p).next = p.seq)
    -- a lane loss at port 0, by which node 5 has its only alternative, and one at a port that no path uses
    ∧ (let s := pathTo5 receiving
       let x := (pathKey 0 5 0, (0x9000000000000 : Word))
       s.paths = [x] ∧ portOf (x.1 / 16384) x.2 = 0 ∧ BitVec.ofNat 12 (x.1 / 4) = (5 : BitVec 12) ∧ (5 : BitVec 12) ≠ s.node
       ∧ s.unreachable 5 = false ∧ ({ s with paths := [(x.1, 0x1000000000000)] } : State).unreachable 5 = true)
    -- a summary request in a context that is there, by a path to its node, of a core with and without a failed command
    ∧ ((pathTo5 receiving).findCtx ((pathTo5 receiving).packet 5 0 0 0 3 0 []).context).isSome = true
    ∧ (pathTo5 receiving).choosePath (pathTo5 receiving).coreId (5 : BitVec 12).toNat = some (0, 0)
    ∧ (((7 : BitVec 16), (0 : BitVec 10).setWidth 16, (3 : BitVec 2)) ∈ ((pathTo5 receiving).inSession (packet 5 2)).failed)
    ∧ (((7 : BitVec 16), (0 : BitVec 10).setWidth 16, (2 : BitVec 2)) ∉ ((pathTo5 receiving).inSession (packet 5 2)).failed) := by
  refine ⟨by decide, by decide, by decide, by decide, by decide, by decide, ⟨_, rfl, by decide⟩, by decide, by decide, by decide,
    by decide, ⟨_, _, by rfl⟩, ?_⟩
  decide
/-- A running round of two ranks at a member or at the coordinator, or one of a single rank with `step` steps performed. -/
def ringing (rank : Nat) (parts : Option (List Nat)) (step : Nat) (deadline : Nat) (cycle : Word) (op : Nat := 5) : State :=
  { owned .storer [] with
    cycle := cycle
    colls := [{ ctx := 7, core := 0, rounds := Vector.replicate 8 (some { aRound .running rank with
      block := BitVec.ofNat 1024 (op + deadline * 2 ^ 288), parts := parts, step := step }) }] }
/-- The block of a broadcast of 8 B from `src`. -/
def broadcast (src : Word) : Nat := 3 + 2 * 2 ^ 64 + src.toNat * 2 ^ 128 + (win + 64).toNat * 2 ^ 192
/-- A member whose broadcast comes from a coordinator on a node, before its step and after it has asked. -/
def farRing (node : Nat) (asked : Bool) (due : List ((Nat × Bool × Nat × Nat) × Nat) := []) (buf : List Byte := []) : State :=
  { pathTo5 (owned .storer []) with
    colls := [{ ctx := 7, core := 0, rounds := Vector.replicate 8 (some { aRound .running 1 with
      block := BitVec.ofNat 1024 (broadcast win), parts := some [0, 1], members := [BitVec.ofNat 32 (2 ^ 31 + node * 2 ^ 16), 0], got := [(0, 0)], asked := asked
      due := due, buf := buf }) }] }
/-- The move that comes next in slot 7, with the state in which it acts. -/
def nextMove (s : State) : Option (Except StepStop Stepping) := do
  let r ← (s.collUnit 7 0).slot 7
  let m ← ((r.moves r.step).flatMap r.split)[r.piece]?
  pure (doMove 7 r (r.id 7) (s, []) m)
theorem test_witness_RoundEvents : (let u := (st .storer []).collUnit 7 0
      u.running ⟨7, 0, 0, 0⟩ = none ∧ u.kept = [] ∧ u.abroad = [] ∧ u.slot 7 = none)
    ∧ (∃ i r, ((ringing 0 (some [0, 1]) 0 0 0).collUnit 7 0).running (((aRound .running 0).id 7)) = some (i, r) ∧ r.rank = r.root
      ∧ (1 : BitVec 16).toNat < r.p ∧ r.parts = some [0, 1] ∧ (1, 0) ∉ r.got)
    ∧ (∃ i r, ((ringing 0 none 0 1 1000).collUnit 7 0).running (((aRound .running 0).id 7)) = some (i, r) ∧ r.rank = r.root
      ∧ r.parts = none ∧ (1 : BitVec 16).toNat ∉ r.ready)
    ∧ (∃ i r, ((ringing 1 none 0 0 0).collUnit 7 0).running (((aRound .running 0).id 7)) = some (i, r) ∧ r.rank ≠ r.root
      ∧ r.parts = none ∧ (ringing 1 none 0 0 0).overdue 7 i r = none ∧ r.rank ∈ (List.range r.p).filter (fun k => [0, 1].contains k)
      ∧ r.rank ∉ (List.range r.p).filter (fun k => [0].contains k))
    ∧ (∃ r, ((ringing 0 none 0 1 1000).collUnit 7 0).slot 7 = some r ∧ r.state = .running ∧ r.rank = r.root ∧ r.parts = none
      ∧ (r.block.extractLsb' 288 32).toNat ≠ 0
      ∧ r.issued.toNat + (r.block.extractLsb' 288 32).toNat * 1000 < (ringing 0 none 0 1 1001).cycle.toNat
      ∧ (ringing 0 none 0 1 1001).deadlineOver r = true ∧ (ringing 0 none 0 1 1000).deadlineOver r = false)
    ∧ (∃ r, ((ringing 0 (some [0]) 0 0 0).collUnit 7 0).slot 7 = some r ∧ r.rank ∈ r.ranks ∧ r.step < r.total
      ∧ r.holds (r.needs r.step) = true
      ∧ ((r.moves r.step).flatMap r.split)[r.piece]? = none)
    ∧ (∃ t l, nextMove (ringing 0 (some [0]) 0 0 0 (broadcast win)) = some (.ok (t, l)))
    ∧ (∃ u f, nextMove (ringing 0 (some [0]) 0 0 0 (broadcast 0x1000)) = some (.error (.flt u f)))
    ∧ (∃ r m, ((ringing 0 (some [0]) 0 0 0 (broadcast win)).collUnit 7 0).slot 7 = some r
      ∧ ((r.moves r.step).flatMap r.split)[r.piece]? = some m ∧ r.pulls m = [] ∧ r.buf = []
      ∧ r.piece + 1 = ((r.moves r.step).flatMap r.split).length)
    -- what the step of a member pulls from node 5, or from its own: not booked yet, released, or come
    ∧ (∃ r m p send off len, ((farRing 5 false).collUnit 7 0).slot 7 = some r ∧ r.rank ∈ r.ranks ∧ r.step < r.total
      ∧ r.holds (r.needs r.step) = true ∧ r.asked = false ∧ ((r.moves r.step).flatMap r.split)[r.piece]? = some m
      ∧ r.pulls m = [(p, send, off, len)] ∧ (farRing 5 false).wordNode (r.word p) ≠ (farRing 5 false).node.toNat
      ∧ (farRing 0 false).wordNode 0x80000000 = (farRing 0 false).node.toNat
      ∧ ∃ q, ((farRing 5 true [((p, send, off, len), 0)]).collUnit 7 0).slot 7 = some q ∧ q.asked = true
        ∧ q.due = [((p, send, off, len), 0)] ∧ 0 ≤ (farRing 5 true).cycle.toNat)
    ∧ (farRing 5 true).isDead 0 5 = false ∧ ({ farRing 5 true with paths := [] } : State).isDead 0 5 = true
    ∧ (∃ r m, ((farRing 5 true [] (List.replicate 8 1)).collUnit 7 0).slot 7 = some r
      ∧ ((r.moves r.step).flatMap r.split)[r.piece]? = some m ∧ r.pulls m ≠ [] ∧ r.asked = true ∧ r.due = []
      ∧ r.buf.length = (farRing 5 true [] (List.replicate 8 1)).farBytes r m)
    -- a report that a member's round has ended, of a context that is there and of one that is not
    ∧ (owned .storer []).findCtx 7 ≠ none ∧ (owned .storer []).findCtx 8 = none
    ∧ (⟨7, 0, 0, 0⟩, 1) ∉ ((owned .storer []).collUnit 7 0).ends
    ∧ (let s := (owned .storer []).setCollUnit { (owned .storer []).collUnit 7 0 with ends := [(⟨7, 0, 0, 0⟩, 1)] }
       (⟨7, 0, 0, 0⟩, 1) ∈ (s.collUnit 7 0).ends)
    ∧ (∃ r, ((ringing 0 (some [0]) 2 0 0).collUnit 7 0).slot 7 = some r ∧ r.rank ∈ r.ranks ∧ r.step = r.total ∧ r.holds r.finals = true)
    ∧ (∃ r at_ k, ((ringing 1 none 0 0 (2 ^ 40)).collUnit 7 0).slot 7 = some r
      ∧ (ringing 1 none 0 0 (2 ^ 40)).roundWait r = some (at_, k) ∧ at_ < (ringing 1 none 0 0 (2 ^ 40)).cycle.toNat
      ∧ (ringing 1 none 0 0 0).cycle.toNat ≤ at_) := by
  refine ⟨by decide, ⟨_, _, by rfl, by decide⟩, ⟨_, _, by rfl, by decide⟩, ⟨_, _, by rfl, by decide⟩, ⟨_, by rfl, by decide⟩,
    ⟨_, by rfl, by decide, by decide, by decide, by decide⟩, ⟨_, _, by rfl⟩, ⟨_, _, by rfl⟩, ⟨_, _, by rfl, by rfl, by decide, by decide⟩,
    ⟨_, _, _, _, _, _, by rfl, by decide, by decide, by decide, by decide, by rfl, by rfl, by decide, by decide, ⟨_, by rfl, by decide, by rfl, by decide⟩⟩,
    by decide, by decide, ⟨_, _, by rfl, by rfl, by decide, by decide, by decide, by decide⟩, by decide, by decide, by decide, by decide, ⟨_, by rfl, by decide⟩,
    ⟨_, _, _, by rfl, by rfl, by decide⟩⟩

theorem test_witness_DecodeEncode : (Instr.vadd ⟨15, 15⟩ .f32 511 511 511).WellFormed = true ∧ (Instr.nop).WellFormed = true := by decide
theorem test_witness_AcceptedWords : ∃ d, decode (leBytes 8 12) = .ok d ∧ d.landing = true := ⟨_, rfl, rfl⟩
/-- The words at the start of a companion core's program, whose turn it is. -/
def programmed (ws : List (Nat × Nat × Nat)) : State :=
  let s := { owned .loader [] with agenda := [.comp .loader], tickDone := 1, sliceDone := 1 }
  s.setMe { s.me with run := .running, istore := putAll ws }
theorem test_witness_StepRunsDecoded :
    (∀ s ∈ [programmed [(0, 4, 8)], programmed [(0, 4, 2), (4, 8, 0x0020004302030029)]],
      s.window.tripped = false ∧ s.forced = none ∧ s.agenda = [.comp .loader] ∧ s.me.run = .running ∧ s.live = true ∧ s.hereCancelled = false
      ∧ s.trapReady .loader = false ∧ s.me.pfx = none ∧ s.me.pc = 0 ∧ s.me.entry = false)
    ∧ (let s := programmed [(0, 4, 8)]
       s.me.word 0 % 4 = 0 ∧ (∃ d, decode (s.me.istore.readN 0 8) = .ok d ∧ isPrefix d.instr = false
        ∧ s.interlocked d.instr = false))
    ∧ (let s := programmed [(0, 4, 2), (4, 8, 0x0020004302030029)]
       s.me.word 0 % 4 = 2 ∧ s.me.word 4 % 4 = 1 ∧ s.me.landing 4 = false ∧ isBranchWord (s.me.word 4) = false
       ∧ (∃ d p, decode (s.me.istore.readN 0 8) = .ok d ∧ d.instr = .pfx p)
       ∧ ∃ e, decode (s.me.istore.readN 4 8) = .ok e ∧ s.interlocked e.instr = false)
    -- `addi s2, s1, 0` of a storer that has an `rld` to s1 on its way
    ∧ (let s := st .storer []
       let s := s.setQueue .storerRemote { cmds := [{ instr := .rld ⟨0, 0⟩ 1 2 3 3 }] }
       s.interlocked (.addi 2 1 0) = true ∧ s.interlocked (.addi 2 3 0) = false) := by
  refine ⟨by decide, ⟨by decide, ⟨_, rfl, rfl, rfl⟩⟩, ⟨by decide, by decide, by decide, by decide, ⟨_, _, rfl, rfl⟩, ⟨_, rfl, rfl⟩⟩,
    by decide⟩
theorem test_witness_RoleProfiles : (Instr.vadd ⟨0, 0⟩ .f32 0 0 0).isEvent = false ∧ (st .loader []).cur ∉ profile (.vadd ⟨0, 0⟩ .f32 0 0 0)
    ∧ (Instr.nop).hdr = none ∧ isPrefix .nop = false
    ∧ ((st .loader []).setMe { (st .loader []).me with pfx := some ⟨⟨some .rtz, false, none, none, none⟩, 0, 0⟩ }).prefixNow.bare
      = false := by decide
theorem test_witness_StepKeepsMemories : (programmed [(0, 4, 8)]).MemWf ∧ ∃ t, step (programmed [(0, 4, 8)]) = .next t := by
  refine ⟨⟨by decide, ⟨by decide, by decide, by decide, by decide⟩, ?_, ?_, ?_⟩, ⟨_, rfl⟩⟩ <;> (intro x h; cases h)

/-! ### Single steps on the examples of the spec -/

/-- A program's first instruction after the words `ws` have been placed where `step` fetches. -/
def ran (s : State) : State := match step s with | .next t => t | _ => s

theorem test_step_reset_ready : (ran State.reset).window.ready = true := by decide

/-- A command at the head of the sequencer's vector queue executes, with `vl` elements; `l` gives register space its bytes. -/
def vrun (i : Instr) (p : Prefix) (vl : BitVec 12) (seed : Word) (l : List (Nat × Nat × Nat)) : Mem :=
  let s := owned .sequencer []
  let s := s.setQueue .seqVec { cmds := [{ instr := i, pfx := p, vcfg := { vl := vl } }] }
  match exec (.engineCommandExecute .seqVec) { s with core := { s.core with genVec := seed, rs := putAll l } } with
  | .next t => t.core.rs
  | _ => []

/-- R238: the sum of 2²⁴, 1, 1, −2²⁴ and 1 in the tree order, under RNE and under RUP. -/
theorem test_vredsum_tree_order :
    (let rs := [(0, 8, 0x3F8000004B800000), (8, 8, 0xCB8000003F800000), (16, 4, 0x3F800000)]
     (vrun (.vredsum ⟨0, 0⟩ .f32 9 0 3) Prefix.none 5 1 rs).num (9 * 1536) 4 = 0x40000000
     ∧ (vrun (.vredsum ⟨0, 0⟩ .f32 10 0 3) { Prefix.none with rnd := some .rup } 5 1 rs).num (10 * 1536) 4 = 0x40800000) := by decide

/-- Table 13-6: 100 + 100 in i8 wraps to −56, and saturates to 127; the maximum of a NaN and 3.0 is 3.0. -/
theorem test_vadd_i8_wraps_and_saturates :
    (vrun (.vadd ⟨0, 0⟩ .i8 2 0 1) Prefix.none 1 1 [(0, 1, 100), (1536, 1, 100)]).num 3072 1 = 0xC8
    ∧ (vrun (.vadd ⟨0, 0⟩ .i8 2 0 1) { Prefix.none with sat := true } 1 1 [(0, 1, 100), (1536, 1, 100)]).num 3072 1 = 127 := by decide
theorem test_vmax_of_nan : (vrun (.vmax ⟨0, 0⟩ .f32 2 0 1) Prefix.none 1 1 [(0, 4, 0x7FC00000), (1536, 4, 0x40400000)]).num 3072 4
    = 0x40400000 := by decide
theorem test_vcvt_clamps : (vrun (.vcvt ⟨0, 0⟩ .i8 .f32 2 0) Prefix.none 1 1 [(0, 4, 0x43964000)]).num 3072 1 = 127 := by decide
/-- Table 10-8: two stochastic narrowings from generator state 1. -/
theorem test_vcvt_stochastic :
    (vrun (.vcvt ⟨0, 0⟩ .bf16 .f32 2 0) { Prefix.none with rnd := some .stoch } 2 1 [(0, 8, 0x3F8010003F804000)]).num 3072 4
    = 0x3F803F81 := by decide
/-- Table 13-6: 2 to the power 3.0 is 8.0 exactly. -/
theorem test_vexp2_exact : (vrun (.vexp2 ⟨0, 0⟩ .f32 2 0) Prefix.none 1 1 [(0, 4, 0x40400000)]).num 3072 4 = 0x41000000 := by decide

/-- Table 24-6: `movi s1, 12` and `ptb b1` with its two words on, each as the first instruction that `step` fetches. -/
theorem test_step_movi : (ran (State.reset.withFetchWord 32 0x00030134)).rd 1 = 12 := by decide
theorem test_step_ptb : (ran (State.reset.withFetchWord 32 0x00008158)).rdB 1 = 8 := by decide
/-- R401: a halfword 0xFFFF reads sign-extended. -/
theorem test_ld_h_sign : (match exec (.ldH 3 2 2) (stm .sequencer [0, win] [(home, 4, 0xFFFF0001)]) with
    | .next t => t.rd 3 | _ => 0) = 0xFFFFFFFFFFFFFFFF := by decide
/-- Table 18-4: with 100 records left, E = 4, k = 2 and a minimum chunk of 3 a chunk has 13 records. -/
theorem test_chunk_sizes : ([100, 87, 76, 66, 57, 49, 42, 36, 31, 27, 23, 2].map (fun left =>
    (({ work 0 left with cores := [0, 1, 2, 3] } : Job).chunk).1.2)) = [13, 11, 10, 9, 8, 7, 6, 5, 4, 4, 3, 2] := by decide

/-! ### Engine commands that are ready to execute -/

/-- A command at the head of queue `q`, in a core that its context runs. -/
def headed (q : QueueId) (c : Cmd) : State := (owned q.owner []).setQueue q { cmds := [c] }
/-- A vector memory command of `vl` 32-bit elements with base address `a`, `i` elements done. -/
def vmem (i : Instr) (a vl : Nat) (n : Nat) : Cmd :=
  { instr := i, ops := [BitVec.ofNat 64 a, 4], vcfg := { vl := BitVec.ofNat 12 vl, ew := .e32 }, prog := { units := n } }
theorem test_witness_VectorElementAccesses :
    (let c := vmem (.vld ⟨0, 0⟩ .ui32 511 0) win.toNat 2 1
     c.pfx.tail = none ∧ c.pfx.mpol = none ∧ c.vcfg.mask = false ∧ c.prog.carry = [] ∧ EngineReady (headed .loaderVec c) .loaderVec c [] ∧ c.pfx = Prefix.none ∧ c.vcfg.tail = false ∧ c.prog.units < c.vcfg.vl.toNat
     ∧ (win + 4).toNat % 4 = 0 ∧ (headed .loaderVec c).locate (win + 4) 4 false = .ok (home + 4))
    ∧ (let c := vmem (.vldx ⟨0, 0⟩ .ui32 511 0 0 none) 2 1 0
       EngineReady (headed .loaderVec c) .loaderVec c [] ∧ (2 + BitVec.ofNat 64 (Mem.num [] 0 4) : Word).toNat % 4 ≠ 0
       ∧ (headed .loaderVec c).mem = [] ∧ (headed .loaderVec c).core.rs = [])
    ∧ (let c := vmem (.vst ⟨0, 0⟩ .ui32 511 0) 0x1000 1 0
       EngineReady (headed .storerVec c) .storerVec c []
       ∧ (headed .storerVec c).locate 0x1000 4 true = .error (.xlate, 0x1000)
       ∧ (headed .storerVec c).locate win 4 true = .ok home)
    ∧ (let c := vmem (.vld ⟨0, 0⟩ .ui32 511 0) win.toNat 2 2
       EngineReady (headed .loaderVec c) .loaderVec c [] ∧ c.prog.units = c.vcfg.vl.toNat)
    -- a masked command, of whose elements 0 and 1 the mask leaves out the first, or both
    ∧ (∀ k ∈ [2, 0], let c := { vmem (.vld ⟨0, 0⟩ .ui32 511 0) win.toNat 2 0 with pfx := { Prefix.none with mask := some 1 } }
       let s := headed .loaderVec c
       let s := { s with core := { s.core with k := Vector.replicate 8 (BitVec.ofNat 3072 k) } }
       c.pfx.mask = some 1 ∧ s.core.k[(1 : KReg).toNat].getLsbD 0 = false ∧ s.core.k[(1 : KReg).toNat].getLsbD 1 = decide (k = 2)
       ∧ s.core.canExecute .loaderVec = true ∧ (s.core.queue .loaderVec).cmds = [c])
    -- an indexed load whose bitmap has the bit of element 0 set
    ∧ (let c := vmem (.vldx ⟨0, 0⟩ .ui32 511 0 0 (some 2)) win.toNat 2 0
       let s := headed .loaderVec c
       let s := { s with core := { s.core with vbm := Vector.replicate 4 1 } }
       c.prog.carry = [] ∧ s.core.vbm[(2 : VbmReg).toNat].getLsbD 0 = true ∧ s.core.vbm[(2 : VbmReg).toNat].getLsbD 1 = false
       ∧ s.core.canExecute .loaderVec = true ∧ (s.core.queue .loaderVec).cmds = [c])
    -- a fault-first load at its first active element, and past it
    ∧ (∀ n ∈ [0, 1], let c := { vmem (.vldff ⟨0, 0⟩ .ui32 511 0 2) (0x1000 - 4 * n) 2 n with prog := { units := n, carry := List.replicate n 1 } }
       c.prog.carry = List.replicate n 1 ∧ (headed .loaderVec c).core.canExecute .loaderVec = true
       ∧ (headed .loaderVec c).me.reg 0 = 0)
    ∧ (headed .loaderVec (vmem (.vldff ⟨0, 0⟩ .ui32 511 0 2) 0x1000 2 0)).locate 0x1000 4 false = .error (.xlate, 0x1000)
    ∧ Mem.Wf [] := by
  refine ⟨⟨rfl, rfl, rfl, rfl, ⟨by decide, by decide, rfl, rfl, rfl, rfl, rfl⟩, rfl, rfl, by decide, by decide, by rfl⟩,
    ⟨⟨by decide, by decide, rfl, rfl, rfl, rfl, rfl⟩, by decide, rfl, rfl⟩,
    ⟨⟨by decide, by decide, rfl, rfl, rfl, rfl, rfl⟩, by rfl, by rfl⟩,
    ⟨⟨by decide, by decide, rfl, rfl, rfl, rfl, rfl⟩, by decide⟩, by decide, by decide, by decide, by rfl, Mem.wf_nil⟩

/-- A move or fill of `n` bytes to `a`, `i` units done. -/
def tile (i : Instr) (a b : Word) (n k : Nat) : Cmd := { instr := i, ops := [a, b, BitVec.ofNat 64 n], prog := { units := k } }
theorem test_witness_TileMoveUnits :
    (let c := tile (.tmov ⟨0, 0⟩ 1 2 3 0) (win + 64) win 128 0
     EngineReady (headed .loaderPort c) .loaderPort c [] ∧ (win + 64).toNat % 64 = 0 ∧ (win : Word).toNat % 64 = 0
     ∧ 0 < 128 / 64 ∧ ((win : Word).toNat < (win + 64).toNat ∧ (win + 64).toNat < (win : Word).toNat + 128)
     ∧ (headed .loaderPort c).locate (win + 64) 64 false = .ok (home + 64)
     ∧ (headed .loaderPort c).locate (win + 128) 64 true = .ok (home + 128) ∧ 0 + 1 < 128 / 64)
    ∧ (let c := tile (.tmov ⟨0, 0⟩ 1 2 3 0) 0x1000 0x2000 64 0
       EngineReady (headed .loaderPort c) .loaderPort c []
       ∧ (headed .loaderPort c).locate 0x2000 64 false = .error (.xlate, 0x2000)
       ∧ (headed .loaderPort c).locate 0x1000 64 true = .error (.xlate, 0x1000))
    ∧ (let c := tile (.tfill ⟨0, 0⟩ 1 2 3 0) win 0x0807060504030201 128 1
       EngineReady (headed .loaderPort c) .loaderPort c [] ∧ 1 + 1 = 128 / 64
       ∧ (headed .loaderPort c).locate (win + 64) 64 true = .ok (home + 64))
    ∧ (let c := tile (.tfill ⟨0, 0⟩ 1 2 3 0) win 0 0 0
       EngineReady (headed .loaderPort c) .loaderPort c [] ∧ 0 / 64 ≤ c.prog.units)
    -- a unit that has been read before its write faulted, of a move that goes on downwards
    ∧ (let c := { tile (.tmov ⟨0, 0⟩ 1 2 3 0) (win + 64) win 128 0 with
         prog := { read := List.replicate 64 7, down := some true } }
       EngineReady (headed .loaderPort c) .loaderPort c [] ∧ c.prog.read.length = 64
       ∧ c.prog.down.getD ((headed .loaderPort c).descends (win + 64) win 128) = true)
    ∧ Mem.Wf (headed .loaderPort (tile (.tfill ⟨0, 0⟩ 1 2 3 0) win 0 0 0)).mem := by
  refine ⟨⟨⟨by decide, by decide, rfl, rfl, rfl, rfl, rfl⟩, by decide, by decide, by decide, by decide, by rfl, by rfl, by decide⟩,
    ⟨⟨by decide, by decide, rfl, rfl, rfl, rfl, rfl⟩, by rfl, by rfl⟩,
    ⟨⟨by decide, by decide, rfl, rfl, rfl, rfl, rfl⟩, by decide, by rfl⟩,
    ⟨⟨by decide, by decide, rfl, rfl, rfl, rfl, rfl⟩, by decide⟩,
    ⟨⟨by decide, by decide, rfl, rfl, rfl, rfl, rfl⟩, by decide, by decide⟩, Mem.wf_nil⟩

/-- A view of register space: kind, type or format code, rows, columns, pitch in doublewords and base. -/
def view (kind fmt rows cols pitch base : Nat) : Word :=
  BitVec.ofNat 64 (kind * 2 ^ 62 + fmt * 2 ^ 57 + (rows - 1) * 2 ^ 48 + (cols - 1) * 2 ^ 36 + pitch * 2 ^ 20 + base)
def tensor (i : Instr) (vs : List Word) (w : Word) : Cmd := { instr := i, views := vs, fmt := some w }
/-- That command at the head of the matrix queue, with macro 0 loaded in format 0. -/
def loadedMacro (c : Cmd) : State :=
  let s := headed .seqMat c
  { s with core := { s.core with macros := s.core.macros.set 0 { loaded := true, fmt := 0, scale := 0 } } }
/-- What lets a matrix command at the head run. -/
def mReady (s : State) (c : Cmd) : Prop := EngineReady s .seqMat c [] ∧ viewFault (c.views.getD 0 0) = none
  ∧ matrixOk c.instr c.views = true ∧ s.core.rs.Wf
/-- Format words for a multiply: A and B of format 0, scales 2⁰ and ceiling 2⁰; and the same with B of format 1. -/
def fw0 : Word := BitVec.ofNat 64 (127 * 2 ^ 26)
def fw1 : Word := BitVec.ofNat 64 (32 + 127 * 2 ^ 26)
theorem test_witness_MatrixExecution :
    (let c := tensor (.azero ⟨0, 0⟩ 0 5) [view 2 0 1 64 66 0] 0; mReady (headed .seqMat c) c)
    ∧ (let c := tensor (.mcode ⟨0, 0⟩ 0) [view 3 4 1 256 64 0] 0; mReady (headed .seqMat c) c)
    ∧ (let c := tensor (.outl ⟨0, 0⟩ 0) [view 1 23 1 4 4 0] 0; mReady (headed .seqMat c) c)
    ∧ (let c := tensor (.mload ⟨0, 0⟩ 0 0) [view 1 0 1 8 2 0] fw0
       mReady (headed .seqMat c) c ∧ fwOk fw0 = true ∧ ∃ z, loadMacro (((headed .seqMat c).readyHead .seqMat c).beginMatrix c) 0 (View.ofWord (c.views.getD 0 0)) fw0 false = .ok z)
    ∧ (let c := tensor (.mload ⟨0, 0⟩ 0 0) [view 1 0 1 8 2 0] fw1
       mReady (headed .seqMat c) c ∧ (View.ofWord (c.views.getD 0 0)).fmt ≠ fwB fw1)
    ∧ (let c := tensor (.mmma ⟨0, 0⟩ 1 0 1 0 0 false) [view 2 0 1 128 129 0, view 1 0 1 32 8 4096] fw0
       let s := loadedMacro c
       let s := { s with core := { s.core with rs := putAll [(1026, 1, 23)] } }
       mReady s c ∧ fwOk fw0 = true ∧ (View.ofWord (c.views.getD 1 0)).fmt = fwA fw0
       ∧ ∃ z, multiply ((s.readyHead .seqMat c).beginMatrix c) (View.ofWord (c.views.getD 0 0)) (View.ofWord (c.views.getD 1 0)) 1 0 0 false false fw0
          (c.outl.getD s.core.outliers) = .ok z)
    ∧ (let c := tensor (.mmma ⟨0, 0⟩ 1 0 1 0 0 false) [view 2 0 1 128 129 0, view 1 0 1 32 8 4096] fw1
       mReady (loadedMacro c) c ∧ ∃ q : Macro, (loadedMacro c).core.macros[0]? = some q ∧ q.fmt.toNat ≠ fwB fw1) := by
  have e := Mem.wf_nil
  refine ⟨⟨⟨by decide, by decide, rfl, rfl, rfl, rfl, rfl⟩, by decide, by decide, e⟩,
    ⟨⟨by decide, by decide, rfl, rfl, rfl, rfl, rfl⟩, by decide, by decide, e⟩,
    ⟨⟨by decide, by decide, rfl, rfl, rfl, rfl, rfl⟩, by decide, by decide, e⟩,
    ⟨⟨⟨by decide, by decide, rfl, rfl, rfl, rfl, rfl⟩, by decide, by decide, e⟩, by decide, ⟨_, by rfl⟩⟩,
    ⟨⟨⟨by decide, by decide, rfl, rfl, rfl, rfl, rfl⟩, by decide, by decide, e⟩, by decide⟩,
    ⟨⟨⟨by decide, by decide, rfl, rfl, rfl, rfl, rfl⟩, by decide, by decide, ?_⟩, by decide, by decide, ⟨_, by rfl⟩⟩,
    ⟨⟨⟨by decide, by decide, rfl, rfl, rfl, rfl, rfl⟩, by decide, by decide, e⟩, ⟨_, rfl, by decide⟩⟩⟩
  exact Mem.wf_nil.writeN _ _

/-- A row of the query buffer that nothing has entered yet. -/
def aRow (nan : Bool) : QRow := { q := [], limit := 0, m := 0, l := 0, o := [], nan := nan }
/-- That command where the KV tables stand, with two rows in the query buffer, and `n` stages on their way. -/
def attending (q : QueueId) (c : Cmd) (n : Nat) : State :=
  let s := { kv q.owner [] 0 0 (0xFFFFFFFF * 2 ^ 32) with
    ctxs := [owner], grants := (Vector.replicate 96 ({} : Grant)).set 0 { owner := some 7 } }
  let s := { s with core := { s.core with
    ctx := some 7, att := { s.core.att with rows := [aRow true, aRow false], staged := List.replicate n ⟨true, { fmt := 9 }, some (3, 64)⟩ } } }
  s.setQueue q { cmds := [c] }
def keyed (a : Word) : Cmd := { instr := .attKv ⟨0, 0⟩ 1 2 3 true, ops := [a, 0] }
theorem test_witness_AttentionExecution :
    (let c : Cmd := { instr := .attQF ⟨0, 0⟩ 0, views := [view 3 4 1 128 64 0] }
     EngineReady (attending .seqAtt c 0) .seqAtt c [])
    ∧ (let c : Cmd := { instr := .attRun ⟨0, 0⟩ true }
       EngineReady (attending .seqAtt c 0) .seqAtt c [] ∧ (attending .seqAtt c 0).core.att.rows[0]? = some (aRow true)
       ∧ (attending .seqAtt c 0).core.att.rows[1]? = some (aRow false) ∧ (attending .seqAtt c 0).core.att.st1.toks = [])
    ∧ (EngineReady (attending .loaderAtt (keyed 0x1000) 0) .loaderAtt (keyed 0x1000) []
       ∧ ∃ u e f, runAttKv 0x1000 0 3 true
        { (attending .loaderAtt (keyed 0x1000) 0).readyHead .loaderAtt (keyed 0x1000) with cur := .loader } = .error (.trapAfter u e f))
    ∧ (EngineReady (attending .loaderAtt (keyed (win + 0x40)) 0) .loaderAtt (keyed (win + 0x40)) []
       ∧ goes (do
         let _ ← runAttKv (win + 0x40) 0 3 true
           { (attending .loaderAtt (keyed (win + 0x40)) 0).readyHead .loaderAtt (keyed (win + 0x40)) with cur := .loader }
         pure true))
    ∧ (let s := (attending .loaderAtt (keyed 0) 1).setQueue .loaderAtt { done := [keyed 0] }
       s.core.retirable .loaderAtt = some (keyed 0) ∧ s.core.att.staged = ⟨true, { fmt := 9 }, some (3, 64)⟩ :: []) := by
  refine ⟨⟨by decide, by decide, rfl, rfl, rfl, rfl, rfl⟩,
    ⟨⟨by decide, by decide, rfl, rfl, rfl, rfl, rfl⟩, rfl, rfl, rfl⟩,
    ⟨⟨by decide, by decide, rfl, rfl, rfl, rfl, rfl⟩, ⟨_, _, _, rfl⟩⟩,
    ⟨⟨by decide, by decide, rfl, rfl, rfl, rfl, rfl⟩, by decide +kernel⟩, ⟨by decide, rfl⟩⟩

/-- A remote command whose batch has the peers `l`. -/
def farPeers (c : Cmd) (l : List (BitVec 12)) : State :=
  let s := headed .storerRemote c
  { s with core := { s.core with batches := s.core.batches.set 1 { peers := l } } }
def far (i : Instr) (a : Word) (node : Nat) : Cmd := { instr := i, ops := [a, 0x55, BitVec.ofNat 64 node, 0, 1] }
theorem test_witness_RemoteExecution :
    (let c := far (.rst ⟨0, 0⟩ 1 2 3 3) (win + 64) 5
     EngineReady (farPeers c []) .storerRemote c [] ∧ (farPeers c []).core.combine = [] ∧ (farPeers c []).sessions = []
     ∧ (farPeers c []).cx = some owner ∧ c.prog.carry ≠ [2] ∧ (∀ t < 4, ((farPeers c []).core.batches[t]?).map (·.state) ≠ some .closed)
     ∧ 2 ^ (3 : BitVec 3).toNat ≤ 8 ∧ (win + 64).toNat % 2 ^ (3 : BitVec 3).toNat = 0 ∧ (5 : BitVec 12) ∉ (farPeers c []).core.batches[1].peers
     ∧ (farPeers c []).core.batches[1].peers.length < 64 ∧ 64 ≤ (farPeers c (List.replicate 64 9)).core.batches[1].peers.length
     ∧ (5 : BitVec 12) ∉ (farPeers c (List.replicate 64 9)).core.batches[1].peers)
    ∧ (let c := far (.rld ⟨0, 0⟩ 4 1 3 3) (win + 64) 0
       EngineReady (farPeers c []) .storerRemote c [] ∧ (0 : BitVec 12) = (farPeers c []).node
       ∧ (farPeers c []).locate (win + 64) 8 false = .ok (home + 64))
    ∧ (let c := far (.ramo ⟨0, 0⟩ .swap 4 1 2 3 3) (win + 64) 0
       EngineReady (farPeers c []) .storerRemote c []
       ∧ (farPeers c []).locate (win + 64) 8 true = .ok (home + 64) ∧ isHost (home + 64) = false)
    ∧ (farPeers (far (.rst ⟨0, 0⟩ 1 2 3 3) 0 5) []).mem.Wf := by
  refine ⟨⟨⟨by decide, by decide, rfl, rfl, rfl, rfl, rfl⟩, rfl, rfl, by rfl, by decide, by decide, by decide, by decide, by decide,
      by decide, by decide, by decide⟩,
    ⟨⟨by decide, by decide, rfl, rfl, rfl, rfl, rfl⟩, rfl, by rfl⟩,
    ⟨⟨by decide, by decide, rfl, rfl, rfl, rfl, rfl⟩, by rfl, by decide⟩, Mem.wf_nil⟩

end Sys2Proof.Tests
end

section
/-! The writes of an engine's commands that other parties still see in parts, when the engine takes its next command (R36, R44). -/

namespace Sys2Proof.Machine

/-- Buffered stores that perform write no register space: what a core's engines have still to write stays. -/
@[simp] theorem State.drain_torn (s : State) (r : Role) (sel : BufStore → Bool) :
    (s.drain r sel).core.torn = s.core.torn := by
  obtain ⟨m, p, q, l, n, u, f, x, he⟩ := (s.drain_frame r sel).eq
  rw [he]; simp

@[simp] theorem State.beforeCommand_torn (s : State) (r : Role) (c : Cmd) :
    (s.beforeCommand r c).core.torn = s.core.torn := by
  unfold State.beforeCommand
  split
  · exact s.drain_torn r _
  · rfl

/-- Of the writes seen in part, those of the engine's other commands are whole when it takes a command, and no others. -/
theorem State.readyHead_torn (s : State) (q : QueueId) (c : Cmd) :
    (s.readyHead q c).core.torn = s.core.torn.filter (fun x => !Torn.ofOther q c.num x) :=
  State.beforeCommand_torn _ _ _

/-- A write of the command itself, from an earlier execution event of it, is still seen in part. -/
theorem State.own_torn_mem_readyHead {s : State} {q : QueueId} {c : Cmd} {x : Torn} (hx : x ∈ s.core.torn) (hq : x.q = q)
    (hn : x.num = c.num) : x ∈ (s.readyHead q c).core.torn := by
  rw [State.readyHead_torn]
  exact List.mem_filter.mpr ⟨hx, by simp [Torn.ofOther, hq, hn]⟩

/-- An execution event that other parties see in parts leaves a write of its command. -/
theorem State.exists_own_torn_engineTorn {s : State} {q : QueueId} {c : Cmd} {rest : List Cmd} (late : List Nat)
    (bits : BitVec 3072) (h : (s.core.queue q).cmds = c :: rest) :
    ∃ x ∈ (s.engineTorn q late bits).core.torn, x.q = q ∧ x.num = c.num := by
  simp [State.engineTorn, h, Core.tear]

/-! ### A load of which one element is made -/

/-- `vld` of two 32-bit elements from the start of core 0's local store into v511, as far on as `p` says. -/
def twoElements (p : Progress) : Cmd :=
  { instr := .vld ⟨0, 0⟩ .ui32 511 0, ops := [0xFF00000000000000], vcfg := { vl := 2, ew := .e32 }, prog := p }

/-- Core 0, granted to context 7 and running it, with that command at the head of the loader's vector queue; the first element
in memory is 7. -/
def loadWaiting : State :=
  let owner : Ctx :=
    { id := 7, root := 0, save := 0, quant := 0, vector := 0, retto := 0, kvtab := 0, kvseq := 0, seed := 0
      ranges := Vector.replicate 64 none, time := ⟨0, 0, none⟩, bw := ⟨0, 0, none⟩, nrg := ⟨0, 0, none⟩ }
  let s : State := { State.reset with
    ctxs := [owner], grants := (Vector.replicate 96 ({} : Grant)).set 0 { owner := some 7 }, mem := [(locLocal 0 0, 7)] }
  { s with core := { s.core with ctx := some 7 } }.setQueue .loaderVec { cmds := [twoElements {}] }

/-- The loader's engine has made the first element; other parties see its first byte later (R36). -/
def loadHalfSeen : State := loadWaiting.engineTorn .loaderVec [511 * 1536] 0

/-- The same load, with its first element made. -/
def oneElementDone : Cmd := twoElements { units := 1, carry := [1] }

/-- The model's own step makes that state. -/
theorem doPick_tear_loadWaiting : doPick (.tear .loaderVec [511 * 1536] 0) loadWaiting = .next loadHalfSeen :=
  congrArg Host.Outcome.next (if_pos (by decide))

/-- The engine can take the load again, for its second element: it is still the head of its queue. -/
theorem loadHalfSeen_ready : loadHalfSeen.live = true ∧ loadHalfSeen.core.canExecute .loaderVec = true
    ∧ (loadHalfSeen.core.queue .loaderVec).cmds = [oneElementDone] :=
  ⟨by decide, by decide, rfl⟩

/-- As the engine takes the load for its second element, the write of its first is still seen in part. -/
theorem exists_own_torn_readyHead_loadHalfSeen :
    ∃ x ∈ (loadHalfSeen.readyHead .loaderVec oneElementDone).core.torn, x.q = .loaderVec := by
  obtain ⟨x, hx, hq, hn⟩ := loadWaiting.exists_own_torn_engineTorn (q := .loaderVec) (c := twoElements {}) (rest := [])
    [511 * 1536] 0 rfl
  exact ⟨x, State.own_torn_mem_readyHead hx hq hn, hq⟩

/-- Refutes O41: its third clause has no write of the queue seen in part when the engine takes `c`, but `readyHead` makes those of
the engine's other commands whole and leaves `c`'s own (R36). A `vld` of two elements, of which the first is made and its write is
still seen in part, is taken again for the second. -/
theorem not_engineAndTrapEvents : ¬ Obligations.EngineAndTrapEvents := by
  unfold Obligations.EngineAndTrapEvents
  intro h
  obtain ⟨-, -, noneTorn, -⟩ := h loadHalfSeen loadHalfSeen .loaderVec oneElementDone [] .xlate 0 {} .loader
  obtain ⟨x, hx, hq⟩ := exists_own_torn_readyHead_loadHalfSeen
  exact (noneTorn x hx).1 hq

end Sys2Proof.Machine
end

section
/-! Canonical memories: what a run of written bytes reads as, and that reading determines the data (R68). -/

namespace Sys2Proof.Machine

/-! ### Reads after a run of writes -/

theorem Mem.read_writeN {m : Mem} (h : m.Wf) (a : Nat) (bs : List Byte) (x : Nat) :
    (m.writeN a bs).read x = if h : a ≤ x ∧ x < a + bs.length then bs[x - a] else m.read x := by
  induction bs generalizing m a with
  | nil => rw [dif_neg (by simp)]; rfl
  | cons b bs ih =>
    have hl : (b :: bs).length = bs.length + 1 := rfl
    rw [Mem.writeN, ih (h.write a b), Mem.read_write h]
    by_cases hx : x = a
    · subst hx
      rw [dif_neg (by omega), if_pos rfl, dif_pos (by omega)]; simp
    · rw [if_neg hx]
      by_cases hr : a + 1 ≤ x ∧ x < a + 1 + bs.length
      · rw [dif_pos hr, dif_pos (by omega)]
        obtain ⟨k, hk⟩ : ∃ k, x - a = k + 1 := ⟨x - a - 1, by omega⟩
        have hk' : x - (a + 1) = k := by omega
        simp [hk, hk']
      · rw [dif_neg hr, dif_neg (by omega)]

/-! ### Canonical memories that read alike -/

/-- A listed byte of a canonical memory reads as itself. -/
theorem Mem.read_of_mem {m : Mem} (h : m.Wf) {c : Nat × Byte} (hc : c ∈ m) : m.read c.1 = c.2 := by
  induction m with
  | nil => simp at hc
  | cons y m ih =>
    rcases List.mem_cons.mp hc with rfl | hc
    · exact if_pos rfl
    · have hlt : y.1 < c.1 := (List.pairwise_cons.mp h.1).1 c hc
      rw [Mem.read, if_neg (Nat.ne_of_lt hlt)]
      exact ih h.tail hc

/-- A location that does not read as zero is listed, with the byte it reads as. -/
theorem Mem.mem_of_read {m : Mem} {a : Nat} (h : m.read a ≠ 0) : (a, m.read a) ∈ m := by
  induction m with
  | nil => exact absurd rfl h
  | cons y m ih =>
    obtain ⟨k, w⟩ := y
    by_cases hk : k = a
    · subst hk
      rw [Mem.read, if_pos rfl]
      exact List.mem_cons_self ..
    · rw [Mem.read, if_neg hk] at h ⊢
      exact List.mem_cons_of_mem _ (ih h)

/-- What a canonical memory lists, it has from its reads alone. -/
theorem Mem.subset_of_read {m n : Mem} (hm : m.Wf) (h : ∀ a, m.read a = n.read a) : m ⊆ n := by
  intro c hc
  have hr : n.read c.1 = c.2 := (h c.1).symm.trans (Mem.read_of_mem hm hc)
  have : (c.1, n.read c.1) ∈ n := Mem.mem_of_read (hr ▸ hm.2 c hc)
  rwa [hr] at this

theorem Mem.Wf.nodup {m : Mem} (h : m.Wf) : m.Nodup := by
  refine h.1.imp ?_
  rintro x _ hlt rfl
  exact Nat.lt_irrefl _ hlt

/-- The order of its addresses leaves a memory no choice but the set of what it lists. -/
theorem Mem.eq_of_read {m n : Mem} (hm : m.Wf) (hn : n.Wf) (h : ∀ a, m.read a = n.read a) : m = n := by
  have hp : m.Perm n := (List.perm_ext_iff_of_nodup hm.nodup hn.nodup).mpr fun c =>
    ⟨fun hc => Mem.subset_of_read hm h hc, fun hc => Mem.subset_of_read hn (fun a => (h a).symm) hc⟩
  exact hp.eq_of_pairwise (fun x y _ _ hxy hyx => absurd (Nat.lt_trans hxy hyx) (Nat.lt_irrefl _)) hm.1 hn.1

/-- Settles O8. -/
theorem canonicalMemory : Obligations.CanonicalMemory :=
  ⟨fun _ a bs h => ⟨h.writeN a bs, Mem.read_writeN h a bs⟩, fun _ _ hm hn h => Mem.eq_of_read hm hn h⟩

end Sys2Proof.Machine
end

section
/-! The canonical form of every memory of the package (R68, R101, R152). -/
namespace Sys2Proof.Machine

theorem Core.wf_default : Core.Wf {} := ⟨Mem.wf_nil, Mem.wf_nil, Mem.wf_nil, Mem.wf_nil⟩

/-- Settles O59: nothing is listed in a memory, and no other core, save or state area is there (R414, log entry 5). -/
theorem resetMemoriesAreCanonical : Obligations.ResetMemoriesAreCanonical :=
  ⟨Mem.wf_nil, Core.wf_default, by simp [State.reset], by simp [State.reset], by simp [State.reset]⟩
end Sys2Proof.Machine
end

section
/-! Address resolution (R70 to R74, R102): what an access at an address does by the rule of Table 4-2 that resolves it, what one
level of the page walk gives, and what the four levels give together. -/

namespace Sys2Proof.Machine

/-! ### From the resolution of an address to its location -/

section
variable {s : State} {a : Word} {n : Nat} {w : Bool}

theorem State.locate_of_nothing (h : s.resolve s.cx s.coreId a = .nothing) : s.locate a n w = .error (.xlate, a) := by
  simp [State.locate, State.locateFor, h]

theorem State.locate_of_noWindow (h : s.resolve s.cx s.coreId a = .noWindow) : s.locate a n w = .error (.prot, a) := by
  simp [State.locate, State.locateFor, h]

theorem State.locate_of_broken (h : s.resolve s.cx s.coreId a = .broken) : s.locate a n w = .error (.machine, a) := by
  simp [State.locate, State.locateFor, h]

theorem State.locate_of_window {loc off left : Nat} {owned : Bool} (h : s.resolve s.cx s.coreId a = .window loc off left owned)
    (hn : n ≤ left) : s.locate a n w = if owned then .ok loc else .error (.prot, a) := by
  simp [State.locate, State.locateFor, h, hn]

/-- R73: the rights first, then the backing of the target. -/
theorem State.locate_of_range {pa : Nat} {r w' : Bool} (h : s.resolve s.cx s.coreId a = .range pa r w') :
    s.locate a n w = s.grant a pa (if w then w' else r) := by
  simp [State.locate, State.locateFor, h]

theorem State.locate_of_page {pa size : Nat} {r w' : Bool} (h : s.resolve s.cx s.coreId a = .page pa r w' size) :
    s.locate a n w = s.grant a pa (if w then w' else r) := by
  simp [State.locate, State.locateFor, h]

/-! ### Table 4-2 -/

theorem State.resolve_place (h : a.toNat / 2 ^ 48 = 0xFF00) :
    s.resolve s.cx s.coreId a = s.resolvePlace (s.cx.map (·.id)) s.coreId (a.toNat % 2 ^ 48) := if_pos h

theorem State.resolve_noContext (h : a.toNat / 2 ^ 48 ≠ 0xFF00) (hc : s.cx = none) :
    s.resolve s.cx s.coreId a = .nothing := by
  rw [hc]; exact if_neg h

theorem State.resolve_range {c : Ctx} {g : Range} (h : a.toNat / 2 ^ 48 ≠ 0xFF00) (hc : s.cx = some c)
    (hg : c.findRange a = some g) : s.resolve s.cx s.coreId a = .range (a + g.offset).toNat g.r g.w := by
  simp only [State.resolve, if_neg h, hc, hg]

theorem State.resolve_walk {c : Ctx} (h : a.toNat / 2 ^ 48 = 0) (hc : s.cx = some c) (hg : c.findRange a = none) :
    s.resolve s.cx s.coreId a = s.pageWalk c.root.toNat a.toNat := by
  simp only [State.resolve, h, hc, hg, if_neg (show ¬(0 : Nat) = 0xFF00 by decide), if_true]

theorem State.resolve_unmapped {c : Ctx} (h : a.toNat / 2 ^ 48 ≠ 0xFF00) (hc : s.cx = some c) (hg : c.findRange a = none)
    (hw : a.toNat / 2 ^ 48 ≠ 0 ∨ c.root = 0) : s.resolve s.cx s.coreId a = .nothing := by
  by_cases h0 : a.toNat / 2 ^ 48 = 0
  · rw [State.resolve_walk h0 hc hg, hw.resolve_left (not_not_intro h0)]; rfl
  · simp only [State.resolve, if_neg h, hc, hg, if_neg h0]

end

/-! ### Range slots (R72) -/

/-- A valid range slot of the context covers the address. -/
def Ctx.Covers (c : Ctx) (a : Word) (g : Range) : Prop :=
  some g ∈ c.ranges.toList ∧ g.base.toNat ≤ a.toNat ∧ a.toNat < g.limit.toNat

theorem Ctx.covers_of_findRange {c : Ctx} {a : Word} {g : Range} (h : c.findRange a = some g) : c.Covers a g := by
  obtain ⟨x, hx, hg⟩ := List.exists_of_findSome?_eq_some h
  cases x with
  | none => simp at hg
  | some y =>
    by_cases hy : y.base.toNat ≤ a.toNat ∧ a.toNat < y.limit.toNat
    · obtain rfl : y = g := by simpa [hy] using hg
      exact ⟨hx, hy⟩
    · simp [hy] at hg

theorem Ctx.findRange_eq_none {c : Ctx} {a : Word} (h : ¬∃ g, c.Covers a g) : c.findRange a = none :=
  Option.eq_none_iff_forall_ne_some.mpr fun g hg => h ⟨g, Ctx.covers_of_findRange hg⟩

theorem Ctx.findRange_ne_none {c : Ctx} {a : Word} {g : Range} (h : c.Covers a g) : c.findRange a ≠ none := by
  obtain ⟨hm, hb⟩ := h
  intro hn
  have := List.findSome?_eq_none_iff.mp hn (some g) hm
  simp [hb] at this

/-- Where one slot alone covers the address, it is the one found. -/
theorem Ctx.findRange_of_unique {c : Ctx} {a : Word} {g : Range} (h : c.Covers a g) (hu : ∀ x, c.Covers a x → x = g) :
    c.findRange a = some g := by
  obtain ⟨x, hx⟩ := Option.ne_none_iff_exists'.mp (Ctx.findRange_ne_none h)
  rw [hx, hu x (Ctx.covers_of_findRange hx)]

/-! ### One level of the page walk (R74, Table 4-5) -/

theorem leNat_lt (bs : List Byte) : leNat bs < 256 ^ bs.length := by
  induction bs with
  | nil => exact Nat.one_pos
  | cons b bs ih =>
    have hb : b.toNat < 256 := b.isLt
    rw [leNat, List.length_cons, Nat.pow_succ]; omega

theorem Mem.readN_length (m : Mem) (a n : Nat) : (m.readN a n).length = n := by
  induction n generalizing a with
  | zero => rfl
  | succ n ih => rw [Mem.readN, List.length_cons, ih]

theorem Mem.num_lt (m : Mem) (a n : Nat) : m.num a n < 256 ^ n := by
  have := leNat_lt (m.readN a n)
  rwa [Mem.readN_length] at this

/-- The address of the entry that the `k` index bits of `a` from `sh` on choose in the table at `t`. -/
def walkIndex (a t sh k : Nat) : Nat := t + 8 * (a / 2 ^ sh % 2 ^ k)

/-- The entry is there to be read, and reads as one in order of kind `kind` for `next`, with the rights `r` and `w`. -/
def State.WalkEntry (s : State) (a t sh k kind next : Nat) (r w : Bool) : Prop :=
  t % (8 * 2 ^ k) = 0 ∧ s.fuses.backed (walkIndex a t sh k) = true
    ∧ s.poison.contains (eccUnit (walkIndex a t sh k)) = false ∧ next % 4096 = 0 ∧ next < 2 ^ 56
    ∧ s.mem.num (walkIndex a t sh k) 8 = next + 16 * kind + (if w then 2 else 0) + (if r then 1 else 0)

theorem State.WalkEntry.next_aligned {s : State} {a t sh k kind next : Nat} {r w : Bool}
    (h : s.WalkEntry a t sh k kind next r w) : next % 4096 = 0 := by
  obtain ⟨-, -, -, hn, -⟩ := h
  exact hn

/-- No entry that a walk can use, for the kinds of the level. -/
def State.WalkDead (s : State) (a t sh k : Nat) (kinds : List Nat) : Prop :=
  let e := s.mem.num (walkIndex a t sh k) 8
  t % (8 * 2 ^ k) ≠ 0 ∨ s.fuses.backed (walkIndex a t sh k) = false
    ∨ (s.poison.contains (eccUnit (walkIndex a t sh k)) = false
      ∧ (e / 2 ^ 56 ≠ 0 ∨ e / 2 ^ 7 % 2 ^ 5 ≠ 0 ∨ e / 2 ^ 2 % 2 ^ 2 ≠ 0 ∨ e / 2 ^ 4 % 2 ^ 3 ∉ kinds))

/-- An entry in an uncorrectable unit. -/
def State.WalkBroken (s : State) (a t sh k : Nat) : Prop :=
  t % (8 * 2 ^ k) = 0 ∧ s.fuses.backed (walkIndex a t sh k) = true
    ∧ s.poison.contains (eccUnit (walkIndex a t sh k)) = true

section
variable {s : State} {a t sh k size : Nat} {kinds : List Nat} {r w : Bool}

theorem State.walkStep_dead (h : s.WalkDead a t sh k kinds) : s.walkStep a t r w ⟨sh, k, kinds, size⟩ = .stop .nothing := by
  unfold State.WalkDead walkIndex at h
  have hlt : s.mem.num (t + 8 * (a / 2 ^ sh % 2 ^ k)) 8 / 2 ^ 56 < 2 ^ 8 := by
    exact Nat.div_lt_of_lt_mul (s.mem.num_lt (t + 8 * (a / 2 ^ sh % 2 ^ k)) 8)
  simp only [State.walkStep, Nat.mul_comm _ 8, bits]
  by_cases ht : t % (8 * 2 ^ k) ≠ 0 ∨ s.fuses.backed (t + 8 * (a / 2 ^ sh % 2 ^ k)) = false
  · rw [if_pos (by simpa using ht)]
  · rw [if_neg (by simpa using ht)]
    obtain ⟨hp, he⟩ := (h.resolve_left (fun x => ht (.inl x))).resolve_left (fun x => ht (.inr x))
    rw [if_neg (by simp only [hp, Bool.false_eq_true, not_false_eq_true]), if_pos]
    simpa only [Nat.mod_eq_of_lt hlt, Bool.not_eq_true', List.contains_eq_mem, decide_eq_false_iff_not] using he

theorem State.walkStep_broken (h : s.WalkBroken a t sh k) : s.walkStep a t r w ⟨sh, k, kinds, size⟩ = .stop .broken := by
  obtain ⟨ht, hb, hp⟩ := h
  unfold walkIndex at hb hp
  simp only [State.walkStep, Nat.mul_comm _ 8]
  rw [if_neg (by simp [ht, hb]), if_pos hp]

/-- The fields of an entry in order: its rights, reserved bits, kind and address. -/
theorem walkFields {next kind : Nat} (hn : next % 4096 = 0) (hlt : next < 2 ^ 56) (hk : kind < 8) (r w : Bool) :
    let e := next + 16 * kind + (if w then 2 else 0) + (if r then 1 else 0)
    bits e 56 8 = 0 ∧ bits e 7 5 = 0 ∧ bits e 2 2 = 0 ∧ bits e 4 3 = kind ∧ bits e 12 44 * 2 ^ 12 = next
      ∧ e.testBit 0 = r ∧ e.testBit 1 = w := by
  have hr : (if r then 1 else 0 : Nat) ≤ 1 := by split <;> omega
  have hw : (if w then 2 else 0 : Nat) = 2 * (if w then 1 else 0) := by split <;> rfl
  have hw' : (if w then 1 else 0 : Nat) ≤ 1 := by split <;> omega
  have bit : ∀ b : Bool, decide ((if b then 1 else 0 : Nat) = 1) = b := by decide
  simp only [bits, hw, Nat.testBit_eq_decide_div_mod_eq]
  refine ⟨?_, ?_, ?_, ?_, ?_, (decide_eq_decide.mpr ?_).trans (bit r), (decide_eq_decide.mpr ?_).trans (bit w)⟩ <;> omega

theorem State.walkStep_entry {kind next : Nat} {r' w' : Bool} (h : s.WalkEntry a t sh k kind next r' w') (hk : kind < 8)
    (hm : kind ∈ kinds) : s.walkStep a t r w ⟨sh, k, kinds, size⟩ =
      if kind = 3 then .stop (if next % 2 ^ sh ≠ 0 then .nothing else .page (next + a % 2 ^ sh) (r && r') (w && w') size)
      else .next (kind = 2) next (r && r') (w && w') := by
  obtain ⟨ht, hb, hp, hn, hlt, he⟩ := h
  unfold walkIndex at hb hp he
  obtain ⟨h56, h7, h2, hkind, hnext, hr, hw⟩ := walkFields hn hlt hk r' w'
  simp only [State.walkStep, Nat.mul_comm _ 8]
  rw [if_neg (by simp [ht, hb]), if_neg (by simp only [hp, Bool.false_eq_true, not_false_eq_true])]
  simp only [he, h56, h7, h2, hkind, hnext, hr, hw, List.contains_eq_mem, decide_eq_true hm, ne_eq, not_true_eq_false,
    Bool.not_true, Bool.false_eq_true, or_self, if_false]

end

/-! ### The walk of an address (Table 4-6) -/

section
variable {s : State} {a : Word} {n : Nat} {w : Bool} {t sh k size : Nat} {kinds : List Nat} {r r' w₀ w' : Bool}

/-- A level at which the walk of an address ends: XLATE where it has no usable entry, MACHINE where its entry is broken. -/
theorem State.locate_of_walkEnd
    (h : ∀ x, s.walkStep a.toNat t r w₀ ⟨sh, k, kinds, size⟩ = .stop x → s.resolve s.cx s.coreId a = x) :
    (s.WalkDead a.toNat t sh k kinds → s.locate a n w = .error (.xlate, a))
      ∧ (s.WalkBroken a.toNat t sh k → s.locate a n w = .error (.machine, a)) :=
  ⟨fun hd => State.locate_of_nothing (h _ (State.walkStep_dead hd)),
    fun hb => State.locate_of_broken (h _ (State.walkStep_broken hb))⟩

/-- A level whose entry is a page: it must be aligned, and its rights are those that every entry of the walk gives. -/
theorem State.locate_of_walkPage {p : Nat}
    (h : ∀ x, s.walkStep a.toNat t r w₀ ⟨sh, k, kinds, size⟩ = .stop x → s.resolve s.cx s.coreId a = x)
    (he : s.WalkEntry a.toNat t sh k 3 p r' w') (hk : 3 ∈ kinds) :
    if p % 2 ^ sh = 0 then s.locate a n w = s.grant a (p + a.toNat % 2 ^ sh) (if w then w₀ && w' else r && r')
    else s.locate a n w = .error (.xlate, a) := by
  have hs := State.walkStep_entry (r := r) (w := w₀) (size := size) he (by decide) hk
  rw [if_pos rfl] at hs
  by_cases hp : p % 2 ^ sh = 0
  · rw [if_pos hp]
    rw [if_neg (not_not_intro hp)] at hs
    exact State.locate_of_page (h _ hs)
  · rw [if_neg hp]
    rw [if_pos hp] at hs
    exact State.locate_of_nothing (h _ hs)

/-- A level whose entry names the next table. -/
theorem State.walkStep_table {next kind : Nat} (he : s.WalkEntry a.toNat t sh k kind next r' w') (hk : kind ∈ kinds)
    (h8 : kind < 8) (h3 : kind ≠ 3) :
    s.walkStep a.toNat t r w₀ ⟨sh, k, kinds, size⟩ = .next (kind = 2) next (r && r') (w₀ && w') :=
  (State.walkStep_entry he h8 hk).trans (if_neg h3)

end

section
variable {s : State} {root a : Nat} {x : Resolved}

theorem State.pageWalk_stop₃ (hr : root ≠ 0) (h : s.walkStep a root true true ⟨34, 14, [1, 3], 5⟩ = .stop x) :
    s.pageWalk root a = x := by
  simp only [State.pageWalk, if_neg hr, h]

variable {b₃ : Bool} {t₂ : Nat} {r₃ w₃ : Bool}

theorem State.pageWalk_stop₂ (hr : root ≠ 0) (h₃ : s.walkStep a root true true ⟨34, 14, [1, 3], 5⟩ = .next b₃ t₂ r₃ w₃)
    (h : s.walkStep a t₂ r₃ w₃ ⟨28, 6, [1, 3], 4⟩ = .stop x) : s.pageWalk root a = x := by
  simp only [State.pageWalk, if_neg hr, h₃, h]

variable {b₂ : Bool} {t₁ : Nat} {r₂ w₂ : Bool}

theorem State.pageWalk_stop₁ (hr : root ≠ 0) (h₃ : s.walkStep a root true true ⟨34, 14, [1, 3], 5⟩ = .next b₃ t₂ r₃ w₃)
    (h₂ : s.walkStep a t₂ r₃ w₃ ⟨28, 6, [1, 3], 4⟩ = .next b₂ t₁ r₂ w₂)
    (h : s.walkStep a t₁ r₂ w₂ ⟨21, 7, [1, 2, 3], 3⟩ = .stop x) : s.pageWalk root a = x := by
  simp only [State.pageWalk, if_neg hr, h₃, h₂, h]

theorem State.pageWalk_stop₀ {wide : Bool} {t₀ : Nat} {r₁ w₁ : Bool} (hr : root ≠ 0)
    (h₃ : s.walkStep a root true true ⟨34, 14, [1, 3], 5⟩ = .next b₃ t₂ r₃ w₃)
    (h₂ : s.walkStep a t₂ r₃ w₃ ⟨28, 6, [1, 3], 4⟩ = .next b₂ t₁ r₂ w₂)
    (h₁ : s.walkStep a t₁ r₂ w₂ ⟨21, 7, [1, 2, 3], 3⟩ = .next wide t₀ r₁ w₁)
    (h : s.walkStep a t₀ r₁ w₁ (if wide then ⟨16, 5, [3], 2⟩ else ⟨12, 9, [3], 1⟩) = .stop x) : s.pageWalk root a = x := by
  simp only [State.pageWalk, if_neg hr, h₃, h₂, h₁, h]

end

/-! ### Windows (Table 4-3, R102) -/

/-- The context owns the unit, as `p` says; `free`: what holds where no context runs. -/
def ownedBy (cx : Option (BitVec 16)) (free : Bool) (p : BitVec 16 → Bool) : Bool :=
  match cx with | some id => p id | none => free

section
variable (s : State) (cx : Option (BitVec 16)) (core : Nat) {x k o : Nat}

theorem State.resolvePlace_ownLocal (h : x < 0x200000) : s.resolvePlace cx core x =
    .window (locLocal core x) x (0x200000 - x) (ownedBy cx true (fun id => s.coreGranted id core)) := if_pos h

theorem State.resolvePlace_ownCluster (h : o < 0x1000000) : s.resolvePlace cx core (0x100000000 + o) =
    .window (locCluster (clusterOf core) o) o (0x1000000 - o) (ownedBy cx true (fun id => s.granted id (clusterOf core))) := by
  have ho : 0x100000000 + o - 0x100000000 = o := by omega
  have hl : 0x101000000 - (0x100000000 + o) = 0x1000000 - o := by omega
  simp only [State.resolvePlace]
  rw [if_neg (by omega), if_pos (by omega), ho, hl]; rfl

theorem State.resolvePlace_ownDie (h : o < 0x4000000) : s.resolvePlace cx core (0x200000000 + o) =
    .window (locDie (dieOf core) o) o (0x4000000 - o) (ownedBy cx true (fun id => s.dieGranted id (dieOf core))) := by
  have ho : 0x200000000 + o - 0x200000000 = o := by omega
  have hl : 0x204000000 - (0x200000000 + o) = 0x4000000 - o := by omega
  simp only [State.resolvePlace]
  rw [if_neg (by omega), if_neg (by omega), if_pos (by omega), ho, hl]; rfl

theorem State.resolvePlace_local (hk : k < 768) (ho : o < 0x200000) :
    s.resolvePlace cx core (0x10000000000 + k * 0x200000 + o) =
      .window (locLocal k o) o (0x200000 - o) (ownedBy cx false (fun id => s.coreGranted id k)) := by
  have hx : 0x10000000000 + k * 0x200000 + o - 0x10000000000 = k * 0x200000 + o := by omega
  have hd : (k * 0x200000 + o) / 0x200000 = k := by omega
  have hm : (k * 0x200000 + o) % 0x200000 = o := by omega
  simp only [State.resolvePlace]
  rw [if_neg (by omega), if_neg (by omega), if_neg (by omega), if_pos (by omega), hx, hd, hm, ← Nat.add_assoc]; rfl

theorem State.resolvePlace_cluster (hk : k < 96) (ho : o < 0x1000000) :
    s.resolvePlace cx core (0x20000000000 + k * 0x1000000 + o) =
      .window (locCluster k o) o (0x1000000 - o)
        (ownedBy cx false (fun id => s.fuses.clusterPresent k && s.granted id k)) := by
  have hx : 0x20000000000 + k * 0x1000000 + o - 0x20000000000 = k * 0x1000000 + o := by omega
  have hd : (k * 0x1000000 + o) / 0x1000000 = k := by omega
  have hm : (k * 0x1000000 + o) % 0x1000000 = o := by omega
  simp only [State.resolvePlace]
  rw [if_neg (by omega), if_neg (by omega), if_neg (by omega), if_neg (by omega), if_pos (by omega), hx, hd, hm,
    ← Nat.add_assoc]; rfl

theorem State.resolvePlace_die (hk : k < 8) (ho : o < 0x4000000) :
    s.resolvePlace cx core (0x30000000000 + k * 0x4000000 + o) =
      .window (locDie k o) o (0x4000000 - o) (ownedBy cx false (fun id => s.dieGranted id k)) := by
  have hx : 0x30000000000 + k * 0x4000000 + o - 0x30000000000 = k * 0x4000000 + o := by omega
  have hd : (k * 0x4000000 + o) / 0x4000000 = k := by omega
  have hm : (k * 0x4000000 + o) % 0x4000000 = o := by omega
  simp only [State.resolvePlace]
  rw [if_neg (by omega), if_neg (by omega), if_neg (by omega), if_neg (by omega), if_neg (by omega), if_pos (by omega), hx, hd,
    hm, ← Nat.add_assoc]; rfl

theorem State.resolvePlace_noWindow (h₁ : 0x200000 ≤ x) (h₂ : ¬(0x100000000 ≤ x ∧ x < 0x101000000))
    (h₃ : ¬(0x200000000 ≤ x ∧ x < 0x204000000)) (h₄ : ¬(0x10000000000 ≤ x ∧ x < 0x10000000000 + 768 * 0x200000))
    (h₅ : ¬(0x20000000000 ≤ x ∧ x < 0x20000000000 + 96 * 0x1000000))
    (h₆ : ¬(0x30000000000 ≤ x ∧ x < 0x30000000000 + 8 * 0x4000000)) : s.resolvePlace cx core x = .noWindow := by
  simp only [State.resolvePlace]
  rw [if_neg (Nat.not_lt.mpr h₁), if_neg h₂, if_neg h₃, if_neg h₄, if_neg h₅, if_neg h₆]

end

/-- An access in an own window, which a core that runs no context may use. -/
theorem State.locate_of_ownWindow {s : State} {a : Word} {n : Nat} {w : Bool} {loc off left : Nat} {p : BitVec 16 → Bool}
    (h : s.resolve s.cx s.coreId a = .window loc off left (ownedBy (s.cx.map (·.id)) true p)) (hn : n ≤ left) :
    s.locate a n w = match s.cx with
      | some c => if p c.id then .ok loc else .error (.prot, a)
      | none => .ok loc := by
  rw [State.locate_of_window h hn]
  cases s.cx <;> rfl

/-- An access in a window by a unit's number, which only a context uses. -/
theorem State.locate_of_unitWindow {s : State} {a : Word} {n : Nat} {w : Bool} {loc off left : Nat} {p : BitVec 16 → Bool}
    (h : s.resolve s.cx s.coreId a = .window loc off left (ownedBy (s.cx.map (·.id)) false p)) (hn : n ≤ left) :
    s.locate a n w = match s.cx with
      | some c => if p c.id then .ok loc else .error (.prot, a)
      | none => .error (.prot, a) := by
  rw [State.locate_of_window h hn]
  cases s.cx <;> rfl

/-- An access that lies in one 4 KiB block lies whole in the window that its first byte is in. -/
theorem length_le_left {y n m l : Nat} (hn : y % 4096 + n ≤ 4096) (ho : y % 4096 = m % 4096) (hl : l % 4096 = 0)
    (hlt : m < l) : n ≤ l - m := by omega

/-- Settles O30: by the rule of Table 4-2 that resolves the address, and down the walk by the first level that ends it. -/
theorem addressTranslation : Obligations.AddressTranslation := by
  unfold Obligations.AddressTranslation
  intro s a n w hn hb at_ x ends
  have hx : x % 4096 = a.toNat % 4096 := by simp only [x]; omega
  refine ⟨fun hp => ?_, fun hp => ?_⟩
  · have res : s.resolve s.cx s.coreId a = s.resolvePlace (s.cx.map (·.id)) s.coreId x := State.resolve_place hp
    refine ⟨⟨fun h => ?_, fun o ho h => ?_, fun o ho h => ?_⟩, fun k o ho hk h => ?_, fun k o ho hk h => ?_,
      fun k o ho hk h => ?_, fun h₁ h₂ h₃ h₄ h₅ h₆ => ?_⟩
    · exact State.locate_of_ownWindow (res.trans (State.resolvePlace_ownLocal _ _ _ h))
        (length_le_left hb hx.symm (by decide) h)
    · exact State.locate_of_ownWindow (res.trans ((congrArg _ ho).trans (State.resolvePlace_ownCluster _ _ _ h)))
        (length_le_left hb (by omega) (by decide) h)
    · exact State.locate_of_ownWindow (res.trans ((congrArg _ ho).trans (State.resolvePlace_ownDie _ _ _ h)))
        (length_le_left hb (by omega) (by decide) h)
    · exact State.locate_of_unitWindow (res.trans ((congrArg _ ho).trans (State.resolvePlace_local _ _ _ hk h)))
        (length_le_left hb (by omega) (by decide) h)
    · exact State.locate_of_unitWindow (res.trans ((congrArg _ ho).trans (State.resolvePlace_cluster _ _ _ hk h)))
        (length_le_left hb (by omega) (by decide) h)
    · exact State.locate_of_unitWindow (res.trans ((congrArg _ ho).trans (State.resolvePlace_die _ _ _ hk h)))
        (length_le_left hb (by omega) (by decide) h)
    · exact State.locate_of_noWindow (res.trans (State.resolvePlace_noWindow _ _ _ h₁ h₂ h₃ h₄ h₅ h₆))
  · refine ⟨fun hc => State.locate_of_nothing (State.resolve_noContext hp hc), fun c hc => ?_⟩
    intro covers
    refine ⟨fun g hg hu => State.locate_of_range (State.resolve_range hp hc (Ctx.findRange_of_unique hg hu)), fun hnone => ?_⟩
    have hg : c.findRange a = none := Ctx.findRange_eq_none hnone
    refine ⟨fun h => State.locate_of_nothing (State.resolve_unmapped hp hc hg h), fun h0 => ?_⟩
    intro index entry dead broken ended root hroot
    have walked : ∀ {y}, s.pageWalk root a.toNat = y → s.resolve s.cx s.coreId a = y :=
      fun h => (State.resolve_walk h0 hc hg).trans h
    have stop₃ := fun y h => walked (State.pageWalk_stop₃ (x := y) hroot h)
    refine ⟨State.locate_of_walkEnd stop₃, fun p r₃ w₃ he => State.locate_of_walkPage stop₃ he (by decide),
      fun t₂ r₃ w₃ e₃ => ?_⟩
    have s₃ := State.walkStep_table (r := true) (w₀ := true) (kinds := [1, 3]) (size := 5) e₃ (by decide) (by decide) (by decide)
    have stop₂ := fun y h => walked (State.pageWalk_stop₂ (x := y) hroot s₃ h)
    refine ⟨State.locate_of_walkEnd stop₂, fun p r₂ w₂ he => State.locate_of_walkPage stop₂ he (by decide),
      fun t₁ r₂ w₂ e₂ => ?_⟩
    have s₂ := State.walkStep_table (r := r₃) (w₀ := w₃) (kinds := [1, 3]) (size := 4) e₂ (by decide) (by decide) (by decide)
    have stop₁ := fun y h => walked (State.pageWalk_stop₁ (x := y) hroot s₃ s₂ h)
    refine ⟨State.locate_of_walkEnd stop₁, fun p r₁ w₁ he => State.locate_of_walkPage stop₁ he (by decide),
      fun t₀ r₁ w₁ e₁ => ?_, fun t₀ r₁ w₁ e₁ => ?_⟩
    · have s₁ := State.walkStep_table (r := r₃ && r₂) (w₀ := w₃ && w₂) (kinds := [1, 2, 3]) (size := 3) e₁ (by decide)
        (by decide) (by decide)
      have stop₀ := fun y h => walked (State.pageWalk_stop₀ (x := y) hroot s₃ s₂ s₁ h)
      refine ⟨State.locate_of_walkEnd stop₀, fun p r₀ w₀ he => ?_⟩
      have aligned : p % 2 ^ 12 = 0 := State.WalkEntry.next_aligned he
      have := State.locate_of_walkPage (n := n) (w := w) stop₀ he (by decide)
      rwa [if_pos aligned] at this
    · have s₁ := State.walkStep_table (r := r₃ && r₂) (w₀ := w₃ && w₂) (kinds := [1, 2, 3]) (size := 3) e₁ (by decide)
        (by decide) (by decide)
      have stop₀ := fun y h => walked (State.pageWalk_stop₀ (x := y) hroot s₃ s₂ s₁ h)
      exact ⟨State.locate_of_walkEnd stop₀, fun p r₀ w₀ he => State.locate_of_walkPage stop₀ he (by decide)⟩

end Sys2Proof.Machine
end

section
/-! The instructions of translation (R77 to R79): what they find once their companion core's stores have performed, the checks of
a range descriptor, and the word of a probe. -/

namespace Sys2Proof.Machine

/-! ### A companion core after its stores have performed -/

/-- Of the executing companion core, its own stores change their buffer and the posted traps alone as they perform. -/
theorem State.drainAll_me (s : State) : (s.drainAll s.cur).cur = s.cur
    ∧ ∃ sb po, (s.drainAll s.cur).me = { s.me with sbuf := sb, posted := po } := by
  obtain ⟨m, p, q, l, n, u, f, x, h⟩ := (s.drain_frame s.cur (fun _ => true)).eq
  have hu : s.drainAll s.cur = _ := h
  rw [hu]
  exact ⟨rfl, _, x, by simp [State.me]; rfl⟩

theorem State.drainAll_rd (s : State) (r : SReg) : (s.drainAll s.cur).rd r = s.rd r := by
  obtain ⟨-, sb, po, h⟩ := s.drainAll_me
  rw [State.rd, h]; rfl

theorem State.drainAll_h (s : State) : (s.drainAll s.cur).me.h = s.me.h := by
  obtain ⟨-, sb, po, h⟩ := s.drainAll_me
  rw [h]

theorem State.drainAll_unitPc (s : State) : (s.drainAll s.cur).me.unitPc = s.me.unitPc := by
  obtain ⟨-, sb, po, h⟩ := s.drainAll_me
  rw [h]; rfl

/-! ### The outcomes of an instruction that its companion core's stores perform before -/

section
variable {i : Instr} {s t : State} {body : State → Except Stop State}

theorem GivesFired.of_drained {P : State → Prop} (hp : s.prefixNow.bare = true)
    (h : exec i s = fired (drainedOp s everyRole body)) (hb : body (s.drainAll s.cur) = .ok t) (hP : P t.settled) :
    GivesFired i s P :=
  ⟨t.settled, by rw [h, drainedOp_in _ (mem_everyRole _) hp, hb]; rfl, hP⟩

theorem RaisesFrom.of_drained_fired {c : Cause} {ea : Word} (hp : s.prefixNow.bare = true)
    (h : exec i s = fired (drainedOp s everyRole body)) (hb : body (s.drainAll s.cur) = .error (.trap c ea)) :
    RaisesFrom i s (s.drainAll s.cur) c ea s.me.unitPc :=
  .inr (by rw [h, drainedOp_in _ (mem_everyRole _) hp, hb, ← s.drainAll_unitPc]; rfl)

theorem Gives.of_drained {P : State → Prop} (hp : s.prefixNow.bare = true) (h : exec i s = drainedOp s everyRole body)
    (hb : body (s.drainAll s.cur) = .ok t) (hP : P t.settled) : Gives i s P :=
  ⟨t.settled, by rw [h, drainedOp_in _ (mem_everyRole _) hp, hb]; rfl, hP⟩

theorem RaisesFrom.of_drained {c : Cause} {ea : Word} (hp : s.prefixNow.bare = true)
    (h : exec i s = drainedOp s everyRole body) (hb : body (s.drainAll s.cur) = .error (.trap c ea)) :
    RaisesFrom i s (s.drainAll s.cur) c ea s.me.unitPc :=
  .inl (by rw [h, drainedOp_in _ (mem_everyRole _) hp, hb, ← s.drainAll_unitPc]; rfl)

end

/-! ### The descriptor of a range slot (R77, Table 4-7) -/

theorem fld_eq {m : Nat} (c : BitVec m) (lo n : Nat) : fld c lo n = (c.extractLsb' lo n).toNat := by
  rw [fld, bits, BitVec.extractLsb'_toNat, Nat.shiftRight_eq_div_pow]

theorem fldW_eq {m : Nat} (c : BitVec m) (lo : Nat) : fldW c lo = c.extractLsb' lo 64 := by
  rw [fldW, fld_eq, BitVec.ofNat_toNat, BitVec.setWidth_eq]

theorem fld_one_eq_one {m : Nat} (c : BitVec m) (lo : Nat) : (fld c lo 1 = 1) = (c.getLsbD lo = true) := by
  rw [fld, bits, BitVec.getLsbD, Nat.testBit_eq_decide_div_mod_eq, decide_eq_true_eq, Nat.pow_one]

theorem rangeOf_eq (d : BitVec 256) : rangeOf d =
    ⟨d.extractLsb' 0 64, d.extractLsb' 64 64, d.extractLsb' 128 64, d.getLsbD 192, d.getLsbD 193⟩ := by
  simp only [rangeOf, fldW_eq, fld_one_eq_one, Bool.decide_eq_true]

/-- An address below 2^56 is unbacked exactly where it lies in one of the holes of the map (Table 4-1, R68). -/
theorem Fuses.backed_eq_false_iff (f : Fuses) {pa : Nat} (h : pa < 2 ^ 56) :
    f.backed pa = false ↔ ∃ x ∈ f.holes, x.1 ≤ pa ∧ pa < x.2 := by
  have mem : ∀ x, x ∈ f.holes ↔ (∃ i, i < 16 ∧ (i * 0xC00000000 + (f.stackSize[i]?).getD 0, (i + 1) * 0xC00000000) = x)
      ∨ x = (0xC000000000, 0x10000000000) ∨ x = (0x20000000000, 2 ^ 56) := by
    intro x; simp [Fuses.holes]
  unfold Fuses.backed
  by_cases hs : pa / 0xC00000000 < 16
  · rw [dif_pos hs, decide_eq_false_iff_not]
    have hg : (f.stackSize[pa / 0xC00000000]?).getD 0 = f.stackSize[pa / 0xC00000000] := by simp [hs]
    constructor
    · intro hb
      refine ⟨_, (mem _).mpr (.inl ⟨pa / 0xC00000000, hs, rfl⟩), ?_, ?_⟩
      · simp only [hg]; omega
      · simp only; omega
    · rintro ⟨x, hx, h₁, h₂⟩
      rcases (mem x).mp hx with ⟨i, hi, rfl⟩ | rfl | rfl
      · simp only at h₁ h₂
        obtain rfl : i = pa / 0xC00000000 := by omega
        rw [hg] at h₁; omega
      · simp only at h₁ h₂; omega
      · simp only at h₁ h₂; omega
  · rw [dif_neg hs]
    simp only [Bool.and_eq_false_iff, decide_eq_false_iff_not]
    constructor
    · intro hb
      by_cases hlow : pa < 0x10000000000
      · exact ⟨_, (mem _).mpr (.inr (.inl rfl)), by simp only; omega, hlow⟩
      · exact ⟨_, (mem _).mpr (.inr (.inr rfl)), by simp only; omega, h⟩
    · rintro ⟨x, hx, h₁, h₂⟩
      rcases (mem x).mp hx with ⟨i, hi, rfl⟩ | rfl | rfl <;> simp only at h₁ h₂ <;> omega

/-- A stretch that does not end past 2^56 has a hole exactly where a byte of it is unbacked. -/
theorem Fuses.hasHole_iff (f : Fuses) {t n : Nat} (hn : 0 < n) (h : t + n ≤ 2 ^ 56) :
    f.hasHole t n = true ↔ ∃ pa, t ≤ pa ∧ pa < t + n ∧ f.backed pa = false := by
  simp only [Fuses.hasHole, List.any_eq_true, Bool.and_eq_true, decide_eq_true_eq]
  constructor
  · rintro ⟨x, hx, ⟨h₁, h₂⟩, h₃⟩
    refine ⟨max t x.1, by omega, by omega, (f.backed_eq_false_iff (by omega)).mpr ⟨x, hx, by omega, by omega⟩⟩
  · rintro ⟨pa, h₁, h₂, hb⟩
    obtain ⟨x, hx, h₃, h₄⟩ := (f.backed_eq_false_iff (by omega)).mp hb
    exact ⟨x, hx, ⟨by omega, by omega⟩, by omega⟩

/-- A slot is valid and its range meets the one from `base` to `limit`. -/
def rangeMeets (base limit : Nat) (x : Option Range) : Bool :=
  match x with
  | some g => decide (base < g.limit.toNat ∧ g.base.toNat < limit)
  | none => false

/-- Another valid slot of the context meets the range from `base` to `limit`. -/
theorem rangeOverlap_iff (v : Vector (Option Range) 64) (b base limit : Nat) :
    (List.range 64).any (fun i => decide (i ≠ b) && rangeMeets base limit (v[i]?).join) = true
    ↔ ∃ i g, i < 64 ∧ i ≠ b ∧ v[i]? = some (some g) ∧ base < g.limit.toNat ∧ g.base.toNat < limit := by
  simp only [List.any_eq_true, List.mem_range, Bool.and_eq_true, decide_eq_true_eq]
  constructor
  · rintro ⟨i, hi, hb, hg⟩
    cases hv : (v[i]?).join with
    | none => rw [hv] at hg; exact absurd hg Bool.false_ne_true
    | some g =>
      rw [hv] at hg
      exact ⟨i, g, hi, hb, Option.join_eq_some_iff.mp hv, of_decide_eq_true hg⟩
  · rintro ⟨i, g, hi, hb, hv, hg⟩
    refine ⟨i, hi, hb, ?_⟩
    rw [hv]
    exact decide_eq_true hg

/-! ### The word of a probe (Table 4-8) -/

/-- The size code of a page that a walk finds is one of five. -/
theorem State.walkStep_page_size {s : State} {a t : Nat} {r w : Bool} {l : WalkLevel} {pa size : Nat} {r' w' : Bool}
    (h : s.walkStep a t r w l = .stop (.page pa r' w' size)) : size = l.size := by
  simp only [State.walkStep] at h
  split at h
  · cases h
  split at h
  · cases h
  split at h
  · cases h
  split at h
  · split at h <;> cases h
    rfl
  · cases h

theorem State.pageWalk_size {s : State} {root a pa size : Nat} {r w : Bool} (h : s.pageWalk root a = .page pa r w size) :
    size < 8 := by
  unfold State.pageWalk at h
  split at h
  · cases h
  split at h
  · next h₃ => subst h; rw [State.walkStep_page_size h₃]; decide
  split at h
  · next h₂ => subst h; rw [State.walkStep_page_size h₂]; decide
  split at h
  · next h₁ => subst h; rw [State.walkStep_page_size h₁]; decide
  split at h
  · next h₀ => subst h; rw [State.walkStep_page_size h₀]; split <;> decide
  · cases h

theorem State.resolvePlace_ne_page {s : State} {cx : Option (BitVec 16)} {core x pa size : Nat} {r w : Bool} :
    s.resolvePlace cx core x ≠ .page pa r w size := by
  unfold State.resolvePlace
  intro h
  simp only at h
  repeat' split at h
  all_goals cases h

theorem State.resolve_page_size {s : State} {cx : Option Ctx} {core : Nat} {a : Word} {pa size : Nat} {r w : Bool}
    (h : s.resolve cx core a = .page pa r w size) : size < 8 := by
  unfold State.resolve at h
  split at h
  · exact absurd h State.resolvePlace_ne_page
  split at h
  · cases h
  split at h
  · cases h
  split at h
  · exact State.pageWalk_size h
  · cases h

/-- The fields of a probe's word, laid end to end. -/
theorem probeFields (w r : Bool) {size source : Nat} (at_ : Nat) (hs : size < 8) (hso : source < 4) :
    BitVec.ofNat 64 (2 ^ 63 + boolNat w * 2 ^ 62 + boolNat r * 2 ^ 61 + size * 2 ^ 58 + source * 2 ^ 56 + at_ % 2 ^ 56)
      = BitVec.ofBool true ++ BitVec.ofBool w ++ BitVec.ofBool r ++ BitVec.ofNat 3 size ++ BitVec.ofNat 2 source
        ++ BitVec.ofNat 56 at_ := by
  apply BitVec.eq_of_toNat_eq
  have hb : ∀ b : Bool, (BitVec.ofBool b).toNat = boolNat b := by decide
  have hw : boolNat w ≤ 1 := by cases w <;> decide
  have hr : boolNat r ≤ 1 := by cases r <;> decide
  have ht : boolNat true = 1 := rfl
  have cat : ∀ {m k : Nat} (x : BitVec m) (y : BitVec k), (x ++ y).toNat = x.toNat * 2 ^ k + y.toNat := fun x y => by
    rw [BitVec.toNat_append, ← Nat.shiftLeft_add_eq_or_of_lt y.isLt, Nat.shiftLeft_eq]
  simp only [cat, hb, ht, BitVec.toNat_ofNat]
  omega


/-! ### The status code of a descriptor (Table 4-7) -/

section
variable {f : Fuses} {v : Vector (Option Range) 64} {r : BitVec 256} {b : Nat}

/-- A descriptor whose limits are misplaced for slot range. -/
abbrev rangeMisplaced (r : BitVec 256) : Prop :=
  (rangeOf r).base.toNat % 4096 ≠ 0 ∨ (rangeOf r).limit.toNat % 4096 ≠ 0
    ∨ (rangeOf r).limit.toNat ≤ (rangeOf r).base.toNat ∨ 0xFF00000000000000 ≤ (rangeOf r).limit.toNat - 1

/-- Another valid slot overlaps it. -/
def rangeOverlaps (v : Vector (Option Range) 64) (b : Nat) (r : BitVec 256) : Prop :=
  ∃ i g, i < 64 ∧ i ≠ b ∧ v[i]? = some (some g) ∧ (rangeOf r).base.toNat < g.limit.toNat
    ∧ g.base.toNat < (rangeOf r).limit.toNat

/-- Its target ends past 2^56, or a byte of it is unbacked. -/
def rangeUnbacked (f : Fuses) (r : BitVec 256) : Prop :=
  let at_ := ((rangeOf r).base + (rangeOf r).offset).toNat
  let end_ := at_ + ((rangeOf r).limit.toNat - (rangeOf r).base.toNat)
  2 ^ 56 < end_ ∨ ∃ pa, at_ ≤ pa ∧ pa < end_ ∧ f.backed pa = false

/-- The fields that `rangeStatus` checks are those of the descriptor's range. -/
theorem rangeStatus_eq : rangeStatus f v r b =
    let g := rangeOf r
    let t := (g.base + g.offset).toNat
    let n := g.limit.toNat - g.base.toNat
    if r.extractLsb' 194 62 ≠ 0 then 4
    else if rangeMisplaced r then 2
    else if (List.range 64).any (fun i => decide (i ≠ b) && rangeMeets g.base.toNat g.limit.toNat (v[i]?).join) then 1
    else if 2 ^ 56 < t + n then 3
    else if f.hasHole t n then 3 else 0 := by
  have h0 : fld r 194 62 ≠ 0 ↔ r.extractLsb' 194 62 ≠ 0 := by
    rw [fld_eq, ne_eq, ne_eq, ← BitVec.toNat_inj]; rfl
  simp only [rangeStatus, rangeMisplaced, h0]
  simp only [rangeOf_eq, fld_eq, BitVec.toNat_add]
  rfl

theorem rangeStatus_reserved (h : r.extractLsb' 194 62 ≠ 0) : rangeStatus f v r b = 4 := by
  rw [rangeStatus_eq]; exact if_pos h

variable (h₄ : ¬r.extractLsb' 194 62 ≠ 0)
include h₄

theorem rangeStatus_misplaced (h : rangeMisplaced r) : rangeStatus f v r b = 2 := by
  rw [rangeStatus_eq]; simp only
  rw [if_neg h₄, if_pos h]

variable (h₂ : ¬rangeMisplaced r)
include h₂

theorem rangeStatus_overlaps (h : rangeOverlaps v b r) : rangeStatus f v r b = 1 := by
  rw [rangeStatus_eq]; simp only
  rw [if_neg h₄, if_neg h₂, if_pos ((rangeOverlap_iff _ _ _ _).mpr h)]

variable (h₁ : ¬rangeOverlaps v b r)
include h₁

/-- What is left to check: the end of the target, and its holes. -/
theorem rangeStatus_target : rangeStatus f v r b = 3 ∧ rangeUnbacked f r ∨ rangeStatus f v r b = 0 ∧ ¬rangeUnbacked f r := by
  have hlt : (rangeOf r).base.toNat < (rangeOf r).limit.toNat :=
    Nat.not_le.mp fun h => h₂ (.inr (.inr (.inl h)))
  rw [rangeStatus_eq]; simp only
  rw [if_neg h₄, if_neg h₂, if_neg (fun h => h₁ ((rangeOverlap_iff _ _ _ _).mp h))]
  by_cases hend : 2 ^ 56 < ((rangeOf r).base + (rangeOf r).offset).toNat
      + ((rangeOf r).limit.toNat - (rangeOf r).base.toNat)
  · exact .inl ⟨if_pos hend, .inl hend⟩
  · have holes := f.hasHole_iff (Nat.sub_pos_of_lt hlt) (Nat.not_lt.mp hend)
    rw [if_neg hend]
    by_cases hh : f.hasHole ((rangeOf r).base + (rangeOf r).offset).toNat
        ((rangeOf r).limit.toNat - (rangeOf r).base.toNat) = true
    · exact .inl ⟨if_pos hh, .inr (holes.mp hh)⟩
    · exact .inr ⟨if_neg hh, fun h => h.elim hend fun x => hh (holes.mpr x)⟩

theorem rangeStatus_unbacked (h : rangeUnbacked f r) : rangeStatus f v r b = 3 :=
  ((rangeStatus_target h₄ h₂ h₁).resolve_right fun x => x.2 h).1

theorem rangeStatus_inOrder (h : ¬rangeUnbacked f r) : rangeStatus f v r b = 0 :=
  ((rangeStatus_target h₄ h₂ h₁).resolve_left fun x => h x.2).1

end

/-! ### `rmap`, `rinv` and `rprobe` -/

section
variable {s z : State} {d a b : SReg} {v : Word} {c : Cause} {ea : Word}

theorem GivesFired.rmap (hp : s.prefixNow.bare = true)
    (h : (s.drainAll s.cur).rmap d (s.rd a) (s.rd b) = .ok (z.wr d v)) : GivesFired (.rmap d a b) s (WroteReg z d v 4) :=
  GivesFired.of_drained hp rfl (by simp only [State.drainAll_rd, h]; rfl) (WroteReg.mk z d v 4)

theorem RaisesFrom.rmap (hp : s.prefixNow.bare = true)
    (h : (s.drainAll s.cur).rmap d (s.rd a) (s.rd b) = .error (.trap c ea)) :
    RaisesFrom (.rmap d a b) s (s.drainAll s.cur) c ea s.me.unitPc :=
  RaisesFrom.of_drained_fired hp rfl (by simp only [State.drainAll_rd, h]; rfl)

theorem GivesFired.rinv (hp : s.prefixNow.bare = true)
    (h : (s.drainAll s.cur).rinv d (s.rd a) (s.rd b) = .ok (z.wr d v)) : GivesFired (.rinv d a b) s (WroteReg z d v 4) :=
  GivesFired.of_drained hp rfl (by simp only [State.drainAll_rd, h]; rfl) (WroteReg.mk z d v 4)

theorem RaisesFrom.rinv (hp : s.prefixNow.bare = true)
    (h : (s.drainAll s.cur).rinv d (s.rd a) (s.rd b) = .error (.trap c ea)) :
    RaisesFrom (.rinv d a b) s (s.drainAll s.cur) c ea s.me.unitPc :=
  RaisesFrom.of_drained_fired hp rfl (by simp only [State.drainAll_rd, h]; rfl)

end

section
variable {u : State} {d : SReg} {x k : Word}

theorem State.rmap_unprivileged (h : u.me.h = false) : u.rmap d x k = .error (.trap .prot 0) := by
  simp [State.rmap, h]

theorem State.rmap_misaligned (h : u.me.h = true) (hx : x.toNat % 32 ≠ 0) : u.rmap d x k = .error (.trap .align x) := by
  simp [State.rmap, h, hx]

theorem State.rmap_fault {c : Cause} {ea : Word} (h : u.me.h = true) (hx : x.toNat % 32 = 0)
    (hl : u.load (some 0) x 32 = .error (c, ea)) : u.rmap d x k = .error (.trap c ea) := by
  rw [State.rmap, if_neg (by simp [h]), if_neg (not_not_intro hx), hl]; rfl

variable {y : State} {bs : List Byte}

theorem State.rmap_noSlot (h : u.me.h = true) (hx : x.toNat % 32 = 0) (hl : u.load (some 0) x 32 = .ok (y, bs))
    (hk : 63 < k.toNat) : u.rmap d x k = .ok (y.wr d 5) := by
  rw [State.rmap, if_neg (by simp [h]), if_neg (not_not_intro hx), hl]
  exact if_pos hk

section
variable {c : Ctx} {code : Nat} (h : u.me.h = true) (hx : x.toNat % 32 = 0) (hl : u.load (some 0) x 32 = .ok (y, bs))
  (hk : k.toNat ≤ 63) (hc : y.cx = some c)
  (hcode : rangeStatus y.fuses c.ranges (BitVec.ofNat 256 (leNat bs)) k.toNat = code)
include h hx hl hk hc hcode

theorem State.rmap_status : u.rmap d x k = .ok (State.wr (if code = 0 then y.shootDown.setRanges
    (fun v => v.setIfInBounds k.toNat (some (rangeOf (BitVec.ofNat 256 (leNat bs))))) else y) d (BitVec.ofNat 64 code)) := by
  rw [State.rmap, if_neg (by simp [h]), if_neg (not_not_intro hx), hl]
  refine (if_neg (Nat.not_lt.mpr hk)).trans ?_
  simp only [hc, recordOf, hcode]

theorem State.rmap_refused (h0 : code ≠ 0) : u.rmap d x k = .ok (y.wr d (BitVec.ofNat 64 code)) := by
  rw [State.rmap_status h hx hl hk hc hcode, if_neg h0]

theorem State.rmap_mapped (h0 : code = 0) : u.rmap d x k = .ok ((y.shootDown.setRanges
    (fun v => v.setIfInBounds k.toNat (some (rangeOf (BitVec.ofNat 256 (leNat bs)))))).wr d 0) := by
  rw [State.rmap_status h hx hl hk hc hcode, if_pos h0, h0]; rfl

end

theorem State.rinv_unprivileged (h : u.me.h = false) : u.rinv d x k = .error (.trap .prot 0) := by
  simp [State.rinv, h]

/-- `rinv` by its kind: one slot, every cached leaf, or every slot. -/
theorem State.rinv_eq (h : u.me.h = true) : u.rinv d x k =
    if k = 0 then
      if 63 < x.toNat then .ok (u.wr d 5)
      else .ok ((u.shootDown.setRanges (fun v => v.setIfInBounds x.toNat none)).wr d 0)
    else if k = 1 then .ok (u.shootDown.wr d 0)
    else if k = 2 then .ok ((u.shootDown.setRanges (fun _ => Vector.replicate 64 none)).wr d 0)
    else .ok (u.wr d 5) := by
  rw [State.rinv, if_neg (by simp [h])]

end

theorem exec_rprobe (d a : SReg) (s : State) : exec (.rprobe d a) s = drainedOp s everyRole (fun u =>
    if u.resolve u.cx u.coreId (u.rd a) = .broken then .error (.trap .machine (u.rd a))
    else .ok (((u.spend u.cx (u.walkBytes u.cx u.coreId (u.rd a))).wr d
      (probeWord (u.resolve u.cx u.coreId (u.rd a)))).advance 4)) := rfl

section
variable {s : State} {d a : SReg} (hp : s.prefixNow.bare = true)
include hp

theorem RaisesFrom.rprobe
    (h : (s.drainAll s.cur).resolve (s.drainAll s.cur).cx (s.drainAll s.cur).coreId (s.rd a) = .broken) :
    RaisesFrom (.rprobe d a) s (s.drainAll s.cur) .machine (s.rd a) s.me.unitPc :=
  RaisesFrom.of_drained hp (exec_rprobe d a s) (by simp only [State.drainAll_rd, h, if_true])

theorem Gives.rprobe {x : Resolved} {v : Word}
    (h : (s.drainAll s.cur).resolve (s.drainAll s.cur).cx (s.drainAll s.cur).coreId (s.rd a) = x) (hx : x ≠ .broken)
    (hv : probeWord x = v) :
    Gives (.rprobe d a) s (WroteReg ((s.drainAll s.cur).spend (s.drainAll s.cur).cx
      ((s.drainAll s.cur).walkBytes (s.drainAll s.cur).cx (s.drainAll s.cur).coreId (s.rd a))) d v 4) :=
  Gives.of_drained hp (exec_rprobe d a s) (by simp only [State.drainAll_rd, h, if_neg hx, hv]) (WroteReg.mk _ d v 4)

end

/-- Settles O29: the checks of the body in their order, on the state in which the companion core's stores have performed. -/
theorem translationInstructions : Obligations.TranslationInstructions := by
  unfold Obligations.TranslationInstructions
  intro s d a b hp u x k map inv
  have hh : u.me.h = s.me.h := s.drainAll_h
  refine ⟨fun h => ?_, fun h => ?_, ?_⟩
  · rw [← hh] at h
    exact ⟨RaisesFrom.rmap hp (State.rmap_unprivileged h), RaisesFrom.rinv hp (State.rinv_unprivileged h)⟩
  · rw [← hh] at h
    have kind := State.rinv_eq (d := d) (x := x) (k := k) h
    refine ⟨fun hx => RaisesFrom.rmap hp (State.rmap_misaligned h hx),
      fun c ea hx hl => RaisesFrom.rmap hp (State.rmap_fault h hx hl), fun y bs hx hl => ?_,
      fun hk hx => ?_, fun hk hx => ?_, fun hk => ?_, fun hk => ?_, fun hk => ?_⟩
    · intro r new
      refine ⟨fun hk => GivesFired.rmap hp (State.rmap_noSlot h hx hl hk), fun c hk hc => ?_⟩
      intro base limit at_ end_ reserved misplaced overlaps unbacked
      have hnew : rangeOf r = new := rangeOf_eq r
      have hmis : misplaced = rangeMisplaced r := by unfold rangeMisplaced; rw [hnew]
      have hover : overlaps = rangeOverlaps c.ranges k.toNat r := by unfold rangeOverlaps; rw [hnew]
      have hun : unbacked = rangeUnbacked y.fuses r := by unfold rangeUnbacked; rw [hnew]
      rw [hmis, hover, hun, ← hnew]
      have refused : ∀ n, n ≠ 0 → rangeStatus y.fuses c.ranges r k.toNat = n → map y (BitVec.ofNat 64 n) :=
        fun n h0 hn => GivesFired.rmap hp (State.rmap_refused h hx hl hk hc hn h0)
      exact ⟨fun h₄ => refused 4 (by decide) (rangeStatus_reserved h₄),
        fun h₄ h₂ => refused 2 (by decide) (rangeStatus_misplaced h₄ h₂),
        fun h₄ h₂ h₁ => refused 1 (by decide) (rangeStatus_overlaps h₄ h₂ h₁),
        fun h₄ h₂ h₁ h₃ => refused 3 (by decide) (rangeStatus_unbacked h₄ h₂ h₁ h₃),
        fun h₄ h₂ h₁ h₃ => GivesFired.rmap hp
          (State.rmap_mapped h hx hl hk hc (rangeStatus_inOrder h₄ h₂ h₁ h₃) rfl)⟩
    · exact GivesFired.rinv hp (kind.trans ((if_pos hk).trans (if_pos hx)))
    · exact GivesFired.rinv hp (kind.trans ((if_pos hk).trans (if_neg (Nat.not_lt.mpr hx))))
    · exact GivesFired.rinv hp (kind.trans ((if_neg (by rw [hk]; decide)).trans (if_pos hk)))
    · exact GivesFired.rinv hp (kind.trans ((if_neg (by rw [hk]; decide)).trans ((if_neg (by rw [hk]; decide)).trans
        (if_pos hk))))
    · have ne : ∀ n : Nat, n ≤ 2 → k ≠ BitVec.ofNat 64 n := by
        intro n hn e
        rw [e, BitVec.toNat_ofNat] at hk; omega
      exact GivesFired.rinv hp (kind.trans ((if_neg (ne 0 (by decide))).trans ((if_neg (ne 1 (by decide))).trans
        (if_neg (ne 2 (by decide))))))
  · intro found z shows
    refine ⟨fun h => RaisesFrom.rprobe hp h, fun h => ?_, fun loc off left owned h => ?_, fun pa r w h => ?_,
      fun pa r w size h => ?_⟩
    · rcases h with h | h
      · exact Gives.rprobe hp h Resolved.noConfusion rfl
      · exact Gives.rprobe hp h Resolved.noConfusion rfl
    · exact Gives.rprobe hp h Resolved.noConfusion (probeFields owned owned off (by decide) (by decide))
    · exact Gives.rprobe hp h Resolved.noConfusion (probeFields w r pa (by decide) (by decide))
    · exact Gives.rprobe hp h Resolved.noConfusion (probeFields w r pa (State.resolve_page_size h) (by decide))

end Sys2Proof.Machine
end

section
/-! Which operations of the model keep every memory canonical (R68, R101, R152): the form of the claim for states, cores, partial
results and outcomes, and the operations of Machine/Ops. One lemma for each operation, of the same name. -/

namespace Sys2Proof.Machine

/-! ### The forms of the claim -/

/-- Whatever `r` gives has `P`. -/
def Yields {ε α : Type} (P : α → Prop) (r : Except ε α) : Prop := ∀ a, r = .ok a → P a

/-- The next state, where there is one, has canonical memories. -/
def Keeps (o : Host.Outcome State Fault Refusal) : Prop := ∀ t, o = .next t → t.MemWf

section
variable {ε α β : Type} {P : α → Prop} {Q : β → Prop}

theorem Yields.ok {a : α} (h : P a) : Yields P (.ok a : Except ε α) := by
  rintro _ ⟨⟩; exact h

theorem Yields.error {e : ε} : Yields P (.error e : Except ε α) := by
  rintro _ ⟨⟩

theorem Yields.bind {r : Except ε α} {f : α → Except ε β} (h : Yields P r) (hf : ∀ a, P a → Yields Q (f a)) :
    Yields Q (r >>= f) := by
  cases r with
  | error e => exact Yields.error
  | ok a => exact hf a (h a rfl)

/-- A step whose own result does not matter. -/
theorem Yields.after {r : Except ε α} {f : α → Except ε β} (hf : ∀ a, Yields Q (f a)) : Yields Q (r >>= f) :=
  Yields.bind (P := fun _ => True) (fun _ _ => trivial) fun a _ => hf a

theorem Yields.ite {c : Prop} [Decidable c] {x y : Except ε α} (hx : Yields P x) (hy : Yields P y) :
    Yields P (if c then x else y) := by
  split
  · exact hx
  · exact hy

theorem Yields.mono {P' : α → Prop} {r : Except ε α} (h : Yields P r) (hP : ∀ a, P a → P' a) : Yields P' r :=
  fun a ha => hP a (h a ha)

theorem Yields.foldlM {f : α → β → Except ε α} {a : α} (l : List β) (h : P a) (hf : ∀ a b, P a → Yields P (f a b)) :
    Yields P (l.foldlM f a) := by
  induction l generalizing a with
  | nil => exact Yields.ok h
  | cons b l ih =>
    rw [List.foldlM_cons]
    exact (hf a b h).bind fun _ ha => ih ha

theorem Yields.liftFlt {r : Except Flt α} (h : Yields P r) : Yields P (liftFlt r) := by
  cases r with
  | error e => exact Yields.error
  | ok a => exact Yields.ok (h a rfl)

theorem Yields.lift {s : State} {r : Except Flt α} (h : Yields P r) : Yields P (s.lift r) := by
  cases r with
  | error e => exact Yields.error
  | ok a => exact Yields.ok (h a rfl)

end

theorem Keeps.next {t : State} (h : t.MemWf) : Keeps (.next t) := by
  rintro _ ⟨⟩; exact h

theorem Keeps.ite {c : Prop} [Decidable c] {x y : Host.Outcome State Fault Refusal} (hx : Keeps x) (hy : Keeps y) :
    Keeps (if c then x else y) := by
  split
  · exact hx
  · exact hy

/-! ### Cores -/

section
variable {c : Core} (h : c.Wf)
include h

theorem Core.Wf.rs : c.rs.Wf := by
  obtain ⟨hr, -, -, -⟩ := h
  exact hr

theorem Core.Wf.comp (r : Role) : (c.comp r).istore.Wf := by
  obtain ⟨-, hl, hq, ht⟩ := h
  cases r
  · exact hl
  · exact hq
  · exact ht

theorem Core.Wf.setComp {r : Role} {x : Companion} (hx : x.istore.Wf) : (c.setComp r x).Wf := by
  obtain ⟨hr, hl, hq, ht⟩ := h
  cases r
  · exact ⟨hr, hx, hq, ht⟩
  · exact ⟨hr, hl, hx, ht⟩
  · exact ⟨hr, hl, hq, hx⟩

/-- What leaves register space and the instruction stores as they are. -/
theorem Core.Wf.congr {d : Core} (he : (d.rs, d.loader.istore, d.sequencer.istore, d.storer.istore)
    = (c.rs, c.loader.istore, c.sequencer.istore, c.storer.istore)) : d.Wf := by
  simp only [Prod.mk.injEq] at he
  obtain ⟨hr, hl, hq, ht⟩ := he
  unfold Core.Wf
  rw [hr, hl, hq, ht]
  exact h

/-- What writes register space alone. -/
theorem Core.Wf.withRs {d : Core} (hr : d.rs.Wf) (he : (d.loader.istore, d.sequencer.istore, d.storer.istore)
    = (c.loader.istore, c.sequencer.istore, c.storer.istore)) : d.Wf := by
  simp only [Prod.mk.injEq] at he
  obtain ⟨hl, hq, ht⟩ := he
  obtain ⟨-, hw⟩ := h
  unfold Core.Wf
  rw [hl, hq, ht]
  exact ⟨hr, hw⟩

end

theorem Core.Wf.ite {p : Prop} [Decidable p] {c d : Core} (hc : c.Wf) (hd : d.Wf) : Core.Wf (if p then c else d) := by
  split
  · exact hc
  · exact hd

/-! ### States -/

section
variable {s : State} (h : s.MemWf)
include h

theorem State.MemWf.mem : s.mem.Wf := by
  obtain ⟨hm, -⟩ := h
  exact hm

theorem State.MemWf.core : s.core.Wf := by
  obtain ⟨-, hc, -⟩ := h
  exact hc

theorem State.MemWf.others {x : Nat × Core} (hx : x ∈ s.others) : x.2.Wf := by
  obtain ⟨-, -, ho, -⟩ := h
  exact ho x hx

theorem State.MemWf.saved {v : Saved} (hv : v ∈ s.saved) {x : Nat × Core} (hx : x ∈ v.cores) : x.2.Wf := by
  obtain ⟨-, -, -, hs, -⟩ := h
  exact hs v hv x hx

theorem State.MemWf.areas {x : Nat × Area} (hx : x ∈ s.areas) {c : Core} (hc : x.2 = .core c) : c.Wf := by
  obtain ⟨-, -, -, -, ha⟩ := h
  exact ha x hx c hc

theorem State.MemWf.comp (r : Role) : (s.core.comp r).istore.Wf := h.core.comp r

theorem State.MemWf.me : s.me.istore.Wf := h.comp s.cur

/-- What leaves every memory as it is. -/
theorem State.MemWf.congr {t : State} (he : (t.mem, t.core, t.others, t.saved, t.areas)
    = (s.mem, s.core, s.others, s.saved, s.areas)) : t.MemWf := by
  simp only [Prod.mk.injEq] at he
  obtain ⟨hm, hc, ho, hs, ha⟩ := he
  unfold State.MemWf
  rw [hm, hc, ho, hs, ha]
  exact h

/-- What changes the core in focus alone. -/
theorem State.MemWf.withCore {t : State} (hc : t.core.Wf) (he : (t.mem, t.others, t.saved, t.areas)
    = (s.mem, s.others, s.saved, s.areas)) : t.MemWf := by
  simp only [Prod.mk.injEq] at he
  obtain ⟨hm, ho, hs, ha⟩ := he
  obtain ⟨hm', -, hw⟩ := h
  unfold State.MemWf
  rw [hm, ho, hs, ha]
  exact ⟨hm', hc, hw⟩

/-- What changes memory alone. -/
theorem State.MemWf.withMem {t : State} (hm : t.mem.Wf) (he : (t.core, t.others, t.saved, t.areas)
    = (s.core, s.others, s.saved, s.areas)) : t.MemWf := by
  simp only [Prod.mk.injEq] at he
  obtain ⟨hc, ho, hs, ha⟩ := he
  obtain ⟨-, hw⟩ := h
  unfold State.MemWf
  rw [hc, ho, hs, ha]
  exact ⟨hm, hw⟩

/-- What changes what contexts have saved alone. -/
theorem State.MemWf.withSaved {t : State} (hs : ∀ v ∈ t.saved, ∀ x ∈ v.cores, x.2.Wf)
    (he : (t.mem, t.core, t.others, t.areas) = (s.mem, s.core, s.others, s.areas)) : t.MemWf := by
  simp only [Prod.mk.injEq] at he
  obtain ⟨hm, hc, ho, ha⟩ := he
  obtain ⟨hm', hc', ho', -, ha'⟩ := h
  unfold State.MemWf
  rw [hm, hc, ho, ha]
  exact ⟨hm', hc', ho', hs, ha'⟩

/-- What changes a core's own fields, and no memory of it. -/
theorem State.MemWf.coreCongr {t : State}
    (he : (t.core.rs, t.core.loader.istore, t.core.sequencer.istore, t.core.storer.istore)
      = (s.core.rs, s.core.loader.istore, s.core.sequencer.istore, s.core.storer.istore))
    (ht : (t.mem, t.others, t.saved, t.areas) = (s.mem, s.others, s.saved, s.areas)) : t.MemWf :=
  h.withCore (h.core.congr he) ht

theorem State.MemWf.setCompWf {r : Role} {x : Companion} (hx : x.istore.Wf) : (s.setComp r x).MemWf :=
  h.withCore (h.core.setComp hx) (by rfl)

/-- What changes a companion core, and not its instruction store. -/
theorem State.MemWf.setComp {r : Role} {x : Companion} (hx : x.istore = (s.core.comp r).istore) : (s.setComp r x).MemWf :=
  h.setCompWf (hx ▸ h.comp r)

theorem State.MemWf.setMe {x : Companion} (hx : x.istore = s.me.istore) : (s.setMe x).MemWf := h.setComp hx

theorem State.MemWf.setQueue {q x} : (s.setQueue q x).MemWf := h.coreCongr (by rfl) (by rfl)

theorem State.MemWf.foldl {α : Type} {f : State → α → State} (l : List α) (hf : ∀ t x, t.MemWf → (f t x).MemWf) :
    (l.foldl f s).MemWf := List.foldlRecOn l f h fun t ht x _ => hf t x ht

end

theorem State.MemWf.ite {p : Prop} [Decidable p] {t u : State} (ht : t.MemWf) (hu : u.MemWf) :
    State.MemWf (if p then t else u) := by
  split
  · exact ht
  · exact hu

/-! ### Registers -/

theorem Companion.push_istore (c : Companion) (cls : BitVec 4) (a : Word) (loc : Nat) (bs : List Byte) (rel : Option Scope)
    (prior : List Nat) (on : Regs) : (c.push cls a loc bs rel prior on).istore = c.istore := rfl

theorem Companion.follow_istore (c : Companion) (m : BitVec 16) (p : Nat → Bool) : (c.follow m p).istore = c.istore :=
  rfl

section
variable {s : State} (h : s.MemWf)
include h

theorem State.MemWf.wr {d v} : (s.wr d v).MemWf := h.setMe (Companion.setReg_istore _ _ _)
theorem State.MemWf.wrP {d v} : (s.wrP d v).MemWf := h.setMe (Companion.setPred_istore _ _ _)
theorem State.MemWf.wrB {d v} : (s.wrB d v).MemWf := h.setMe (by rfl)
theorem State.MemWf.advance {n} : (s.advance n).MemWf := h.setMe (by rfl)

/-! ### Writes of memory -/

theorem State.MemWf.put {loc bs} : (s.put loc bs).MemWf := h.withMem (h.mem.writeN loc bs) (by rfl)

theorem State.MemWf.poke {loc bs} : (s.poke loc bs).MemWf := h.withMem (h.mem.writeN loc bs) (by rfl)

theorem State.MemWf.pokeSpans (sp : List (Nat × Nat)) (bs : List Byte) : (s.pokeSpans sp bs).MemWf := by
  induction sp generalizing s bs with
  | nil => exact h
  | cons x t ih => exact ih h.poke (bs.drop x.2)

theorem State.MemWf.mapLag {f} : (s.mapLag f).MemWf := h.congr (by rfl)
theorem State.MemWf.mapOrdered {p f} : (s.mapOrdered p f).MemWf := h.mapLag
theorem State.MemWf.access {r c lent} : (s.access r c lent).MemWf := h.mapLag

theorem State.MemWf.pathStep {w loc bs} : (s.pathStep w loc bs).MemWf := h.withMem (h.mem.writeN loc bs) (by rfl)
theorem State.MemWf.pathWrite {w loc bs} : (s.pathWrite w loc bs).MemWf := h.mapLag.pathStep

theorem State.MemWf.pathSpans {w : Writer} (sp : List (Nat × Nat)) (bs : List Byte) : (s.pathSpans w sp bs).MemWf := by
  induction sp generalizing s bs with
  | nil => exact h
  | cons x t ih => exact ih h.pathWrite (bs.drop x.2)

theorem State.MemWf.markRead {f own upTo loc n} : (s.markRead f own upTo loc n).MemWf := h.mapLag
theorem State.MemWf.holdRead {r bit own upTo loc n} : (s.holdRead r bit own upTo loc n).MemWf := h.markRead
theorem State.MemWf.letGo {r m within at_} : (s.letGo r m within at_).MemWf := h.mapOrdered
theorem State.MemWf.takeIn {r m which} : (s.takeIn r m which).MemWf := h.mapLag
theorem State.MemWf.fenceHolds {r m sc} : (s.fenceHolds r m sc).MemWf := h.mapOrdered
theorem State.MemWf.orderPort {r m sc} : (s.orderPort r m sc).MemWf := h.mapOrdered
theorem State.MemWf.notePort {r key} : (s.notePort r key).MemWf := h.mapLag

theorem State.MemWf.settleLag {i} : (s.settleLag i).MemWf := by
  unfold State.settleLag
  split
  · exact h
  · exact h.congr (by rfl)

theorem State.MemWf.spend {cx n} : (s.spend cx n).MemWf := by
  unfold State.spend
  split
  · exact h
  · exact .ite h (h.congr (by rfl))

theorem State.MemWf.traffic {cx core a sp} : (s.traffic cx core a sp).MemWf := h.spend
theorem State.MemWf.faultTraffic {cx core c a} : (s.faultTraffic cx core c a).MemWf := .ite h.spend h

/-! ### Scalar accesses and the store buffer -/

theorem State.MemWf.post {r p} : (s.post r p).MemWf := .ite (h.setComp (by rfl)) h

theorem State.MemWf.sendRel {r b} : (s.sendRel r b).MemWf := by
  unfold State.sendRel
  split
  · exact h
  · exact h.mapLag

theorem State.MemWf.perform {r b} : (s.perform r b).MemWf := by
  unfold State.perform
  split
  · exact h.post
  · exact h.pathWrite.sendRel.traffic

theorem State.MemWf.drain {r sel} : (s.drain r sel).MemWf :=
  (h.setComp (by rfl)).foldl _ fun _ _ ht => ht.perform

theorem State.MemWf.drainAll {r} : (s.drainAll r).MemWf := h.drain
theorem State.MemWf.release {r sc which} : (s.release r sc which).MemWf := h.drain
theorem State.MemWf.releaseAt {r sc c at_} : (s.releaseAt r sc c at_).MemWf := h.release.letGo
theorem State.MemWf.noteLost {r loc n} : (s.noteLost r loc n).MemWf := .ite (h.setComp (by rfl)) h
theorem State.MemWf.ahead {loc n} : (s.ahead loc n).MemWf := .ite h.drain h
theorem State.MemWf.beforeRead {cls loc n} : (s.beforeRead cls loc n).MemWf := h.drain.ahead

theorem State.MemWf.loads {cls} : (s.loads cls).MemWf := by
  unfold State.loads
  split
  · exact h.access
  · exact h

theorem State.MemWf.afterRead {cls loc n} : (s.afterRead cls loc n).MemWf :=
  (h.setMe (by rfl)).loads.holdRead.noteLost

theorem State.MemWf.load {cls a n} : Yields (·.1.MemWf) (s.load cls a n) := by
  refine Yields.after fun loc => ?_
  dsimp only
  split
  · exact Yields.error
  · exact Yields.ok h.beforeRead.afterRead.traffic

theorem State.MemWf.push {r cls a loc bs rel on} : (s.push r cls a loc bs rel on).MemWf :=
  (h.setComp (Companion.push_istore ..)).access

theorem State.MemWf.store {cls a bs rel} : Yields (·.MemWf) (s.store cls a bs rel) := by
  refine Yields.after fun loc => ?_
  dsimp only
  split
  · exact Yields.error
  · exact Yields.ok h.ahead.push

theorem State.MemWf.readEarly {r va} : (s.readEarly r va).MemWf := by
  unfold State.readEarly
  dsimp only
  split
  · exact h
  · exact .ite h (h.setComp (by rfl))

theorem State.MemWf.loadEarly {cls e loc n} : (s.loadEarly cls e loc n).MemWf :=
  (h.setMe (by rfl)).loads.holdRead.noteLost

theorem State.MemWf.loadOr {ok cls a n} : Yields (·.1.MemWf) (s.loadOr ok cls a n) := by
  refine Yields.after fun loc => ?_
  split
  · exact h.load
  · split
    · exact Yields.error
    · exact Yields.ok h.loadEarly.traffic

theorem State.MemWf.acquireAt {sc m loc} : (s.acquireAt sc m loc).MemWf :=
  (h.setMe (Companion.follow_istore ..)).takeIn
theorem State.MemWf.acquireMet {which} : (s.acquireMet which).MemWf := (h.setMe (Companion.follow_istore ..)).takeIn

/-! ### Accesses of engines and hardware -/

theorem State.MemWf.costs {cx core a n w} : (s.costs cx core a n w).MemWf := h.traffic

theorem State.MemWf.costsWhole {cx core a n w} : (s.costsWhole cx core a n w).MemWf := by
  unfold State.costsWhole
  split
  · exact h.traffic
  · exact h.costs.faultTraffic

theorem State.MemWf.putFor {cx core a bs} : Yields (·.MemWf) (s.putFor cx core a bs) := by
  refine Yields.after fun sp => ?_
  split
  · exact Yields.error
  · exact Yields.ok (h.pokeSpans _ _).traffic

theorem State.MemWf.dropEarly {r sp} : (s.dropEarly r sp).MemWf := h.setComp (by rfl)

theorem State.MemWf.cmdRead {r sp} : (s.cmdRead r sp).MemWf := by
  unfold State.cmdRead
  split
  · exact h
  · exact h.foldl _ fun _ _ ht => ht.foldl _ fun _ _ hu => hu.markRead

theorem State.MemWf.engRead {r a n} : Yields (·.1.MemWf) (s.engRead r a n) := by
  refine Yields.after fun sp => Yields.after fun bs => Yields.ok ?_
  exact ((State.MemWf.ite h h.cmdRead).foldl _ fun _ _ ht => ht.noteLost).dropEarly.traffic

theorem State.MemWf.writeFor {r w a bs} : Yields (·.MemWf) (s.writeFor r w a bs) := by
  refine Yields.after fun sp => ?_
  split
  · exact Yields.error
  · exact Yields.ok (h.dropEarly.pathSpans _ _).traffic

theorem State.MemWf.engWrite {r a bs} : Yields (·.MemWf) (s.engWrite r a bs) := h.writeFor

theorem State.MemWf.ownRead {a n} : Yields (·.1.MemWf) (s.ownRead a n) := by
  refine Yields.after fun sp => h.engRead.bind fun x hx => Yields.ok ?_
  exact hx.foldl _ fun _ _ ht => ht.holdRead

theorem State.MemWf.ownWrite {a bs} : Yields (·.MemWf) (s.ownWrite a bs) := h.writeFor

end
end Sys2Proof.Machine
end

section
/-! The focus, traps, the shared forms of an instruction's outcome, and the issue and retirement of engine commands keep every
memory canonical. -/

namespace Sys2Proof.Machine

/-! ### Keyed lists -/

theorem mem_of_lookupKey {α : Type} {k : Nat} {v : α} {l : List (Nat × α)} (h : lookupKey k l = some v) : (k, v) ∈ l := by
  induction l with
  | nil => cases h
  | cons x t ih =>
    obtain ⟨j, w⟩ := x
    rw [lookupKey] at h
    split at h
    · next hj => subst hj; cases h; exact List.mem_cons_self ..
    · exact List.mem_cons_of_mem _ (ih h)

theorem mem_setKey {α : Type} {k : Nat} {v : α} {l : List (Nat × α)} {x : Nat × α} (h : x ∈ setKey k v l) :
    x = (k, v) ∨ x ∈ l := by
  induction l with
  | nil => exact .inl (List.mem_singleton.mp h)
  | cons y t ih =>
    obtain ⟨j, w⟩ := y
    rw [setKey] at h
    split at h
    · rcases List.mem_cons.mp h with h | h
      · exact .inl h
      · exact .inr (List.mem_cons_of_mem _ h)
    · rcases List.mem_cons.mp h with h | h
      · exact .inr (h ▸ List.mem_cons_self ..)
      · exact (ih h).imp id (List.mem_cons_of_mem _)

/-! ### The focus and the saved cores -/

section
variable {s : State} (h : s.MemWf)
include h

theorem State.MemWf.core? {n : Nat} {c : Core} (hc : s.core? n = some c) : c.Wf := by
  unfold State.core? at hc
  split at hc
  · cases hc; exact h.core
  · exact h.others (mem_of_lookupKey hc)

theorem State.MemWf.focus {n : Nat} : (s.focus n).MemWf := by
  unfold State.focus
  split
  · exact h
  · refine ⟨h.mem, ?_, fun x hx => ?_, fun v hv x hx => h.saved hv hx, fun x hx c hc => h.areas hx hc⟩
    · show Core.Wf ((lookupKey n s.others).getD {})
      cases hl : lookupKey n s.others with
      | none => exact Core.wf_default
      | some c => exact h.others (mem_of_lookupKey hl)
    · rcases mem_setKey hx with rfl | hx
      · exact h.core
      · exact h.others (List.mem_filter.mp hx).1

theorem State.MemWf.onCore {n : Nat} {f : State → State} (hf : ∀ t, t.MemWf → (f t).MemWf) : (s.onCore n f).MemWf :=
  (hf _ h.focus).focus

theorem State.MemWf.swapSaved (ctx : BitVec 16) (n : Nat) : (s.swapSaved ctx n).MemWf := h.mapLag

theorem State.MemWf.onSaved {ctx : BitVec 16} {n : Nat} {f : State → State} (hf : ∀ t, t.MemWf → (f t).MemWf) :
    (s.onSaved ctx n f).MemWf := by
  unfold State.onSaved
  dsimp only
  split
  · exact h
  · next c hc =>
    obtain ⟨v, hv, hl⟩ := Option.bind_eq_some_iff.mp hc
    have hcw : c.Wf := h.saved (List.mem_of_find?_eq_some hv) (mem_of_lookupKey hl)
    refine h.onCore fun t ht => ?_
    have hu := (hf _ ((ht.withCore (t := { t with core := c }) hcw (by rfl)).swapSaved ctx n)).swapSaved ctx n
    generalize (f (({ t with core := c } : State).swapSaved ctx n)).swapSaved ctx n = u at hu ⊢
    refine (hu.withCore (t := { u with core := t.core }) ht.core (by rfl)).withSaved (fun _ hv' x hx => ?_) (by rfl)
    obtain ⟨w, hw, rfl⟩ := List.mem_map.mp hv'
    split at hx
    · rcases mem_setKey hx with rfl | hx
      · exact hu.core
      · exact hu.saved hw hx
    · exact hu.saved hw hx

theorem State.MemWf.onContext {ctx : BitVec 16} {n : Nat} {f : State → State} (hf : ∀ t, t.MemWf → (f t).MemWf) :
    (s.onContext ctx n f).MemWf := .ite (h.onCore hf) (h.onSaved hf)

/-! ### Traps -/

theorem State.MemWf.mapJob {id f} : (s.mapJob id f).MemWf := h.congr (by rfl)
theorem State.MemWf.report {ctx core role cause addr} : (s.report ctx core role cause addr).MemWf := h.congr (by rfl)
theorem State.MemWf.cancelJob {id} : (s.cancelJob id).MemWf := h.mapJob

theorem State.MemWf.doubleTrap {r p} : (s.doubleTrap r p).MemWf := by
  unfold State.doubleTrap
  dsimp only
  split
  · exact (h.setComp (by rfl)).cancelJob.report
  · exact (h.setComp (by rfl)).report

theorem State.MemWf.takeTrap {r p epc fetched} : (s.takeTrap r p epc fetched).MemWf := by
  unfold State.takeTrap
  extract_lets c f hand q slots bytes s₁ s₂ s₃ c'
  refine .ite h.doubleTrap ?_
  have h₁ : s₁.MemWf := (h.setComp (by rfl)).push
  have h₂ : s₂.MemWf := h₁.drain
  clear_value q s₁ s₂
  have h₃ : s₃.MemWf := by
    unfold s₃
    split
    · exact h₂.setQueue
    · exact h₂
  clear_value s₃
  exact h₃.setComp (by rfl)

theorem State.MemWf.raise {c ea epc fetched} : (s.raise c ea epc fetched).MemWf := h.faultTraffic.takeTrap

end

theorem Companion.fromFrame_istore (c : Companion) (f : List Byte) : (c.fromFrame f).istore = c.istore := by
  simp only [Companion.fromFrame]

section
variable {s : State} (h : s.MemWf)
include h

/-! ### The outcome of an instruction -/

theorem State.MemWf.settle {r : Except Stop State} (hr : Yields (·.MemWf) r) : Keeps (settle s r) := by
  unfold Machine.settle
  split
  · next t => exact Keeps.next ((hr t rfl).setMe (by rfl))
  · exact Keeps.next (h.setMe (by rfl))
  · exact Keeps.next h.raise
  · exact Keeps.next h.raise
  · next used _ _ => exact Keeps.next (State.MemWf.congr (t := { s with used := used }) h (by rfl)).raise
  · exact Keeps.next h.raise

theorem State.MemWf.companionOp {l : List Role} {r : Except Stop State} (hr : Yields (·.MemWf) r) :
    Keeps (companionOp s l r) := h.settle (Yields.ite hr Yields.error)

theorem State.MemWf.drainedOp {l : List Role} {f : State → Except Stop State}
    (hf : ∀ t, t.MemWf → Yields (·.MemWf) (f t)) : Keeps (drainedOp s l f) :=
  Keeps.ite (h.drainAll.settle (hf _ h.drainAll)) (h.settle Yields.error)

theorem State.MemWf.eret : Yields (·.MemWf) s.eret := by
  unfold State.eret
  extract_lets loc u c v f t at_ far w frame x here
  refine Yields.ite Yields.error ?_
  have hu : u.MemWf := h.beforeRead
  clear_value u c
  split
  · exact Yields.error
  refine Yields.ite Yields.error (Yields.ite Yields.error ?_)
  have hv : v.MemWf := hu.noteLost
  clear_value v f
  have hw : w.MemWf := by
    unfold w
    split
    · exact hv.setQueue
    · exact hv
  clear_value w
  have hf : frame.istore = w.me.istore := Companion.fromFrame_istore w.me f
  clear_value frame
  have hx : x.MemWf := hw.setMe hf
  clear_value x
  split
  · exact Yields.ok hx.raise
  · exact Yields.ok (hx.setMe (by rfl))

end
end Sys2Proof.Machine
end

section
/-! The issue and the retirement of engine commands, and what submits and completes jobs, keep every memory canonical
(Machine/Engine and Machine/Work). -/

namespace Sys2Proof.Machine

/-! ### The forms of an engine's result -/

/-- The state that an engine's execution leaves, however it ends. -/
def EngEnd.state : EngEnd → State
  | .done s => s
  | .fault s .. => s
  | .wait s => s

/-- What a read gives has `P`, and where it breaks off, the state that it leaves has canonical memories. -/
def Reads {α : Type} (P : α → Prop) (r : Except Broken α) : Prop := Yields P r ∧ ∀ x, r = .error x → x.s.MemWf

section
variable {α β : Type} {P : α → Prop} {Q : β → Prop}

theorem Reads.ok {a : α} (h : P a) : Reads P (.ok a) := ⟨Yields.ok h, fun _ hx => nomatch hx⟩

theorem Reads.error {x : Broken} (h : x.s.MemWf) : Reads P (.error x) :=
  ⟨Yields.error, fun _ hx => Except.error.inj hx ▸ h⟩

theorem Reads.bind {r : Except Broken α} {f : α → Except Broken β} (h : Reads P r) (hf : ∀ a, P a → Reads Q (f a)) :
    Reads Q (r >>= f) := by
  cases r with
  | error e => exact Reads.error (h.2 e rfl)
  | ok a => exact hf a (h.1 a rfl)

theorem Reads.ite {c : Prop} [Decidable c] {x y : Except Broken α} (hx : Reads P x) (hy : Reads P y) :
    Reads P (if c then x else y) := by
  split
  · exact hx
  · exact hy

/-- A write whose fault leaves the state before it. -/
theorem Reads.lift {g : ReadLog} {s : State} {r : Except Flt α} (h : s.MemWf) (hr : Yields P r) : Reads P (g.lift s r) := by
  unfold ReadLog.lift
  split
  · next a => exact Reads.ok (hr a rfl)
  · exact Reads.error h

end

/-! ### Engine commands -/

theorem Companion.lend_istore (c : Companion) (q : QueueId) (n : Nat) (cls : BitVec 4) (i : Instr) :
    (c.lend q n cls i).istore = c.istore := rfl

section
variable {s : State} (h : s.MemWf)
include h

theorem State.MemWf.popToken {r q} : (s.popToken r q).MemWf := h.mapLag

theorem State.MemWf.acquireTokens {pops} : (s.acquireTokens pops).MemWf :=
  .ite h ((h.setMe (Companion.follow_istore ..)).foldl _ fun _ _ ht => ht.popToken)

theorem State.MemWf.carry {q which} : (s.carry q which).MemWf := h.mapOrdered
theorem State.MemWf.carryOwn {q} : (s.carryOwn q).MemWf := h.carry.mapLag
theorem State.MemWf.enqueue {q c} : (s.enqueue q c).MemWf := h.setQueue

/-- What the issue of a command does beside the command keeps memories canonical. -/
def Captured.Safe (cap : Captured) : Prop := ∀ t : State, t.MemWf → (cap.also t).MemWf

theorem State.MemWf.issue {i : Instr} {hd : EHdr} {r : Role} {q : QueueId} {k : Takes} {fmtWord : Bool}
    {check : Except Stop Captured} (hc : Yields Captured.Safe check) : Keeps (issue s i hd r q k fmtWord check) := by
  refine h.settle (Yields.ite Yields.error (hc.bind fun cap hcap => ?_))
  refine Yields.ite Yields.error (Yields.ite Yields.error (Yields.ite Yields.error (Yields.after fun w => ?_)))
  extract_lets c s₁ core s₂ s₃
  have h₁ : s₁.MemWf := h.release.acquireTokens
  clear_value s₁
  have h₂ : s₂.MemWf := h₁.coreCongr (by rfl) (by rfl)
  clear_value s₂
  have h₃ : s₃.MemWf := h₂.setMe (Companion.lend_istore ..)
  clear_value s₃
  exact Yields.ok (hcap _ h₃.enqueue).advance

theorem State.MemWf.beforeCommand {r c} : (s.beforeCommand r c).MemWf := .ite h.drain h
theorem State.MemWf.executes {q c} : (s.executes q c).MemWf := h.coreCongr (by rfl) (by rfl)

theorem State.MemWf.logRead {r a n g} : Reads (·.1.MemWf) (s.logRead r a n g) := by
  unfold State.logRead
  extract_lets old k bytes words
  refine Reads.ite (Reads.ok h) ?_
  split
  · next t bs ht => exact Reads.ok (h.engRead _ ht)
  · split
    · next t bs ht => exact Reads.error (h.engRead _ ht)
    · exact Reads.error h

theorem State.MemWf.engOf {p : Progress} {r : Except Flt State} (hr : Yields (·.MemWf) r) : (engOf p s r).state.MemWf := by
  unfold Machine.engOf
  split
  · next t => exact hr t rfl
  · exact h

theorem State.MemWf.capture {q c ea p} : (s.capture q c ea p).MemWf := by
  unfold State.capture
  extract_lets x slots slots' core u v
  have hu : u.MemWf := State.MemWf.ite (h.coreCongr (by rfl) (by rfl)) h
  clear_value u
  exact hu.setQueue.faultTraffic.post

theorem State.MemWf.setHeadProg {q p} : (s.setHeadProg q p).MemWf := by
  unfold State.setHeadProg
  extract_lets x
  split
  · exact h
  · exact h.setQueue

theorem State.MemWf.finishHead {q} : (s.finishHead q).MemWf := by
  unfold State.finishHead
  extract_lets x
  split
  · exact h
  · exact h.setQueue

theorem State.MemWf.setPort {p} : (s.setPort p).MemWf := h.coreCongr (by rfl) (by rfl)

theorem State.MemWf.retireTokens {q c} : (s.retireTokens q c).MemWf := by
  unfold State.retireTokens
  extract_lets n is made u
  have hu : u.MemWf := by
    unfold u
    split
    · exact h.mapOrdered
    · exact h
  exact hu.foldl _ fun t p ht => ht.carry.coreCongr (by rfl) (by rfl)

theorem State.MemWf.clearTags {m} : (s.clearTags m).MemWf :=
  (State.MemWf.coreCongr (t := { s with core := { s.core with tags := s.core.tags &&& ~~~m } }) h (by rfl) (by rfl)).mapLag

theorem State.MemWf.setTag {t} : (s.setTag t).MemWf := h.coreCongr (by rfl) (by rfl)

theorem State.MemWf.retireEffects {q c discarded} : (s.retireEffects q c discarded).MemWf := by
  unfold State.retireEffects
  extract_lets tags tiles port vbm att core u
  have hu : u.MemWf := h.coreCongr (by rfl) (by rfl)
  exact hu.retireTokens

/-! ### Counters, graphs and jobs -/

theorem State.MemWf.bumpFor {cx core va inc} : Yields (·.MemWf) (s.bumpFor cx core va inc) :=
  Yields.ite Yields.error (Yields.after fun _ => Yields.after fun _ => Yields.ok h.costs.pathStep.traffic)

theorem State.MemWf.putAll {cx core ws} : Yields (·.MemWf) (s.putAll cx core ws) :=
  Yields.foldlM _ h fun _ _ ht => ht.putFor

theorem State.MemWf.pathPut {cx core w a bs} : Yields (·.MemWf) (s.pathPut cx core w a bs) := by
  refine Yields.after fun sp => ?_
  split
  · exact Yields.error
  · exact Yields.ok (h.pathSpans _ _).traffic

theorem State.MemWf.bind {cx core die job a rd} : Yields (·.1.MemWf) (s.bind cx core die job a rd) := by
  refine Yields.ite (Yields.ok h) (Yields.after fun t => ?_)
  split
  · exact Yields.ok h
  · dsimp only
    split
    · exact Yields.ok h
    · exact h.putAll.bind fun t ht => Yields.ok (ht.congr (by rfl))

theorem State.MemWf.orReport {ctx core role} {r : Except Flt State} (hr : Yields (·.MemWf) r) :
    (s.orReport ctx core role r).MemWf := by
  unfold State.orReport
  split
  · next t => exact hr t rfl
  · exact h.faultTraffic.report

theorem State.MemWf.dropPointers : s.dropPointers.MemWf := h.congr (by rfl)

end

theorem Core.Wf.dropArms {c : Core} (h : c.Wf) {job} : (c.dropArms job).Wf := h.congr (by rfl)

section
variable {s : State} (h : s.MemWf)
include h

theorem State.MemWf.finishDestroy {id} : (s.finishDestroy id).MemWf := by
  unfold State.finishDestroy
  split
  · refine .ite ⟨h.mem, .ite Core.wf_default h.core, fun x hx => ?_, fun v hv x hx => ?_, fun x hx c hc => h.areas hx hc⟩ h
    · obtain ⟨y, hy, rfl⟩ := List.mem_map.mp hx
      split
      · exact Core.wf_default
      · exact h.others hy
    · exact h.saved (List.mem_filter.mp hv).1 hx
  · exact h

theorem State.MemWf.bumpEnd {cx core ctr inc id} : Yields (·.MemWf) (s.bumpEnd cx core ctr inc id) :=
  h.bumpFor.bind fun _ ht => Yields.after fun _ => Yields.ok ht.mapLag

theorem State.MemWf.complete {j status code} : (s.complete j status code).MemWf := by
  unfold State.complete
  extract_lets cx core periods recordAt s₁ ctr s₂ vector s₃
  have h₁ : s₁.MemWf := .ite h (h.orReport h.putFor)
  clear_value s₁
  have h₂ : s₂.MemWf := .ite h₁ (h₁.orReport h₁.bumpEnd)
  clear_value s₂
  have h₃ : s₃.MemWf := by
    refine ⟨h₂.mem, h₂.core.dropArms, fun x hx => ?_, fun v hv x hx => ?_, fun x hx c hc => h₂.areas hx hc⟩
    · obtain ⟨y, hy, rfl⟩ := List.mem_map.mp hx
      exact (h₂.others hy).dropArms
    · obtain ⟨w, hw, rfl⟩ := List.mem_map.mp hv
      obtain ⟨y, hy, rfl⟩ := List.mem_map.mp hx
      exact (h₂.saved hw hy).dropArms
  exact h₃.dropPointers.finishDestroy

theorem State.MemWf.launchGraph {j} : (s.launchGraph j).MemWf := by
  unfold State.launchGraph
  extract_lets cx core rd a u
  have hu : u.MemWf := h.costs
  clear_value u
  split
  · exact hu.faultTraffic.report.complete
  · next t _ ht => exact (hu.bind _ ht).congr (by rfl)
  · next t _ _ _ ht => exact (hu.bind _ ht).complete

theorem State.MemWf.launchOrWait {j} : (s.launchOrWait j).MemWf := .ite h.mapJob h.launchGraph

theorem State.MemWf.launchWaiting {die} : (s.launchWaiting die).MemWf :=
  .ite h (h.foldl _ fun _ _ ht => ht.mapJob.launchGraph)

theorem State.MemWf.submit {ctx card} : (s.submit ctx card).1.MemWf := by
  unfold State.submit
  extract_lets cores
  split
  · exact h
  split
  · exact h
  extract_lets die
  split
  · exact h
  extract_lets key gen j u v
  have hv : v.MemWf := State.MemWf.congr (t := v) h (by rfl)
  exact .ite hv.launchOrWait hv

theorem State.MemWf.emit {d alt node p} : (s.emit d alt node p).MemWf := h.spend.congr (by rfl)

theorem State.MemWf.emitFor {cx node bytes p m} : ∀ t ∈ s.emitFor cx node bytes p m, t.MemWf := by
  unfold State.emitFor
  split
  · rintro _ ⟨⟩
    exact h.spend.congr (by rfl)
  · rintro _ ⟨⟩

theorem State.MemWf.emitBy {node bytes cls kind size addr m} : ∀ t ∈ s.emitBy node bytes cls kind size addr m, t.MemWf :=
  h.emitFor

theorem State.MemWf.bookPort {node size} : (s.bookPort node size).1.MemWf := by
  unfold State.bookPort
  split
  · exact h
  · exact h.congr (by rfl)

end
end Sys2Proof.Machine
end

section
/-! The port engine keeps every memory canonical: notices, retention, publishing, takes and pulls (Machine/Port). -/

namespace Sys2Proof.Machine

section
variable {s : State} (h : s.MemWf)
include h

theorem State.MemWf.getD {o : Option State} (ho : ∀ t ∈ o, t.MemWf) : (o.getD s).MemWf := by
  cases o with
  | none => exact h
  | some t => exact ho t rfl

/-! ### Notices and retention slots -/

theorem State.MemWf.refill (fuel : Nat) : (s.refill fuel).MemWf := by
  induction fuel generalizing s with
  | zero => exact h
  | succ fuel ih =>
    unfold State.refill
    extract_lets p
    refine .ite h ?_
    split
    · exact h
    split
    next n _ _ u note hu =>
      have hu' : u.MemWf := by
        split at hu
        · split at hu <;> cases hu
          · exact h.costs
          · exact h.faultTraffic
        · cases hu; exact h
      exact ih hu'.setPort

theorem State.MemWf.deliver {ctx note} : (s.deliver ctx note).1.MemWf := by
  unfold State.deliver
  extract_lets p n q
  split
  · exact h
  split
  · exact h.setPort
  split
  · exact h
  split
  · next t ht => exact (h.putFor t ht).setPort
  · exact h.faultTraffic

theorem State.MemWf.setSlot {i r} : (s.setSlot i r).MemWf := h.setPort

theorem State.MemWf.answerTake {n i t} : (s.answerTake n i t).1.MemWf := .ite h h.costsWhole

theorem State.MemWf.giveAnswer {n i t a} : (s.giveAnswer n i t a).MemWf := by
  unfold State.giveAnswer
  split
  · exact h.congr (by rfl)
  · exact h.onCore fun u hu => hu.coreCongr (by rfl) (by rfl)

theorem State.MemWf.readOut {slot seq} : (s.readOut slot seq).MemWf := by
  unfold State.readOut
  extract_lets mine
  refine h.foldl _ fun t x ht => .ite ht (ht.foldl _ fun u i hu => ?_)
  split
  · exact .ite hu hu.answerTake.giveAnswer
  · exact hu

theorem State.MemWf.unpost {i} : (s.unpost i).MemWf := h.coreCongr (by rfl) (by rfl)

theorem State.MemWf.releaseSlot {i r} : (s.releaseSlot i r).MemWf := by
  have hu : ((s.setSlot i none).unpost i).MemWf := h.setSlot.unpost
  exact .ite hu (hu.orReport hu.bumpFor)

theorem State.MemWf.decrement {i seq} : (s.decrement i seq).MemWf := by
  unfold State.decrement
  split
  · exact .ite h (.ite h.readOut.releaseSlot h.setSlot)
  · exact h

theorem State.MemWf.noticeAnswer {w seq code} : (s.noticeAnswer w seq code).MemWf := by
  unfold State.noticeAnswer
  split
  · exact h
  · exact .ite h (.ite h.setPort.decrement h.setPort)

theorem State.MemWf.take {m : HeldMsg} : (m.take s).MemWf := by
  unfold HeldMsg.take
  split
  · exact h.decrement
  · exact h.setPort.refill 256
  · exact h.noticeAnswer

theorem State.MemWf.toCoreFor {ctx core m} : (s.toCoreFor ctx core m).MemWf :=
  h.onCore fun _ ht => .ite ht.take (ht.congr (by rfl))

theorem State.MemWf.toCore {core m} : (s.toCore core m).MemWf := h.toCoreFor

theorem State.MemWf.sendDecrement {cls n} : (s.sendDecrement cls n).MemWf := .ite h.toCore (h.getD h.emitBy)

theorem State.MemWf.consumers {r} : (s.consumers r).1.MemWf := by
  unfold State.consumers
  split
  · exact h
  · split
    · next t bs ht => exact h.engRead _ ht
    · exact h.costs.faultTraffic

theorem State.MemWf.withdrawAt {seq w} : (s.withdrawAt seq w).MemWf := .ite h.toCore (h.getD h.emitBy)

theorem State.MemWf.reclaim {i r withdraw} : (s.reclaim i r withdraw).MemWf := by
  unfold State.reclaim
  refine .ite ?_ h.releaseSlot
  exact h.consumers.releaseSlot.setPort.foldl _ fun _ _ ht => ht.withdrawAt

theorem State.MemWf.lateCause {p} : (s.lateCause p).MemWf := by
  unfold State.lateCause
  split
  · split
    · exact h.reclaim
    · exact h
  · split
    · exact h.mapJob
    · exact h
  · split
    · exact h.mapJob
    · exact h
  · exact h

theorem State.MemWf.postStorer {p} : (s.postStorer p).MemWf := .ite h.post h.lateCause

/-! ### The instructions of the port -/

theorem State.MemWf.portOp {r : Role} {f : State → Except Stop State} (hf : ∀ t, t.MemWf → Yields (·.MemWf) (f t)) :
    Keeps (portOp s r f) := h.drainedOp fun t ht => (hf t ht).bind fun _ hu => Yields.ok hu.advance

theorem State.MemWf.decline {i t} : (s.decline i t).MemWf := by
  unfold State.decline
  extract_lets p q u
  have hu : u.MemWf := h.setPort.refill 256
  exact .ite hu hu.sendDecrement

theorem State.MemWf.execDecl {d a} : Keeps (execDecl d a s) := by
  refine h.portOp fun t ht => ?_
  split
  · exact Yields.ok ht.wr
  · exact Yields.ite (Yields.ok ht.wr) (Yields.ok ht.decline.wr)

theorem State.MemWf.execNtake {d a} : Keeps (execNtake d a s) := by
  refine h.portOp fun t ht => ?_
  extract_lets va
  refine Yields.ite Yields.error ?_
  split
  · exact Yields.ok ht.wr
  extract_lets size piece piece'
  have hs : Yields (·.MemWf) (if va = 0 then .ok t else liftFlt (t.store 0 va (leBytes 32 piece'.toNat))) :=
    Yields.ite (Yields.ok ht) ht.store.liftFlt
  split
  · exact Yields.error
  · next u hu => exact Yields.ok ((hs u hu).setPort.refill 256).wr

theorem State.MemWf.execNwait : Keeps (execNwait s) := h.portOp fun _ ht => Yields.ite (Yields.ok ht) Yields.error

theorem State.MemWf.execNfree {d a} : Keeps (execNfree d a s) := by
  refine h.portOp fun t ht => ?_
  split
  · exact Yields.ok ht.wr
  split
  · exact Yields.ok ht.decline.wr
  · exact Yields.ok (ht.setPort.refill 256).wr
  · exact Yields.error

theorem State.MemWf.execRret {d a b} : Keeps (execRret d a b s) :=
  h.portOp fun _ ht => Yields.ite (Yields.ok ht.wr) (Yields.ok ht.setSlot.wr)

theorem State.MemWf.execRrel {d a b} : Keeps (execRrel d a b s) := by
  refine h.portOp fun t ht => Yields.ite (Yields.ok ht.wr) ?_
  split
  · exact Yields.ok ht.wr
  · exact Yields.ok ht.reclaim.wr

theorem State.MemWf.execPsched {d a} : Keeps (execPsched d a s) :=
  h.portOp fun _ ht => Yields.ite Yields.error (ht.load.liftFlt.bind fun _ hu =>
    Yields.ite (Yields.ok hu.wr) (Yields.ite (Yields.ok hu.wr) (Yields.ite (Yields.ok hu.wr)
      (Yields.ok (hu.setPort.refill 256).wr))))

end

/-- A check that captures operands alone. -/
theorem Captured.Safe.of_id {cap : Captured} (hc : cap.also = id) : Captured.Safe cap := by
  intro t ht
  rw [hc]
  exact ht

section
variable {s : State} (h : s.MemWf)
include h

theorem State.MemWf.pubNote : (pubNote s).MemWf := h.notePort

theorem State.MemWf.execPub {hd a b c} : Keeps (execPub hd a b c s) :=
  h.issue (Yields.after fun _ => Yields.ok fun _ ht => ht.pubNote)

theorem State.MemWf.execPubMc {hd a b c d} : Keeps (execPubMc hd a b c d s) :=
  h.issue (Yields.after fun _ => Yields.ok fun _ ht => ht.pubNote)

theorem State.MemWf.deliverNext {ctx cls note} (l : List (BitVec 32)) : (s.deliverNext ctx cls note l).1.MemWf := by
  unfold State.deliverNext
  split
  · exact h
  split
  · split
    · next u hu => exact h.emitBy u hu
    · exact h
  · next w _ _ =>
    have hd := (h.focus (n := wordCore w)).deliver (ctx := ctx) (note := note)
    split
    · next u hu => rw [hu] at hd; exact hd.focus
    · exact h.congr (by rfl)

theorem State.MemWf.deliverLeft {p} : (s.deliverLeft p).1.MemWf := (h.deliverNext p.left).setPort

theorem State.MemWf.publishOn {p} : (s.publishOn p).1.MemWf := by
  unfold State.publishOn
  have hd := h.deliverLeft (p := p)
  split
  next u q hu =>
    rw [hu] at hd
    split
    · exact (hd.setPort.pathSpans _ _).spend
    · exact hd

theorem State.MemWf.readPub {c mc} : Reads (·.1.MemWf) (s.readPub c mc) := by
  refine h.logRead.bind fun x hx => (Reads.lift hx (P := fun _ => True) fun _ _ => trivial).bind fun back _ => ?_
  extract_lets note size finish
  have hf : ∀ y : State × List (BitVec 32), y.1.MemWf → Reads (fun z : State × Publishing => z.1.MemWf) (finish y) :=
    fun y hy =>
    Reads.ite (Reads.error hy) (Reads.ok hy)
  clear_value finish
  split
  · exact Reads.bind (hx.logRead.bind fun y hy => Reads.ok hy) hf
  · exact Reads.bind (Reads.ok hx) hf

theorem State.MemWf.renamePort {old new} : (s.renamePort old new).MemWf := h.mapLag

theorem State.MemWf.takeRetention {c mc x} : (s.takeRetention c mc x).1.MemWf := by
  unfold State.takeRetention
  split
  · exact h.setPort
  · exact h.setPort.setSlot.renamePort

theorem State.MemWf.runPub {c mc} : (runPub c mc s).state.MemWf := by
  unfold Machine.runPub
  extract_lets start
  have hs : Reads (·.1.MemWf) start := by
    unfold start
    split
    · exact Reads.ok h
    · exact h.readPub
  clear_value start
  split
  · next x => exact hs.2 x rfl
  next u p =>
  have hu : u.MemWf := hs.1 _ rfl
  have hv : State.MemWf (if p.slot.isSome then (u, p) else u.takeRetention c mc p).1 := by
    split
    · exact hu
    · exact hu.takeRetention
  split
  next v q hq =>
  rw [hq] at hv
  have hp := hv.publishOn (p := q)
  split
  · exact hv
  split
  next w ok hw =>
  rw [hw] at hp
  split
  · exact hp
  · exact hp


/-! ### Takes and pulls -/

theorem State.MemWf.pullEffect {d cls tag i t} : (pullEffect d cls tag i t s).MemWf := h.clearTags.setPort.notePort.wr

omit h in
theorem pullCheck_safe {d a more cls tag} : Yields Captured.Safe (pullCheck s d a more cls tag) := by
  unfold pullCheck
  split
  · exact Yields.error
  · exact Yields.ite Yields.error (Yields.ite Yields.error (Yields.ok fun _ ht => ht.pullEffect))

theorem State.MemWf.execPull {hd d a tag} : Keeps (execPull hd d a tag s) := h.issue pullCheck_safe
theorem State.MemWf.execPullF {hd d a b c tag} : Keeps (execPullF hd d a b c tag s) := h.issue pullCheck_safe

theorem State.MemWf.armLanded {record tag landing} : (s.armLanded record tag landing).MemWf := by
  unfold State.armLanded
  extract_lets u
  have hu : u.MemWf := by
    unfold u
    split
    · next t ht => exact h.writeFor t ht
    · exact h.faultTraffic
  exact hu.setTag

theorem State.MemWf.endTake {i t o} : (s.endTake i t o).MemWf := by
  unfold State.endTake
  split
  · exact h.setPort
  · exact h.setPort.armLanded

theorem State.MemWf.book {i t} : (s.book i t).MemWf := by
  unfold State.book
  refine .ite h.endTake ?_
  split
  next u there hu =>
    have hu' : u.MemWf := by
      split at hu
      · cases hu; exact h
      · next => have := h.bookPort (node := noteNode t.note) (size := t.size); rw [hu] at this; exact this
    exact hu'.setPort

theorem State.MemWf.runPull {c} : (runPull c s).state.MemWf := by
  unfold Machine.runPull
  split
  · split
    · exact h.book
    · exact h
  · exact h

theorem State.MemWf.armPull {a record tag} : ∀ t ∈ s.armPull a record tag, t.MemWf := by
  unfold State.armPull
  split
  · split
    · rintro _ ⟨⟩
      exact h.book
    · rintro _ ⟨⟩
  · rintro _ ⟨⟩

theorem State.MemWf.toBridge {t} : (s.toBridge t).1.MemWf := by
  unfold State.toBridge
  split
  · exact h
  split
  · exact h.congr (by rfl)
  · exact h.congr (by rfl)

theorem State.MemWf.execPullRequestRelease {take} : Keeps (execPullRequestRelease take s) := by
  unfold Machine.execPullRequestRelease
  split
  · next t _ =>
    split
    · refine Keeps.ite (Keeps.next h) (Keeps.ite (Keeps.next h.toBridge.setPort) ?_)
      split
      · next u hu => exact Keeps.next (h.emitBy u hu).setPort
      · exact Keeps.next h.endTake
    · exact Keeps.next h
  · exact Keeps.next h

theorem State.MemWf.servePull {req} : (s.servePull req).MemWf := by
  unfold State.servePull
  refine .ite h ?_
  extract_lets node
  refine State.MemWf.foldl (.ite h h.costsWhole) _ fun t x ht => ?_
  exact ht.getD ht.emitBy

theorem State.MemWf.placeFollow {i t b c} : (s.placeFollow i t b c).MemWf := by
  unfold State.placeFollow
  extract_lets q
  split
  · exact .ite h h.enqueue.setPort
  · exact h

theorem State.MemWf.placeFollows : s.placeFollows.MemWf := by
  refine h.foldl _ fun t c ht => ?_
  split
  · exact .ite ht.placeFollow ht
  · exact ht

theorem State.MemWf.localAnswer {i t} : ∀ x ∈ s.localAnswer i t, x.1.MemWf := by
  unfold State.localAnswer
  extract_lets take producer
  have htake : ∀ u a, State.MemWf u → (take u a).1.MemWf := fun u a hu =>
    .ite ((hu.coreCongr (by rfl) (by rfl))) ((hu.congr (by rfl)))
  clear_value take
  split
  · rintro _ ⟨⟩
    exact htake s _ h
  split
  · rintro _ ⟨⟩
  · rintro _ ⟨⟩
    exact htake _ _ (h.congr (by rfl))

theorem State.MemWf.land {i t bs} : (s.land i t bs).MemWf := by
  unfold State.land
  extract_lets u t' counts v
  have hu : u.MemWf := h.pathWrite
  clear_value u
  refine .ite hu.setPort ?_
  have hv : v.MemWf := hu.endTake.placeFollows
  clear_value v
  exact .ite hv.setPort.sendDecrement hv

theorem State.MemWf.execPullLanding {take ans} : Keeps (execPullLanding take ans s) := by
  unfold Machine.execPullLanding
  split
  · next t _ =>
    split
    · extract_lets here
      have ha : ∀ x ∈ (if here then s.localAnswer take.toNat t else some (s, ans)), x.1.MemWf := by
        split
        · exact h.localAnswer
        · rintro _ ⟨⟩; exact h
      split
      · exact Keeps.next h
      · next u hu => exact Keeps.next (State.MemWf.endTake (ha _ hu))
      · next u hu => exact Keeps.next (State.MemWf.endTake (ha _ hu))
      · next u bs hu => exact Keeps.ite (Keeps.next (ha _ hu)) (Keeps.next (State.MemWf.land (ha _ hu)))
    · exact Keeps.next h
  · exact Keeps.next h

/-! ### The events of the port -/

theorem State.MemWf.answerNotice {n code} : (s.answerNotice n code).MemWf := by
  unfold State.answerNotice
  refine .ite h ?_
  split
  · exact h.emit
  · exact h

theorem State.MemWf.execNoticeDelivery {n} : Keeps (execNoticeDelivery n s) := by
  refine Keeps.next (.ite h.answerNotice ?_)
  have hd := h.deliver (ctx := n.ctx) (note := n.note)
  split
  · next t ht => rw [ht] at hd; exact hd.answerNotice
  · next t ht => rw [ht] at hd; exact hd.answerNotice

theorem State.MemWf.execNoticeRetry : Keeps (execNoticeRetry s) := by
  unfold Machine.execNoticeRetry
  split
  · exact Keeps.ite (Keeps.next h.deliverLeft) (Keeps.next h)
  · exact Keeps.next h

theorem State.MemWf.execNoticeWithdrawal {core node seq} : Keeps (execNoticeWithdrawal core node seq s) :=
  Keeps.next (.ite (h.setPort.refill 256) h)

theorem State.MemWf.execRetentionDecrement {slot seq} : Keeps (execRetentionDecrement slot seq s) :=
  Keeps.next (.ite h.decrement h)

theorem State.MemWf.execRetentionExpiry {slot} : Keeps (execRetentionExpiry slot s) := by
  unfold Machine.execRetentionExpiry
  split
  · split
    · exact Keeps.ite (Keeps.next h.setSlot.postStorer) (Keeps.next h)
    · exact Keeps.next h
  · exact Keeps.next h

end
end Sys2Proof.Machine
end

section
/-! The scalar instructions, tags, counters, arms and barriers, and the atomics keep every memory canonical (Machine/Scalar,
Machine/Sync and Machine/Atomic). -/

namespace Sys2Proof.Machine

section
variable {s : State} (h : s.MemWf)
include h

/-! ### Scalar instructions -/

theorem State.MemWf.setOp {d v} : Keeps (setOp s d v) := h.companionOp (Yields.ok h.wr.advance)
theorem State.MemWf.setPredOp {d v} : Keeps (setPredOp s d v) := h.companionOp (Yields.ok h.wrP.advance)
theorem State.MemWf.execNop : Keeps (execNop s) := h.companionOp (Yields.ok h.advance)

theorem State.MemWf.execBfx {d a pos width} : Keeps (execBfx d a pos width s) :=
  h.companionOp (Yields.ite Yields.error (Yields.ok h.wr.advance))

theorem State.MemWf.execBfi {d a pos width} : Keeps (execBfi d a pos width s) :=
  h.companionOp (Yields.ite Yields.error (Yields.ok h.wr.advance))

theorem State.MemWf.execLea {d sel off} : Keeps (execLea d sel off s) := by
  refine h.companionOp ?_
  split
  · exact Yields.ok h.wr.advance
  · exact Yields.error

theorem State.MemWf.execSel {d a b} : Keeps (execSel d a b s) :=
  h.companionOp (Yields.ok (State.MemWf.ite h.wr h).advance)
theorem State.MemWf.execPtb {d imm} : Keeps (execPtb d imm s) := h.companionOp (Yields.ok h.wrB.advance)
theorem State.MemWf.execPtbr {d a} : Keeps (execPtbr d a s) := h.companionOp (Yields.ok h.wrB.advance)

theorem State.MemWf.jump {t} : Yields (·.MemWf) (s.jump t) := by
  unfold State.jump
  split
  · exact Yields.error
  · exact Yields.ok (h.setMe (by rfl))

theorem State.MemWf.branchOp {taken t} : Keeps (branchOp s taken t) :=
  h.companionOp (Yields.ite h.jump (Yields.ok h.advance))

theorem State.MemWf.execBrl {a p} : Keeps (execBrl a p s) := by
  refine h.companionOp (Yields.ite ?_ (Yields.ok h.advance))
  split
  · next t ht => exact Yields.ok (h.jump t ht).wrB
  · exact Yields.error

theorem State.MemWf.execHalt : Keeps (execHalt s) :=
  h.companionOp (Yields.ok (State.MemWf.setMe (x := { s.me with run := .ended }) h rfl).advance)

theorem State.MemWf.pushOwn {pushes} : (s.pushOwn pushes).MemWf :=
  h.foldl _ fun _ _ ht => ht.carryOwn.coreCongr (by rfl) (by rfl)

theorem State.MemWf.execTok {act} : Keeps (execTok act s) := by
  refine h.companionOp (Yields.ite Yields.error (Yields.ite Yields.error (Yields.ite Yields.error ?_)))
  extract_lets pops pushes t
  have ht : t.MemWf := h.acquireTokens.drainAll
  clear_value t
  have hp : State.MemWf { t with core := { t.core with tokens := t.core.tokens.pop pops } } :=
    ht.coreCongr (by rfl) (by rfl)
  exact Yields.ok hp.pushOwn.advance

theorem State.MemWf.loadOp {c d rs ea n len f} : Keeps (loadOp s c d rs ea n len f) :=
  h.companionOp (Yields.ite Yields.error (h.loadOr.liftFlt.bind fun _ ht => Yields.ok ht.wr.advance))

theorem State.MemWf.storeOp {v ea c n len} : Keeps (storeOp s v ea c n len) :=
  h.companionOp (Yields.ite Yields.error (h.store.liftFlt.bind fun _ ht => Yields.ok ht.advance))

/-! ### Arms -/

theorem State.MemWf.armSubmit {a} : (s.armSubmit a).MemWf := by
  unfold State.armSubmit
  extract_lets ctx role u
  refine .ite h.report ?_
  split
  · exact h.faultTraffic.report
  extract_lets card
  have hu := State.MemWf.submit (s := u) (ctx := ctx) (card := card) h.costs
  clear_value u
  split
  · next t _ ht => rw [ht] at hu; exact hu
  · next t _ ht =>
    rw [ht] at hu
    exact .ite hu (hu.orReport hu.putFor)

theorem State.MemWf.armCarry {a slot m} : (s.armCarry a slot m).MemWf := h.mapLag

theorem State.MemWf.fireArm {a slot} : (s.fireArm a slot).MemWf := by
  unfold State.fireArm
  extract_lets u v t
  have hu : u.MemWf := h.armSubmit
  have hv : v.MemWf := h.armCarry
  clear_value u v
  have ht : t.MemWf := by
    refine .ite (.ite hu hu.armCarry) (.ite ?_ hv.setTag)
    split
    · next w hw => exact hv.armPull w hw
    · exact hv.armLanded
  exact ht.mapLag

end

theorem Core.Wf.setArm {c : Core} (h : c.Wf) {i a} : (c.setArm i a).Wf := h.congr (by rfl)

section
variable {s : State} (h : s.MemWf)
include h

theorem State.MemWf.fireSlot {slot runs} : (s.fireSlot slot runs).MemWf := by
  unfold State.fireSlot
  split
  · have hn : State.MemWf { s with core := s.core.setArm slot none } := h.withCore h.core.setArm (by rfl)
    extract_lets u
    refine .ite hn.fireArm ?_
    have hu : u.MemWf := h.armCarry
    clear_value u
    exact hu.withCore hu.core.setArm (by rfl)
  · exact h

theorem State.MemWf.fireOne {x} : (s.fireOne x).MemWf := by
  unfold State.fireOne
  split
  · exact h.onSaved fun _ ht => ht.fireSlot
  · exact h.onCore fun _ ht => ht.fireSlot

theorem State.MemWf.fireRounds (fuel : Nat) : (s.fireRounds fuel).MemWf := by
  induction fuel generalizing s with
  | zero => exact h
  | succ fuel ih =>
    rw [State.fireRounds]
    split
    · exact h
    · exact ih (State.MemWf.foldl (s := { s with firing := [] }) (h.congr (by rfl)) _ fun _ _ ht => ht.fireOne)

theorem State.MemWf.fireAll : s.fireAll.MemWf := h.fireRounds 64

end

theorem Keeps.fired {o : Host.Outcome State Fault Refusal} (h : Keeps o) : Keeps (fired o) := by
  unfold Machine.fired
  split
  · next t => exact Keeps.next (h t rfl).fireAll
  · exact h

section
variable {s : State} (h : s.MemWf)
include h

/-! ### Tags, counters and barriers -/

theorem State.MemWf.acquireTags {m} : (s.acquireTags m).MemWf := .ite h h.acquireMet

theorem State.MemWf.tagWait {d got ready} : Keeps (tagWait s d got ready) :=
  h.companionOp (Yields.ite (Yields.ok h.acquireTags.wr.advance) Yields.error)

theorem State.MemWf.execTagFfr {d a} : Keeps (execTagFfr d a s) :=
  h.companionOp (Yields.ok h.acquireTags.clearTags.wr.advance)

theorem State.MemWf.execTagClr {a} : Keeps (execTagClr a s) := h.companionOp (Yields.ok h.clearTags.advance)

theorem State.MemWf.releaseCounter {sc loc} : (s.releaseCounter sc loc).MemWf := h.releaseAt

theorem State.MemWf.counterAdd {va v sc} : Yields (·.MemWf) (s.counterAdd va v sc) := by
  refine Yields.ite Yields.error (Yields.after fun loc => ?_)
  extract_lets t u w
  have ht : t.MemWf := h.ahead
  clear_value t
  split
  · exact Yields.error
  have hu : u.MemWf := ht.drain.releaseCounter
  clear_value u
  have hw : w.MemWf := hu.dropEarly.noteLost.pathStep
  exact Yields.ok hw.traffic

theorem State.MemWf.execCntAdd {a v sc} : Keeps (execCntAdd a v sc s) :=
  (h.companionOp (h.counterAdd.liftFlt.bind fun _ ht => Yields.ok ht.advance)).fired

theorem State.MemWf.counterRead {va sc} : Yields (·.1.MemWf) (s.counterRead va sc) :=
  Yields.ite Yields.error (Yields.after fun _ => h.load.bind fun _ ht => Yields.ok ht.acquireAt)

theorem State.MemWf.execCntWait {a v sc} : Keeps (execCntWait a v sc s) :=
  h.companionOp (h.counterRead.liftFlt.bind fun _ ht => Yields.ite (Yields.ok ht.advance) Yields.error)

theorem State.MemWf.execCntRd {d a sc} : Keeps (execCntRd d a sc s) :=
  h.companionOp (h.counterRead.liftFlt.bind fun _ ht => Yields.ok ht.wr.advance)

theorem State.MemWf.armCounter {d va} : Yields (·.MemWf) (s.armCounter d va) := by
  refine Yields.ite Yields.error (h.load.lift.bind fun x hx => Yields.ite (Yields.ok hx.wr) (Yields.after fun _ => ?_))
  refine hx.load.lift.bind fun y hy => ?_
  obtain ⟨x, bs⟩ := x
  obtain ⟨y, now⟩ := y
  dsimp only at hx hy ⊢
  split
  · exact Yields.ok hx.wr
  · refine Yields.ite (Yields.ok hy.fireArm.wr) (Yields.ok (State.MemWf.wr ?_))
    exact hy.withCore hy.core.setArm (by rfl)

theorem State.MemWf.execCntArm {d a} : Keeps (execCntArm d a s) :=
  (h.companionOp (h.armCounter.bind fun _ ht => Yields.ok ht.advance)).fired

theorem State.MemWf.setBar {b} : (s.setBar b).MemWf := h.congr (by rfl)

theorem State.MemWf.execBar {d a} : Keeps (execBar d a s) :=
  h.companionOp (Yields.ite (Yields.ok h.wr.advance) (Yields.ok h.releaseAt.setBar.wr.advance))

theorem State.MemWf.acquireBar {g} : (s.acquireBar g).MemWf := (h.setMe (Companion.follow_istore ..)).takeIn

theorem State.MemWf.execBarWait {a} : Keeps (execBarWait a s) :=
  h.companionOp (Yields.ite (Yields.ok h.acquireBar.advance) Yields.error)

/-! ### Atomics -/

theorem State.MemWf.performDeferred {x} : (s.performDeferred x).MemWf := by
  unfold State.performDeferred
  split
  · exact h.post
  · exact h.dropEarly.noteLost.pathStep.spend

theorem State.MemWf.performDeferreds {sel} : (s.performDeferreds sel).MemWf := by
  unfold State.performDeferreds
  exact State.MemWf.foldl (h.coreCongr (by rfl) (by rfl)) _ fun _ _ ht => ht.performDeferred

theorem State.MemWf.beforeAtomic {u op sc c loc} : (s.beforeAtomic u op sc c loc).MemWf := by
  unfold State.beforeAtomic
  extract_lets v w
  have hv : v.MemWf := .ite h (.ite h.release h.releaseAt)
  clear_value v
  have hw : w.MemWf := .ite hv.drain hv
  exact hw.drain

theorem State.MemWf.atomicStep {u op c loc new} : (s.atomicStep u op c loc new).MemWf := by
  unfold State.atomicStep
  extract_lets v
  have hv : v.MemWf := .ite h.dropEarly.noteLost h.afterRead
  exact .ite hv hv.pathStep

theorem State.MemWf.atomic {u op sc c d ea b} : Yields (·.MemWf) (s.atomic u op sc c d ea b) := by
  unfold State.atomic
  refine Yields.ite Yields.error ?_
  extract_lets rest
  have hrest : ∀ loc : Nat, Yields (fun t : State => t.MemWf) (rest loc) := by
    intro loc
    unfold rest
    refine Yields.ite Yields.error ?_
    extract_lets v w cost due core old t t'
    have hv : v.MemWf := h.ahead
    clear_value v
    split
    · exact Yields.error
    have hw : w.MemWf := hv.beforeAtomic
    clear_value w
    refine Yields.ite (Yields.ok (hw.coreCongr (by rfl) (by rfl))) ?_
    split
    · exact Yields.ok hw.loadEarly.traffic.wr
    have ht : t.MemWf := hw.atomicStep
    clear_value t
    have ht' : t'.MemWf := (State.MemWf.ite ht.acquireAt ht).traffic
    clear_value t'
    exact Yields.ok (.ite ht' ht'.wr)
  exact Yields.ite (Yields.after hrest) (Yields.after hrest)

theorem State.MemWf.amoOp {u op sc c d a b imm} : Keeps (amoOp s u op sc c d a b imm) := by
  refine (h.companionOp (Yields.ite Yields.error ?_)).fired
  split
  · next t ht => exact Yields.ok (h.atomic t ht).advance
  · exact Yields.ite (Yields.ok h.wr.advance) Yields.error

theorem State.MemWf.execLdAcq {sc c d a b imm} : Keeps (execLdAcq sc c d a b imm s) :=
  (h.companionOp (Yields.ite Yields.error (Yields.after fun _ => h.load.liftFlt.bind fun _ ht =>
    Yields.ok ht.acquireAt.wr.advance))).fired

theorem State.MemWf.relMeet {sc c id} : (s.relMeet sc c id).MemWf := h.letGo

theorem State.MemWf.execStRel {sc c v a b imm} : Keeps (execStRel sc c v a b imm s) :=
  (h.companionOp (Yields.ite Yields.error (h.release.store.liftFlt.bind fun _ ht => Yields.ok ht.relMeet.advance))).fired

theorem State.MemWf.execQntDeferExpiry : Keeps (execQntDeferExpiry s) := (Keeps.next h.performDeferreds).fired

end
end Sys2Proof.Machine
end

section
/-! Register space as engines write it, the block tables and the attention engine keep every memory canonical
(Machine/Operands, Machine/Kv and Machine/Attention). -/

namespace Sys2Proof.Machine

section
variable {s : State} (h : s.MemWf)
include h

/-! ### Register space -/

theorem State.MemWf.rsWrites {ws : List (Nat × List Byte)} : (ws.foldl (fun m w => m.writeN w.1 w.2) s.core.rs).Wf :=
  List.foldlRecOn ws _ h.core.rs fun _ hm _ _ => hm.writeN _ _

theorem State.MemWf.rsStore {ws} : Yields (·.MemWf) (s.rsStore ws) := by
  unfold State.rsStore
  extract_lets at_ bad core
  clear_value bad
  split
  · exact Yields.error
  · exact Yields.ok (h.withCore (h.core.withRs h.rsWrites (by rfl)) (by rfl))

/-! ### Block tables -/

theorem State.MemWf.kvGet {a n} : Yields (·.1.MemWf) (s.kvGet a n) :=
  (Yields.lift (Yields.ite h.engRead h.ownRead)).bind fun _ ht => Yields.ok ht

theorem State.MemWf.kvPut {a n v} : Yields (·.MemWf) (s.kvPut a n v) := h.ownWrite.lift

theorem State.MemWf.kvTable : Yields (·.1.MemWf) s.kvTable :=
  Yields.ite Yields.error (h.kvGet.bind fun _ ht => Yields.ite Yields.error (Yields.ok ht))

theorem State.MemWf.kvEntry {t j} : Yields (·.1.MemWf) (s.kvEntry t j) := h.kvGet.bind fun _ ht => Yields.ok ht

theorem State.MemWf.kvSetEntry {t j e} : Yields (·.MemWf) (s.kvSetEntry t j e) := h.kvPut

theorem State.MemWf.kvHomeScan {t k p} (l : List Nat) : Yields (·.1.MemWf) (s.kvHomeScan t k p l) := by
  induction l generalizing s with
  | nil => exact Yields.ok h
  | cons i l ih =>
    rw [State.kvHomeScan]
    exact h.kvEntry.bind fun _ ht => Yields.ite (Yields.ok ht) (ih ht)

theorem State.MemWf.kvChain {t k p} (fuel j : Nat) : Yields (·.1.MemWf) (s.kvChain t k p fuel j) := by
  induction fuel generalizing s j with
  | zero =>
    unfold State.kvChain
    split
    · exact Yields.ok h
    · exact Yields.error
    · next hf _ => nomatch hf
  | succ fuel ih =>
    unfold State.kvChain
    split
    · exact Yields.ok h
    · next hf _ => nomatch hf
    · next hf _ =>
      cases hf
      refine Yields.ite Yields.error (h.kvEntry.bind fun _ ht => Yields.ite (Yields.ok ht) ?_)
      exact ht.kvGet.bind fun _ hu => ih hu _

theorem State.MemWf.kvLookup {t seq lh lb} : Yields (·.1.MemWf) (s.kvLookup t seq lh lb) := by
  refine (h.kvHomeScan _).bind fun ⟨_, x⟩ hx => ?_
  dsimp only
  split
  · exact Yields.ok hx
  · exact hx.kvGet.bind fun _ ht => ht.kvChain _ _

theorem State.MemWf.kvChainList {t k} (fuel j : Nat) : Yields (·.1.MemWf) (s.kvChainList t k fuel j) := by
  induction fuel generalizing s j with
  | zero =>
    unfold State.kvChainList
    split
    · exact Yields.ok h
    · exact Yields.error
    · next hf _ => nomatch hf
  | succ fuel ih =>
    unfold State.kvChainList
    split
    · exact Yields.ok h
    · next hf _ => nomatch hf
    · next hf _ =>
      cases hf
      exact Yields.ite Yields.error (h.kvGet.bind fun _ ht => (ih ht _).bind fun _ hu => Yields.ok hu)

theorem State.MemWf.kvSetFree {t head count} : Yields (·.MemWf) (s.kvSetFree t head count) :=
  h.kvPut.bind fun _ ht => ht.kvPut

theorem State.MemWf.kvPushPool {t k e} : Yields (·.1.MemWf) (s.kvPushPool t k e) := by
  refine Yields.ite Yields.error (h.kvGet.bind fun _ h₁ => (h₁.kvChainList _ _).bind fun _ h₂ => Yields.ite Yields.error ?_)
  refine h₂.kvGet.bind fun _ h₃ => Yields.ite Yields.error (h₃.kvSetFree.bind fun _ h₄ =>
    h₄.kvSetEntry.bind fun _ h₅ => ?_)
  exact h₅.kvPut.bind fun _ h₆ => h₆.kvPut.bind fun _ h₇ => Yields.ok h₇

theorem State.MemWf.kvInsert {t e} : Yields (·.1.MemWf) (s.kvInsert t e) := by
  refine (h.kvHomeScan _).bind fun ⟨_, x⟩ hx => ?_
  dsimp only
  split
  · exact hx.kvSetEntry.bind fun _ ht => Yields.ok ht
  · exact hx.kvPushPool

theorem State.MemWf.kvPred {t j} (fuel at_ : Nat) : Yields (·.1.MemWf) (s.kvPred t j fuel at_) := by
  induction fuel generalizing s at_ with
  | zero => exact Yields.ok h
  | succ fuel ih =>
    rw [State.kvPred]
    exact Yields.ite (Yields.ok h) (h.kvGet.bind fun _ ht => (ih ht _).bind fun _ hu => Yields.ok hu)

theorem State.MemWf.kvRemove {t j} : Yields (·.MemWf) (s.kvRemove t j) := by
  refine h.kvEntry.bind fun _ h₁ => h₁.kvSetEntry.bind fun _ h₂ => Yields.ite (Yields.ok h₂) ?_
  refine h₂.kvGet.bind fun _ h₃ => (h₃.kvPred _ _).bind fun ⟨_, x⟩ h₄ => h₄.kvGet.bind fun ⟨_, _⟩ h₅ => ?_
  dsimp -zeta only
  extract_lets f
  have hf : ∀ u : State, u.MemWf → Yields (fun v : State => v.MemWf) (f u) := fun _ hu =>
    hu.kvTable.bind fun _ hv => hv.kvPut.bind fun _ hw => hw.kvSetFree
  clear_value f
  split
  · exact h₅.kvPut.bind hf
  · exact h₅.kvPut.bind hf

theorem State.MemWf.acquireLength {loc} : (s.acquireLength loc).MemWf := by
  unfold State.acquireLength
  split
  · exact h.acquireAt
  · exact (h.setComp (by rfl)).mapLag

theorem State.MemWf.lengthRead {va} : Yields (·.1.MemWf) (s.lengthRead va) :=
  Yields.after fun _ => h.kvGet.bind fun _ ht => Yields.ok ht.acquireLength

theorem State.MemWf.releaseCommit {va} : Yields (·.MemWf) (s.releaseCommit va) :=
  Yields.after fun _ => Yields.ok h.releaseAt

theorem State.MemWf.kvOp {roles : List Role} {f : State → Except Stop State} (hf : ∀ t, t.MemWf → Yields (·.MemWf) (f t)) :
    Keeps (kvOp s roles f) := (h.drainedOp fun t ht => (hf t ht).bind fun _ hu => Yields.ok hu.advance).fired

theorem State.MemWf.execKvFind {d a b} : Keeps (execKvFind d a b s) := by
  refine h.kvOp fun s h => h.kvTable.bind fun _ h => Yields.ite (Yields.ok h.wr) (h.kvLookup.bind fun ⟨_, x⟩ h => ?_)
  dsimp only
  split
  · exact Yields.ok h.wr
  · exact h.kvEntry.bind fun _ h => Yields.ok h.wr

theorem State.MemWf.kvValidEntry {t j} : Yields (·.1.MemWf) (s.kvValidEntry t j) :=
  Yields.ite (Yields.ok h) (h.kvEntry.bind fun _ ht => Yields.ok ht)

theorem State.MemWf.execKvPos {d a} : Keeps (execKvPos d a s) := by
  refine h.kvOp fun s h => h.kvTable.bind fun _ h => h.kvValidEntry.bind fun ⟨_, x⟩ h => ?_
  dsimp only
  split
  · exact Yields.ok h.wr
  · exact Yields.ok h.wr

theorem State.MemWf.kvRequest {a} : Yields (·.1.MemWf) (s.kvRequest a) := h.load.lift.bind fun _ ht => Yields.ok ht

theorem State.MemWf.execKvMap {d a} : Keeps (execKvMap d a s) := by
  refine h.kvOp fun s h => Yields.after fun _ => h.kvTable.bind fun _ h => h.kvRequest.bind fun _ h => ?_
  refine Yields.ite (Yields.ok h.wr) (h.kvLookup.bind fun ⟨_, x⟩ h => ?_)
  dsimp only
  split
  · exact Yields.ok h.wr
  · exact h.kvInsert.bind fun _ h => Yields.ok h.wr

theorem State.MemWf.execKvAlias {d a b} : Keeps (execKvAlias d a b s) := by
  refine h.kvOp fun s h => Yields.after fun _ => h.kvTable.bind fun _ h => h.kvRequest.bind fun _ h => ?_
  refine h.kvValidEntry.bind fun ⟨_, x⟩ h => ?_
  dsimp only
  split
  · exact Yields.ok h.wr
  · refine h.kvEntry.bind fun _ h => Yields.ite (Yields.ok h.wr) (h.kvLookup.bind fun ⟨_, x⟩ h => ?_)
    dsimp only
    split
    · exact Yields.ok h.wr
    · exact h.kvPushPool.bind fun _ h => h.kvSetEntry.bind fun _ h => Yields.ok h.wr

theorem State.MemWf.execKvUnmap {d a b} : Keeps (execKvUnmap d a b s) := by
  refine h.kvOp fun s h => h.kvTable.bind fun _ h => Yields.ite (Yields.ok h.wr) (h.kvLookup.bind fun ⟨_, x⟩ h => ?_)
  dsimp -zeta only
  split
  · exact Yields.ok h.wr
  · refine h.kvEntry.bind fun ⟨_, _⟩ h => ?_
    dsimp -zeta only
    extract_lets hj f
    have hf : ∀ u : State, u.MemWf → Yields (fun v : State => v.MemWf) (f u) := fun _ h => h.kvEntry.bind fun _ h =>
      Yields.ite (h.kvSetEntry.bind fun _ h => h.kvRemove.bind fun _ h => Yields.ok h.wr)
        (h.kvSetEntry.bind fun _ h => Yields.ok h.wr)
    clear_value f
    exact Yields.ite (h.kvRemove.bind hf) (Yields.bind (Yields.ok h) hf)

theorem State.MemWf.execKvRef {d a b} : Keeps (execKvRef d a b s) := by
  refine h.kvOp fun s h => h.kvTable.bind fun _ h => h.kvValidEntry.bind fun ⟨_, x⟩ h => ?_
  dsimp only
  split
  · exact Yields.ok h.wr
  · refine Yields.ite (Yields.ok h.wr) (h.kvEntry.bind fun _ h => Yields.ite (Yields.ok h.wr) (h.kvSetEntry.bind fun _ h => ?_))
    exact Yields.ite (h.kvRemove.bind fun _ h => Yields.ok h.wr) (Yields.ok h.wr)

theorem State.MemWf.execKvLen {d a} : Keeps (execKvLen d a s) := by
  refine h.kvOp fun s h => Yields.after fun x => ?_
  split
  · exact Yields.ok h.wr
  · exact h.lengthRead.bind fun _ h => Yields.ok h.wr

theorem State.MemWf.execKvCommit {d a b} : Keeps (execKvCommit d a b s) := by
  refine h.kvOp fun s h => Yields.after fun x => ?_
  split
  · exact Yields.ok h.wr
  · refine h.kvGet.bind fun _ h => Yields.ite (Yields.ok h.wr) (Yields.ite (Yields.ok h.wr) (Yields.ite ?_ (Yields.ok h.wr)))
    exact h.releaseCommit.bind fun _ h => h.kvPut.bind fun _ h => Yields.ok h.wr

theorem State.MemWf.copyRows {dst src size} (n : Nat) : Yields (·.MemWf) (s.copyRows dst src size n) := by
  induction n generalizing s dst src with
  | zero => exact Yields.ok h
  | succ n ih =>
    rw [State.copyRows]
    exact h.ownRead.lift.bind fun _ ht => ht.ownWrite.lift.bind fun _ hu => ih hu

theorem State.MemWf.kvAppend {d a} : Yields (·.MemWf) (s.kvAppend d a) := by
  refine h.kvTable.bind fun _ h => h.kvRequest.bind fun _ h => h.kvLookup.bind fun ⟨_, x⟩ h => ?_
  dsimp only
  split
  · exact Yields.error
  refine h.kvEntry.bind fun _ h => h.kvEntry.bind fun _ h => Yields.after fun x => ?_
  split
  · exact Yields.error
  refine h.kvGet.bind fun _ h => Yields.ite Yields.error (Yields.ite (Yields.ok h.wrP) (Yields.ite (Yields.ok h.wrP) ?_))
  exact Yields.after fun _ => (h.copyRows _).bind fun _ h => h.kvSetEntry.bind fun _ h => Yields.ok h.wrP

theorem State.MemWf.execKvApp {d a} : Keeps (execKvApp d a s) :=
  (h.drainedOp fun _ ht => Yields.after fun _ => Yields.ite Yields.error
    (ht.kvAppend.bind fun _ hu => Yields.ok hu.advance)).fired

/-! ### Attention -/

theorem State.MemWf.attIssue {i hd profile q narrows views ops check} :
    Keeps (attIssue s i hd profile q narrows views ops check) := by
  refine h.issue ?_
  split
  · exact Yields.error
  · exact Yields.ok (Captured.Safe.of_id rfl)

theorem State.MemWf.execAttQ {hd va b c d pb} : Keeps (execAttQ hd va b c d pb s) := h.attIssue
theorem State.MemWf.execAttQF {hd va} : Keeps (execAttQF hd va s) := h.attIssue
theorem State.MemWf.execAttKv {hd a b pb st} : Keeps (execAttKv hd a b pb st s) := h.attIssue
theorem State.MemWf.execAttRun {hd st} : Keeps (execAttRun hd st s) := h.attIssue
theorem State.MemWf.execAttOut {hd vd} : Keeps (execAttOut hd vd s) := h.attIssue
theorem State.MemWf.execAttMerge {hd vd va} : Keeps (execAttMerge hd vd va s) := h.attIssue
theorem State.MemWf.execAttPlan {hd a} : Keeps (execAttPlan hd a s) := h.attIssue

theorem State.MemWf.setAtt {x} : (s.setAtt x).MemWf := h.coreCongr (by rfl) (by rfl)

theorem State.MemWf.runAttQF {v} : Yields (·.MemWf) (runAttQF v s) := by
  unfold Machine.runAttQF
  split
  · exact Yields.error
  · exact Yields.ok h.setAtt

theorem State.MemWf.runAttQ {v b c d pb} : Yields (·.MemWf) (runAttQ v b c d pb s) := by
  unfold Machine.runAttQ
  split
  · exact Yields.error
  · exact Yields.ok h.setAtt

theorem State.MemWf.stageRows {f b len pbase key val a} (fuel i : Nat) {g} :
    Yields (·.1.MemWf) (stageRows f b len pbase key val a fuel i s g) := by
  induction fuel generalizing s i g with
  | zero => exact Yields.ok h
  | succ fuel ih =>
    rw [Machine.stageRows]
    refine Yields.ite (Yields.ok h) (Yields.ite Yields.error ?_)
    exact h.engRead.lift.bind fun _ ht => ht.engRead.lift.bind fun _ hu => ih hu _

theorem State.MemWf.stageBlock {a seq kh vh len b g} : Yields (·.1.MemWf) (stageBlock s a seq kh vh len b g) := by
  refine Yields.ite (Yields.ok h) (h.kvTable.bind fun _ h => h.kvLookup.bind fun ⟨_, x⟩ h =>
    h.kvLookup.bind fun ⟨_, y⟩ h => ?_)
  dsimp only
  split
  · refine h.kvEntry.bind fun _ h => h.kvEntry.bind fun _ h => h.kvEntry.bind fun _ h => h.kvEntry.bind fun _ h => ?_
    exact Yields.ite Yields.error (Yields.ite (Yields.ok h) ((h.stageRows _ _).bind fun _ h => Yields.ok h))
  · exact Yields.error

theorem State.MemWf.stageBlocks {a seq kh vh len} (fuel b : Nat) {g} :
    Yields (·.1.MemWf) (stageBlocks a seq kh vh len fuel b s g) := by
  induction fuel generalizing s b g with
  | zero => exact Yields.ok h
  | succ fuel ih =>
    rw [Machine.stageBlocks]
    exact h.stageBlock.bind fun _ ht => Yields.ite (ih ht _) (Yields.ok ht)

theorem State.MemWf.committed {seq} : Yields (·.1.MemWf) (s.committed seq) := by
  refine Yields.after fun x => ?_
  split
  · exact Yields.ok h
  · exact h.lengthRead.bind fun _ ht => Yields.ok ht

theorem State.MemWf.runAttKv {a b pb st} : Yields (·.MemWf) (runAttKv a b pb st s) := by
  refine h.engRead.lift.bind fun _ h => h.committed.bind fun ⟨_, x⟩ h => ?_
  dsimp only
  split
  · exact Yields.error
  · exact (h.stageBlocks _ _).bind fun _ h => Yields.ok h.setAtt

theorem State.MemWf.runAttRun {st} : (runAttRun st s).MemWf := h.setAtt

theorem State.MemWf.attWrite {rows} : Yields (·.MemWf) (attWrite s rows) :=
  h.rsStore.bind fun _ ht => Yields.ok (ht.coreCongr (by rfl) (by rfl))

theorem State.MemWf.runAttOut {v p} : Yields (·.MemWf) (runAttOut v p s) := Yields.ite Yields.error h.attWrite

theorem State.MemWf.runAttMerge {vd va p} : Yields (·.MemWf) (runAttMerge vd va p s) := by
  unfold Machine.runAttMerge
  split
  · exact Yields.error
  · exact h.attWrite

theorem State.MemWf.committedLog {seq g} : Reads (·.1.MemWf) (s.committedLog seq g) := by
  refine (Reads.lift h (P := fun _ => True) fun _ _ => trivial).bind fun x _ => ?_
  split
  · exact Reads.ok h
  refine h.logRead.bind fun _ ht => Reads.ok ?_
  dsimp only
  split
  · exact .ite ht.acquireLength ht
  · exact ht

theorem State.MemWf.planLengths {list rows} (n i : Nat) {g} : Reads (·.1.MemWf) (planLengths list rows n i s g) := by
  induction n generalizing s i g with
  | zero => exact Reads.ok h
  | succ n ih =>
    rw [Machine.planLengths]
    refine h.logRead.bind fun _ ht => ht.committedLog.bind fun ⟨_, x⟩ hx => ?_
    dsimp only
    split
    · exact Reads.error hx
    · exact (ih hx _).bind fun _ hu => Reads.ok hu

theorem State.MemWf.runAttPlan {a read} : Reads (·.MemWf) (runAttPlan a read s) :=
  h.logRead.bind fun _ ht => Reads.ite (Reads.error ht) ((ht.planLengths _ _).bind fun _ hu =>
    Reads.ite (Reads.error hu) (Reads.lift hu hu.engWrite))

theorem State.MemWf.asRole {r : Role} {f : State → Except Stop State} (hf : ∀ t, t.MemWf → Yields (·.MemWf) (f t)) :
    Yields (·.MemWf) (asRole r f s) := by
  have hr := hf { s with cur := r } (h.congr (by rfl))
  unfold Machine.asRole
  generalize f { s with cur := r } = x at hr ⊢
  cases x with
  | error e => exact Yields.error
  | ok t => exact Yields.ok ((hr t rfl).congr (by rfl))

theorem State.MemWf.attEffect {c} : Yields (·.MemWf) (attEffect c s) := by
  unfold Machine.attEffect
  extract_lets v op
  split
  · exact h.runAttQ
  · exact h.runAttQF
  · exact Yields.ok h.runAttRun
  · exact h.runAttOut
  · exact h.runAttMerge
  · exact Yields.ok h

theorem State.MemWf.runAtt {c} : (runAtt c s).state.MemWf := by
  unfold Machine.runAtt
  split
  · have hp := State.MemWf.runAttPlan (s := { s with cur := .sequencer }) (h.congr (by rfl))
      (a := c.ops.getD 0 0) (read := c.prog.carry)
    split
    · next t ht => exact (hp.1 t ht).congr (by rfl)
    · next x hx => exact (hp.2 x hx).congr (by rfl)
  · next pb st _ =>
    have hp :=
      h.asRole (r := .loader) fun t ht => ht.runAttKv (a := c.ops.getD 0 0) (b := c.ops.getD 1 0) (pb := pb) (st := st)
    split
    · next t ht => exact hp t ht
    · exact h.congr (by rfl)
    · exact h
  · exact h.engOf h.attEffect

end
end Sys2Proof.Machine
end

section
/-! Remote packets, sessions, combining, batches and fences keep every memory canonical (Machine/Remote). -/

namespace Sys2Proof.Machine

theorem Reads.mapM {α β : Type} {f : α → Except Broken β} (hf : ∀ a, Reads (fun _ => True) (f a)) (l : List α) :
    Reads (fun _ => True) (l.mapM f) := by
  induction l with
  | nil => exact Reads.ok trivial
  | cons a l ih =>
    rw [List.mapM_cons]
    exact (hf a).bind fun _ _ => ih.bind fun _ _ => Reads.ok trivial

theorem Core.Wf.mapBatch {c : Core} (h : c.Wf) {tag node f} : (c.mapBatch tag node f).Wf := by
  unfold Core.mapBatch
  extract_lets waits
  split
  · exact h.congr (by rfl)
  · exact h.congr (by rfl)

section
variable {s : State} (h : s.MemWf)
include h

theorem State.MemWf.foldlM {α : Type} {f : State → α → Option State} (l : List α)
    (hf : ∀ t x, t.MemWf → ∀ u ∈ f t x, u.MemWf) : ∀ u ∈ l.foldlM f s, u.MemWf := by
  induction l generalizing s with
  | nil => rintro _ ⟨⟩; exact h
  | cons x l ih =>
    intro u hu
    obtain ⟨t, ht, hl⟩ := Option.bind_eq_some_iff.mp (List.foldlM_cons (f := f) (b := s) ▸ hu)
    exact ih (hf s x h t ht) u hl

theorem State.MemWf.performRemote {cx core w p} : Yields (·.1.MemWf) (s.performRemote cx core w p) := by
  unfold State.performRemote
  refine Yields.ite (Yields.after fun _ => (Yields.foldlM _ h fun _ _ ht => ht.pathPut).bind fun _ ht => Yields.ok ht) ?_
  extract_lets n f
  have hf : ∀ loc : Nat, Yields (fun x : State × Word => x.1.MemWf) (f loc) := by
    intro loc
    unfold f
    split
    · exact Yields.error
    · exact Yields.ite (Yields.ok h.traffic) (Yields.ite Yields.error (Yields.ok h.pathStep.traffic))
  clear_value f
  exact Yields.ite (Yields.after hf) (Yields.after hf)

theorem State.MemWf.mapBatch {tag node f} : (s.mapBatch tag node f).MemWf := h.withCore h.core.mapBatch (by rfl)

theorem State.MemWf.settleBatches : s.settleBatches.MemWf := by
  unfold State.settleBatches
  extract_lets late u core v
  have hu : u.MemWf := by
    refine h.foldl _ fun t x ht => ?_
    split
    · exact .ite ht ht.mapJob
    · exact ht
  clear_value u
  have hv : v.MemWf := hu.coreCongr (by rfl) (by rfl)
  clear_value v
  refine hv.foldl _ fun t x ht => ?_
  extract_lets b core w
  have hw : w.MemWf := ht.coreCongr (by rfl) (by rfl)
  clear_value w
  exact .ite (.ite hw hw.postStorer) ht

theorem State.MemWf.answered {tag node failed} : (s.answered tag node failed).MemWf := h.mapBatch.settleBatches
theorem State.MemWf.setSession {x} : (s.setSession x).MemWf := h.congr (by rfl)

theorem State.MemWf.outcome {core p node v} : (s.outcome core p node v).MemWf := by
  refine h.onContext fun t ht => ?_
  extract_lets u
  have hu : u.MemWf := .ite ht.mapBatch ht
  clear_value u
  refine .ite ht.answered (.ite hu ?_)
  split
  · exact .ite (hu.coreCongr (by rfl) (by rfl)) hu
  · exact hu

theorem State.MemWf.killSession {x} : (s.killSession x).MemWf := h.setSession.foldl _ fun _ _ ht => ht.outcome
theorem State.MemWf.killNode {node} : (s.killNode node).MemWf := h.foldl _ fun _ _ ht => ht.killSession

theorem State.MemWf.noteRemote {cx p} : (s.noteRemote cx p).MemWf := by
  unfold State.noteRemote
  extract_lets parts sp u
  have hu : u.MemWf := h.dropEarly
  clear_value u
  exact .ite hu (hu.foldl _ fun _ _ ht => ht.holdRead.noteLost)

theorem State.MemWf.sendPacket {p node after} : (s.sendPacket p node after).MemWf := by
  unfold State.sendPacket
  extract_lets core die x p'
  refine .ite (.ite h.answered ?_) ?_
  · split
    · exact h.outcome
    · split
      · next u _ hu => exact State.MemWf.outcome (h.noteRemote.performRemote _ hu)
      · exact h.outcome
  · split
    · exact h.outcome
    · exact h.setSession.emit

theorem State.MemWf.sendEntry {e} : (s.sendEntry e).MemWf := h.sendPacket

theorem State.MemWf.sendCombined {sel} : (s.sendCombined sel).MemWf := by
  unfold State.sendCombined
  extract_lets x
  have hx : x.1.MemWf := by
    refine List.foldlRecOn _ _ (motive := fun y : State × List Combine => y.1.MemWf) h fun y hy e _ => ?_
    split
    · exact hy.sendEntry
    · exact hy
  clear_value x
  exact hx.coreCongr (by rfl) (by rfl)

theorem State.MemWf.place {node cls tag a bs} : ∀ t ∈ s.place node cls tag a bs, t.MemWf := by
  unfold State.place
  extract_lets line off l mine t u
  split
  · rintro _ ⟨⟩
    exact h.coreCongr (by rfl) (by rfl)
  have ht : t.MemWf := h.sendCombined
  clear_value t
  have hu : u.MemWf := by
    refine .ite ?_ ht
    split
    · exact ht.sendCombined
    · exact ht
  clear_value u
  split
  · rintro _ ⟨⟩
  · rintro _ ⟨⟩
    exact hu.coreCongr (by rfl) (by rfl)

/-! ### Summaries of batches -/

theorem State.MemWf.askBatch {t} : (s.askBatch t).MemWf := by
  unfold State.askBatch
  extract_lets b tag u core batch v
  have hu : u.MemWf := .ite h.sendCombined h
  clear_value u
  have hv : v.MemWf := hu.coreCongr (by rfl) (by rfl)
  clear_value v
  exact .ite (hv.foldl _ fun _ _ ht => ht.sendPacket).settleBatches hu

theorem State.MemWf.askLates (fuel : Nat) : (s.askLates fuel).MemWf := by
  induction fuel generalizing s with
  | zero => exact h
  | succ fuel ih =>
    rw [State.askLates]
    split
    · exact ih (State.MemWf.foldl (h.coreCongr (by rfl) (by rfl)) _ fun _ _ ht => ht.sendPacket).settleBatches
    · exact h

theorem State.MemWf.askBatches : s.askBatches.MemWf := (h.askLates _).foldl _ fun _ _ ht => ht.askBatch

theorem State.MemWf.askAll : s.askAll.MemWf := h.foldl _ fun _ _ ht => .ite (ht.onCore fun _ hu => hu.askBatches) ht

/-! ### Remote commands -/

theorem State.MemWf.remoteIssue {i hd a b c d bad} : Keeps (remoteIssue s i hd a b c d bad) := by
  refine h.issue ?_
  split
  · exact Yields.error
  · exact Yields.ok (Captured.Safe.of_id rfl)

theorem State.MemWf.remoteData {c n g} : Reads (·.1.MemWf) (remoteData c n s g) := Reads.ite (Reads.ok h) h.logRead

theorem State.MemWf.joins {tag nodes} : Yields (·.MemWf) (s.joins tag nodes) :=
  Yields.after fun _ => Yields.ok (h.coreCongr (by rfl) (by rfl))

theorem State.MemWf.placeAll {cls tag es bs} : (s.placeAll cls tag es bs).state.MemWf := by
  unfold State.placeAll
  split
  · next t ht => exact h.foldlM es (fun _ _ hv => hv.place) t ht
  · exact h

theorem State.MemWf.placed {e : EngEnd} (he : e.state.MemWf) : (runRst.placed s e).state.MemWf := by
  unfold runRst.placed
  split
  · exact h
  · exact he

theorem State.MemWf.runRst {c cls n} : (runRst c cls n s).state.MemWf := by
  unfold Machine.runRst
  extract_lets node ready
  have hr : Reads (·.1.MemWf) ready :=
    h.remoteData.bind fun _ ht => (Reads.lift ht ht.joins).bind fun _ hu => Reads.ok hu
  clear_value ready
  split
  · next x => exact hr.2 x rfl
  · next t _ => exact h.placed (State.MemWf.placeAll (hr.1 _ rfl))

theorem State.MemWf.runRstMc {c cls n} : (runRstMc c cls n s).state.MemWf := by
  unfold Machine.runRstMc
  extract_lets a k ready
  have hr : Reads (·.1.MemWf) ready := by
    refine h.remoteData.bind fun _ ht => ht.logRead.bind fun _ hu => (Reads.mapM (fun i => ?_) _).bind fun _ _ => ?_
    · split
      · exact Reads.ok trivial
      · exact Reads.error hu
    · exact (Reads.lift hu hu.joins).bind fun _ hv => Reads.ok hv
  clear_value ready
  split
  · next x => exact hr.2 x rfl
  · next t _ _ => exact h.placed (State.MemWf.placeAll (hr.1 _ rfl))

theorem State.MemWf.result {d v} : (s.result d v).MemWf := by
  unfold State.result
  extract_lets r c c' hold core
  apply State.MemWf.mapLag
  refine h.coreCongr ?_ (by rfl)
  exact congrArg (fun m => (s.core.rs, s.core.loader.istore, s.core.sequencer.istore, m))
    (Companion.setReg_istore s.core.storer d _)

theorem State.MemWf.awaitReply {d node p tag} : (awaitReply s d node p tag).state.MemWf := by
  unfold Machine.awaitReply
  split
  · exact h
  next t ht =>
  have ht' : t.MemWf := h.joins t ht
  split
  · exact h
  extract_lets die w core u
  have hu : u.MemWf := State.MemWf.sendPacket (ht'.coreCongr (by rfl) (by rfl))
  clear_value u
  split
  · exact hu.result
  · exact hu.setHeadProg

theorem State.MemWf.finishReply {d} : (finishReply s d).state.MemWf := by
  unfold Machine.finishReply
  split
  · exact h.result
  · exact h

theorem State.MemWf.runRld {c cls d size} : (runRld c cls d size s).state.MemWf := by
  unfold Machine.runRld
  extract_lets a n node go u
  have hu : u.MemWf := h.sendCombined
  clear_value u
  split
  · exact h.finishReply
  split
  · exact h.result
  split
  · exact hu
  · exact hu.awaitReply

theorem State.MemWf.runRamo {c cls op d size} : (runRamo c cls op d size s).state.MemWf := by
  unfold Machine.runRamo
  extract_lets node flow u
  have hu : u.MemWf := h.sendCombined
  clear_value u
  split
  · exact h.finishReply
  split
  · exact hu
  · exact hu.awaitReply

theorem State.MemWf.runRemote {c} : (runRemote c s).state.MemWf := by
  unfold Machine.runRemote
  split
  · exact h.runRst
  · exact h.runRstMc
  · exact h.runRld
  · exact h.runRamo
  · exact h

/-! ### Batches and fences -/

theorem State.MemWf.acquireBatches {which} : (s.acquireBatches which).MemWf := .ite h h.acquireMet
theorem State.MemWf.dropBatch {tag} : (s.dropBatch tag).MemWf := h.mapLag

theorem State.MemWf.closeBatch : s.closeBatch.MemWf := by
  unfold State.closeBatch
  extract_lets t u old bs bs' v core
  apply State.MemWf.askBatches
  exact State.MemWf.withCore (s := s) h (h.core.congr (by rfl)) (by rfl)

theorem State.MemWf.execBcls {d} : Keeps (execBcls d s) :=
  (h.companionOp (Yields.ite (Yields.ok h.closeBatch.wr.advance) Yields.error)).fired

theorem State.MemWf.execBwait {n} : Keeps (execBwait n s) :=
  h.companionOp (Yields.ite (Yields.ok h.acquireBatches.advance) Yields.error)

theorem State.MemWf.execBstat {d a b} : Keeps (execBstat d a b s) :=
  h.companionOp (Yields.ok h.acquireBatches.wr.advance)
theorem State.MemWf.execPath {d a b} : Keeps (execPath d a b s) := h.companionOp (Yields.ok h.wr.advance)

theorem State.MemWf.fenced {mask sc} : (s.fenced mask sc).MemWf := by
  unfold State.fenced
  extract_lets u v w
  have hu : u.MemWf := .ite h.sendCombined h
  clear_value u
  have hv : v.MemWf := hu.performDeferreds
  clear_value v
  have hw : w.MemWf := hv.drain
  clear_value w
  exact (hw.setMe (by rfl)).fenceHolds

theorem State.MemWf.fencedX {mask sc} : (s.fencedX mask sc).MemWf := h.fenced.orderPort

theorem State.MemWf.fenceOp {mask} {f : State → State} (hf : (f s).MemWf) : Keeps (fenceOp s mask f) :=
  (h.companionOp (Yields.ite Yields.error (Yields.ite Yields.error (Yields.ok hf.advance)))).fired

theorem State.MemWf.execFence {mask sc} : Keeps (execFence mask sc s) := h.fenceOp h.fenced
theorem State.MemWf.execFenceX {mask sc} : Keeps (execFenceX mask sc s) := h.fenceOp h.fencedX

theorem State.MemWf.execCombineEntryTimeout : Keeps (execCombineEntryTimeout s) :=
  (Keeps.next h.sendCombined.askBatches).fired

/-! ### Packets that arrive -/

theorem State.MemWf.reply {p r} : (s.reply p r).MemWf := by
  unfold State.reply
  split
  · exact h.emit
  · exact h

theorem State.MemWf.setInSession {x} : (s.setInSession x).MemWf := h.congr (by rfl)

theorem State.MemWf.takePacket {p} : (s.takePacket p).MemWf := by
  unfold State.takePacket
  extract_lets x mark
  split
  next u r failed hu =>
  have hu' : u.MemWf := by
    split at hu
    · cases hu; exact h
    split at hu
    · cases hu; exact h
    split at hu
    · next t _ ht => cases hu; exact h.performRemote _ ht
    · cases hu; exact h
  clear hu
  exact hu'.setInSession.reply

theorem State.MemWf.takeEarly {node die} (fuel : Nat) : (s.takeEarly node die fuel).MemWf := by
  induction fuel generalizing s with
  | zero => exact h
  | succ fuel ih =>
    rw [State.takeEarly]
    split
    · exact h
    split
    · exact h
    · exact ih h.setInSession.takePacket

theorem State.MemWf.receiveNumbered {p} : (s.receiveNumbered p).MemWf := by
  unfold State.receiveNumbered
  extract_lets u x
  have hu : u.MemWf := .ite h.setInSession h
  clear_value u x
  refine .ite (hu.takePacket.takeEarly _) (.ite ?_ (.ite hu hu.setInSession))
  split
  · exact hu.reply
  · exact hu

theorem State.MemWf.receiveReply {p known} : (s.receiveReply p known).MemWf := by
  unfold State.receiveReply
  extract_lets x u
  split
  · exact h
  have hu : u.MemWf := h.setSession
  clear_value u
  exact .ite hu.outcome.askAll hu.askAll

theorem State.MemWf.execKrytwayPacketReceive {p} : Keeps (execKrytwayPacketReceive p s) := by
  unfold Machine.execKrytwayPacketReceive
  extract_lets known u
  have hu : u.MemWf := .ite h.receiveReply h
  clear_value u
  exact (Keeps.next (.ite h.receiveNumbered (.ite hu.reply (.ite hu.toCoreFor hu)))).fired

theorem State.MemWf.clearLive {die node alt} : (s.clearLive die node alt).MemWf := h.congr (by rfl)

theorem State.MemWf.resend {x y} : (s.resend x y).MemWf := by
  unfold State.resend
  extract_lets u z
  have hu : u.MemWf := h.clearLive
  clear_value u
  split
  · exact hu.killNode
  · exact hu.setSession.emit

theorem State.MemWf.resendAll {node} : (s.resendAll node).MemWf :=
  h.foldl _ fun _ _ ht => ht.foldl _ fun _ _ hu => .ite hu hu.resend

theorem State.MemWf.execSummaryRequest {node core tag} : Keeps (execSummaryRequest node core tag s) :=
  (Keeps.next h.receiveNumbered).fired

theorem State.MemWf.execSummaryReply {tag node failed} : Keeps (execSummaryReply tag node failed s) := by
  unfold Machine.execSummaryReply
  extract_lets waits drop
  exact Keeps.ite (Keeps.next (State.MemWf.answered (h.congr (by rfl)))).fired (Keeps.next h)

end
end Sys2Proof.Machine
end

section
/-! Collective rounds and dead nodes keep every memory canonical (Machine/Collective). -/

namespace Sys2Proof.Machine

section
variable {α : Type} {P : α → Prop}

theorem Yields.toStep {s : State} {r : Except Flt α} (h : Yields P r) : Yields P (s.toStep r) := by
  cases r with
  | error e => exact Yields.error
  | ok a => exact Yields.ok (h a rfl)

end

section
variable {s : State} (h : s.MemWf)
include h

/-! ### Moves of a step -/

theorem State.MemWf.setCollUnit {u} : (s.setCollUnit u).MemWf := h.congr (by rfl)

theorem State.MemWf.stepRead {id owner a n} : Yields (·.1.MemWf) (s.stepRead id owner a n) := by
  refine Yields.after fun sp => Yields.after fun bs => Yields.ok (State.MemWf.traffic ?_)
  exact .ite (h.onContext fun _ ht => ht.setComp (r := .storer) rfl) h

end

section
variable {x : Stepping} (h : x.1.MemWf)
include h

theorem State.MemWf.ownBytes {id a off n} : Yields (·.2.1.MemWf) (ownBytes id a off n x) :=
  h.stepRead.bind fun _ ht => Yields.ok ht

theorem State.MemWf.pullBytes {r id p send off n} : Yields (·.2.1.MemWf) (pullBytes r id p send off n x) := by
  unfold Machine.pullBytes
  extract_lets t core
  split
  · exact State.MemWf.stepRead (s := t) h |>.bind fun _ ht => Yields.ok ht
  · exact Yields.ite Yields.error (Yields.ok h)

theorem State.MemWf.putRecv {ctx r off bs} : Yields (·.1.MemWf) (putRecv ctx r off bs x) :=
  h.putFor.toStep.bind fun _ ht => Yields.ok ht

theorem State.MemWf.foldSends {ctx r id src n} (fuel k : Nat) {acc} :
    Yields (·.2.1.MemWf) (foldSends ctx r id src n fuel k acc x) := by
  induction fuel generalizing x k acc with
  | zero => exact Yields.ok h
  | succ fuel ih =>
    rw [Machine.foldSends]
    exact Yields.ite (h.ownBytes.bind fun _ ht => ih ht _) (h.pullBytes.bind fun _ ht => ih ht _)

theorem State.MemWf.doMove {ctx r id m} : Yields (·.1.MemWf) (doMove ctx r id x m) := by
  unfold Machine.doMove
  extract_lets e fmt
  split
  · exact h.ownBytes.bind fun _ ht => ht.putRecv
  · exact h.ownBytes.bind fun _ ht => ht.putRecv
  · exact h.pullBytes.bind fun _ ht => ht.putRecv
  · exact h.pullBytes.bind fun _ ht => ht.ownBytes.bind fun _ hu => hu.putRecv
  · exact (h.foldSends _ _).bind fun _ ht => ht.putRecv

end

section
variable {s : State} (h : s.MemWf)
include h

/-! ### Rounds -/

theorem State.MemWf.writeRecord {ctx r bs} : (s.writeRecord ctx r bs).MemWf := .ite h (h.orReport h.putFor)
theorem State.MemWf.setRound {ctx i r} : (s.setRound ctx i r).MemWf := h.setCollUnit

theorem State.MemWf.sendColl {ctx r k step body} : (s.sendColl ctx r k step body).MemWf :=
  .ite (h.congr (by rfl)) (h.getD h.emitFor)

theorem State.MemWf.tell {ctx r ks step body} : (s.tell ctx r ks step body).MemWf :=
  h.foldl _ fun _ _ ht => ht.sendColl

theorem State.MemWf.noteAbroad {ctx r cause} : (s.noteAbroad ctx r cause).MemWf := by
  unfold State.noteAbroad
  extract_lets others u left v
  have hv : v.MemWf := .ite h h.setCollUnit
  exact hv.tell

theorem State.MemWf.markOver {id rank} : (s.markOver id rank).MemWf := .ite h.setCollUnit (.ite h h.setCollUnit)

theorem State.MemWf.finishRound {ctx i r} : (s.finishRound ctx i r).MemWf := by
  unfold State.finishRound
  extract_lets out status u ctr v
  have hu : u.MemWf := h.writeRecord
  clear_value u
  have hv : v.MemWf := .ite hu (hu.orReport hu.bumpFor)
  clear_value v
  exact hv.setRound.noteAbroad

theorem State.MemWf.postAbort {ctx job task handle} : (s.postAbort ctx job task handle).MemWf := by
  unfold State.postAbort
  extract_lets late there
  have hl : ∀ t : State, t.MemWf → (late t).MemWf := by
    intro t ht
    unfold late
    split
    · exact ht.mapJob
    · exact ht
  clear_value late
  exact .ite (h.onContext fun t ht => .ite ht.post (hl t ht)) (hl s h)

theorem State.MemWf.abortRound {ctx i r cause} : (s.abortRound ctx i r cause).MemWf := by
  unfold State.abortRound
  extract_lets u v w
  have hu : u.MemWf := h.tell
  clear_value u
  have hv : v.MemWf := hu.writeRecord
  clear_value v
  have hw : w.MemWf := hv.setRound.noteAbroad
  clear_value w
  exact hw.postAbort

theorem State.MemWf.startRound {ctx i r} : (s.startRound ctx i r).MemWf := h.setRound.tell

theorem State.MemWf.hbmCheck {a n w} : Yields (·.MemWf) (s.hbmCheck a n w) :=
  Yields.foldlM _ h fun _ _ ht => Yields.after fun _ => Yields.ite (Yields.ok ht.spend) Yields.error

theorem State.MemWf.openRound {d p g l i} : (s.openRound d p g l i).MemWf := by
  unfold State.openRound
  extract_lets u u' rank coord r id r' u'' v
  have hv : v.MemWf := h.setCollUnit.wr
  clear_value v
  exact .ite hv.tell (.ite hv.startRound hv)

theorem State.MemWf.loadParts {cls a} (l : List (Nat × Nat)) : Yields (·.1.MemWf) (s.loadParts cls a l) := by
  induction l generalizing s with
  | nil => exact Yields.ok h
  | cons x l ih =>
    rw [State.loadParts]
    exact h.load.lift.bind fun _ ht => (ih ht).bind fun _ hu => Yields.ok hu

theorem State.MemWf.coll {d a} : Yields (·.MemWf) (s.coll d a) := by
  refine Yields.ite Yields.error (h.load.lift.bind fun _ h => Yields.ite (Yields.ok h.wr) (h.load.lift.bind fun _ h => ?_))
  refine Yields.ite (Yields.ok h.wr) ((h.loadParts _).bind fun ⟨_, _⟩ h => Yields.ite (Yields.ok h.wr) ?_)
  split
  · exact Yields.ok h.wr
  · refine h.hbmCheck.bind fun _ h => h.hbmCheck.bind fun _ h => h.putFor.lift.bind fun _ h => Yields.ite Yields.error ?_
    exact Yields.ok (State.MemWf.fencedX (h.congr (by rfl))).notePort.openRound

theorem State.MemWf.execColl {d a} : Keeps (execColl d a s) :=
  (h.companionOp (h.coll.bind fun _ ht => Yields.ok ht.advance)).fired

theorem State.MemWf.execCwait {d a} : Keeps (execCwait d a s) := by
  refine h.companionOp ?_
  split
  · exact Yields.ok h.wr.advance
  · exact Yields.ite Yields.error (Yields.ok h.setCollUnit.wr.advance)

theorem State.MemWf.execCstat {d a b} : Keeps (execCstat d a b s) := h.companionOp (Yields.ok h.wr.advance)

theorem State.MemWf.overdue {ctx i r} : ∀ t ∈ s.overdue ctx i r, t.MemWf := by
  unfold State.overdue
  split
  · split
    · rintro _ ⟨⟩; exact h.abortRound
    · rintro _ ⟨⟩
  · rintro _ ⟨⟩

/-! ### Events of rounds -/

theorem State.MemWf.execCollReadyReport {id sender} : Keeps (execCollReadyReport id sender s) := by
  unfold Machine.execCollReadyReport
  extract_lets u k
  split
  · refine Keeps.ite (Keeps.next h) ?_
    split
    · exact Keeps.next h.tell
    refine Keeps.ite (Keeps.next h.startRound) ?_
    split
    · next t ht => exact Keeps.next (h.overdue t ht)
    · exact Keeps.next (.ite h.startRound h.setRound)
  · split
    · exact Keeps.next h.tell
    · exact Keeps.next h

theorem State.MemWf.execCollDeadline {ctx slot} : Keeps (execCollDeadline ctx slot s) := by
  unfold Machine.execCollDeadline
  split
  · exact Keeps.next (.ite h.startRound h)
  · exact Keeps.next h

theorem State.MemWf.execCollStartReport {id report} : Keeps (execCollStartReport id report s) := by
  unfold Machine.execCollStartReport
  split
  · refine Keeps.ite (Keeps.next h) ?_
    split
    · next t ht => exact Keeps.next (h.overdue t ht)
    · exact Keeps.ite (Keeps.next h.setRound) (Keeps.next h.finishRound).fired
  · exact Keeps.next h

theorem State.MemWf.endStep {ctx i r} : (s.endStep ctx i r).MemWf := h.setRound.tell

theorem State.MemWf.stepMove {ctx i r m bs last} : (s.stepMove ctx i r m bs last).MemWf := by
  unfold State.stepMove
  split
  · next t _ ht =>
    have ht' : t.MemWf := State.MemWf.doMove (x := (s, bs)) h _ ht
    exact .ite ht'.endStep ht'.setRound
  · exact h
  · next used _ _ _ => exact (State.MemWf.congr (t := { s with used := used }) h (by rfl)).faultTraffic.abortRound

theorem State.MemWf.bookStep {ctx i r m} : (s.bookStep ctx i r m).MemWf := by
  unfold State.bookStep
  split
  next u due hu =>
  have hu' : (u, due).1.MemWf := by
    rw [← hu]
    refine List.foldlRecOn _ _ (motive := fun a : State × List ((Nat × Bool × Nat × Nat) × Nat) => a.1.MemWf) h
      fun a ha x _ => ?_
    split
    next t there ht =>
    have ht' : t.MemWf := by
      split at ht
      · have hb := ha.bookPort (node := a.1.wordNode (r.word x.1)) (size := x.2.2.2)
        rw [ht] at hb
        exact hb
      · cases ht; exact ha
    exact ht'.setCollUnit
  exact State.MemWf.setRound hu'

theorem State.MemWf.sendStep {ctx i r} : (s.sendStep ctx i r).MemWf := by
  unfold State.sendStep
  extract_lets go
  split
  · exact h.abortRound
  · exact h.setRound.foldl _ fun _ _ ht => ht.sendColl

theorem State.MemWf.execCollStep {ctx slot ans} : Keeps (execCollStep ctx slot ans s) := by
  unfold Machine.execCollStep
  split
  · exact Keeps.next h
  extract_lets i
  refine Keeps.ite (Keeps.next h) ?_
  split
  · exact Keeps.next h.endStep
  extract_lets need
  refine Keeps.ite (Keeps.next h.stepMove) (Keeps.ite (Keeps.next h.bookStep) (Keeps.ite (Keeps.next h.sendStep) ?_))
  refine Keeps.ite (Keeps.next h.stepMove) (Keeps.ite (Keeps.next h) ?_)
  split
  · exact Keeps.ite (Keeps.next h) (Keeps.ite (Keeps.next h.stepMove) (Keeps.next h.setRound))
  · exact Keeps.next h.abortRound

theorem State.MemWf.serveStep {q off len} : (s.serveStep q off len).MemWf := by
  unfold State.serveStep
  split
  · exact h
  · exact h.costsWhole.foldl _ fun _ _ ht => ht.sendColl

theorem State.MemWf.execPullRequestServe {req} : Keeps (execPullRequestServe req s) := by
  refine Keeps.next ?_
  split
  · exact h.serveStep
  · exact h.servePull

theorem State.MemWf.execCollStepReport {id rank step} : Keeps (execCollStepReport id rank step s) := by
  unfold Machine.execCollStepReport
  extract_lets u
  have hu : u.MemWf := .ite h.markOver h
  clear_value u
  split
  · refine Keeps.ite (Keeps.next hu) ?_
    split
    · next t ht => exact Keeps.next (hu.overdue t ht)
    · exact Keeps.next hu.setRound
  · exact Keeps.next hu

theorem State.MemWf.execCollRoundComplete {ctx slot} : Keeps (execCollRoundComplete ctx slot s) := by
  unfold Machine.execCollRoundComplete
  split
  · exact Keeps.ite (Keeps.next h.finishRound).fired (Keeps.next h)
  · exact Keeps.next h

theorem State.MemWf.execCollAbortReport {id report} : Keeps (execCollAbortReport id report s) := by
  unfold Machine.execCollAbortReport
  extract_lets u
  have hu : u.MemWf := h.markOver
  clear_value u
  split
  · exact Keeps.next hu.abortRound
  · exact Keeps.next hu

theorem State.MemWf.execCollWaitTimeout {ctx slot} : Keeps (execCollWaitTimeout ctx slot s) := by
  unfold Machine.execCollWaitTimeout
  split
  · exact Keeps.next (h.getD h.overdue)
  · exact Keeps.next h

/-! ### Dead nodes -/

theorem State.MemWf.abortDead {node} : (s.abortDead node).MemWf := by
  refine h.foldl _ fun t v ht => ht.onCore fun u hu => .ite hu ?_
  extract_lets w x
  have hw : w.MemWf := by
    refine hu.foldl _ fun y i hy => ?_
    split
    · refine .ite hy ?_
      extract_lets z
      split
      · exact hy.abortRound
      · exact hy
    · exact hy
  clear_value w
  exact .ite hw hw.setCollUnit

theorem State.MemWf.sever {node} : (s.sever node).MemWf := .ite h h.killNode.abortDead.askAll

theorem State.MemWf.execLinkLaneLoss {port down} : Keeps (execLinkLaneLoss port down s) := by
  unfold Machine.execLinkLaneLoss
  extract_lets p links dead nodes u
  have hu : u.MemWf := h.congr (by rfl)
  clear_value u
  exact (Keeps.next (hu.foldl _ fun _ _ ht => ht.sever)).fired

theorem State.MemWf.execNodeDead {node} : Keeps (execNodeDead node s) :=
  (Keeps.next (h.foldl _ fun _ _ ht => ht.killSession).abortDead.askAll).fired

theorem State.MemWf.execAckTimeout {node} : Keeps (execAckTimeout node s) :=
  (Keeps.next h.resendAll.abortDead.askAll).fired

theorem State.MemWf.execCoordinatorStartReportExpiry {id} : Keeps (execCoordinatorStartReportExpiry id s) :=
  Keeps.next h.setCollUnit

end
end Sys2Proof.Machine
end

section
/-! The matrix engine and the system instructions keep every memory canonical (Machine/Matrix and Machine/System). -/

namespace Sys2Proof.Machine

section
variable {s : State} (h : s.MemWf)
include h

/-! ### The matrix engine -/

theorem State.MemWf.execFmtPush {a} : Keeps (execFmtPush a s) :=
  h.companionOp (Yields.ite Yields.error (Yields.ok (State.MemWf.advance (h.coreCongr (by rfl) (by rfl)))))

theorem State.MemWf.mIssue {i hd pops narrows views ops} : Keeps (mIssue s i hd pops narrows views ops) :=
  h.issue (Yields.ite (Yields.ok (Captured.Safe.of_id rfl)) Yields.error)

theorem State.MemWf.loadMacro {m v w vq} : Yields (·.MemWf) (loadMacro s m v w vq) := by
  unfold Machine.loadMacro
  refine Yields.ite Yields.error ?_
  split
  · exact Yields.error
  · exact Yields.ite Yields.error (Yields.ok (h.coreCongr (by rfl) (by rfl)))

theorem State.MemWf.multiply {vd va hd m cnt lay sparse w list} :
    Yields (·.MemWf) (multiply s vd va hd m cnt lay sparse w list) := by
  unfold Machine.multiply
  extract_lets set outs rows accs km groups overGroup nm bAt new
  clear_value new
  refine Yields.ite Yields.error ?_
  split
  · exact Yields.error
  split
  · exact Yields.error
  split
  · exact Yields.error
  split
  · exact Yields.error
  split
  · exact Yields.error
  split
  · exact Yields.error
  · exact h.rsStore

theorem State.MemWf.accZero {v e} : Yields (·.MemWf) (accZero s v e) := h.rsStore

theorem State.MemWf.accExp {v t} : Yields (·.MemWf) (accExp s v t) := by
  refine Yields.after fun rows => ?_
  split
  · exact Yields.error
  · exact h.rsStore

theorem State.MemWf.accNorm {v} : Yields (·.MemWf) (accNorm s v) := by
  refine Yields.after fun rows => ?_
  split
  · exact Yields.error
  · exact h.rsStore

theorem State.MemWf.writeOut {vd va nantrap ret p} : Yields (·.MemWf) (writeOut s vd va nantrap ret p) := by
  refine Yields.after fun rows => ?_
  split
  · exact Yields.error
  · exact h.rsStore.bind fun _ ht => Yields.ok (ht.coreCongr (by rfl) (by rfl))

theorem State.MemWf.compress {vd va} : Yields (·.MemWf) (compress s vd va) := by
  unfold Machine.compress
  split
  · exact Yields.error
  · exact h.rsStore

theorem State.MemWf.beginMatrix {c} : (s.beginMatrix c).MemWf := h.coreCongr (by rfl) (by rfl)

theorem State.MemWf.matrixEffect {c} : Yields (·.MemWf) (matrixEffect c s) := by
  unfold Machine.matrixEffect
  extract_lets v w
  refine Yields.ite Yields.error ?_
  split
  · split
    · exact Yields.error
    · exact Yields.ok (h.coreCongr (by rfl) (by rfl))
  · exact h.loadMacro
  · exact h.loadMacro
  · exact h.multiply
  · exact h.multiply
  · exact h.compress
  · split
    · exact Yields.error
    · exact Yields.ok (h.coreCongr (by rfl) (by rfl))
  · exact h.accZero
  · exact h.accExp
  · exact h.accNorm
  · exact h.writeOut
  · exact h.writeOut
  · exact Yields.ok h

theorem State.MemWf.runMatrix {c} : (runMatrix c s).state.MemWf := h.beginMatrix.engOf h.beginMatrix.matrixEffect

/-! ### Prefixes, traps and system registers -/

theorem State.MemWf.execPfx {p} : Keeps (execPfx p s) := by
  unfold Machine.execPfx
  extract_lets c
  split
  · exact h.settle Yields.error
  · exact Keeps.next (State.MemWf.advance (h.setMe (by rfl)))

theorem State.MemWf.execTrapEntry {r} : Keeps (execTrapEntry r s) := by
  unfold Machine.execTrapEntry
  extract_lets c
  split
  · exact Keeps.ite (Keeps.next (State.MemWf.takeTrap (h.setComp (by rfl)))) (Keeps.next h)
  · exact Keeps.next h

theorem State.MemWf.execTrap {a} : Keeps (execTrap a s) := h.companionOp Yields.error
theorem State.MemWf.execBrk {n} : Keeps (execBrk n s) := h.companionOp Yields.error
theorem State.MemWf.execEret : Keeps (execEret s) := h.companionOp h.eret

theorem State.MemWf.sysWrite {n v} : ∀ t ∈ s.sysWrite n v, t.MemWf := by
  unfold State.sysWrite
  split
  · rintro _ ⟨⟩; exact h.setMe (by rfl)
  · rintro _ ⟨⟩; exact h.setMe (by rfl)
  · rintro _ ⟨⟩; exact h.coreCongr (by rfl) (by rfl)
  · rintro _ ⟨⟩; exact h.coreCongr (by rfl) (by rfl)
  · rintro _ ⟨⟩; exact h.coreCongr (by rfl) (by rfl)
  · rintro _ ⟨⟩; exact h.coreCongr (by rfl) (by rfl)
  · rintro _ ⟨⟩; exact h.coreCongr (by rfl) (by rfl)
  · rintro _ ⟨⟩; exact h.coreCongr (by rfl) (by rfl)
  · rintro _ ⟨⟩

theorem State.MemWf.execSysr {d n} : Keeps (execSysr d n s) := by
  refine h.companionOp ?_
  split
  · exact Yields.ok h.wr.advance
  · exact Yields.error

theorem State.MemWf.execSysw {n a} : Keeps (execSysw n a s) := by
  refine h.drainedOp fun u hu => Yields.ite Yields.error ?_
  split
  · next t ht => exact Yields.ok (State.MemWf.advance (hu.sysWrite t ht))
  · exact Yields.error

theorem State.MemWf.discardSlot {q i x} : (s.discardSlot q i x).MemWf := by
  unfold State.discardSlot
  extract_lets u y v
  have hu : u.MemWf := h.retireEffects
  clear_value u
  have hv : v.MemWf := hu.setQueue
  clear_value v
  exact .ite hv.askBatches hv

theorem State.MemWf.replay {d a} : Yields (·.MemWf) (s.replay d a) := by
  unfold State.replay
  extract_lets c slots i
  refine Yields.ite Yields.error (Yields.ite (Yields.ok h.wr) ?_)
  clear_value slots c
  split
  · exact Yields.ite (Yields.ok h.wr) (Yields.ite (Yields.ok h.discardSlot.wr) (Yields.ite Yields.error
      (Yields.ok h.setQueue.wr)))
  · exact Yields.ok h.wr

theorem State.MemWf.execReplay {d a} : Keeps (execReplay d a s) :=
  h.companionOp (h.replay.bind fun _ ht => Yields.ok ht.advance)

theorem State.MemWf.execDisc {d a b} : Keeps (execDisc d a b s) := by
  have hset : ∀ l : List (Word × Word), State.MemWf { s with core := { s.core with disc := l } } :=
    fun _ => h.coreCongr (by rfl) (by rfl)
  exact h.companionOp (Yields.ite (Yields.ok (hset _).wr.advance) (Yields.ite (Yields.ok h.wr.advance)
    (Yields.ite (Yields.ok h.wr.advance) (Yields.ok (hset _).wr.advance))))

theorem State.MemWf.execWfi {a} : Keeps (execWfi a s) :=
  Keeps.ite (Keeps.next (h.setMe (by rfl))) (h.companionOp (Yields.ok (State.MemWf.ite (h.setMe (by rfl)) h).advance))

theorem State.MemWf.execTimer {r} : Keeps (execTimer r s) := by
  unfold Machine.execTimer
  extract_lets c
  split
  · exact Keeps.ite (Keeps.next (h.setComp (by rfl))) (Keeps.next h)
  · exact Keeps.next h

/-! ### Range slots -/

theorem State.MemWf.mapCtx {id f} : (s.mapCtx id f).MemWf := h.congr (by rfl)

theorem State.MemWf.setRanges {f} : (s.setRanges f).MemWf := by
  unfold State.setRanges
  split
  · exact h.mapCtx
  · exact h

theorem State.MemWf.forgetEarly : s.forgetEarly.MemWf := h.foldl _ fun _ _ ht => ht.setComp (by rfl)

theorem State.MemWf.shootDown : s.shootDown.MemWf := by
  unfold State.shootDown
  split
  · exact h
  · refine h.foldl _ fun _ _ ht => ht.onCore fun _ hu => .ite ?_ hu
    exact (hu.foldl _ fun _ _ hv => hv.drainAll).performDeferreds.forgetEarly

theorem State.MemWf.rmap {d a b} : Yields (·.MemWf) (s.rmap d a b) := by
  refine Yields.ite Yields.error (Yields.ite Yields.error (h.load.liftFlt.bind fun _ ht => Yields.ite (Yields.ok ht.wr) ?_))
  exact Yields.ok (State.MemWf.ite ht.shootDown.setRanges ht).wr

theorem State.MemWf.execRmap {d a b} : Keeps (execRmap d a b s) :=
  (h.drainedOp fun _ ht => ht.rmap.bind fun _ hu => Yields.ok hu.advance).fired

theorem State.MemWf.rinv {d a b} : Yields (·.MemWf) (s.rinv d a b) :=
  Yields.ite Yields.error (Yields.ite (Yields.ite (Yields.ok h.wr) (Yields.ok h.shootDown.setRanges.wr))
    (Yields.ite (Yields.ok h.shootDown.wr) (Yields.ite (Yields.ok h.shootDown.setRanges.wr) (Yields.ok h.wr))))

theorem State.MemWf.execRinv {d a b} : Keeps (execRinv d a b s) :=
  (h.drainedOp fun _ ht => ht.rinv.bind fun _ hu => Yields.ok hu.advance).fired

theorem State.MemWf.execRprobe {d a} : Keeps (execRprobe d a s) :=
  h.drainedOp fun _ ht => Yields.ite Yields.error (Yields.ok ht.spend.wr.advance)

end
end Sys2Proof.Machine
end

section
/-! Jobs, graphs and tasks, and the copies of tiles keep every memory canonical (Machine/Task and Machine/Tile). -/

namespace Sys2Proof.Machine

theorem State.image_wf {s : State} {cx core card r} : Yields Mem.Wf (s.image cx core card r) :=
  Yields.after fun _ => Yields.ok (Mem.wf_nil.writeN _ _)

theorem Core.Wf.setSeed {c : Core} (h : c.Wf) {v} : (c.setSeed v).Wf := h.congr (by rfl)

theorem Core.Wf.shut {c : Core} (h : c.Wf) : c.shut.Wf := h.congr (by rfl)

section
variable {s : State} (h : s.MemWf)
include h

/-! ### The front end -/

theorem State.MemWf.frontOp {f : State → Except Stop State} (hf : ∀ t, t.MemWf → Yields (·.MemWf) (f t)) :
    Keeps (frontOp s f) := (h.drainedOp fun t ht => (hf t ht).bind fun _ hu => Yields.ok hu.advance).fired

theorem State.MemWf.execJob {d a} : Keeps (execJob d a s) := by
  refine h.frontOp fun s h => Yields.ite Yields.error (h.load.liftFlt.bind fun x hx => Yields.ok (State.MemWf.wr ?_))
  have hs := hx.submit (ctx := x.1.core.ctx.getD 0) (card := recordOf 1024 x.2)
  split
  · exact hs.letGo
  · exact hs

theorem State.MemWf.putJob {j} : (s.putJob j).MemWf := h.mapJob
theorem State.MemWf.mapTask {core f} : (s.mapTask core f).MemWf := h.congr (by rfl)

theorem State.MemWf.dealAt {i} : (s.dealAt i).1.MemWf := by
  unfold State.dealAt
  split
  · exact h
  split
  · exact h
  split
  · exact h
  split
  · exact h
  split
  · exact h
  · exact h.putJob.mapTask

theorem State.MemWf.execDeal {d} : Keeps (execDeal d s) := by
  refine h.frontOp fun s h => ?_
  have hd := h.dealAt (i := s.me.deals)
  split
  next t w ht =>
  rw [ht] at hd
  extract_lets c u
  have hu : u.MemWf := hd.setMe (by rfl)
  clear_value u
  exact Yields.ok hu.wr

theorem State.MemWf.execTaskEnd : Keeps (execTaskEnd s) :=
  h.frontOp fun _ ht => Yields.ite (Yields.ok (ht.setMe (by rfl))) Yields.error

/-! ### Graphs -/

theorem State.MemWf.putGraph {g} : (s.putGraph g).MemWf := h.congr (by rfl)

theorem State.MemWf.readBy {cx core r a n} : (s.readBy cx core r a n).MemWf :=
  (h.onContext fun _ ht => ht.foldl _ fun _ _ hu => hu.noteLost).traffic

theorem State.MemWf.tableRead {a} : (s.tableRead a).MemWf := .ite h h.readBy

theorem State.MemWf.execGbind {d a} : Keeps (execGbind d a s) := by
  refine h.frontOp fun s h => ?_
  split
  · exact Yields.ok h.wr
  · exact Yields.ite Yields.error (h.tableRead.bind.lift.bind fun _ ht => Yields.ok ht.wr)

theorem State.MemWf.grebind {d a b} : Yields (·.MemWf) (s.grebind d a b) := by
  unfold State.grebind
  extract_lets pc
  split
  · exact Yields.ok h.wr.advance
  split
  · split
    · exact Yields.error
    · exact Yields.ok h.putGraph.wr.advance
  split
  · exact Yields.ite Yields.error (Yields.ok h.wr.advance)
  refine Yields.ite Yields.error (Yields.after fun r => ?_)
  split
  · exact Yields.ok h.tableRead.wr.advance
  · exact Yields.ok h.tableRead.putGraph

theorem State.MemWf.forgetRebound {a} : (s.forgetRebound a).MemWf := by
  unfold State.forgetRebound
  split
  · exact h.putGraph
  · exact h

theorem State.MemWf.execGrebind {d a b} : Keeps (execGrebind d a b s) := by
  refine Keeps.ite ?_ (h.settle Yields.error)
  extract_lets t
  have ht : t.MemWf := h.drainAll
  clear_value t
  split
  · exact ht.forgetRebound.settle Yields.error
  · exact (ht.settle ht.grebind).fired

theorem State.MemWf.execFire {d a b} : Keeps (execFire d a b s) := by
  refine h.frontOp fun s h => ?_
  extract_lets n
  split
  · exact Yields.ok h.wr
  · exact Yields.ite (Yields.ok h.wr) (Yields.ok h.putGraph.wr)

theorem State.MemWf.execFireWait {a b} : Keeps (execFireWait a b s) := by
  refine h.frontOp fun s h => ?_
  split
  · exact Yields.ok h
  · exact Yields.ite (Yields.ok h.acquireMet) Yields.error

theorem State.MemWf.execGstat {d a b} : Keeps (execGstat d a b s) := h.frontOp fun _ ht => Yields.ok ht.wr

/-! ### The start of a task -/

theorem State.MemWf.readImage {j r} : (s.readImage j r).1.MemWf ∧ ∀ m ∈ (s.readImage j r).2, m.Wf := by
  unfold State.readImage
  split
  · next m hm => exact ⟨h.costs, fun _ hx => Option.some.inj hx ▸ State.image_wf m hm⟩
  · exact ⟨h.faultTraffic.report, fun _ hx => nomatch hx⟩

theorem State.MemWf.writeStores {j} : (s.writeStores j).1.MemWf := by
  unfold State.writeStores
  have h₁ := h.readImage (j := j) (r := .loader)
  generalize s.readImage j .loader = x at h₁ ⊢
  obtain ⟨u, l⟩ := x
  obtain ⟨hu, hl⟩ := h₁
  dsimp only at hu hl ⊢
  have h₂ := hu.readImage (j := j) (r := .sequencer)
  generalize u.readImage j .sequencer = x at h₂ ⊢
  obtain ⟨v, q⟩ := x
  obtain ⟨hv, hq⟩ := h₂
  dsimp only at hv hq ⊢
  have h₃ := hv.readImage (j := j) (r := .storer)
  generalize v.readImage j .storer = x at h₃ ⊢
  obtain ⟨w, t⟩ := x
  obtain ⟨hw, ht⟩ := h₃
  dsimp only at hw ht ⊢
  split
  · exact ((hw.setCompWf (hl _ rfl)).setCompWf (hq _ rfl)).setCompWf (ht _ rfl)
  · exact hw

theorem State.MemWf.endTakes : s.endTakes.MemWf := by
  refine h.foldl _ fun t i ht => ?_
  split
  · exact .ite ht.decline ht.setPort
  · exact ht

theorem State.MemWf.freshCore : s.freshCore.MemWf := by
  unfold State.freshCore
  extract_lets u port v lo core
  have hu : u.MemWf := h.endTakes
  clear_value u
  have hv : v.MemWf := hu.setPort
  clear_value v
  exact hv.withCore (hv.core.withRs Mem.wf_nil (by rfl)) (by rfl)

theorem State.MemWf.acquireStart {id which} : (s.acquireStart id which).MemWf := h.foldl _ fun _ _ ht => ht.takeIn

theorem State.MemWf.startTask {j t entry s1 s2 s3 s4} : (s.startTask j t entry s1 s2 s3 s4).MemWf := by
  unfold State.startTask
  extract_lets first
  split
  next u ok hu =>
  have hu' : u.MemWf := by
    split at hu
    · have hw := h.writeStores (j := j)
      rw [hu] at hw
      exact hw
    · cases hu; exact h
  clear hu
  extract_lets v c start set batches
  have hv : v.MemWf := .ite hu'.freshCore hu'
  clear_value v
  refine .ite hu'.cancelJob (State.MemWf.mapLag (State.MemWf.putJob ?_))
  exact hv.coreCongr (by rfl) (by rfl)

theorem State.MemWf.startPlain : s.startPlain.MemWf := by
  unfold State.startPlain
  split
  · exact .ite h h.putJob.startTask.acquireStart
  · exact h

theorem State.MemWf.startEntry : s.startEntry.MemWf := by
  unfold State.startEntry
  split
  · split
    · exact .ite h h.putGraph.startTask.acquireStart
    · exact h
  · exact h

theorem State.MemWf.execTaskStart {core} : Keeps (execTaskStart core s) :=
  Keeps.next (h.onCore fun _ ht => ht.startPlain)
theorem State.MemWf.execGraphEntryStart {core} : Keeps (execGraphEntryStart core s) :=
  Keeps.next (h.onCore fun _ ht => ht.startEntry)

/-! ### The end of a task -/

theorem State.MemWf.discardAll {q} : (s.discardAll q).MemWf := (h.foldl _ fun _ _ ht => ht.retireEffects).setQueue

theorem State.MemWf.idle {r} : (s.idle r).MemWf := by
  unfold State.idle
  extract_lets c
  exact State.MemWf.foldl (h.setComp (by rfl)) _ fun _ _ ht => ht.lateCause

theorem State.MemWf.releaseAll : s.releaseAll.MemWf :=
  (h.foldl _ fun _ _ ht => ht.drainAll).performDeferreds.sendCombined
theorem State.MemWf.releaseEnd {t} : (s.releaseEnd t).MemWf := h.mapOrdered

theorem State.MemWf.endTask {t} : (s.endTask t).MemWf := by
  unfold State.endTask
  extract_lets u v w x
  have hu : u.MemWf := h.releaseAll.releaseEnd.foldl _ fun _ _ ht => ht.discardAll
  clear_value u
  have hv : v.MemWf := hu.foldl _ fun _ _ ht => ht.idle
  clear_value v
  have hw : w.MemWf := hv.withCore hv.core.shut (by rfl)
  clear_value w
  have hx : x.MemWf := hw.askBatches
  clear_value x
  exact hx.congr (by rfl)

theorem State.MemWf.execJobComplete {ctx slot} : Keeps (execJobComplete ctx slot s) := by
  unfold Machine.execJobComplete
  split
  · exact (Keeps.next h.complete.launchWaiting).fired
  · exact Keeps.next h

/-! ### Rebinding -/

theorem State.MemWf.copyMoves {cx core r} (l : List (Word × Word × Nat)) : (s.copyMoves cx core r l).1.MemWf := by
  induction l generalizing s with
  | nil => exact h
  | cons x l ih =>
    obtain ⟨src, dst, n⟩ := x
    rw [State.copyMoves]
    split
    · next u hu =>
      have hc : Yields (fun t : State => t.MemWf) (s.fetchFor cx core src n >>= fun bs =>
          (s.readBy cx core r src n).putFor cx core dst bs) := Yields.after fun _ => h.readBy.putFor
      exact ih (hc u hu)
    · exact h

theorem State.MemWf.copyWrites {cx core} (l : List (Word × List Byte)) : (s.copyWrites cx core l).1.MemWf := by
  induction l generalizing s with
  | nil => exact h
  | cons x l ih =>
    obtain ⟨a, bs⟩ := x
    rw [State.copyWrites]
    split
    · next u hu => exact ih (h.putFor u hu)
    · exact h

theorem State.MemWf.copyRecords {cx core r moves writes} : (s.copyRecords cx core r moves writes).1.MemWf := by
  have hm := h.copyMoves (cx := cx) (core := core) (r := r) moves
  unfold State.copyRecords
  split
  · next hu => rw [hu] at hm; exact hm.copyWrites _
  · next hu => rw [hu] at hm; exact hm

theorem State.MemWf.rebindDrained {g r} : (s.rebindDrained g r).MemWf := by
  unfold State.rebindDrained
  extract_lets gen
  have hc := h.copyRecords (cx := s.findCtx g.ctx) (core := r.core) (r := r.role) (moves := g.moves r.plan)
    (writes := r.plan.writes gen)
  split
  next t bad ht =>
  rw [ht] at hc
  refine State.MemWf.launchWaiting ?_
  split
  · exact hc.putGraph
  · exact State.MemWf.putGraph (hc.congr (by rfl))

theorem State.MemWf.execRebindDrainComplete {slot} : Keeps (execRebindDrainComplete slot s) := by
  unfold Machine.execRebindDrainComplete
  split
  · split
    · exact Keeps.ite (Keeps.next h.rebindDrained).fired (Keeps.next h)
    · exact Keeps.next h
  · exact Keeps.next h

/-! ### Tiles -/

theorem State.MemWf.tileIssue {i hd a b c d copy pages result tag} : Keeps (tileIssue s i hd a b c d copy pages result tag) := by
  refine h.issue ?_
  split
  · exact Yields.error
  · exact Yields.ok fun _ ht => ht.clearTags

theorem State.MemWf.tileUnit {op a b units u p} : Reads (·.1.MemWf) (tileUnit op a b units u p s) := by
  unfold Machine.tileUnit
  extract_lets off g
  split
  · exact (Reads.lift h h.engWrite).bind fun _ ht => Reads.ok ht
  · exact h.logRead.bind fun _ ht => ht.logRead.bind fun _ hu => Reads.ok hu
  · exact h.logRead.bind fun _ ht => (Reads.lift ht ht.engWrite).bind fun _ hu => Reads.ok hu
  · exact h.logRead.bind fun _ ht => (Reads.lift ht ht.engWrite).bind fun _ hu => Reads.ok hu

theorem State.MemWf.tileResult {op d k carry} : Yields (·.MemWf) (tileResult op d k carry s) := by
  unfold Machine.tileResult
  split
  · exact h.engWrite
  · exact h.engWrite

theorem State.MemWf.tileStep {op a b d units p} : Reads (·.1.MemWf) (tileStep op a b d units p s) :=
  Reads.ite h.tileUnit ((Reads.lift h h.tileResult).bind fun _ ht => Reads.ok ht)

theorem State.MemWf.runTile {op x} : (runTile op x s).state.MemWf := by
  unfold Machine.runTile
  extract_lets a b c units results k copies prog p
  have ht := h.tileStep (op := op) (a := a) (b := b) (d := x.ops.getD 3 0) (units := units) (p := p)
  split
  · exact h
  split
  · next e he => exact ht.2 e he
  · next t _ hr =>
    have ht' : t.MemWf := ht.1 _ hr
    split
    · exact ht'.setHeadProg
    · exact ht'

end
end Sys2Proof.Machine
end

section
/-! Vector configuration, vector memory commands and the vector engine keep every memory canonical (Machine/Vmem and
Machine/Vector). -/

namespace Sys2Proof.Machine

section
variable {s : State} (h : s.MemWf)
include h

/-! ### Configuration and register space -/

theorem State.MemWf.configure {d v} : (s.configure d v).MemWf :=
  (State.MemWf.setMe (x := { s.me with vcfg := v }) h rfl).wr.advance

theorem State.MemWf.execSetvl {d a w g} : Keeps (execSetvl d a w g s) := h.companionOp (Yields.ok h.configure)
theorem State.MemWf.execSetvli {d n w g} : Keeps (execSetvli d n w g s) := h.companionOp (Yields.ok h.configure)

theorem State.MemWf.execVcfg {d a b} : Keeps (execVcfg d a b s) := by
  refine h.companionOp ?_
  split
  · exact Yields.ok h.configure
  · exact Yields.error

theorem State.MemWf.execWset {w a} : Keeps (execWset w a s) := by
  refine h.drainedOp fun u hu => ?_
  extract_lets v
  split
  · exact Yields.error
  · exact Yields.ok (State.MemWf.advance (hu.coreCongr (by rfl) (by rfl)))

theorem State.MemWf.execWget {d w} : Keeps (execWget d w s) := h.drainedOp fun _ hu => Yields.ok hu.wr.advance

theorem State.MemWf.acquireOwn : s.acquireOwn.MemWf := (h.setMe (Companion.follow_istore ..)).mapLag

theorem State.MemWf.spaceOp {l : List Role} {f : State → Except Stop State} (hf : Yields (·.MemWf) (f s)) :
    Keeps (spaceOp s l f) := h.companionOp (Yields.ite Yields.error (hf.bind fun _ ht => Yields.ok ht.advance))

theorem State.MemWf.execVmvSx {v a} : Keeps (execVmvSx v a s) :=
  h.spaceOp (Yields.ite (Yields.ok h) h.rsStore.liftFlt)

theorem State.MemWf.execVmvXs {d v} : Keeps (execVmvXs d v s) := by
  refine h.spaceOp ?_
  dsimp only
  split
  · exact Yields.error
  · exact Yields.ok h.acquireOwn.wr

theorem State.MemWf.execKpop {d k} : Keeps (execKpop d k s) := h.spaceOp (Yields.ok h.acquireOwn.wr)
theorem State.MemWf.execKffs {d k} : Keeps (execKffs d k s) := h.spaceOp (Yields.ok h.acquireOwn.wr)
theorem State.MemWf.setVbm {n x} : (s.setVbm n x).MemWf := h.coreCongr (by rfl) (by rfl)
theorem State.MemWf.execVbmClr {n} : Keeps (execVbmClr n s) := h.spaceOp (Yields.ok h.setVbm)
theorem State.MemWf.execVbmRd {d n} : Keeps (execVbmRd d n s) := h.spaceOp (Yields.ok h.acquireOwn.wr)

/-! ### Vector memory commands -/

theorem State.MemWf.vmemIssue {i hd load t d x a b} : Keeps (vmemIssue s i hd load t d x a b) :=
  h.issue (Yields.ite (Yields.ok (Captured.Safe.of_id rfl)) Yields.error)

theorem State.MemWf.vmemPut {m : VMem} {done i ea bs} : Yields (·.MemWf) (m.put done i ea bs s) :=
  Yields.after fun _ => Yields.ite h.engWrite (Yields.foldlM _ h fun _ _ ht => ht.engWrite)

theorem State.MemWf.noteFilled {v} : (s.noteFilled v).MemWf := h.setComp (by rfl)

theorem State.MemWf.vmemAccess {m : VMem} {done i} : Yields (·.MemWf) (m.access done i s) := by
  unfold VMem.access
  extract_lets ea rest
  have hrest : ∀ u : Unit, Yields (fun t : State => t.MemWf) (rest u) := by
    intro u
    refine Yields.ite Yields.error (Yields.ite (h.engRead.bind fun _ ht => ht.noteFilled.rsStore) (Yields.after fun _ => ?_))
    split
    · exact Yields.error
    · exact h.vmemPut
  clear_value rest
  split
  · split
    · exact Yields.after hrest
    · exact hrest ()
  · exact hrest ()

theorem State.MemWf.vmemMark {m : VMem} {i} : (m.mark i s).MemWf := by
  unfold VMem.mark
  split
  · exact h.setVbm
  · exact h

theorem State.MemWf.vmemZero {m : VMem} {l on is} : Yields (·.MemWf) (m.zero l on is s) :=
  Yields.ite h.rsStore (Yields.ok h)

theorem State.MemWf.vmemFinish {m : VMem} {l n carry} : (m.finish l n carry s).state.MemWf := by
  unfold VMem.finish
  split
  · next t ht => exact State.MemWf.setHeadProg (h.vmemZero t ht)
  · exact h

theorem State.MemWf.vmemFault {m : VMem} {l i first carry c ea} : (m.fault l i first carry c ea s).state.MemWf := by
  unfold VMem.fault
  split
  · split
    · split
      · exact h
      · exact h.vmemFinish
    · exact h
  · exact h
  · exact h

theorem State.MemWf.vmemPick {m : VMem} {c i} : (m.pick c i s).state.MemWf := by
  unfold VMem.pick
  extract_lets l carry
  split
  · split
    · exact h
    split
    · exact h.setHeadProg
    split
    · next u hu => exact State.MemWf.setHeadProg (State.MemWf.vmemMark (h.vmemAccess u hu))
    · exact h.vmemFault
  · exact h

theorem State.MemWf.runVmem {m c} : (runVmem m c s).state.MemWf := by
  unfold Machine.runVmem
  extract_lets l carry bitmap rest past
  clear_value bitmap
  split
  · exact h.vmemFinish
  split
  · exact h.vmemPick
  split
  · exact h
  next t ht =>
  have ht' : t.MemWf := h.vmemZero t ht
  split
  · exact ht'.vmemFinish
  split
  · next u hu => exact State.MemWf.setHeadProg (State.MemWf.vmemMark (ht'.vmemAccess u hu))
  · exact ht'.vmemFault

/-! ### The vector engine -/

theorem State.MemWf.vIssue {i hd k ok} : Keeps (vIssue s i hd k ok) :=
  h.issue (Yields.ite (Yields.ok (Captured.Safe.of_id rfl)) Yields.error)

theorem State.MemWf.runVector {c} : (runVector c s).state.MemWf := by
  have hseed : ∀ v, State.MemWf { s with core := s.core.setSeed v } := fun _ => h.withCore h.core.setSeed (by rfl)
  unfold Machine.runVector
  split
  · exact h
  split
  · exact hseed _
  extract_lets o
  clear_value o
  split
  · exact h
  · next t ht =>
    have ht' : t.MemWf := h.rsStore t ht
    have hgen : ∀ g k, State.MemWf { t with core := { t.core with genVec := g, k := k } } :=
      fun _ _ => ht'.coreCongr (by rfl) (by rfl)
    exact hgen _ _

end
end Sys2Proof.Machine
end

section
/-! What an instruction's accesses follow, the engines' turns and the retirement of commands keep every memory canonical
(Machine/Run). -/

namespace Sys2Proof.Machine

/-! ### Register space that a command has left torn -/

theorem Torn.mend_wf {c : Core} (h : c.Wf) {x : Torn} : (Torn.mend c x).Wf :=
  h.withRs (List.foldlRecOn x.rs _ h.rs fun _ hm _ _ => hm.write _ _) (by rfl)

theorem Core.Wf.mend {c : Core} (h : c.Wf) {sel} : (c.mend sel).Wf := by
  have hf : ((c.torn.filter sel).foldl Torn.mend c).Wf := List.foldlRecOn _ _ h fun _ hd _ _ => Torn.mend_wf hd
  exact hf.congr (by rfl)

theorem Core.Wf.tear {c : Core} (h : c.Wf) {old q num late bits} : (c.tear old q num late bits).Wf := by
  unfold Core.tear
  extract_lets rs ks diff
  exact h.withRs (List.foldlRecOn rs _ h.rs fun _ hm _ _ => hm.write _ _) (by rfl)

section
variable {s : State} (h : s.MemWf)
include h

/-! ### What accesses follow -/

theorem State.MemWf.beforeAccess {i} : (s.beforeAccess i).MemWf := .ite h h.drain
theorem State.MemWf.noteStores {old i} : (State.noteStores old s i).MemWf := h.setMe (by rfl)
theorem State.MemWf.noteWrites {old i} : (State.noteWrites old s i).MemWf := h.mapLag

theorem State.MemWf.noteOrder {old i} : (State.noteOrder old s i).MemWf := by
  unfold State.noteOrder
  extract_lets u
  have hu : u.MemWf := h.noteStores.noteWrites
  clear_value u
  exact .ite h (hu.setMe (by rfl))

/-! ### Engines -/

theorem State.MemWf.runCmd {c} : (runCmd c s).state.MemWf := by
  unfold Machine.runCmd
  split
  · exact h.runVmem
  split
  iterate 4 exact h.runTile
  iterate 2 exact h.runPull
  iterate 2 exact h.runPub
  iterate 4 exact h.runRemote
  iterate 7 exact h.runAtt
  iterate 12 exact h.runMatrix
  exact h.runVector

theorem State.MemWf.mend {sel} : (s.mend sel).MemWf := h.withCore h.core.mend (by rfl)

theorem State.MemWf.rest {q ended} : (s.rest q ended).MemWf := by
  unfold State.rest
  extract_lets c u
  have hu : u.MemWf := .ite (h.setComp (by rfl)) h
  clear_value u
  exact hu.coreCongr (by rfl) (by rfl)

end

theorem State.MemWf.endIn {e : EngEnd} (h : e.state.MemWf) {q} : (State.endIn q e).MemWf := by
  unfold State.endIn
  extract_lets t
  have ht : t.MemWf := by
    unfold t
    split
    · exact (State.MemWf.rest h).finishHead
    · exact (State.MemWf.rest h).capture
    · exact State.MemWf.rest h
  clear_value t
  exact .ite ht.askBatches ht

section
variable {s : State} (h : s.MemWf)
include h

theorem State.MemWf.readyHead {q c} : (s.readyHead q c).MemWf := h.mend.executes.beforeCommand

theorem State.MemWf.engine {q} : (s.engine q).MemWf := by
  unfold State.engine
  split
  · exact h
  · exact State.MemWf.endIn h.readyHead.runCmd

theorem State.MemWf.engineTorn {q late bits} : (s.engineTorn q late bits).MemWf := by
  unfold State.engineTorn
  split
  · exact h
  · extract_lets t
    have ht : t.MemWf := h.engine
    clear_value t
    exact ht.withCore ht.core.tear (by rfl)

theorem State.MemWf.engineElement {q i} : (s.engineElement q i).MemWf := by
  unfold State.engineElement
  split
  · exact h
  split
  · exact State.MemWf.endIn h.readyHead.vmemPick
  · exact h

theorem State.MemWf.execEngineCommandExecute {q} : Keeps (execEngineCommandExecute q s) :=
  Keeps.next (.ite h.engine h)

theorem State.MemWf.retire {q c} : (s.retire q c).MemWf := by
  unfold State.retire
  extract_lets u queue v
  have hu : u.MemWf := h.mend.retireEffects
  clear_value u
  have hv : v.MemWf := hu.setQueue
  clear_value v
  exact .ite hv.placeFollows (.ite hv.askBatches hv)

theorem State.MemWf.execEngineCommandRetire {q} : Keeps (execEngineCommandRetire q s) := by
  refine Keeps.next ?_
  split
  · exact h.retire
  · exact h

end
end Sys2Proof.Machine
end

section
/-! Clusters are allotted, preempted, saved and restored: every memory stays canonical, those of the saved cores and of the
state areas among them (Machine/Sched). -/

namespace Sys2Proof.Machine

/-- A core read from a state area that holds none of this package's cores (log entry 5): its memories are empty. -/
theorem openCore_wf (k : Nat) : (openCore k).Wf := ⟨Mem.wf_nil, Mem.wf_nil, Mem.wf_nil, Mem.wf_nil⟩

theorem Core.Wf.stopClocks {c : Core} (h : c.Wf) {now} : (c.stopClocks now).Wf := h.congr (by rfl)
theorem Core.Wf.startClocks {c : Core} (h : c.Wf) {now} : (c.startClocks now).Wf := h.congr (by rfl)

section
variable {s : State} (h : s.MemWf)
include h

/-! ### Allotment -/

theorem State.MemWf.movePointer {die level} : (s.movePointer die level).MemWf := by
  unfold State.movePointer
  split
  · exact h
  extract_lets l
  clear_value l
  split
  · exact h.congr (by rfl)
  · exact h.congr (by rfl)
  · exact h.congr (by rfl)

theorem State.MemWf.needPointer {die level} : (s.needPointer die level).MemWf := by
  unfold State.needPointer
  split
  · exact h.congr (by rfl)
  · exact h.congr (by rfl)
  · exact h

theorem State.MemWf.onCluster {cluster} {f : State → State} (hf : ∀ t, t.MemWf → (f t).MemWf) :
    (s.onCluster cluster f).MemWf := h.foldl _ fun _ _ ht => ht.onCore hf

theorem State.MemWf.setGrant {cluster g} : (s.setGrant cluster g).MemWf := h.congr (by rfl)

theorem State.MemWf.pass {cluster next} : (s.pass cluster next).MemWf := by
  have hempty : ∀ t : State, t.MemWf → State.MemWf { t with core := {} } :=
    fun t ht => ht.withCore Core.wf_default (by rfl)
  have hnew : ∀ id, ∀ t : State, t.MemWf → State.MemWf { t with core := { ctx := some id } } := fun id t ht =>
    ht.withCore (Core.wf_default.congr (by rfl)) (by rfl)
  unfold State.pass
  split
  · exact (h.onCluster hempty).setGrant
  · refine .ite (h.onCluster hempty).setGrant ?_
    extract_lets u
    have hu : u.MemWf := h.onCluster (hnew _)
    clear_value u
    exact State.MemWf.congr (s := u) hu (by rfl)

theorem State.MemWf.assign {cluster next} : (s.assign cluster next).MemWf := by
  unfold State.assign
  split
  · exact h
  split
  · refine .ite h (.ite h.pass (State.MemWf.setGrant (h.onCluster fun t ht => ?_)))
    exact ht.withCore ht.core.stopClocks (by rfl)
  · exact h.setGrant
  · exact h.setGrant
  · exact .ite h h.pass

theorem State.MemWf.allocateDie {die} : (s.allocateDie die).MemWf :=
  (h.foldl _ fun _ _ ht => ht.needPointer).foldl _ fun _ _ ht => ht.assign

theorem State.MemWf.allocate : s.allocate.MemWf :=
  State.MemWf.foldl (s := { s with realloc := false }) (h.congr (by rfl)) _ fun _ _ ht => ht.allocateDie

theorem State.MemWf.execSliceBoundary : Keeps (execSliceBoundary s) := by
  refine Keeps.ite (Keeps.next ?_) (Keeps.next h)
  have hdone : ∀ u : State, u.MemWf → ∀ n, State.MemWf { u with sliceDone := n } := fun _ hu _ => hu.congr (by rfl)
  exact hdone _ (h.foldl _ fun _ _ ht => ht.foldl _ fun _ _ hu => hu.movePointer).allocate _

theorem State.MemWf.testEligible : s.testEligible.MemWf := by
  unfold State.testEligible
  extract_lets fit changed tick u
  have hu : u.MemWf := h.congr (by rfl)
  exact .ite hu.allocate hu

theorem State.MemWf.execAccountingTick {meter} : Keeps (execAccountingTick meter s) := by
  unfold Machine.execAccountingTick
  extract_lets t
  have ht : t.MemWf := h.congr (by rfl)
  clear_value t
  exact Keeps.ite (Keeps.next (.ite (ht.congr (by rfl)) ht.testEligible)) (Keeps.next h)

theorem State.MemWf.execBucketRefill : Keeps (execBucketRefill s) := by
  unfold Machine.execBucketRefill
  extract_lets fill
  exact Keeps.ite (Keeps.next (State.MemWf.testEligible (h.congr (by rfl)))) (Keeps.next h)

/-! ### Preemption and the end of a task -/

theorem State.MemWf.matrixStop {d} (fuel : Nat) : (State.matrixStop d fuel s).MemWf := by
  induction fuel generalizing s with
  | zero => exact h
  | succ fuel ih =>
    rw [State.matrixStop]
    split
    · split
      · exact h.retire
      · exact ih h.retire
    split
    · exact ih h.retire
    · exact .ite h (ih h.engine)

theorem State.MemWf.retireDone {q} : (s.retireDone q).MemWf := h.foldl _ fun _ _ ht => ht.retire

theorem State.MemWf.stopEngines : s.stopEngines.MemWf := ((h.matrixStop _).foldl _ fun _ _ ht => ht.retireDone).mend

theorem State.MemWf.stopCore : s.stopCore.MemWf := h.stopEngines.releaseAll

theorem State.MemWf.execClusterPreempt {cluster} : Keeps (execClusterPreempt cluster s) := by
  unfold Machine.execClusterPreempt
  extract_lets c
  split
  · split
    · exact (Keeps.next (h.onCluster fun _ ht => ht.stopCore).setGrant).fired
    · exact Keeps.next h
  · exact Keeps.next h

theorem State.MemWf.finishTask : s.finishTask.MemWf := by
  unfold State.finishTask
  split
  · exact h
  · exact .ite h.stopEngines.endTask h.endTask

theorem State.MemWf.finishSaved {n} : (s.finishSaved n).MemWf :=
  h.foldl _ fun _ _ ht => ht.onSaved fun _ hu => hu.endTask

theorem State.MemWf.execTaskFinish {core} : Keeps (execTaskFinish core s) :=
  (Keeps.next (h.onCore fun _ ht => .ite ht.finishTask ht).finishSaved).fired

/-! ### A save -/

theorem State.MemWf.coresAt {cluster} {x : Nat × Core} (hx : x ∈ s.coresAt cluster) : x.2.Wf := by
  obtain ⟨i, -, rfl⟩ := List.mem_map.mp hx
  show Core.Wf ((s.core? (cluster * 8 + i)).getD {})
  cases hc : s.core? (cluster * 8 + i) with
  | none => exact Core.wf_default
  | some c => exact h.core? hc

theorem State.MemWf.putImage {dst src a n skip} : (s.putImage dst src a n skip).MemWf :=
  h.withMem (h.mem.image ..) (by rfl)
theorem State.MemWf.copyImage {dst src n skip} : (s.copyImage dst src n skip).MemWf := h.putImage
theorem State.MemWf.spoil {units} : (s.spoil units).MemWf := h.congr (by rfl)
theorem State.MemWf.loadImage {dst src n} : (s.loadImage dst src n).MemWf := h.copyImage.spoil
theorem State.MemWf.settleAt {cluster which} : (s.settleAt cluster which).MemWf := h.congr (by rfl)

/-- What writes memory and adds to the state areas one whose core, if it holds one, is canonical. -/
theorem State.MemWf.withArea {t : State} {x : Nat × Area} (hx : ∀ c, x.2 = .core c → c.Wf) (hm : t.mem.Wf)
    (ha : t.areas = s.areas ++ [x]) (he : (t.core, t.others, t.saved) = (s.core, s.others, s.saved)) : t.MemWf := by
  simp only [Prod.mk.injEq] at he
  obtain ⟨hc, ho, hs⟩ := he
  obtain ⟨-, hc', ho', hs', ha'⟩ := h
  unfold State.MemWf
  rw [hc, ho, hs, ha]
  refine ⟨hm, hc', ho', hs', fun y hy => ?_⟩
  rcases List.mem_append.mp hy with hy | hy
  · exact ha' y hy
  · rw [List.mem_singleton.mp hy]
    exact hx

theorem State.MemWf.saveCluster {cluster c} : (s.saveCluster cluster c).MemWf := by
  unfold State.saveCluster
  extract_lets cores regions skip base v s₁ s₂ s₃ s₄
  have hcores : ∀ x ∈ cores, x.2.Wf := fun _ hx => h.coresAt hx
  have h₁ : s₁.MemWf := h.copyImage
  clear_value s₁
  have h₂ : s₂.MemWf := h₁.foldl _ fun _ _ ht => ht.copyImage.putImage
  clear_value s₂
  have h₃ : s₃.MemWf := by
    refine List.foldlRecOn _ _ h₂ fun t ht a ha => ?_
    extract_lets u
    have hu : u.MemWf := ht.putImage
    have hareas : u.areas = t.areas := rfl
    clear_value u
    refine hu.withArea (x := (t.areaSeq, a.2)) (fun d hd => ?_) hu.mem (congrArg (· ++ _) hareas.symm) (by rfl)
    have hmem : Area.core d ∈ cores.map (fun x => Area.core x.2) ++ [.bar v.bar] := hd ▸ (List.of_mem_zip ha).2
    rcases List.mem_append.mp hmem with hmem | hmem
    · obtain ⟨x, hx, he⟩ := List.mem_map.mp hmem
      cases he
      exact hcores x hx
    · cases List.mem_singleton.mp hmem
  clear_value s₃
  have h₄ : s₄.MemWf := h₃.settleAt.foldl _ fun _ x ht => ht.mapLag.swapSaved c.id x.1
  clear_value s₄
  refine h₄.withSaved (fun w hw x hx => ?_) (by rfl)
  rcases List.mem_append.mp hw with hw | hw
  · exact h₄.saved (List.mem_filter.mp hw).1 hx
  · cases List.mem_singleton.mp hw
    exact hcores x hx

theorem State.MemWf.saveDie {die c} : (s.saveDie die c).MemWf := by
  unfold State.saveDie
  extract_lets u
  have hu : u.MemWf := h.copyImage.settleAt
  clear_value u
  exact .ite h (hu.congr (by rfl))

theorem State.MemWf.loadDie {die c} : (s.loadDie die c).MemWf := by
  unfold State.loadDie
  split
  · exact h
  · extract_lets u
    have hu : u.MemWf := h.loadImage.spoil
    clear_value u
    exact hu.congr (by rfl)

theorem State.MemWf.execContextSaveComplete {cluster} : Keeps (execContextSaveComplete cluster s) := by
  unfold Machine.execContextSaveComplete
  extract_lets n
  split
  · split
    · exact Keeps.ite (Keeps.next h) (Keeps.next h.saveCluster.setGrant.saveDie.pass)
    · exact Keeps.next h
  · exact Keeps.next h

/-! ### A restore -/

theorem State.MemWf.lose {units} : (s.lose units).MemWf := h.withMem (h.mem.filter _) (by rfl)

theorem State.MemWf.fireHeld : s.fireHeld.MemWf := by
  have harm : ∀ (t : State) i a, t.MemWf → State.MemWf { t with core := t.core.setArm i a } := fun _ _ _ ht =>
    ht.withCore ht.core.setArm (by rfl)
  exact h.foldl _ fun _ _ ht => (harm _ _ _ ht).fireArm

theorem State.MemWf.loadRegs {src} : (s.loadRegs src).MemWf := by
  have hr : Mem.Wf (Mem.image [] 0 s.mem src 0xC0000 (fun _ => false)) := Mem.wf_nil.image ..
  unfold State.loadRegs
  extract_lets dst bad core
  exact State.MemWf.spoil (h.withCore (h.core.withRs hr (by rfl)) (by rfl))

theorem State.MemWf.resumeCore {base c bad} (hc : c.Wf) : (s.resumeCore base c bad).MemWf := by
  unfold State.resumeCore
  extract_lets s₁ s₂ s₃
  have h₁ : s₁.MemWf := h.withCore hc.startClocks (by rfl)
  clear_value s₁
  have h₂ : s₂.MemWf := h₁.loadRegs.spoil
  clear_value s₂
  have h₃ : s₃.MemWf := by
    unfold s₃
    split
    · exact h₂
    · next j _ =>
      have hw := h₂.writeStores (j := j)
      split
      next t ok ht =>
      rw [ht] at hw
      exact .ite hw hw.cancelJob
  clear_value s₃
  exact h₃.fireHeld

theorem State.MemWf.takeHeld : s.takeHeld.MemWf := State.MemWf.foldl (h.congr (by rfl)) _ fun _ _ ht => ht.take

theorem State.MemWf.badArea {cluster id} : (s.badArea cluster id).MemWf :=
  (h.foldl _ fun _ _ ht => ht.cancelJob).report

theorem State.MemWf.areaCore {at_ n k} {mine : Core} (hm : mine.Wf) : (s.areaCore at_ n k mine).Wf := by
  unfold State.areaCore
  refine .ite hm ?_
  split
  · next hf => exact h.areas (List.mem_reverse.mp (List.mem_of_find?_eq_some hf)) rfl
  · exact openCore_wf _

theorem State.MemWf.fromAreas {c v} (hv : ∀ x ∈ v.cores, x.2.Wf) {x : Nat × Core}
    (hx : x ∈ (s.fromAreas c v).cores) : x.2.Wf := by
  obtain ⟨y, hy, rfl⟩ := List.mem_map.mp hx
  exact (h.areaCore (hv _ (List.of_mem_zip hy).1)).congr (by rfl)

theorem State.MemWf.restoreCluster {cluster c v} (hv : ∀ x ∈ v.cores, x.2.Wf) : (s.restoreCluster cluster c v).MemWf := by
  unfold State.restoreCluster
  extract_lets base s₁ s₂ s₃ s₄ s₅ s₆ s₇ s₈
  have h₁ : s₁.MemWf := h.loadImage
  clear_value s₁
  have h₂ : s₂.MemWf := h₁.foldl _ fun _ _ ht => ht.loadImage
  clear_value s₂
  have h₃ : s₃.MemWf := h₂.spoil.loadDie
  clear_value s₃
  have h₄ : s₄.MemWf := h₃.congr (by rfl)
  clear_value s₄
  have h₅ : s₅.MemWf := h₄.lose
  clear_value s₅
  have h₆ : s₆.MemWf := h₅.withSaved (fun w hw x hx => h₅.saved (List.mem_filter.mp hw).1 hx) (by rfl)
  clear_value s₆
  have h₇ : s₇.MemWf := h₆.setGrant
  clear_value s₇
  have h₈ : s₈.MemWf := List.foldlRecOn _ _ h₇ fun t ht x hx => ht.onCore fun u hu =>
    (hu.mapLag.swapSaved c.id x.1).resumeCore (hv x hx)
  clear_value s₈
  exact (h₈.onCluster fun _ ht => ht.takeHeld).askAll

theorem State.MemWf.execContextRestore {die unit} : Keeps (execContextRestore die unit s) := by
  unfold Machine.execContextRestore
  extract_lets n
  refine Keeps.ite (Keeps.next h) ?_
  split
  · split
    · next c v _ _ hv =>
      have hr := h.restoreCluster (cluster := n) (c := c) (v := s.fromAreas c v)
        fun x hx => h.fromAreas (fun y hy => h.saved (List.mem_of_find?_eq_some hv) hy) hx
      exact (Keeps.next (.ite hr hr.badArea)).fired
    · exact Keeps.next h
  · exact Keeps.next h

end
end Sys2Proof.Machine
end

section
/-! What the host does, and the package's own events, keep every memory canonical (Machine/HostPort). -/

namespace Sys2Proof.Machine

theorem State.reset_memWf : State.reset.MemWf := resetMemoriesAreCanonical

section
variable {s : State} (h : s.MemWf)
include h

theorem State.MemWf.setStat {code} : (s.setStat code).MemWf := h.congr (by rfl)

theorem State.MemWf.createCtx {id} : (s.createCtx id).MemWf := by
  unfold State.createCtx
  refine .ite h.setStat (.ite h.setStat (.ite h.setStat ?_))
  extract_lets a
  split
  · exact h.setStat
  · exact State.MemWf.setStat (h.congr (by rfl))

theorem State.MemWf.destroyCtx {id} : (s.destroyCtx id).MemWf := by
  unfold State.destroyCtx
  refine .ite h.setStat ?_
  split
  · exact h.setStat
  · extract_lets u
    have hu : u.MemWf := h.congr (by rfl)
    exact hu.mapCtx.finishDestroy

theorem State.MemWf.otherOp : s.otherOp.MemWf := h.setStat
theorem State.MemWf.execCtxcmdCreate {ctx} : Keeps (execCtxcmdCreate ctx s) := Keeps.next h.createCtx
theorem State.MemWf.execCtxcmdDestroy {ctx} : Keeps (execCtxcmdDestroy ctx s) := Keeps.next h.destroyCtx
theorem State.MemWf.execCtxcmdInvalidOp {op} : Keeps (execCtxcmdInvalidOp op s) := Keeps.next (.ite h h.otherOp)

theorem State.MemWf.launchCard {ctx} : (s.launchCard ctx).MemWf := by
  unfold State.launchCard
  extract_lets put
  have hput : ∀ t v, t.MemWf → (put t v).MemWf := fun _ _ ht => ht.congr (by rfl)
  clear_value put
  refine .ite (hput _ _ h) (.ite (hput _ _ h) ?_)
  have hs := h.submit (ctx := ctx) (card := s.window.card)
  split
  next t r ht =>
  rw [ht] at hs
  exact hput _ _ hs

theorem State.MemWf.cancelHandle {ctx handle} : (s.cancelHandle ctx handle).MemWf := by
  unfold State.cancelHandle
  split
  · exact h.cancelJob
  · exact h

theorem State.MemWf.execLaunch {ctx} : Keeps (execLaunch ctx s) := (Keeps.next h.launchCard).fired
theorem State.MemWf.execCancel {ctx handle} : Keeps (execCancel ctx handle s) := Keeps.next h.cancelHandle
theorem State.MemWf.clearFault : s.clearFault.MemWf := h.congr (by rfl)
theorem State.MemWf.setLimit {v} : (s.setLimit v).MemWf := h.congr (by rfl)
theorem State.MemWf.execFaultClear : Keeps (execFaultClear s) := Keeps.next h.clearFault
theorem State.MemWf.execPlimitWrite {v} : Keeps (execPlimitWrite v s) := Keeps.next h.setLimit

theorem State.MemWf.writePath {die node alt v} : (s.writePath die node alt v).MemWf := by
  unfold State.writePath
  extract_lets w u
  have hu : u.MemWf := h.congr (by rfl)
  clear_value u
  exact .ite (hu.congr (by rfl)) hu.sever

theorem State.MemWf.windowWrite {off v} : (s.windowWrite off v).MemWf := by
  unfold State.windowWrite
  extract_lets id die o
  refine .ite (h.congr (by rfl)) (.ite ?_ (.ite h.cancelHandle (.ite (.ite h.clearFault (h.congr (by rfl)))
    (.ite h.setLimit (.ite (h.congr (by rfl)) (.ite h.launchCard (.ite (.ite (h.congr (by rfl)) (.ite h.writePath h)) h)))))))
  split
  · exact h.createCtx
  · exact h.destroyCtx
  · exact h.otherOp

theorem State.MemWf.execHostRegisterWrite {off v} : Keeps (execHostRegisterWrite off v s) :=
  (Keeps.next h.windowWrite).fired

theorem State.MemWf.broughtUp {host : Mem} (hm : host.Wf) : (s.broughtUp host).MemWf := h.withMem hm (by rfl)

theorem State.MemWf.execReset : Keeps (execReset s) := by
  have hm : Mem.Wf (s.mem.filter (fun c => isHost c.1)) := h.mem.filter _
  exact Keeps.next (.ite (State.MemWf.broughtUp (State.reset_memWf.congr (by rfl)) hm) (h.broughtUp hm))

theorem State.MemWf.execThermalTrip : Keeps (execThermalTrip s) := Keeps.next (h.congr (by rfl))
theorem State.MemWf.execPowerThrottle : Keeps (execPowerThrottle s) := Keeps.next h
theorem State.MemWf.execHbmScrub {n} : Keeps (execHbmScrub n s) := Keeps.next h
theorem State.MemWf.execEccError {unit fatal} : Keeps (execEccError unit fatal s) :=
  Keeps.next (.ite (h.congr (by rfl)) h)

end
end Sys2Proof.Machine
end

section
/-! Every instruction keeps every memory canonical, and so does every step (Machine/Dispatch, Machine/Turn, Machine/Advance and
Machine/Step). -/

namespace Sys2Proof.Machine

section
variable {s : State} (h : s.MemWf)
include h

theorem State.MemWf.exec (i : Instr) : Keeps (exec i s) :=
  match i with
  | .pfx .. => h.execPfx
  | .add .. | .sub .. | .mul .. | .mulh .. | .mulhs .. | .div .. | .divu .. | .rem .. | .remu .. | .and .. | .or ..
  | .xor .. | .shl .. | .shr .. | .sra .. | .min .. | .max .. | .minu .. | .maxu .. | .clz .. | .ctz .. | .popc ..
  | .mov .. | .sext .. | .zext .. | .addi .. | .andi .. | .ori .. | .xori .. | .shli .. | .shri .. | .srai ..
  | .movi .. | .movh .. => h.setOp
  | .bfx .. => h.execBfx
  | .bfi .. => h.execBfi
  | .lea .. => h.execLea
  | .cmpEq .. | .cmpNe .. | .cmpLt .. | .cmpLe .. | .cmpLtu .. | .cmpLeu .. | .pand .. | .por .. | .pxor ..
  | .pnot .. => h.setPredOp
  | .sel .. => h.execSel
  | .ptb .. => h.execPtb
  | .ptbr .. => h.execPtbr
  | .br .. | .brN .. | .ret .. => h.branchOp
  | .brl .. => h.execBrl
  | .tok .. => h.execTok
  | .ldB .. | .ldH .. | .ldW .. | .ldD .. | .lduB .. | .lduH .. | .lduW .. | .ldBS .. | .ldHS .. | .ldWS .. | .ldDS ..
  | .lduBS .. | .lduHS .. | .lduWS .. => h.loadOp
  | .stB .. | .stH .. | .stW .. | .stD .. | .stBS .. | .stHS .. | .stWS .. | .stDS .. => h.storeOp
  | .rmap .. => h.execRmap
  | .rinv .. => h.execRinv
  | .rprobe .. => h.execRprobe
  | .kvFind .. => h.execKvFind
  | .kvMap .. => h.execKvMap
  | .kvAlias .. => h.execKvAlias
  | .kvUnmap .. => h.execKvUnmap
  | .kvRef .. => h.execKvRef
  | .kvPos .. => h.execKvPos
  | .kvApp .. => h.execKvApp
  | .kvCommit .. => h.execKvCommit
  | .kvLen .. => h.execKvLen
  | .cntAdd .. => h.execCntAdd
  | .cntWait .. => h.execCntWait
  | .cntArm .. => h.execCntArm
  | .cntRd .. => h.execCntRd
  | .tagWaitAny .. | .tagWaitAll .. => h.tagWait
  | .tagFfr .. => h.execTagFfr
  | .tagClr .. => h.execTagClr
  | .bar .. => h.execBar
  | .barWait .. => h.execBarWait
  | .fence .. => h.execFence
  | .fenceX .. => h.execFenceX
  | .decl .. => h.execDecl
  | .ntake .. => h.execNtake
  | .nfree .. => h.execNfree
  | .rret .. => h.execRret
  | .rrel .. => h.execRrel
  | .psched .. => h.execPsched
  | .setvl .. => h.execSetvl
  | .setvli .. => h.execSetvli
  | .vcfg .. => h.execVcfg
  | .wset .. => h.execWset
  | .wget .. => h.execWget
  | .vmvSx .. => h.execVmvSx
  | .vmvXs .. => h.execVmvXs
  | .kpop .. => h.execKpop
  | .kffs .. => h.execKffs
  | .vbmClr .. => h.execVbmClr
  | .vbmRd .. => h.execVbmRd
  | .job .. => h.execJob
  | .deal .. => h.execDeal
  | .gbind .. => h.execGbind
  | .grebind .. => h.execGrebind
  | .fire .. => h.execFire
  | .fireWait .. => h.execFireWait
  | .gstat .. => h.execGstat
  | .fmtPush .. => h.execFmtPush
  | .coll .. => h.execColl
  | .cwait .. => h.execCwait
  | .cstat .. => h.execCstat
  | .bcls .. => h.execBcls
  | .bwait .. => h.execBwait
  | .bstat .. => h.execBstat
  | .path .. => h.execPath
  | .trap .. => h.execTrap
  | .sysr .. => h.execSysr
  | .sysw .. => h.execSysw
  | .replay .. => h.execReplay
  | .disc .. => h.execDisc
  | .wfi .. => h.execWfi
  | .brk .. => h.execBrk
  | .ldAcq .. => h.execLdAcq
  | .stRel .. => h.execStRel
  | .amoAdd .. | .amoOr .. | .amoXor .. | .amoMin .. | .amoMax .. | .amoSwap .. | .amoCas .. | .amoLd .. => h.amoOp
  | .vld .. | .vlds .. | .vldx .. | .vldff .. | .vst .. | .vsts .. | .vstx .. => h.vmemIssue
  | .vadd .. | .vsub .. | .vmul .. | .vfma .. | .vfms .. | .vfnma .. | .vmin .. | .vmax .. | .vabs .. | .vneg ..
  | .vdiv .. | .vsqrt .. | .vrsqrt .. | .vrcp .. | .vexp2 .. | .vlog2 .. | .vcvt .. | .vand .. | .vor .. | .vxor ..
  | .vnot .. | .vshl .. | .vshr .. | .vsra .. | .vcmp .. | .vsel .. | .vredsum .. | .vredmax .. | .vredmin ..
  | .vscan .. | .vperm .. | .vslideup .. | .vslidedn .. | .vbcast .. | .vcomp .. | .viota .. | .vrot .. | .vdot ..
  | .vseed .. | .vmv .. | .kand .. | .kor .. | .kxor .. | .knot .. => h.vIssue
  | .tmov .. | .tmovFp .. | .tfill .. | .tcmp .. => h.tileIssue
  | .pull .. => h.execPull
  | .pullF .. => h.execPullF
  | .pub .. => h.execPub
  | .pubMc .. => h.execPubMc
  | .mcode .. | .mload .. | .mloadVq .. | .mmma .. | .mmmaSp .. | .mcomp .. | .outl .. | .azero .. | .aexp ..
  | .anorm .. | .mout .. | .moutRet .. => h.mIssue
  | .attQ .. => h.execAttQ
  | .attQF .. => h.execAttQF
  | .attKv .. => h.execAttKv
  | .attRun .. => h.execAttRun
  | .attOut .. => h.execAttOut
  | .attMerge .. => h.execAttMerge
  | .attPlan .. => h.execAttPlan
  | .rst .. | .rstMc .. | .rld .. | .ramo .. => h.remoteIssue
  | .engineCommandExecute .. => h.execEngineCommandExecute
  | .engineCommandRetire .. => h.execEngineCommandRetire
  | .trapEntry .. => h.execTrapEntry
  | .timer .. => h.execTimer
  | .pullRequestRelease .. => h.execPullRequestRelease
  | .retentionExpiry .. => h.execRetentionExpiry
  | .taskStart .. => h.execTaskStart
  | .graphEntryStart .. => h.execGraphEntryStart
  | .taskFinish .. => h.execTaskFinish
  | .jobComplete .. => h.execJobComplete
  | .rebindDrainComplete .. => h.execRebindDrainComplete
  | .nop => h.execNop
  | .halt => h.execHalt
  | .nwait => h.execNwait
  | .taskEnd => h.execTaskEnd
  | .eret => h.execEret
  | .noticeRetry => h.execNoticeRetry
  | .combineEntryTimeout => h.execCombineEntryTimeout
  | .qntDeferExpiry => h.execQntDeferExpiry
  | .sliceBoundary => h.execSliceBoundary
  | .bucketRefill => h.execBucketRefill
  | .powerThrottle => h.execPowerThrottle
  | .thermalTrip => h.execThermalTrip
  | .reset => h.execReset
  | .faultClear => h.execFaultClear
  | .noticeDelivery .. => h.execNoticeDelivery
  | .noticeWithdrawal .. => h.execNoticeWithdrawal
  | .pullRequestServe .. => h.execPullRequestServe
  | .pullLanding .. => h.execPullLanding
  | .retentionDecrement .. => h.execRetentionDecrement
  | .krytwayPacketReceive .. => h.execKrytwayPacketReceive
  | .ackTimeout .. => h.execAckTimeout
  | .nodeDead .. => h.execNodeDead
  | .summaryRequest .. => h.execSummaryRequest
  | .summaryReply .. => h.execSummaryReply
  | .collReadyReport .. => h.execCollReadyReport
  | .collDeadline .. => h.execCollDeadline
  | .collStartReport .. => h.execCollStartReport
  | .collStep .. => h.execCollStep
  | .collStepReport .. => h.execCollStepReport
  | .collRoundComplete .. => h.execCollRoundComplete
  | .collAbortReport .. => h.execCollAbortReport
  | .collWaitTimeout .. => h.execCollWaitTimeout
  | .coordinatorStartReportExpiry .. => h.execCoordinatorStartReportExpiry
  | .accountingTick .. => h.execAccountingTick
  | .clusterPreempt .. => h.execClusterPreempt
  | .contextSaveComplete .. => h.execContextSaveComplete
  | .contextRestore .. => h.execContextRestore
  | .hbmScrub n => h.execHbmScrub (n := n)
  | .linkLaneLoss .. => h.execLinkLaneLoss
  | .ctxcmdCreate .. => h.execCtxcmdCreate
  | .ctxcmdDestroy .. => h.execCtxcmdDestroy
  | .ctxcmdInvalidOp .. => h.execCtxcmdInvalidOp
  | .launch .. => h.execLaunch
  | .cancel .. => h.execCancel
  | .plimitWrite .. => h.execPlimitWrite
  | .hostRegisterWrite .. => h.execHostRegisterWrite
  | .eccError .. => h.execEccError

/-! ### Turns -/

theorem State.MemWf.happening {e : Happening} : Keeps (e.run s) := by
  cases e with
  | tick => exact h.execAccountingTick
  | refill => exact h.execBucketRefill
  | slice => exact h.execSliceBoundary
  | timer r => exact h.execTimer
  | qnt => exact h.execQntDeferExpiry
  | expiry slot => exact h.execRetentionExpiry
  | combine => exact h.execCombineEntryTimeout
  | deadline ctx slot => exact h.execCollDeadline
  | waitOut ctx slot => exact h.execCollWaitTimeout
  | startExpiry id => exact h.execCoordinatorStartReportExpiry
  | ack node => exact h.execAckTimeout
  | dead node => exact h.execNodeDead
  | land take => exact h.execPullLanding
  | step ctx slot => exact h.execCollStep (ctx := ctx) (slot := slot) (ans := .faulted)
  | finish ctx slot => exact h.execCollRoundComplete
  | preempt cluster => exact h.execClusterPreempt
  | save cluster => exact h.execContextSaveComplete
  | restore cluster => exact h.execContextRestore

theorem State.MemWf.atCore {n e} : Keeps (atCore n e s) := by
  have he := (h.focus (n := n)).happening (e := e)
  unfold Machine.atCore
  split
  · next t ht => exact Keeps.next (State.MemWf.focus (he t ht))
  · exact he

theorem State.MemWf.landed : s.landed.MemWf := h.setMe (by rfl)
theorem State.MemWf.endMe : s.endMe.MemWf := h.setMe (by rfl)

theorem State.MemWf.drainNth {r i} : (s.drainNth r i).MemWf := by
  unfold State.drainNth
  extract_lets c
  split
  · exact .ite h (State.MemWf.perform (h.setComp (by rfl)))
  · exact h

theorem State.MemWf.outsideWrite {loc bs} : (s.outsideWrite loc bs).MemWf := h.poke
theorem State.MemWf.took {core key} : (s.took core key).MemWf := h.congr (by rfl)

theorem State.MemWf.runInstr {i} : Keeps (runInstr i s) := by
  unfold Machine.runInstr
  extract_lets u
  have hu : u.MemWf := h.beforeAccess
  clear_value u
  refine Keeps.ite (h.settle Yields.error) ?_
  have he := hu.exec i
  split
  · next t ht => exact Keeps.next (State.MemWf.noteOrder (he t ht))
  · exact he

theorem State.MemWf.runUnit : Keeps (runUnit s) := by
  unfold Machine.runUnit
  split
  · exact h.settle Yields.error
  next d _ =>
  have hd := h.landed.runInstr (i := d.instr)
  refine Keeps.ite ?_ hd
  split
  · next t ht =>
    have ht' : t.MemWf := hd t ht
    refine Keeps.ite ?_ (Keeps.next ht')
    split
    · exact ht'.settle Yields.error
    · exact ht'.runInstr
  · exact hd

theorem State.MemWf.compTurn {r} : Keeps (compTurn r s) := by
  unfold Machine.compTurn
  extract_lets u
  have hu : u.MemWf := h.congr (by rfl)
  exact Keeps.ite (Keeps.next hu) (Keeps.ite (Keeps.next hu.endMe) (Keeps.ite (hu.exec _) hu.runUnit))

theorem State.MemWf.doPick {p} : Keeps (doPick p s) := by
  cases p with
  | comp r => exact h.compTurn
  | drain r i => exact Keeps.next h.drainNth
  | early r va => exact Keeps.next (.ite h.readEarly h)
  | settle i => exact Keeps.next h.settleLag
  | tear q late bits => exact Keeps.next (.ite h.engineTorn h)
  | element q i => exact Keeps.next (.ite h.engineElement h)
  | event i => exact Keeps.ite (h.exec i) (Keeps.next h)
  | focus n => exact Keeps.next h.focus
  | outside loc bs => exact Keeps.next h.outsideWrite

theorem State.MemWf.clock : s.clock.MemWf := h.congr (by rfl)

end

theorem Keeps.clocked {o : Host.Outcome State Fault Refusal} (h : Keeps o) : Keeps (clocked o) := by
  unfold Machine.clocked
  split
  · next t => exact Keeps.next (h t rfl).fireAll.clock
  · exact h

theorem State.MemWf.step {s : State} (h : s.MemWf) : Keeps (step s) := by
  unfold Machine.step
  split
  · rintro _ ⟨⟩
  split
  · exact h.atCore.clocked
  split
  · next rest _ => exact (State.MemWf.doPick (s := { s with agenda := rest }) (h.congr (by rfl))).clocked
  split
  · exact h.took.focus.doPick.clocked
  · exact h.took.atCore.clocked
  · exact Keeps.next h.clock

/-- Settles O60: each operation that writes a memory writes it byte by byte in its canonical form or puts
an empty one in its place, and each that moves a core among the package, the saves and the state areas moves it
whole. -/
theorem stepKeepsMemories : Obligations.StepKeepsMemories := fun _ t h ht => h.step t ht

end Sys2Proof.Machine
end
